-- ==== Sys2Proof/Word.lean ====
section
/-!
DEFINITION. The word types of the Mebsol 3216: bytes, station numbers, generations, the fields of records and frames.
-/

namespace Sys2Proof

/-- One byte, of a record in local memory or of a lane frame. -/
abbrev Byte := BitVec 8

/-- A 32-bit address, key or mask. -/
abbrev Word := BitVec 32

/-- A station number, 0 to 31 (R2, straps SN4-SN0). -/
abbrev Station := BitVec 5

/-- A slot generation, 0 to 15, which advances modulo 16 (R1). -/
abbrev Gen := BitVec 4

/-- A slot of the Exchange Table (R1). -/
abbrev SlotId := Fin 16

/-- An entry of the Offer List (R47). -/
abbrev OfferId := Fin 32

/-- An outbound buffer (R79). -/
abbrev BufId := Fin 4

/-- A staging cell (R86). -/
abbrev CellId := Fin 64

/-- A 6-bit arbitration bid: class bit, then station number (R118). -/
abbrev Bid := BitVec 6

end Sys2Proof
end

