-- ==== Sys2Proof/Config.lean ====
section
/-!
DEFINITION. What the spec fixes for the part: the capacities of its structures and the start block addresses. The spec
leaves no result value open, so there is no free value here.
-/

namespace Sys2Proof.Config

/-- Entries of the control queue (R105). -/
@[simp] abbrev ctrlCap : Nat := 16

/-- Frames of the inbox (R116). -/
@[simp] abbrev inboxCap : Nat := 8

/-- Reports of the report queue (R152). -/
@[simp] abbrev reportCap : Nat := 8

/-- Entries of the Pending List (R58). -/
@[simp] abbrev deferredCap : Nat := 8

/-- Entries of the acknowledgement list (R147). -/
@[simp] abbrev ackCap : Nat := 16

/-- Marks of one walk's mark queue (R71). -/
@[simp] abbrev markCap : Nat := 8

/-- Fragment entries one walk may visit (R73). -/
@[simp] abbrev visitCap : Nat := 4096

/-- BUSY outcomes that end a frame (R112). -/
@[simp] abbrev busyCap : Nat := 64

/-- The largest length, capacity or size (R139). -/
@[simp] abbrev maxSize : Nat := 16777215

/-- The highest byte address of local memory (R162). -/
@[simp] abbrev topAddress : Nat := 0xFFFFFFFF

/-- The start block address the straps SB1-SB0 select (00_scope, numeric conventions). -/
def startBlockOf (sb : BitVec 2) : Word :=
  match sb.toNat with
  | 0 => 0x00000400#32
  | 1 => 0x00100000#32
  | 2 => 0x40000000#32
  | _ => 0x7FFFF000#32

/-- The signature of a start record (R167). -/
def signature : Word := 0x4D533216#32

end Sys2Proof.Config
end

