-- ==== Sys2Proof/Syntax.lean ====
section
/-!
DEFINITION. The commands of the block: one constructor for each row of spec/opcode_table.json, in the table's order.
A row has no operand in the table; the operands here are what comes from outside the station with the event
(levels of pins, bytes on the lane or on the local bus) or which slot a slot's own event concerns.
-/

namespace Sys2Proof

/-- The steps of the Mebsol 3216 (spec/opcode_table.json). -/
inductive Instr where
  /-- RESET_ASSERT: RESET driven low (R165, R166). -/
  | resetAssert
  /-- RESET_RELEASE: RESET released, with the levels of SN4-SN0 and SB1-SB0 (R166). -/
  | resetRelease (sn : Station) (sb : BitVec 2)
  /-- POST: a rising edge on POST (R136). -/
  | post
  /-- LANE_CLEAR: one assertion of LCL (R131, R132). -/
  | laneClear
  /-- ARBITRATION_WINDOW: the bids the other stations drive, and whether one of them asserts WAIT (R118 to R120). -/
  | arbitrationWindow (bids : List Bid) (wait : Bool)
  /-- TENURE: the bytes seen on LDAT7-LDAT0 while LSTB is asserted (R121 to R123). -/
  | tenure (bytes : List Byte)
  /-- ACKNOWLEDGE_SLOT: the levels of ACKT and ACKB at its end (R124, R125). -/
  | acknowledgeSlot (ackt ackb : Bool)
  /-- OPEN taken from the inbox head (R52). -/
  | openFrame
  /-- ACCEPT taken from the inbox head (R35). -/
  | acceptFrame
  /-- RECALL taken from the inbox head (R35). -/
  | recallFrame
  /-- DEFER(HELD) taken from the inbox head (R30). -/
  | deferHeld
  /-- DEFER(FULL) taken from the inbox head (R33). -/
  | deferFull
  /-- CREDIT taken from the inbox head (R91). -/
  | creditFrame
  /-- HOLD taken from the inbox head (R98). -/
  | holdFrame
  /-- DONE taken from the inbox head (R101). -/
  | doneFrame
  /-- ABORT taken from the inbox head (R41). -/
  | abortFrame
  /-- ANSWER_EXPIRY at a slot (R29). -/
  | answerExpiry (i : SlotId)
  /-- BACKOFF_EXPIRY at a slot (R34). -/
  | backoffExpiry (i : SlotId)
  /-- PARK_EXPIRY at a slot (R32). -/
  | parkExpiry (i : SlotId)
  /-- QUIET_EXPIRY at a slot (R10). -/
  | quietExpiry (i : SlotId)
  /-- SEND at the ring head (R25, R140, R141). -/
  | sendOrder
  /-- FETCH at the ring head (R26, R140, R141). -/
  | fetchOrder
  /-- OFFER at the ring head (R142). -/
  | offerOrder
  /-- WITHDRAW at the ring head (R143). -/
  | withdrawOrder
  /-- CANCEL at the ring head (R145). -/
  | cancelOrder
  /-- CONTINUE at the ring head (R146). -/
  | continueOrder
  /-- DETACH at the ring head (R148). -/
  | detachOrder
  /-- ATTACH at the ring head (R148, R172). -/
  | attachOrder
  /-- CLR at the ring head (R149). -/
  | clrOrder
  /-- RING_WORDS_READ_DONE: the 8 bytes read (R136). -/
  | ringWordsReadDone (bytes : List Byte)
  /-- ORDER_FETCH (R138). -/
  | orderFetch
  /-- ORDER_FETCH_DONE: the 32 bytes read (R138). -/
  | orderFetchDone (bytes : List Byte)
  /-- INDEX_WRITE_DONE (R138). -/
  | indexWriteDone
  /-- START_RECORD_READ_DONE: the 32 bytes read (R167). -/
  | startRecordReadDone (bytes : List Byte)
  /-- ENTRY_READ_DONE: the 16 bytes read (R74). -/
  | entryReadDone (bytes : List Byte)
  /-- DATA_READ_DONE: the 1 to 256 bytes read (R82). -/
  | dataReadDone (bytes : List Byte)
  /-- DRAIN_WRITE_DONE (R96). -/
  | drainWriteDone
  /-- REPORT_ENTRY_WRITE_DONE (R153). -/
  | reportEntryWriteDone
  /-- PRODUCER_WORD_WRITE_DONE (R153). -/
  | producerWordWriteDone
  /-- STATUS_WORD_WRITE_DONE (R158). -/
  | statusWordWriteDone
  /-- BUS_ERROR: the transfer in progress ends with LERR (R164). -/
  | busError
  /-- LMP_CHOOSE_TRANSFER (R161). -/
  | lmpChooseTransfer
  /-- FILL_START (R80). -/
  | fillStart
  /-- CREDIT_GRANT (R88). -/
  | creditGrant
  /-- DRAIN_CHOOSE (R95). -/
  | drainChoose
  /-- TRANSMIT_CHOICE (R109). -/
  | transmitChoice
  /-- CONTROL_FRAME_PLACED (R106). -/
  | controlFramePlaced
  /-- RESCAN (R62). -/
  | rescan
  /-- SLOT_RELEASE of a slot (R22). -/
  | slotRelease (i : SlotId)
  /-- NOTE_MARK at a slot (R76). -/
  | noteMark (i : SlotId)
  /-- PAUSE_MARK at a slot (R77). -/
  | pauseMark (i : SlotId)
  /-- DUE_ACK_QUEUED (R147). -/
  | dueAckQueued
  /-- REPORT_WRITE_START (R153, R158). -/
  | reportWriteStart
  /-- DETACH_COMPLETE (R171). -/
  | detachComplete
  /-- PRESENCE_END (R174). -/
  | presenceEnd
  /-- TIMER_TICK: one 1 ms tick (R9, R166). -/
  | timerTick
  deriving DecidableEq, Repr

end Sys2Proof
end

