-- ==== Sys2Proof/WellFormed.lean ====
section
/-!
DEFINITION. Which commands are well formed: the operands have the sizes the spec gives the transfers and the lane.
-/

namespace Sys2Proof

/-- A lane has at most 32 stations, so at most 31 others bid (00_scope, the part). -/
def wfBids (bids : List Bid) : Bool := decide (bids.length ≤ 31)

/-- The ring words read is 8 bytes (R160). -/
def wfRingWords (bytes : List Byte) : Bool := decide (bytes.length = 8)

/-- An order record is 32 bytes (R160). -/
def wfOrderRecord (bytes : List Byte) : Bool := decide (bytes.length = 32)

/-- The start record read is 32 bytes (12, start block). -/
def wfStartRecord (bytes : List Byte) : Bool := decide (bytes.length = 32)

/-- A fragment entry is 16 bytes (R69). -/
def wfEntry (bytes : List Byte) : Bool := decide (bytes.length = 16)

/-- A data read moves 1 to 256 bytes (R160). -/
def wfDataRead (bytes : List Byte) : Bool := decide (1 ≤ bytes.length ∧ bytes.length ≤ 256)

/-- Well-formed commands. A command without operands, or whose operands' types already bound them, is well formed. -/
def Instr.wf : Instr → Bool
  | .arbitrationWindow bids _ => wfBids bids
  | .ringWordsReadDone b => wfRingWords b
  | .orderFetchDone b => wfOrderRecord b
  | .startRecordReadDone b => wfStartRecord b
  | .entryReadDone b => wfEntry b
  | .dataReadDone b => wfDataRead b
  | .resetAssert | .resetRelease _ _ | .post | .laneClear | .tenure _ | .acknowledgeSlot _ _ => true
  | .openFrame | .acceptFrame | .recallFrame | .deferHeld | .deferFull | .creditFrame | .holdFrame => true
  | .doneFrame | .abortFrame | .answerExpiry _ | .backoffExpiry _ | .parkExpiry _ | .quietExpiry _ => true
  | .sendOrder | .fetchOrder | .offerOrder | .withdrawOrder | .cancelOrder | .continueOrder => true
  | .detachOrder | .attachOrder | .clrOrder | .orderFetch | .indexWriteDone | .drainWriteDone => true
  | .reportEntryWriteDone | .producerWordWriteDone | .statusWordWriteDone | .busError => true
  | .lmpChooseTransfer | .fillStart | .creditGrant | .drainChoose | .transmitChoice => true
  | .controlFramePlaced | .rescan | .slotRelease _ | .noteMark _ | .pauseMark _ | .dueAckQueued => true
  | .reportWriteStart | .detachComplete | .presenceEnd | .timerTick => true

end Sys2Proof
end

