-- ==== Sys2Proof/Decode.lean ====
section
/-!
DEFINITION. Decoding of command words. spec/opcode_table.json gives no row any bits: a step of this block is an
event, not a word. So no word spells a command.
-/

namespace Sys2Proof

/-- The command a word spells by the table's bits: none, since the table gives no row bits (log 4). -/
def decodeTableWord (nbits w : Nat) : Option Instr :=
  match nbits, w with
  | _, _ => none

end Sys2Proof
end

