-- ==== Sys2Proof/Machine/State.lean ====
section
/-!
DEFINITION. Everything the spec gives the station, block by block (chapters 1 to 11), as plain data, and its value at
hardware reset. Each block is one structure, as the manual says that each piece of state belongs to one block.
-/

namespace Sys2Proof.Machine

/-- Why a step stops with a fault: never. Every command of the table has an effect the spec gives (NOTES, Stops). -/
inductive Fault where
  /-- Raised by no meaning; safe. It only keeps the type inhabited. -/
  | neverRaised
  deriving DecidableEq, Repr

/-- Why a step is refused: only a command with no meaning yet. -/
inductive Refusal where
  /-- Raised by exec's arm of a command that has no meaning yet; safe. No arm raises it now. -/
  | notModelled (mnemonic : String)
  deriving DecidableEq, Repr

/-! ### Names and codes -/

/-- Reasons, shared by reports and ABORT frames (12.3). -/
inductive Reason where
  | cancelled | noAnswer | refused | parkExpired | quiet | peerSilent | peerCongested | peerAbort | unknownAtPeer
  | tooLong | listShort | listLoop | listBad | localError | protocol | overrun | laneCleared | detaching | offline
  | badOrder | badPeer | noRoom | noSuch | stationFault | unknown
  deriving DecidableEq, Repr

/-- Direction of a consignment (R2). -/
inductive Direction where
  | push | pull
  deriving DecidableEq, Repr

/-- Role of the station in an exchange (R2). -/
inductive Role where
  | originator | responder
  deriving DecidableEq, Repr

/-- Which side sends the DATA frames (R2). -/
inductive Side where
  | sender | receiver
  deriving DecidableEq, Repr

/-- Exchange states (1.4); FREE is a slot without a record. -/
inductive ExState where
  | opening | backoff | parked | sending | receiving | confirming | finishing | retiring
  deriving DecidableEq, Repr

/-- Station states (R117, R158). -/
inductive StationState where
  | starting | fault | offline | probing | online | detaching | conflict
  deriving DecidableEq, Repr

/-- Fault causes (R158, R173). -/
inductive FaultCause where
  | none | startRead | startInvalid | orderRead | reportWrite | statusWrite
  deriving DecidableEq, Repr

/-- Causes of STATION reports (R150). -/
inductive StationCause where
  | numberFree | numberTaken | detached | laneCleared | orderRead
  deriving DecidableEq, Repr

/-- Reasons of a DEFER. -/
inductive DeferReason where
  | held | full
  deriving DecidableEq, Repr

/-- The nine order kinds (chapter 8). -/
inductive OrderKind where
  | send | fetch | offer | withdraw | cancel | continue | detach | attach | clr
  deriving DecidableEq, Repr

/-! ### Frames (12.2) -/

/-- A tag: generation and the index of the originator's slot (R4). -/
structure Tag where
  gen : Gen
  idx : BitVec 4
  deriving DecidableEq, Repr

/-- The kind of a frame with the fields of its kind (12.2). -/
inductive FrameBody where
  | openReq (key : Word) (dir : Direction) (size : BitVec 24)
  | accept (field : BitVec 24)
  | defer (reason : DeferReason)
  | recall (field : BitVec 24)
  | credit (limit : BitVec 24)
  | hold
  | data (offset : BitVec 24) (count : BitVec 16) (payload : List Byte)
  | done (count : BitVec 24)
  | abort (reason : Reason)
  | probe (mark : BitVec 16)
  deriving DecidableEq, Repr

/-- A lane frame without its CRC (12.2). -/
structure Frame where
  dst : Station
  src : Station
  fromOrig : Bool
  tag : Tag
  body : FrameBody
  deriving DecidableEq, Repr

/-! ### Station Control (chapter 11) -/

/-- The start parameters (R167). -/
structure StartParams where
  orderBase : Word
  orderSize : BitVec 16
  reportBase : Word
  reportSize : BitVec 16
  originLimit : Nat
  linkRetry : Nat
  openRetry : Nat
  window : Nat
  quiet : Nat
  park : Nat
  backoff : Nat
  divisor : Nat
  deriving DecidableEq, Repr

/-- One ABORT(STATION_FAULT) still to be placed (R174). -/
structure FaultAbort where
  dst : Station
  tag : Tag
  fromOrig : Bool
  deriving DecidableEq, Repr

/-- Station Control (R166). -/
structure StationControl where
  /-- RESET is held low -/
  inReset : Bool
  stationNumber : Station
  startBlock : Word
  station : StationState
  faultCause : FaultCause
  params : Option StartParams
  /-- a probe is running (R168) -/
  probe : Bool
  faultAborts : List FaultAbort
  /-- in FAULT: Station Control has not yet ended the station's presence (R117, R174) -/
  present : Bool
  /-- 1 ms ticks since the release of RESET, modulo 65,536 (R121) -/
  tickCount : BitVec 16
  /-- level of FAULT -/
  faultPin : Bool
  deriving DecidableEq, Repr

/-! ### Exchange Engine (chapters 1 to 4) -/

/-- Kinds of the slot timer (R3). -/
inductive TimerKind where
  | none | answer | backoff | park | quiet
  deriving DecidableEq, Repr

/-- A timer runs, is stopped, or has reached 0 with its expiry not yet taken (R9, R14; log 7). -/
inductive TimerRun where
  | stopped | running | expired
  deriving DecidableEq, Repr

/-- The slot timer (R3, R9). -/
structure Timer where
  kind : TimerKind
  remaining : Nat
  run : TimerRun
  deriving DecidableEq, Repr

/-- A cached DATA entry of a fragment list (R69). A LINK is passed as it is read, so it is never cached. -/
structure Entry where
  addr : Word
  len : Nat
  note : Bool
  pause : Bool
  fin : Bool
  deriving DecidableEq, Repr

/-- A mark of the mark queue (R75). -/
structure Mark where
  base : Word
  index : Nat
  point : Nat
  note : Bool
  pause : Bool
  deriving DecidableEq, Repr

/-- The walk of an exchange (R71). -/
structure Walk where
  base : Word
  index : Nat
  inEntry : Nat
  cached : Option Entry
  offset : Nat
  visited : Nat
  marks : List Mark
  gate : Option Nat
  deriving DecidableEq, Repr

/-- How an exchange ended: completed, or a reason with the peer reason where there is one (R18). -/
inductive Result where
  | completed
  | failed (reason : Reason) (peer : Option Reason)
  deriving DecidableEq, Repr

/-- The state of a RETIRING slot's ABORT (R3, R20). -/
inductive AbortState where
  | notNeeded | owed | queued | settled
  deriving DecidableEq, Repr

/-- The outcome recorded at entry to RETIRING (R3, R18). -/
structure ExOutcome where
  result : Result
  abort : AbortState
  /-- the reason the owed ABORT carries -/
  abortReason : Reason
  deriving DecidableEq, Repr

/-- The record of one exchange (R2, R3). -/
structure Exchange where
  state : ExState
  role : Role
  dir : Direction
  peer : Station
  tag : Tag
  key : Word
  length : Nat
  orderTag : BitVec 16
  offer : Option OfferId
  walk : Walk
  prepared : Nat
  acknowledged : Nat
  creditReceived : Nat
  received : Nat
  drained : Nat
  granted : Nat
  openAttempts : Nat
  backoffs : Nat
  localPause : Bool
  peerHold : Bool
  timer : Timer
  outcome : Option ExOutcome
  transfers : Nat
  /-- an OPEN of the slot has been handed to the transmit slot at some time (R42) -/
  openHanded : Bool
  deriving DecidableEq, Repr

/-- A slot: its generation, and its record unless it is FREE (R1). -/
structure Slot where
  gen : Gen
  ex : Option Exchange
  deriving DecidableEq, Repr

/-- Types of an offer (R47). -/
inductive OfferType where
  | receive | give
  deriving DecidableEq, Repr

/-- States of an offer, with the bound slot (R47, R49). -/
inductive OfferState where
  | openState
  | bound (slot : SlotId)
  | withdrawing (slot : SlotId)
  deriving DecidableEq, Repr

/-- An offer (R47). The peer match ANY is none. -/
structure Offer where
  state : OfferState
  type : OfferType
  peer : Option Station
  key : Word
  mask : Word
  standing : Bool
  base : Word
  size : Nat
  orderTag : BitVec 16
  deriving DecidableEq, Repr

/-- An entry of the Pending List (R58). -/
structure Deferred where
  peer : Station
  tag : Tag
  dir : Direction
  key : Word
  size : Nat
  deriving DecidableEq, Repr

/-- The Exchange Engine: Exchange Table, Offer List, Pending List and the rescan. -/
structure ExchangeEngine where
  slots : Vector Slot 16
  /-- live originator slots in the order of their allocation (R144) -/
  originOrder : List SlotId
  offers : Vector (Option Offer) 32
  /-- posting order, oldest first (R47) -/
  postOrder : List OfferId
  /-- the Pending List, oldest first (R58) -/
  deferred : List Deferred
  rescanDue : Bool
  /-- the due rescan waits for a control queue entry, if a slot is FREE: the queue has been full while both held (R61,
  R106; log 14) -/
  rescanWaits : Bool
  /-- the entry at which a rescan stands, waiting for a report queue entry (R64) -/
  rescanAt : Option Nat
  deriving DecidableEq, Repr

/-! ### Frame Builder (4.4) -/

/-- States of an outbound buffer other than FREE (R79). -/
inductive BufState where
  | filling | ready | sending | discarding
  deriving DecidableEq, Repr

/-- An outbound buffer that is not FREE (R79, R81). -/
structure OutBuffer where
  state : BufState
  slot : SlotId
  gen : Gen
  offset : Nat
  ceiling : Nat
  payload : List Byte
  deriving DecidableEq, Repr

/-- The Frame Builder (R79, R80). -/
structure FrameBuilder where
  buffers : Vector (Option OutBuffer) 4
  lastFill : SlotId
  deriving DecidableEq, Repr

/-! ### Staging Buffer (chapter 5) -/

/-- States of a staging cell other than FREE (R86). -/
inductive CellState where
  | reserved | filled | reclaiming
  deriving DecidableEq, Repr

/-- A staging cell that is not FREE: owner, cell index and the bytes present (R86). -/
structure Cell where
  state : CellState
  slot : SlotId
  gen : Gen
  index : Nat
  bytes : List Byte
  deriving DecidableEq, Repr

/-- The drain's choice (R95): none, an exchange whose walk reads an entry first, or one whose write is placed. -/
inductive DrainState where
  | idle
  | choosing (slot : SlotId) (gen : Gen)
  | writing (slot : SlotId) (gen : Gen) (cell : CellId)
  deriving DecidableEq, Repr

/-- The Staging Buffer (R86, R88, R95). -/
structure StagingBuffer where
  cells : Vector (Option Cell) 64
  lastGrant : SlotId
  lastDrain : SlotId
  drain : DrainState
  deriving DecidableEq, Repr

/-! ### Transmit Queue (chapter 6) -/

/-- Owner of a control frame (R105). -/
inductive Owner where
  | slot (i : SlotId) (gen : Gen)
  | stationControl
  | nobody
  deriving DecidableEq, Repr

/-- An entry of the control queue (R105). Its age is its place in the list. -/
structure CtrlEntry where
  frame : Frame
  owner : Owner
  busy : Nat
  inSlot : Bool
  deriving DecidableEq, Repr

/-- What waits outside the control queue for an entry (R106). -/
inductive CtrlClaim where
  | frame (f : Frame) (owner : Owner)
  /-- a slot's CREDIT, whose limit is fixed when it is placed (R90) -/
  | credit (i : SlotId)
  /-- the ABORT(DETACHING) of a pending entry, which leaves the list when it is placed (R60) -/
  | pendingAbort (peer : Station) (tag : Tag)
  | inboxHead
  | rescan
  deriving DecidableEq, Repr

/-- The Transmit Queue (R105, R106, R109, R110). -/
structure TransmitQueue where
  ctrl : List CtrlEntry
  /-- RETIRING slots whose ABORT is OWED, in the order they became owed -/
  owed : List SlotId
  line : List CtrlClaim
  lastTx : SlotId
  takenBack : Option BufId
  deriving DecidableEq, Repr

/-! ### Lane Port (chapter 7) -/

/-- Where the frame in the transmit slot came from. -/
inductive TxSource where
  | ctrl
  | data (buf : BufId)
  deriving DecidableEq, Repr

/-- The frame in the transmit slot (R116). -/
structure TxFrame where
  src : TxSource
  frame : Frame
  attempts : Nat
  begun : Bool
  deriving DecidableEq, Repr

/-- Peer Table states (R128). -/
inductive PeerState where
  | unknown | heard | silent
  deriving DecidableEq, Repr

/-- Answers in the acknowledge slot (R123). -/
inductive Ack where
  | taken | busy
  deriving DecidableEq, Repr

/-- What a complete frame addressed to the station is, for its dispatch (R125). -/
inductive Received where
  | probe
  | malformed
  | frame (f : Frame)
  deriving DecidableEq, Repr

/-- The lane's sequence as this station takes part in it (R118 to R125). -/
inductive LanePhase where
  /-- no tenure and no acknowledge slot: a window may open -/
  | idle
  /-- this station has won the window; its tenure is next -/
  | won
  /-- another station has won; its tenure is next -/
  | other
  /-- this station's tenure is over; its acknowledge slot is next -/
  | sent (collided : Bool)
  /-- another station's tenure is over and this station drives nothing in the acknowledge slot -/
  | unanswered
  /-- another station's tenure is over and this station drives an answer -/
  | answered (ack : Ack) (what : Received)
  deriving DecidableEq, Repr

/-- What the station drives on the lane: its bid and WAIT in the last window it took part in, the bytes of its last
tenure, its answer, LCL (log 10). -/
structure LanePins where
  arb : Option Bid
  wait : Bool
  data : List Byte
  ack : Option Ack
  lcl : Bool
  deriving DecidableEq, Repr

/-- The Lane Port (R116). -/
structure LanePort where
  tx : Option TxFrame
  spent : Bool
  inbox : List Frame
  peers : Vector PeerState 32
  phase : LanePhase
  pins : LanePins
  deriving DecidableEq, Repr

/-! ### Order Unit (chapter 8) -/

/-- An order record as read (12.1). -/
structure OrderRec where
  kind : BitVec 8
  type : BitVec 8
  tag : BitVec 16
  peer : BitVec 8
  standing : BitVec 8
  target : BitVec 16
  key : Word
  size : Word
  base : Word
  mask : Word
  deriving DecidableEq, Repr

/-- The ring words read (R135). Its read is placed when the Order Unit has no other transfer placed (R160; log 31). -/
inductive RingRead where
  | idle | inProgress | furtherDue
  deriving DecidableEq, Repr

/-- What a head record waits for (R138): nothing yet (its examination is due), a slot release (held, R140), a report
queue entry, or an acknowledgement list entry. -/
inductive HeadWait where
  | examine | held | report | ack
  deriving DecidableEq, Repr

/-- The head (R135). -/
inductive Head where
  | absent
  | fetching
  | record (o : OrderRec) (w : HeadWait)
  deriving DecidableEq, Repr

/-- The event an acknowledgement list entry awaits (R147). -/
inductive Await where
  | release (slot : SlotId) (gen : Gen)
  /-- the lane clear event of this station's pulse, not yet taken -/
  | clearPulse
  /-- the STATION(LANE_CLEARED) report of the numbered lane clear event -/
  | clearReport (n : Nat)
  | offlineReport
  deriving DecidableEq, Repr

/-- An entry of the acknowledgement list (R147). -/
structure AckEntry where
  tag : BitVec 16
  kind : OrderKind
  await : Await
  due : Bool
  deriving DecidableEq, Repr

/-- The Order Unit (R135, R147, R164). -/
structure OrderUnit where
  producer : BitVec 16
  taken : BitVec 16
  ringRead : RingRead
  head : Head
  /-- the index write is placed, or is to be placed when the ring words read in progress has ended (R138, R160; log 31) -/
  indexWrite : Bool
  acks : List AckEntry
  orderFault : Bool
  /-- lane clear events taken (the model's own count; log 9) -/
  clears : Nat
  deriving DecidableEq, Repr

/-! ### Report Unit (chapter 9) -/

/-- Causes of a CLOSED report (R150). -/
inductive CloseCause where
  | used | withdrawn
  deriving DecidableEq, Repr

/-- A report (R150). -/
inductive Report where
  | finished (tag : BitVec 16) (bytes : Nat)
  | failed (tag : BitVec 16) (reason : Reason) (peer : Option Reason) (bytes : Nat)
  | closed (tag : BitVec 16) (cause : CloseCause)
  | ack (tag : BitVec 16) (kind : OrderKind) (done : Bool)
  | served (tag : BitVec 16) (peer : Station) (key : Word) (bytes : Nat) (result : Result)
  | note (tag : BitVec 16) (base : Word) (index : Nat)
  | paused (tag : BitVec 16) (bytes : Nat)
  | station (state : StationState) (cause : StationCause)
  deriving DecidableEq, Repr

/-- A STATION report that waits for a report queue entry; for a lane clear, the number of its event (R133, R152). -/
structure StationWait where
  state : StationState
  cause : StationCause
  event : Nat
  deriving DecidableEq, Repr

/-- The claimants of the report queue other than STATION reports (R152). -/
inductive ReportClaim where
  | inboxHead
  | mark (i : SlotId)
  | release (i : SlotId)
  | rescan
  | head
  /-- one claim for each due ACK that waits; the first of them is that of the first due ACK in list order (R147) -/
  | acks
  deriving DecidableEq, Repr

/-- The writer (R153). -/
inductive Writer where
  | idle | entry | index
  deriving DecidableEq, Repr

/-- The status write (R153, R158). -/
inductive StatusWrite where
  | none
  | due
  | inProgress (further : Bool)
  deriving DecidableEq, Repr

/-- The Report Unit (R152, R153, R155). -/
structure ReportUnit where
  queue : List Report
  stationWaiting : List StationWait
  line : List ReportClaim
  producer : BitVec 16
  release : BitVec 16
  writer : Writer
  status : StatusWrite
  reportPin : Bool
  deriving DecidableEq, Repr

/-! ### Local Memory Port (chapter 10) -/

/-- What a request is for; the client follows from it (R160). -/
inductive Purpose where
  | reportEntry
  | producerWord
  | statusWord
  | drainWrite (slot : SlotId) (gen : Gen) (cell : CellId)
  | entryRead (slot : SlotId) (gen : Gen)
  | dataRead (slot : SlotId) (gen : Gen) (buf : BufId)
  | ringWords
  | orderFetch
  | indexWrite
  | startRecord
  deriving DecidableEq, Repr

/-- A request of the Local Memory Port (R159). The address is a Nat so that one past the top is seen (R162). -/
structure Request where
  purpose : Purpose
  addr : Nat
  count : Nat
  /-- the bytes of a write; empty for a read -/
  data : List Byte
  deriving DecidableEq, Repr

/-- The progress of a transfer through the bus (R159, R162): whether the grant is held, and the beat reached. -/
structure BusProgress where
  granted : Bool
  beat : Nat
  deriving DecidableEq, Repr

/-- The Local Memory Port (R159). The progress is that of the transfer in progress, and at its start while there is
none. -/
structure MemoryPort where
  waiting : List Request
  transfer : Option Request
  progress : BusProgress
  deriving DecidableEq, Repr

/-! ### The station -/

/-- The whole station, and the queue of commands that wait for it. -/
structure State where
  sct : StationControl
  xen : ExchangeEngine
  fbd : FrameBuilder
  stg : StagingBuffer
  txq : TransmitQueue
  lpt : LanePort
  ord : OrderUnit
  rpt : ReportUnit
  lmp : MemoryPort
  pending : List Instr
  deriving DecidableEq, Repr

/-- A transfer that has just been chosen: LREQ is asserted and LGNT is awaited (R162). -/
def BusProgress.start : BusProgress := ⟨false, 0⟩

/-- Lane pins with nothing driven (R166). -/
def LanePins.released : LanePins := ⟨none, false, [], none, false⟩

/-- A slot after hardware reset (R24). -/
def Slot.reset : Slot := ⟨0, none⟩

/-- The station while hardware reset is held: every block at the value its own chapter gives. The station number and
the start block address are sampled at RESET_RELEASE; until then they hold the model's values (log 3). -/
def State.reset : State where
  sct :=
    { inReset := true, stationNumber := 0, startBlock := 0x00000400#32, station := .starting, faultCause := .none,
      params := none, probe := false, faultAborts := [], present := false, tickCount := 0, faultPin := false }
  xen :=
    { slots := Vector.replicate 16 Slot.reset, originOrder := [], offers := Vector.replicate 32 none, postOrder := [],
      deferred := [], rescanDue := false, rescanWaits := false, rescanAt := none }
  fbd := { buffers := Vector.replicate 4 none, lastFill := 15 }
  stg := { cells := Vector.replicate 64 none, lastGrant := 15, lastDrain := 15, drain := .idle }
  txq := { ctrl := [], owed := [], line := [], lastTx := 15, takenBack := none }
  lpt :=
    { tx := none, spent := false, inbox := [], peers := Vector.replicate 32 .unknown, phase := .idle,
      pins := LanePins.released }
  ord :=
    { producer := 0, taken := 0, ringRead := .idle, head := .absent, indexWrite := false, acks := [],
      orderFault := false, clears := 0 }
  rpt :=
    { queue := [], stationWaiting := [], line := [], producer := 0, release := 0, writer := .idle, status := .none,
      reportPin := false }
  lmp := { waiting := [], transfer := none, progress := BusProgress.start }
  pending := []

end Sys2Proof.Machine
end

