-- ==== Sys2Proof/Machine/Operands.lean ====
section
/-!
DEFINITION. The layouts of chapter 12: code values, records in local memory (little-endian), lane frames (most
significant byte first), the CRC-32, and the tests for malformed frames and entries.
-/

namespace Sys2Proof.Machine

/-! ### Code values (12.3) -/

/-- Reason codes (12.3). -/
def Reason.code : Reason → Byte
  | .cancelled => 0x01 | .noAnswer => 0x02 | .refused => 0x03 | .parkExpired => 0x04 | .quiet => 0x05
  | .peerSilent => 0x06 | .peerCongested => 0x07 | .peerAbort => 0x08 | .unknownAtPeer => 0x09 | .tooLong => 0x0A
  | .listShort => 0x0B | .listLoop => 0x0C | .listBad => 0x0D | .localError => 0x0E | .protocol => 0x0F
  | .overrun => 0x10 | .laneCleared => 0x11 | .detaching => 0x12 | .offline => 0x13 | .badOrder => 0x14
  | .badPeer => 0x15 | .noRoom => 0x16 | .noSuch => 0x17 | .stationFault => 0x18 | .unknown => 0x19

/-- The reasons an ABORT may carry: the column Frame of 12.3. -/
def Reason.inFrame : Reason → Bool
  | .cancelled | .parkExpired | .quiet | .tooLong | .listShort | .listLoop | .listBad | .localError | .protocol
  | .overrun | .detaching | .stationFault | .unknown => true
  | .noAnswer | .refused | .peerSilent | .peerCongested | .peerAbort | .unknownAtPeer | .laneCleared | .offline
  | .badOrder | .badPeer | .noRoom | .noSuch => false

/-- The reason of an ABORT frame with a code (R178). -/
def Reason.ofFrameCode (b : Byte) : Option Reason :=
  match b.toNat with
  | 0x01 => some .cancelled | 0x04 => some .parkExpired | 0x05 => some .quiet | 0x0A => some .tooLong
  | 0x0B => some .listShort | 0x0C => some .listLoop | 0x0D => some .listBad | 0x0E => some .localError
  | 0x0F => some .protocol | 0x10 => some .overrun | 0x12 => some .detaching | 0x18 => some .stationFault
  | 0x19 => some .unknown | _ => none

/-- Station state codes (12.3). -/
def StationState.code : StationState → Byte
  | .starting => 0x01 | .fault => 0x02 | .offline => 0x03 | .probing => 0x04 | .online => 0x05 | .detaching => 0x06
  | .conflict => 0x07

/-- Fault cause codes (12.3). -/
def FaultCause.code : FaultCause → Byte
  | .none => 0x00 | .startRead => 0x01 | .startInvalid => 0x02 | .orderRead => 0x03 | .reportWrite => 0x04
  | .statusWrite => 0x05

/-- STATION report cause codes (12.3). -/
def StationCause.code : StationCause → Byte
  | .numberFree => 0x01 | .numberTaken => 0x02 | .detached => 0x03 | .laneCleared => 0x04 | .orderRead => 0x05

/-- Order kind codes (12.3). -/
def OrderKind.code : OrderKind → Byte
  | .send => 0x01 | .fetch => 0x02 | .offer => 0x03 | .withdraw => 0x04 | .cancel => 0x05 | .continue => 0x06
  | .detach => 0x07 | .attach => 0x08 | .clr => 0x09

/-- The order kind with a code (12.3). -/
def OrderKind.ofCode (b : Byte) : Option OrderKind :=
  match b.toNat with
  | 0x01 => some .send | 0x02 => some .fetch | 0x03 => some .offer | 0x04 => some .withdraw | 0x05 => some .cancel
  | 0x06 => some .continue | 0x07 => some .detach | 0x08 => some .attach | 0x09 => some .clr | _ => none

/-- OPEN direction codes (12.3). -/
def Direction.code : Direction → Byte
  | .push => 0x01 | .pull => 0x02

/-- The direction with a code (12.3). -/
def Direction.ofCode (b : Byte) : Option Direction :=
  match b.toNat with
  | 0x01 => some .push | 0x02 => some .pull | _ => none

/-- DEFER reason codes (12.3). -/
def DeferReason.code : DeferReason → Byte
  | .held => 0x01 | .full => 0x02

/-- The DEFER reason with a code (12.3). -/
def DeferReason.ofCode (b : Byte) : Option DeferReason :=
  match b.toNat with
  | 0x01 => some .held | 0x02 => some .full | _ => none

/-- CLOSED cause codes (12.3). -/
def CloseCause.code : CloseCause → Byte
  | .used => 0x01 | .withdrawn => 0x02

/-! ### Bytes -/

/-- Byte i of a list; every use is within a list whose length has been checked. -/
def byteAt (l : List Byte) (i : Nat) : Byte := l.getD i 0

/-- A little-endian 16-bit field (12.1). -/
def le16 (l : List Byte) (i : Nat) : BitVec 16 := byteAt l (i + 1) ++ byteAt l i

/-- A little-endian 24-bit field (12.1). -/
def le24 (l : List Byte) (i : Nat) : BitVec 24 := byteAt l (i + 2) ++ byteAt l (i + 1) ++ byteAt l i

/-- A little-endian 32-bit field (12.1). -/
def le32 (l : List Byte) (i : Nat) : BitVec 32 := byteAt l (i + 3) ++ byteAt l (i + 2) ++ byteAt l (i + 1) ++ byteAt l i

/-- A 16-bit field laid out little-endian. -/
def toLe16 (w : BitVec 16) : List Byte := [w.extractLsb' 0 8, w.extractLsb' 8 8]

/-- A 32-bit field laid out little-endian. -/
def toLe32 (w : BitVec 32) : List Byte :=
  [w.extractLsb' 0 8, w.extractLsb' 8 8, w.extractLsb' 16 8, w.extractLsb' 24 8]

/-- A 16-bit frame field, most significant byte first (12.2). -/
def toBe16 (w : BitVec 16) : List Byte := [w.extractLsb' 8 8, w.extractLsb' 0 8]

/-- A 24-bit frame field, most significant byte first (12.2). -/
def toBe24 (w : BitVec 24) : List Byte := [w.extractLsb' 16 8, w.extractLsb' 8 8, w.extractLsb' 0 8]

/-- A 32-bit frame field, most significant byte first (12.2). -/
def toBe32 (w : BitVec 32) : List Byte :=
  [w.extractLsb' 24 8, w.extractLsb' 16 8, w.extractLsb' 8 8, w.extractLsb' 0 8]

/-- A 16-bit frame field read back. -/
def be16 (l : List Byte) (i : Nat) : BitVec 16 := byteAt l i ++ byteAt l (i + 1)

/-- A 24-bit frame field read back. -/
def be24 (l : List Byte) (i : Nat) : BitVec 24 := byteAt l i ++ byteAt l (i + 1) ++ byteAt l (i + 2)

/-- A 32-bit frame field read back. -/
def be32 (l : List Byte) (i : Nat) : BitVec 32 :=
  byteAt l i ++ byteAt l (i + 1) ++ byteAt l (i + 2) ++ byteAt l (i + 3)

/-- A 24-bit frame field of a count the station keeps as a number. -/
def to24 (n : Nat) : BitVec 24 := BitVec.ofNat 24 n

/-! ### Records the station reads (12.1) -/

/-- An order record (12.1). -/
def OrderRec.parse (l : List Byte) : OrderRec where
  kind := byteAt l 0x00
  type := byteAt l 0x01
  tag := le16 l 0x02
  peer := byteAt l 0x04
  standing := byteAt l 0x05
  target := le16 l 0x04
  key := le32 l 0x08
  size := le32 l 0x0C
  base := le32 l 0x10
  mask := le32 l 0x14

/-- Is a ring size allowed: 8 to 1024 and a power of two (R167). -/
def ringSizeOk (n : BitVec 16) : Bool :=
  n.toNat == 8 || n.toNat == 16 || n.toNat == 32 || n.toNat == 64 || n.toNat == 128 || n.toNat == 256
    || n.toNat == 512 || n.toNat == 1024

/-- The configuration fields of a start record (12.1), before the checks of R167. -/
def StartParams.parse (l : List Byte) : StartParams where
  orderBase := le32 l 0x04
  orderSize := le16 l 0x08
  reportSize := le16 l 0x0A
  reportBase := le32 l 0x0C
  originLimit := (byteAt l 0x10).toNat
  linkRetry := (byteAt l 0x11).toNat
  openRetry := (byteAt l 0x12).toNat
  window := (byteAt l 0x13).toNat
  quiet := (le16 l 0x14).toNat
  park := (le16 l 0x16).toNat
  backoff := (le16 l 0x18).toNat
  divisor := (le16 l 0x1A).toNat

/-- The checks of R167 on the fields other than the signature. -/
def StartParams.valid (p : StartParams) : Bool :=
  ringSizeOk p.orderSize
    && p.orderBase.toNat % 32 == 0 && decide (p.orderBase.toNat + 32 * p.orderSize.toNat ≤ Config.topAddress + 1)
    && ringSizeOk p.reportSize
    && p.reportBase.toNat % 16 == 0 && decide (p.reportBase.toNat + 16 * p.reportSize.toNat ≤ Config.topAddress + 1)
    && decide (1 ≤ p.originLimit ∧ p.originLimit ≤ 16)
    && decide (1 ≤ p.linkRetry ∧ p.linkRetry ≤ 7)
    && decide (p.openRetry ≤ 15)
    && decide (1 ≤ p.quiet ∧ p.quiet ≤ 65535)
    && decide (1 ≤ p.park ∧ p.park ≤ 65535)
    && decide (1 ≤ p.backoff ∧ p.backoff ≤ 1000)
    && decide (1 ≤ p.window ∧ p.window ≤ 16)
    && decide (1 ≤ p.divisor ∧ p.divisor ≤ 65535)

/-- The start parameters of a start record that passes every check of R167. -/
def startRecord (l : List Byte) : Option StartParams :=
  if le32 l 0 = Config.signature ∧ (StartParams.parse l).valid = true then some (StartParams.parse l) else none

/-- A fragment entry as the walker acts on it (R69): malformed, a LINK to a new list base, or a DATA entry. -/
inductive EntryRead where
  | bad
  | link (base : Word)
  | data (e : Entry)
  deriving DecidableEq, Repr

/-- Reading a fragment entry (R69, R176). -/
def EntryRead.parse (l : List Byte) : EntryRead :=
  let flags := byteAt l 0x09
  let addr := le32 l 0x00
  if byteAt l 0x08 = 0x01 then
    .data ⟨addr, (le24 l 0x04).toNat, flags.getLsbD 0, flags.getLsbD 1, flags.getLsbD 2⟩
  else if byteAt l 0x08 = 0x02 then
    if flags.getLsbD 0 || flags.getLsbD 1 || flags.getLsbD 2 || addr.toNat % 16 != 0 then .bad else .link addr
  else .bad

/-! ### Records the station writes (12.1) -/

/-- The peer reason byte: 00h when there is none (12.1). -/
def peerReasonCode : Option Reason → Byte
  | none => 0x00
  | some r => r.code

/-- The outcome byte of a SERVED (12.3). -/
def Result.code : Result → Byte
  | .completed => 0x00
  | .failed r _ => r.code

/-- The peer reason of a result. -/
def Result.peerReason : Result → Option Reason
  | .completed => none
  | .failed _ p => p

/-- A count as a 32-bit record field. -/
def field32 (n : Nat) : List Byte := toLe32 (BitVec.ofNat 32 n)

/-- The 16 bytes of a report record (12.1, R176). -/
def Report.bytes (sn : Station) : Report → List Byte
  | .finished tag n => [0x01, 0, 0, 0] ++ toLe16 tag ++ [0, 0] ++ field32 n ++ [0, 0, 0, 0]
  | .failed tag r p n => [0x02, r.code, peerReasonCode p, 0] ++ toLe16 tag ++ [0, 0] ++ field32 n ++ [0, 0, 0, 0]
  | .closed tag c => [0x03, c.code, 0, 0] ++ toLe16 tag ++ [0, 0] ++ [0, 0, 0, 0] ++ [0, 0, 0, 0]
  | .ack tag k d =>
    [0x04, if d then 0x00 else Reason.noSuch.code, k.code, 0] ++ toLe16 tag ++ [0, 0] ++ [0, 0, 0, 0] ++ [0, 0, 0, 0]
  | .served tag peer key n r =>
    [0x05, r.code, peerReasonCode r.peerReason, peer.setWidth 8] ++ toLe16 tag ++ [0, 0] ++ field32 n ++ toLe32 key
  | .note tag base index => [0x06, 0, 0, 0] ++ toLe16 tag ++ [0, 0] ++ field32 index ++ toLe32 base
  | .paused tag n => [0x07, 0, 0, 0] ++ toLe16 tag ++ [0, 0] ++ field32 n ++ [0, 0, 0, 0]
  | .station st c => [0x08, c.code, st.code, sn.setWidth 8] ++ [0, 0] ++ [0, 0] ++ [0, 0, 0, 0] ++ [0, 0, 0, 0]

/-- The status word (12.1, R158). -/
def statusWordBytes (st : StationState) (c : FaultCause) (sn : Station) : List Byte :=
  [st.code, c.code, sn.setWidth 8, 0]

/-- A 16-bit ring count in its 32-bit word: the high 16 bits are 0 (R176). -/
def countWord (c : BitVec 16) : List Byte := toLe16 c ++ [0, 0]

/-! ### Lane frames (12.2) -/

/-- One step of the CRC-32 register for one bit (R177). -/
def crcBit (r : BitVec 32) (b : Bool) : BitVec 32 :=
  if (r.getLsbD 31 ^^ b) then (r <<< 1) ^^^ 0x04C11DB7#32 else r <<< 1

/-- A byte fed into the register, most significant bit first (R177). -/
def crcByte (r : BitVec 32) (x : Byte) : BitVec 32 :=
  [7, 6, 5, 4, 3, 2, 1, 0].foldl (fun r k => crcBit r (x.getLsbD k)) r

/-- The CRC-32 of a frame's bytes (R177). -/
def crc32 (l : List Byte) : BitVec 32 := ~~~ (l.foldl crcByte 0xFFFFFFFF#32)

/-- Frame kind codes (12.3). -/
def FrameBody.code : FrameBody → Byte
  | .openReq _ _ _ => 0x01 | .accept _ => 0x02 | .defer _ => 0x03 | .recall _ => 0x04 | .credit _ => 0x05
  | .hold => 0x06 | .data _ _ _ => 0x07 | .done _ => 0x08 | .abort _ => 0x09 | .probe _ => 0x0A

/-- The fields of a frame's kind, and its payload (12.2). -/
def FrameBody.bytes : FrameBody → List Byte
  | .openReq key dir size => toBe32 key ++ [dir.code] ++ toBe24 size
  | .accept f => toBe24 f
  | .defer r => [r.code]
  | .recall f => toBe24 f
  | .credit l => toBe24 l
  | .hold => []
  | .data off cnt payload => toBe24 off ++ toBe16 cnt ++ payload
  | .done n => toBe24 n
  | .abort r => [r.code]
  | .probe m => toBe16 m

/-- The tag byte (12.2). -/
def Tag.byte (t : Tag) : Byte := t.gen ++ t.idx

/-- A tag from its byte (12.2). -/
def Tag.ofByte (b : Byte) : Tag := ⟨b.extractLsb' 4 4, b.extractLsb' 0 4⟩

/-- The header of a frame (12.2). -/
def Frame.header (f : Frame) : List Byte :=
  [f.dst.setWidth 8, f.src.setWidth 8, f.body.code, if f.fromOrig then 0x80 else 0x00, f.tag.byte]

/-- The bytes the CRC covers: all before the CRC (R177). -/
def Frame.covered (f : Frame) : List Byte := f.header ++ f.body.bytes

/-- The bytes of a frame on the lane (R177). -/
def Frame.encode (f : Frame) : List Byte := f.covered ++ toBe32 (crc32 f.covered)

/-- Does a received frame pass its check: 9 to 270 bytes, and the CRC agrees (R177). -/
def crcPasses (l : List Byte) : Bool :=
  decide (9 ≤ l.length) && decide (l.length ≤ 270)
    && crc32 (l.take (l.length - 4)) == be32 l (l.length - 4)

/-- The fields of a frame's kind, where the length fits the kind and the codes are defined (12.2, R178). -/
def FrameBody.parse (l : List Byte) : Option FrameBody :=
  let n := l.length
  match (byteAt l 2).toNat with
  | 0x01 => if n = 17 then (Direction.ofCode (byteAt l 9)).map fun d => .openReq (be32 l 5) d (be24 l 10) else none
  | 0x02 => if n = 12 then some (.accept (be24 l 5)) else none
  | 0x03 => if n = 10 then (DeferReason.ofCode (byteAt l 5)).map .defer else none
  | 0x04 => if n = 12 then some (.recall (be24 l 5)) else none
  | 0x05 => if n = 12 then some (.credit (be24 l 5)) else none
  | 0x06 => if n = 9 then some .hold else none
  | 0x07 =>
    if n = 14 + (be16 l 8).toNat ∧ 14 ≤ n then
      some (.data (be24 l 5) (be16 l 8) ((l.drop 10).take (n - 14)))
    else none
  | 0x08 => if n = 12 then some (.done (be24 l 5)) else none
  | 0x09 => if n = 10 then (Reason.ofFrameCode (byteAt l 5)).map .abort else none
  | 0x0A => if n = 11 then some (.probe (be16 l 5)) else none
  | _ => none

/-- Does the from-originator bit fit the kind (R178). -/
def FrameBody.origFits (b : FrameBody) (fromOrig : Bool) : Bool :=
  match b with
  | .openReq _ _ _ | .probe _ => fromOrig
  | .accept _ | .defer _ | .recall _ => !fromOrig
  | .credit _ | .hold | .data _ _ _ | .done _ | .abort _ => true

/-- The frame in a run of bytes that passed the check and is addressed to station sn, unless it is malformed (R178). -/
def Frame.parse (sn : Station) (l : List Byte) : Option Frame :=
  let src := byteAt l 1
  let orig := byteAt l 3
  if src.toNat ≥ 32 then none
  else if src = sn.setWidth 8 then none
  else if (orig.extractLsb' 0 7) ≠ 0 then none
  else
    match FrameBody.parse l with
    | none => none
    | some b =>
      if b.origFits (orig.getLsbD 7) then
        some ⟨(byteAt l 0).setWidth 5, src.setWidth 5, orig.getLsbD 7, Tag.ofByte (byteAt l 4), b⟩
      else none

/-- Is the kind code of a frame that of a PROBE (R123, R178). -/
def isProbeBytes (l : List Byte) : Bool := byteAt l 2 == 0x0A

/-- Is a frame's source field the station's own number: bits 4-0 of the source byte (R127; log 20). -/
def sourceIsOwn (sn : Station) (l : List Byte) : Bool := (byteAt l 1).setWidth 5 == sn

/-- Is a frame addressed to station sn: all eight bits of byte 0 (R177). -/
def addressedTo (sn : Station) (l : List Byte) : Bool := byteAt l 0 == sn.setWidth 8

/-! ### Beats of a transfer on the local bus (R162) -/

/-- The aligned words a transfer of n bytes at address a touches, in ascending order (R162). -/
def beats (a n : Nat) : List Nat :=
  (List.range ((a + n - 1) / 4 + 1 - a / 4)).map fun k => 4 * (a / 4 + k)

/-- One beat of a bus tenure (R162): the word address on LA31-LA0, the byte enables LBE3-LBE0, and the bytes a write
drives on LD31-LD0, lane 0 first. Lane k carries the byte at the word's address plus k (log 6). -/
structure BusBeat where
  addr : Nat
  enables : BitVec 4
  data : List (Option Byte)
  deriving DecidableEq, Repr

/-- Does a byte address belong to a transfer. -/
def Request.covers (r : Request) (a : Nat) : Bool := decide (r.addr ≤ a ∧ a < r.addr + r.count)

/-- The byte a write drives for a byte address, if the address belongs to it; a read drives none (R162). -/
def Request.byteFor (r : Request) (a : Nat) : Option Byte := if r.addr ≤ a then r.data[a - r.addr]? else none

/-- The beat of a transfer with an index (R162). -/
def Request.beat (r : Request) (k : Nat) : Option BusBeat :=
  (beats r.addr r.count)[k]?.map fun w =>
    ⟨w, BitVec.ofBool (r.covers (w + 3)) ++ BitVec.ofBool (r.covers (w + 2)) ++ BitVec.ofBool (r.covers (w + 1)) ++
      BitVec.ofBool (r.covers w), [0, 1, 2, 3].map fun j => r.byteFor (w + j)⟩

/-- The bytes a write has left in local memory when its first k beats have ended with LRDY, with their addresses
(R162). -/
def Request.writtenBefore (r : Request) (k : Nat) : List (Nat × Byte) :=
  (r.data.take (4 * (r.addr / 4 + k) - r.addr)).zipIdx.map fun x => (r.addr + x.2, x.1)

end Sys2Proof.Machine
end

