-- ==== Sys2Proof/Machine/Flags.lean ====
section
/-!
DEFINITION. The slot timer, the pause and hold flags of a record, the counts of a record, and the levels of the REPORT
and FAULT lines.
-/

namespace Sys2Proof.Machine

/-! ### Derived fields of a record -/

/-- The side of a record (R2): an originator of a PUSH and a responder of a PULL are SENDER. -/
def Exchange.side (e : Exchange) : Side :=
  match e.role, e.dir with
  | .originator, .push => .sender
  | .responder, .pull => .sender
  | .originator, .pull => .receiver
  | .responder, .push => .receiver

/-- Is the state one of the originator's opening states (chapter 2). -/
def ExState.isOpening : ExState → Bool
  | .opening | .backoff | .parked => true
  | .sending | .receiving | .confirming | .finishing | .retiring => false

/-- Is credit owed: the limit granted exceeds the bytes received (R12). -/
def Exchange.creditOwed (e : Exchange) : Bool := decide (e.received < e.granted)

/-- The bytes that are done, against which marks are measured (R76). -/
def Exchange.doneBytes (e : Exchange) : Nat :=
  match e.side with
  | .sender => e.acknowledged
  | .receiver => e.drained

/-- Cells a number of bytes takes (R87). -/
def cellsOf (n : Nat) : Nat := (n + 255) / 256

/-- Cells still to be granted (R87). -/
def Exchange.cellsToGrant (e : Exchange) : Nat := cellsOf e.length - cellsOf e.granted

/-- Is a credit limit valid for a length (R36, R91). -/
def validLimit (limit length : Nat) : Bool := decide (limit ≤ length ∧ (limit % 256 = 0 ∨ limit = length))

/-! ### The timer (R9 to R13) -/

/-- A timer of kind none, stopped (R9). R9 gives it no time remaining; the model's is 0 (log 32). -/
def Timer.cleared : Timer := ⟨.none, 0, .stopped⟩

/-- Starting a timer: kind, full length, running (R9). -/
def Exchange.startTimer (k : TimerKind) (n : Nat) (e : Exchange) : Exchange := { e with timer := ⟨k, n, .running⟩ }

/-- Clearing a timer (R9). -/
def Exchange.clearTimer (e : Exchange) : Exchange := { e with timer := Timer.cleared }

/-- A stopped timer keeps its kind and its time remaining (R9). -/
def Exchange.stopTimer (e : Exchange) : Exchange := { e with timer := { e.timer with run := .stopped } }

/-- The parameters before a start record has been accepted; no rule reads them then (log 22). -/
def StartParams.unset : StartParams := ⟨0, 0, 0, 0, 0, 0, 0, 0, 0, 0, 0, 0⟩

/-- P × 10 ms (R10). -/
def StartParams.parkMs (p : StartParams) : Nat := p.park * 10

/-- The full length of a QUIET timer: Q, or P × 10 ms while peer hold is set (R10, R12). -/
def Exchange.quietMs (p : StartParams) (e : Exchange) : Nat := if e.peerHold then p.parkMs else p.quiet

/-- The length of the BACKOFF timer when k backoffs have been counted: B × 2^(min(k,4)-1) (R11). -/
def StartParams.backoffMs (p : StartParams) (k : Nat) : Nat := p.backoff * 2 ^ (min k 4 - 1)

/-- The QUIET timer started with its full length (R10). -/
def Exchange.startQuiet (p : StartParams) (e : Exchange) : Exchange := e.startTimer .quiet (e.quietMs p)

/-- A QUIET timer that is held stopped at its full length Q (R10, entering RECEIVING with no credit owed). -/
def Exchange.idleQuiet (p : StartParams) (e : Exchange) : Exchange := { e with timer := ⟨.quiet, p.quiet, .stopped⟩ }

/-- A restart event of the QUIET timer (R12, R13): in SENDING and CONFIRMING it starts with its full length, in
RECEIVING only while credit is owed, and never while local pause is set. -/
def Exchange.restartQuiet (p : StartParams) (e : Exchange) : Exchange :=
  if e.localPause then e
  else
    match e.state with
    | .sending | .confirming => e.startQuiet p
    | .receiving => if e.creditOwed then e.startQuiet p else e
    | .opening | .backoff | .parked | .finishing | .retiring => e

/-- The timer after CONTINUE has cleared local pause (R13, R100). -/
def Exchange.resumeTimer (p : StartParams) (e : Exchange) : Exchange :=
  match e.state with
  | .sending => e.startQuiet p
  | .receiving => if e.creditOwed then e.startQuiet p else e
  | .opening | .backoff | .parked | .confirming | .finishing | .retiring => e

/-- One tick at a timer: a running timer counts down, and expires at 0 (R9). -/
def Timer.tick (t : Timer) : Timer :=
  match t.run with
  | .running => if t.remaining ≤ 1 then { t with remaining := 0, run := .expired } else { t with remaining := t.remaining - 1 }
  | .stopped | .expired => t

/-- Has a timer of this kind expired, its expiry not yet taken (R9, R14). -/
def Exchange.expiredAs (e : Exchange) (k : TimerKind) : Bool := e.timer.kind == k && e.timer.run == .expired

/-! ### The local lines -/

/-- The level REPORT takes at a step that changes a count: asserted while the counts differ (R155). -/
def reportLevel (producer release : BitVec 16) : Bool := producer != release

/-- The level of FAULT in a station state: asserted in FAULT and CONFLICT (R175). -/
def faultLevel (st : StationState) : Bool :=
  match st with
  | .fault | .conflict => true
  | .starting | .offline | .probing | .online | .detaching => false

end Sys2Proof.Machine
end

