-- ==== Sys2Proof/Machine/Walk.lean ====
section
/-!
DEFINITION. The walk of a fragment list (R69 to R73, R75, R77), one record's walk at a time.
-/

namespace Sys2Proof.Machine

/-- A walk at allocation (R70, R71). -/
def Walk.start (base : Word) : Walk := ⟨base, 0, 0, none, 0, 0, [], none⟩

/-- What a walk answers to the request for the next bytes (R71). -/
inductive WalkAnswer where
  /-- a piece: local address and byte count -/
  | piece (addr count : Nat)
  /-- an entry must be read first, at this address (R72) -/
  | read (addr : Nat)
  /-- the gate stands at the walk offset (R71, R77) -/
  | gate
  /-- a flagged entry waits for room in the mark queue (R75) -/
  | wait
  /-- the list ends the exchange (R73) -/
  | error (r : Reason)
  deriving DecidableEq, Repr

/-- Recording the mark of an entry with the given flags (R75). -/
def Walk.record (note pause : Bool) (w : Walk) : Walk :=
  if note || pause then { w with marks := w.marks ++ [⟨w.base, w.index, w.offset, note, pause⟩] } else w

/-- Passing a DATA entry: its marks are recorded, a PAUSE closes the gate at its point, the index advances (R72, R77). -/
def Walk.pass (e : Entry) (w : Walk) : Walk :=
  { w.record e.note e.pause with
    gate := if e.pause then some w.offset else w.gate, index := w.index + 1, inEntry := 0, cached := none }

/-- Asking for the entry at the index: 4096 visits are the limit, and a read counts one visit (R72, R73). -/
def Walk.askRead (w : Walk) : Walk × WalkAnswer :=
  if w.visited ≥ Config.visitCap then (w, .error .listLoop)
  else ({ w with visited := w.visited + 1 }, .read (w.base.toNat + 16 * w.index))

/-- The count of the next piece: the least of what is left in the range, in the entry, and below the gate (R71). -/
def Walk.pieceCount (w : Walk) (e : Entry) (upto : Nat) : Nat :=
  let n := min (upto - w.offset) (e.len - w.inEntry)
  match w.gate with
  | none => n
  | some g => min n (g - w.offset)

/-- Handing out a piece of the cached entry. Where it reaches the consignment's length inside an entry that carries
NOTE, the mark is recorded with it; while the mark queue is full that last piece waits (R71, R72, R75; log 19). -/
def Walk.takePiece (w : Walk) (e : Entry) (length upto : Nat) : Walk × WalkAnswer :=
  let c := w.pieceCount e upto
  let w' := { w with inEntry := w.inEntry + c, offset := w.offset + c }
  if w'.offset = length ∧ e.note = true then
    if w.marks.length ≥ Config.markCap then (w, .wait)
    else (w'.record true false, .piece (e.addr.toNat + w.inEntry) c)
  else (w', .piece (e.addr.toNat + w.inEntry) c)

/-- Passing the cached entry, which has no byte left, and asking for the next one (R72, R73, R75, R77). An error found in
the same step comes first, and the mark just recorded is dropped with the exchange's others (log 18). -/
def Walk.passOn (w : Walk) (e : Entry) : Walk × WalkAnswer :=
  if (e.note || e.pause) = true ∧ w.marks.length ≥ Config.markCap then (w, .wait)
  else if e.fin then (w.pass e, .error .listShort)
  else if (w.pass e).gate = some w.offset then (w.pass e, .gate)
  else (w.pass e).askRead

/-- The answer of a walk to a request for bytes from its offset up to a bound above it (R71 to R73). -/
def Walk.ask (w : Walk) (length upto : Nat) : Walk × WalkAnswer :=
  if w.gate = some w.offset then (w, .gate)
  else
    match w.cached with
    | none => w.askRead
    | some e => if w.inEntry < e.len then w.takePiece e length upto else w.passOn e

/-- Can the walk go on at its offset: neither the gate nor a full mark queue stops it (R95). A step that passes an
exhausted PAUSE entry, and so closes the gate at the offset without a byte, counts as going on (log 33). -/
def Walk.canGoOn (w : Walk) (length upto : Nat) : Bool :=
  match (w.ask length upto).2 with
  | .piece _ _ | .read _ | .error _ => true
  | .wait => false
  | .gate => decide (w.gate ≠ some w.offset)

/-- Can a walk that waits for room in its mark queue go on before the frame at an offset is acknowledged: the mark at the
head has its point at or below the offset (R75, R76). -/
def Walk.waitEnds (offset : Nat) (w : Walk) : Bool :=
  match w.marks with
  | [] => true
  | m :: _ => decide (m.point ≤ offset)

/-- A walk whose entry read has brought a LINK: it goes on at the new list base (R72). -/
def Walk.follow (base : Word) (w : Walk) : Walk := { w with base := base, index := 0, inEntry := 0, cached := none }

/-- A walk whose entry read has brought a DATA entry (R72). -/
def Walk.cache (e : Entry) (w : Walk) : Walk := { w with cached := some e, inEntry := 0 }

/-- A walk at entry to RETIRING: the mark queue is emptied and the gate opens (R78). -/
def Walk.drop (w : Walk) : Walk := { w with marks := [], gate := none }

end Sys2Proof.Machine
end

