-- ==== Sys2Proof/Machine/Ops.lean ====
section
/-!
DEFINITION. The named operations over the station's structures: slots and lookups, offers and matching, the two lines
of claimants (R106, R152), control frames, reports, requests of the Local Memory Port, cells and buffers, and the ONE
operation by which an exchange enters RETIRING (R18).
-/

namespace Sys2Proof.Machine

/-- Every element of a vector mapped with its index. -/
def mapAll {α : Type} {n : Nat} (f : Fin n → α → α) (v : Vector α n) : Vector α n := Vector.ofFn fun i => f i v[i]

/-- The slots in index order. -/
def slotIds : List SlotId := [0, 1, 2, 3, 4, 5, 6, 7, 8, 9, 10, 11, 12, 13, 14, 15]

/-- The slots in round-robin order, beginning with the one after the last served (R80, R88, R95, R109). -/
def afterSlot (last : SlotId) : List SlotId := slotIds.map fun k => last + 1 + k

/-- The outbound buffers in index order. -/
def bufIds : List BufId := [0, 1, 2, 3]

/-- The slot that a tag's index names (R4). -/
def Tag.slot (t : Tag) : SlotId := ⟨t.idx.toNat, t.idx.isLt⟩

namespace State

/-! ### Reading the state -/

/-- The start parameters in force (R167). -/
def par (s : State) : StartParams := s.sct.params.getD StartParams.unset

/-- The station's own number. -/
def sn (s : State) : Station := s.sct.stationNumber

/-- RESET is not held low. -/
def up (s : State) : Bool := !s.sct.inReset

/-- The blocks act: RESET is not low and the station is not in FAULT (R24, R85, R104, R137, R156). -/
def runs (s : State) : Bool := s.up && s.sct.station != .fault

/-- The Lane Port observes windows: in every station state other than STARTING (R117). -/
def observes (s : State) : Bool := s.up && s.sct.station != .starting

/-- The station is on the lane (R117). -/
def onLane (s : State) : Bool :=
  s.up &&
    match s.sct.station with
    | .probing | .online | .detaching => true
    | .fault => s.sct.present
    | .starting | .offline | .conflict => false

/-- The station answers frames addressed to it (R117). -/
def answersFrames (s : State) : Bool :=
  s.up &&
    match s.sct.station with
    | .online | .detaching => true
    | .fault => s.sct.present
    | .starting | .probing | .offline | .conflict => false

/-- The station takes lane clear (R117). -/
def takesClear (s : State) : Bool :=
  s.up &&
    match s.sct.station with
    | .probing | .online | .detaching => true
    | .starting | .offline | .conflict | .fault => false

/-- The station state allows orders to be taken (R137). -/
def takesOrders (s : State) : Bool :=
  s.up &&
    match s.sct.station with
    | .online | .offline | .conflict => true
    | .starting | .probing | .detaching | .fault => false

/-- The record of a slot, unless it is FREE. -/
def ex (s : State) (i : SlotId) : Option Exchange := s.xen.slots[i].ex

/-- The generation of a slot (R1). -/
def gen (s : State) (i : SlotId) : Gen := s.xen.slots[i].gen

/-- An offer (R47). -/
def offer (s : State) (o : OfferId) : Option Offer := s.xen.offers[o]

/-- An outbound buffer (R79). -/
def buffer (s : State) (b : BufId) : Option OutBuffer := s.fbd.buffers[b]

/-- A staging cell (R86). -/
def cell (s : State) (c : CellId) : Option Cell := s.stg.cells[c]

/-- A Peer Table entry (R128). -/
def peer (s : State) (p : Station) : PeerState := s.lpt.peers[p.toNat]

/-- A notice names a live slot of the generation it carries (R5). -/
def live (s : State) (i : SlotId) (g : Gen) : Bool := (s.ex i).isSome && s.gen i == g

/-- The lowest-numbered FREE slot (R6). -/
def freeSlot (s : State) : Option SlotId := slotIds.find? fun i => (s.ex i).isNone

/-- Is a slot's record an originator's. -/
def isOriginator (s : State) (i : SlotId) : Bool :=
  match s.ex i with
  | some e => e.role == .originator
  | none => false

/-- ORIGINATOR slots not FREE (R6, R7). -/
def originators (s : State) : Nat := (slotIds.filter s.isOriginator).length

/-- Room for another originator: a FREE slot, and the origin limit not reached (R140). -/
def originRoom (s : State) : Bool := s.freeSlot.isSome && decide (s.originators < s.par.originLimit)

/-- Does a slot hold the responder's side of the exchange of an originator and tag (R15). -/
def isResponderOf (s : State) (src : Station) (tag : Tag) (i : SlotId) : Bool :=
  match s.ex i with
  | some e => e.role == .responder && e.peer == src && e.tag == tag
  | none => false

/-- The lookup of a frame from an exchange's originator (R15). -/
def findResponder (s : State) (src : Station) (tag : Tag) : Option SlotId := slotIds.find? (s.isResponderOf src tag)

/-- The lookup of a frame from an exchange's responder (R15). -/
def findOriginator (s : State) (src : Station) (tag : Tag) : Option SlotId :=
  match s.ex tag.slot with
  | some e => if e.role = .originator ∧ s.gen tag.slot = tag.gen ∧ e.peer = src then some tag.slot else none
  | none => none

/-- The lookup of a frame by its lane identity (R15, R92). -/
def lookup (s : State) (f : Frame) : Option SlotId :=
  if f.fromOrig then s.findResponder f.src f.tag else s.findOriginator f.src f.tag

/-! ### Writing slots -/

/-- A slot's record set. -/
def setEx (i : SlotId) (e : Option Exchange) (s : State) : State :=
  { s with xen := { s.xen with slots := s.xen.slots.set i { s.xen.slots[i] with ex := e } } }

/-- A slot's record changed, if the slot is not FREE. -/
def updEx (i : SlotId) (f : Exchange → Exchange) (s : State) : State :=
  match s.ex i with
  | some e => s.setEx i (some (f e))
  | none => s

/-- A restart event of a slot's QUIET timer (R12). -/
def quiet (i : SlotId) (s : State) : State := s.updEx i (Exchange.restartQuiet s.par)

/-- An offer set. -/
def setOffer (o : OfferId) (v : Option Offer) (s : State) : State :=
  { s with xen := { s.xen with offers := s.xen.offers.set o v } }

/-- An outbound buffer set. -/
def setBuffer (b : BufId) (v : Option OutBuffer) (s : State) : State :=
  { s with fbd := { s.fbd with buffers := s.fbd.buffers.set b v } }

/-- A staging cell set. -/
def setCell (c : CellId) (v : Option Cell) (s : State) : State :=
  { s with stg := { s.stg with cells := s.stg.cells.set c v } }

/-- A Peer Table entry set. -/
def setPeer (p : Station) (v : PeerState) (s : State) : State :=
  { s with lpt := { s.lpt with peers := s.lpt.peers.set p.toNat v } }

/-! ### Offers and matching (R47, R50, R51) -/

end State

/-- Does an offer in state OPEN fit a consignment (R50). -/
def Offer.fits (o : Offer) (p : Station) (dir : Direction) (key : Word) : Bool :=
  o.state == .openState
    && (match o.type, dir with
        | .receive, .push => true
        | .give, .pull => true
        | .receive, .pull => false
        | .give, .push => false)
    && (match o.peer with
        | none => true
        | some q => q == p)
    && (key &&& o.mask) == (o.key &&& o.mask)

/-- The capacity check against the chosen offer (R51). -/
def Offer.holds (o : Offer) (dir : Direction) (size : Nat) : Bool :=
  match dir with
  | .push => decide (size ≤ o.size)
  | .pull => decide (o.size ≤ size)

/-- The slot an offer is bound to. -/
def OfferState.slot : OfferState → Option SlotId
  | .openState => none
  | .bound i => some i
  | .withdrawing i => some i

namespace State

/-- Does the offer at an entry fit a consignment. -/
def offerFits (s : State) (p : Station) (dir : Direction) (key : Word) (o : OfferId) : Bool :=
  match s.offer o with
  | some v => v.fits p dir key
  | none => false

/-- Matching: the oldest fitting offer in posting order (R50). -/
def matchOffer (s : State) (p : Station) (dir : Direction) (key : Word) : Option OfferId :=
  s.xen.postOrder.find? (s.offerFits p dir key)

/-- Does the offer at an entry hold a consignment of a size. -/
def offerHolds (s : State) (o : OfferId) (dir : Direction) (size : Nat) : Bool :=
  match s.offer o with
  | some v => v.holds dir size
  | none => false

/-- The lowest-numbered empty entry of the Offer List (R47). -/
def freeOffer (s : State) : Option OfferId := (List.finRange 32).find? fun o => (s.offer o).isNone

/-- An offer removed: its entry empty, and out of the posting order (R47). -/
def removeOffer (o : OfferId) (s : State) : State :=
  let s := s.setOffer o none
  { s with xen := { s.xen with postOrder := s.xen.postOrder.filter (· ≠ o) } }

/-! ### The Pending List (R58) -/

/-- Entries removed from the Pending List; a standing rescan keeps its place (R58, R62). -/
def dropDeferred (p : Deferred → Bool) (s : State) : State :=
  { s with
    xen :=
      { s.xen with
        deferred := s.xen.deferred.filter (fun d => !p d),
        rescanAt := s.xen.rescanAt.map fun k => k - ((s.xen.deferred.take k).filter p).length } }

end State

/-- Does a pending entry name a request: peer and all eight bits of the tag (R59). -/
def Deferred.isOf (p : Station) (t : Tag) (d : Deferred) : Bool := d.peer == p && d.tag == t

/-! ### Requests of the Local Memory Port (R159 to R161) -/

/-- The client of a request, by its priority (R160). -/
def Purpose.client : Purpose → Nat
  | .reportEntry | .producerWord | .statusWord => 1
  | .drainWrite _ _ _ => 2
  | .entryRead _ _ => 3
  | .dataRead _ _ _ => 4
  | .ringWords | .orderFetch | .indexWrite | .startRecord => 5

/-- The slot and generation a request was made for (R159). -/
def Purpose.owner : Purpose → Option (SlotId × Gen)
  | .drainWrite i g _ | .entryRead i g | .dataRead i g _ => some (i, g)
  | .reportEntry | .producerWord | .statusWord | .ringWords | .orderFetch | .indexWrite | .startRecord => none

/-- Was a request made for a slot and generation. -/
def Request.isOf (i : SlotId) (g : Gen) (r : Request) : Bool := r.purpose.owner == some (i, g)

namespace State

/-- A request placed with the Local Memory Port (R159). -/
def place (r : Request) (s : State) : State := { s with lmp := { s.lmp with waiting := s.lmp.waiting ++ [r] } }

/-- A request placed for a slot, which its local transfers count counts (R21). -/
def placeFor (i : SlotId) (r : Request) (s : State) : State :=
  (s.updEx i fun e => { e with transfers := e.transfers + 1 }).place r

/-- Is the transfer in progress the one for a purpose. -/
def inProgress (s : State) (p : Purpose) : Bool :=
  match s.lmp.transfer with
  | some r => r.purpose == p
  | none => false

/-- The end of a transfer made for a slot: its local transfers count falls by one (R21, R5). -/
def endTransfer (i : SlotId) (g : Gen) (s : State) : State :=
  if s.live i g then s.updEx i fun e => { e with transfers := e.transfers - 1 } else s

/-- The waiting requests of a slot withdrawn (R21). -/
def withdrawRequests (i : SlotId) (s : State) : State :=
  let t := s.updEx i fun e =>
    { e with transfers := e.transfers - (s.lmp.waiting.filter (Request.isOf i (s.gen i))).length }
  { t with lmp := { t.lmp with waiting := t.lmp.waiting.filter fun r => !r.isOf i (s.gen i) } }

end State

/-! ### Kinds of control frames -/

/-- Is the frame an OPEN. -/
def FrameBody.isOpen : FrameBody → Bool
  | .openReq _ _ _ => true
  | .accept _ | .defer _ | .recall _ | .credit _ | .hold | .data _ _ _ | .done _ | .abort _ | .probe _ => false

/-- Is the frame an ACCEPT or a RECALL. -/
def FrameBody.isAnswer : FrameBody → Bool
  | .accept _ | .recall _ => true
  | .openReq _ _ _ | .defer _ | .credit _ | .hold | .data _ _ _ | .done _ | .abort _ | .probe _ => false

/-- Is the frame a CREDIT. -/
def FrameBody.isCredit : FrameBody → Bool
  | .credit _ => true
  | .openReq _ _ _ | .accept _ | .defer _ | .recall _ | .hold | .data _ _ _ | .done _ | .abort _ | .probe _ => false

/-- Is the frame a HOLD. -/
def FrameBody.isHold : FrameBody → Bool
  | .hold => true
  | .openReq _ _ _ | .accept _ | .defer _ | .recall _ | .credit _ | .data _ _ _ | .done _ | .abort _ | .probe _ => false

/-- Is the frame a DONE. -/
def FrameBody.isDone : FrameBody → Bool
  | .done _ => true
  | .openReq _ _ _ | .accept _ | .defer _ | .recall _ | .credit _ | .hold | .data _ _ _ | .abort _ | .probe _ => false

/-- Is the frame an ABORT. -/
def FrameBody.isAbort : FrameBody → Bool
  | .abort _ => true
  | .openReq _ _ _ | .accept _ | .defer _ | .recall _ | .credit _ | .hold | .data _ _ _ | .done _ | .probe _ => false

/-- Is the frame a PROBE. -/
def FrameBody.isProbe : FrameBody → Bool
  | .probe _ => true
  | .openReq _ _ _ | .accept _ | .defer _ | .recall _ | .credit _ | .hold | .data _ _ _ | .done _ | .abort _ => false

/-- An entry of a slot and generation whose frame is of some kind. -/
def CtrlEntry.isOf (i : SlotId) (g : Gen) (p : FrameBody → Bool) (c : CtrlEntry) : Bool :=
  c.owner == .slot i g && p c.frame.body

/-! ### What the handling of an OPEN does (R52 to R56) -/

/-- What the handling of an OPEN does (R52 to R56). -/
inductive OpenPlan where
  /-- a copy at a live responder slot: ACCEPT again (R56) -/
  | copy (i : SlotId)
  /-- a copy at a live responder slot whose answer has not left the control queue (R56) -/
  | copySilent (i : SlotId)
  /-- a copy at a RETIRING slot (R56) -/
  | discard
  /-- refused: the station is DETACHING (R52) -/
  | detaching
  /-- a retransmission of a stored request (R53) -/
  | held
  /-- a fresh request that a fitting offer and a FREE slot take (R54) -/
  | bind (i : SlotId) (o : OfferId)
  /-- a fresh request that fails the capacity check of its offer (R51) -/
  | tooLong (o : OfferId)
  /-- a fresh request stored, at the rank of a stale entry where there was one (R53, R55) -/
  | store (rank : Option Nat)
  /-- a fresh request refused for want of room (R55) -/
  | full
  deriving DecidableEq, Repr

/-- Does a pending entry stand for the same originator slot as a request (R53). -/
def Deferred.sameSlot (p : Station) (t : Tag) (d : Deferred) : Bool := d.peer == p && d.tag.idx == t.idx

namespace State

/-- The plan for a fresh request (R54, R55); rank is that of a stale entry (R53). -/
def freshPlan (s : State) (p : Station) (dir : Direction) (key : Word) (size : Nat) (rank : Option Nat) : OpenPlan :=
  let stored : OpenPlan :=
    if rank.isSome || decide (s.xen.deferred.length < Config.deferredCap) then .store rank else .full
  match s.matchOffer p dir key with
  | none => stored
  | some o =>
    if s.offerHolds o dir size then
      match s.freeSlot with
      | some i => .bind i o
      | none => stored
    else .tooLong o

/-- The plan for an OPEN that finds no RESPONDER slot, in ONLINE (R53). -/
def matcherPlan (s : State) (p : Station) (t : Tag) (dir : Direction) (key : Word) (size : Nat) : OpenPlan :=
  match s.xen.deferred.findIdx? (Deferred.sameSlot p t) with
  | none => s.freshPlan p dir key size none
  | some k =>
    if (s.xen.deferred[k]?.map fun d => d.tag.gen) = some t.gen then .held
    else s.freshPlan p dir key size (some k)

/-- The plan for an OPEN (R52 to R56). -/
def openPlan (s : State) (f : Frame) (key : Word) (dir : Direction) (size : Nat) : OpenPlan :=
  match s.findResponder f.src f.tag with
  | some i =>
    match s.ex i with
    | none => .discard
    | some e =>
      if e.state = .retiring then .discard
      else if s.txq.ctrl.any (CtrlEntry.isOf i (s.gen i) FrameBody.isAnswer) then .copySilent i
      else .copy i
  | none =>
    if s.sct.station = .detaching then .detaching else s.matcherPlan f.src f.tag dir key size

end State

/-- Does a plan place an answer frame (R52). -/
def OpenPlan.needsCtrl : OpenPlan → Bool
  | .copySilent _ | .discard => false
  | .copy _ | .detaching | .held | .bind _ _ | .tooLong _ | .store _ | .full => true

/-- Does a plan place a report (R52). -/
def OpenPlan.needsReport : OpenPlan → Bool
  | .tooLong _ => true
  | .copySilent _ | .discard | .copy _ | .detaching | .held | .bind _ _ | .store _ | .full => false

namespace State

/-- What the handling of the inbox head would do now, if the head is an OPEN (R52). -/
def headPlan (s : State) : Option OpenPlan :=
  match s.lpt.inbox with
  | [] => none
  | f :: _ =>
    match f.body with
    | .openReq key dir size => some (s.openPlan f key dir size.toNat)
    | _ => none

/-- Does the inbox head need a report queue entry now (R52). -/
def headNeedsReport (s : State) : Bool := s.headPlan.any OpenPlan.needsReport

/-- Does the inbox head need a control queue entry now (R52, R56). -/
def headNeedsCtrl (s : State) : Bool := s.headPlan.any OpenPlan.needsCtrl

/-! ### The report queue (R152) -/

/-- Free entries for k reports (R152). -/
def reportRoom (s : State) (k : Nat) : Bool := decide (s.rpt.queue.length + k ≤ Config.reportCap)

/-- A report queued; the callers have found room, and the queue never grows past its capacity (R152). -/
def pushReport (r : Report) (s : State) : State :=
  if s.rpt.queue.length < Config.reportCap then { s with rpt := { s.rpt with queue := s.rpt.queue ++ [r] } } else s

/-- Is the control queue full (R105). -/
def ctrlFull (s : State) : Bool := decide (Config.ctrlCap ≤ s.txq.ctrl.length)

/-- A claimant that also needs a control queue entry is passed over while the control queue is full (R152), and so is an
inbox head that has come to need no report (R52). -/
def passedOver (s : State) (c : ReportClaim) : Bool :=
  match c with
  | .inboxHead => s.ctrlFull || !s.headNeedsReport
  | .rescan => s.ctrlFull
  | .mark _ | .release _ | .head | .acks => false

/-- The claimants of the report queue that began waiting before a claimant, or all if it does not wait yet (R152). -/
def reportAhead (s : State) (c : ReportClaim) : List ReportClaim := s.rpt.line.takeWhile (· != c)

/-- Is a claimant served k entries now: no STATION report waits, k entries are free, and no older claimant waits that
is not passed over (R152). -/
def reportTurn (s : State) (c : ReportClaim) (k : Nat) : Bool :=
  s.rpt.stationWaiting.isEmpty && s.reportRoom k && (s.reportAhead c).all s.passedOver

/-- A claimant other than a due ACK begins to wait for the report queue, if it does not wait already (R152; log 12). -/
def claimReport (c : ReportClaim) (s : State) : State :=
  if s.rpt.line.contains c then s else { s with rpt := { s.rpt with line := s.rpt.line ++ [c] } }

/-- A claimant no longer waits for the report queue. -/
def unclaimReport (c : ReportClaim) (s : State) : State :=
  { s with rpt := { s.rpt with line := s.rpt.line.filter (· != c) } }

/-! ### The acknowledgement list and STATION reports (R147, R152) -/

/-- An event of R147 makes the ACKs that await it due. -/
def ackEvent (p : Await → Bool) (s : State) : State :=
  { s with ord := { s.ord with acks := s.ord.acks.map fun a => if p a.await then { a with due := true } else a } }

/-- Room for another acknowledgement list entry (R147). -/
def ackRoom (s : State) : Bool := decide (s.ord.acks.length < Config.ackCap)

/-- An acknowledgement list entry made (R147). -/
def addAck (a : AckEntry) (s : State) : State :=
  if s.ord.acks.length < Config.ackCap then { s with ord := { s.ord with acks := s.ord.acks ++ [a] } } else s

end State

/-- Does a STATION report end an await of R147. -/
def StationWait.serves (w : StationWait) (a : Await) : Bool :=
  match w.cause, a with
  | .laneCleared, .clearReport n => n == w.event
  | .detached, .offlineReport => true
  | _, _ => false

namespace State

/-- A STATION report queued; the ACKs that await it become due (R147). -/
def queueStation (w : StationWait) (s : State) : State := (s.pushReport (.station w.state w.cause)).ackEvent w.serves

/-- A STATION report made: queued at once, or it waits ahead of every other claimant (R152). -/
def stationReport (w : StationWait) (s : State) : State :=
  if s.rpt.stationWaiting.isEmpty && s.reportRoom 1 then s.queueStation w
  else { s with rpt := { s.rpt with stationWaiting := s.rpt.stationWaiting ++ [w] } }

end State

/-! ### Control frames (R105 to R108) -/

/-- A claim in the line of R106 for a frame of a slot and generation that is of some kind. -/
def CtrlClaim.isOf (i : SlotId) (g : Gen) (p : FrameBody → Bool) : CtrlClaim → Bool
  | .frame f o => o == .slot i g && p f.body
  | .credit j => j == i && p (.credit 0)
  | .pendingAbort _ _ | .inboxHead | .rescan => false

/-- A frame of an exchange: to its peer, with its tag and the from-originator bit of its role (R4). -/
def Exchange.frame (sn : Station) (e : Exchange) (b : FrameBody) : Frame :=
  ⟨e.peer, sn, e.role == .originator, e.tag, b⟩

namespace State

/-- A frame to the originator of a request that has no slot here: the from-originator bit is clear (R51, R57, R60). -/
def replyFrame (s : State) (dst : Station) (tag : Tag) (b : FrameBody) : Frame := ⟨dst, s.sn, false, tag, b⟩

/-- Does a due rescan wait for an entry once the control queue holds n entries: a rescan that is due in ONLINE finds none
free in a full queue (R61, R106; log 14). -/
def rescanWaitsAt (s : State) (n : Nat) : Bool :=
  s.xen.rescanWaits || (s.xen.rescanDue && s.sct.station == .online && decide (Config.ctrlCap ≤ n))

/-- An entry joins the control queue at the tail; the callers have found room, and the queue never grows past its
capacity (R105). -/
def pushEntry (c : CtrlEntry) (s : State) : State :=
  if s.txq.ctrl.length < Config.ctrlCap then
    { s with
      txq := { s.txq with ctrl := s.txq.ctrl ++ [c] },
      xen := { s.xen with rescanWaits := s.rescanWaitsAt (s.txq.ctrl.length + 1) } }
  else s

/-- A frame placed in the control queue as the youngest WAITING entry, with busy count 0 (R105, R106). -/
def pushCtrl (f : Frame) (o : Owner) (s : State) : State := s.pushEntry ⟨f, o, 0, false⟩

/-- Can a waiting claimant use a control queue entry now (R61, R106, R152; log 14). -/
def claimAble (s : State) (c : CtrlClaim) : Bool :=
  match c with
  | .frame _ _ | .credit _ | .pendingAbort _ _ => true
  | .inboxHead => s.headNeedsCtrl && (!s.headNeedsReport || s.reportTurn .inboxHead 1)
  | .rescan => s.xen.rescanWaits && s.xen.rescanAt.isNone && s.xen.rescanDue && s.sct.station == .online && s.freeSlot.isSome

/-- Is a free entry for who comes behind the given claimants: no owed ABORT waits, and none of them can use an entry
(R20, R106). -/
def ctrlBehind (s : State) (ahead : List CtrlClaim) : Bool :=
  !s.ctrlFull && s.txq.owed.isEmpty && !ahead.any s.claimAble

/-- Is a free entry for a frame that becomes due now: it passes nobody who waits (R106). -/
def ctrlRoom (s : State) : Bool := s.ctrlBehind s.txq.line

/-- Is it a claimant's turn for a control queue entry: those that began waiting before it come first (R106). -/
def ctrlTurn (s : State) (c : CtrlClaim) : Bool := s.ctrlBehind (s.txq.line.takeWhile (· != c))

/-- A claimant begins to wait for a control queue entry, if it does not wait already (R106). -/
def claimCtrl (c : CtrlClaim) (s : State) : State :=
  if s.txq.line.contains c then s else { s with txq := { s.txq with line := s.txq.line ++ [c] } }

/-- A claimant no longer waits for a control queue entry. -/
def unclaimCtrl (c : CtrlClaim) (s : State) : State :=
  { s with txq := { s.txq with line := s.txq.line.filter (· != c) } }

/-- A frame becomes due: it is placed where an entry is free and nobody waits who can use it, else it waits in the line
behind those who do (R106; log 13). -/
def dueFrame (f : Frame) (o : Owner) (s : State) : State :=
  if s.ctrlRoom then s.pushCtrl f o else { s with txq := { s.txq with line := s.txq.line ++ [.frame f o] } }

/-- Does a slot have a frame of some kind queued, in the transmit slot, or waiting in the line. -/
def hasFrame (s : State) (i : SlotId) (p : FrameBody → Bool) : Bool :=
  s.txq.ctrl.any (CtrlEntry.isOf i (s.gen i) p) || s.txq.line.any (CtrlClaim.isOf i (s.gen i) p)

/-- A frame of a slot becomes due, unless the slot has one of its kind (R27, R97, R102). -/
def dueOnce (i : SlotId) (p : FrameBody → Bool) (b : Exchange → FrameBody) (s : State) : State :=
  match s.ex i with
  | none => s
  | some e => if s.hasFrame i p then s else s.dueFrame (e.frame s.sn (b e)) (.slot i (s.gen i))

/-- The slot's OPEN becomes due (R27). -/
def dueOpen (i : SlotId) (s : State) : State :=
  s.dueOnce i FrameBody.isOpen fun e => .openReq e.key e.dir (to24 e.length)

/-- The slot's HOLD becomes due (R97). -/
def dueHold (i : SlotId) (s : State) : State := s.dueOnce i FrameBody.isHold fun _ => .hold

/-- The slot's DONE becomes due (R102). -/
def dueDone (i : SlotId) (s : State) : State := s.dueOnce i FrameBody.isDone fun e => .done (to24 e.length)

/-- Is an entry a slot's WAITING CREDIT (R108). -/
def isWaitingCredit (s : State) (i : SlotId) (c : CtrlEntry) : Bool :=
  !c.inSlot && c.isOf i (s.gen i) FrameBody.isCredit

/-- The limit of a slot's WAITING CREDIT raised to the limit granted (R90, R108). -/
def raiseCredit (i : SlotId) (limit : Nat) (s : State) : State :=
  { s with
    txq :=
      { s.txq with
        ctrl := s.txq.ctrl.map fun c =>
          if s.isWaitingCredit i c then { c with frame := { c.frame with body := .credit (to24 limit) } } else c } }

/-- The slot's CREDIT becomes due (R90, R108). -/
def dueCredit (i : SlotId) (s : State) : State :=
  match s.ex i with
  | none => s
  | some e =>
    if s.txq.ctrl.any (s.isWaitingCredit i) then s.raiseCredit i e.granted
    else if s.txq.line.contains (.credit i) then s
    else if s.ctrlRoom then s.pushCtrl (e.frame s.sn (.credit (to24 e.granted))) (.slot i (s.gen i))
    else s.claimCtrl (.credit i)

/-- The slot's frames of some kind that have not been handed to the transmit slot are withdrawn or dropped (R107). -/
def withdraw (i : SlotId) (p : FrameBody → Bool) (s : State) : State :=
  { s with
    txq :=
      { s.txq with
        ctrl := s.txq.ctrl.filter fun c => c.inSlot || !c.isOf i (s.gen i) p,
        line := s.txq.line.filter fun c => !c.isOf i (s.gen i) p } }

/-- The reply ABORT(UNKNOWN) to an unknown frame: placed at once if an entry is free, and not made otherwise; it never
waits (R17, R106). Free is an entry that no frame holds (R105); that it is free for the reply also while somebody waits
to be handed it is DEDUCED (log 13). -/
def replyUnknown (f : Frame) (s : State) : State :=
  if s.ctrlFull then s else s.pushCtrl ⟨f.src, s.sn, !f.fromOrig, f.tag, .abort .unknown⟩ .nobody

end State

/-! ### Entry to RETIRING (R18, R20, R84, R104) -/

/-- The record at entry to RETIRING: the outcome is recorded, timer and flags are cleared, the walk's marks are dropped
and its gate opens (R18, R78). -/
def Exchange.enterRetiring (r : Result) (owes : Option Reason) (e : Exchange) : Exchange :=
  { e with
    state := .retiring, timer := Timer.cleared, localPause := false, peerHold := false, walk := e.walk.drop,
    outcome := some ⟨r, if owes.isSome then .owed else .notNeeded, owes.getD .unknown⟩ }

/-- The abort state of a RETIRING record set (R20). -/
def Exchange.setAbort (a : AbortState) (e : Exchange) : Exchange :=
  { e with outcome := e.outcome.map fun o => { o with abort := a } }

/-- An owed or queued ABORT is settled (R20). -/
def Exchange.settleAbort (e : Exchange) : Exchange :=
  match e.outcome with
  | some o =>
    match o.abort with
    | .owed | .queued => e.setAbort .settled
    | .notNeeded | .settled => e
  | none => e

namespace State

/-- What becomes of one outbound buffer at the entry of slot i to RETIRING (R84). -/
def giveUpBuffer (s : State) (i : SlotId) (b : BufId) : Option OutBuffer → Option OutBuffer
  | none => none
  | some v =>
    if v.slot = i ∧ v.gen = s.gen i then
      match v.state with
      | .ready => none
      | .filling =>
        if s.inProgress (.dataRead i v.gen b) then some { v with state := .discarding }
        else if s.inProgress (.entryRead i v.gen) then some v
        else none
      | .sending | .discarding => some v
    else some v

/-- The outbound buffers of slot i given up (R84); a buffer that was taken back and is now FREE is forgotten (R110). -/
def giveUpBuffers (i : SlotId) (s : State) : State :=
  let t := { s with fbd := { s.fbd with buffers := mapAll (s.giveUpBuffer i) s.fbd.buffers } }
  { t with txq := { t.txq with takenBack := t.txq.takenBack.filter fun b => (t.buffer b).isSome } }

/-- What becomes of one staging cell at the entry of slot i to RETIRING (R104). -/
def reclaimCell (s : State) (i : SlotId) (c : CellId) : Option Cell → Option Cell
  | none => none
  | some v =>
    if v.slot = i ∧ v.gen = s.gen i then
      match v.state with
      | .reserved => none
      | .filled => if s.inProgress (.drainWrite i v.gen c) then some { v with state := .reclaiming } else none
      | .reclaiming => some v
    else some v

/-- The drain's choice at the entry of slot i to RETIRING: it lapses unless a transfer of it is in progress (R95). -/
def drainAfterRetiring (s : State) (i : SlotId) : DrainState :=
  match s.stg.drain with
  | .idle => .idle
  | .choosing j g => if j = i ∧ g = s.gen i ∧ s.inProgress (.entryRead j g) = false then .idle else .choosing j g
  | .writing j g c =>
    if j = i ∧ g = s.gen i ∧ s.inProgress (.drainWrite j g c) = false then .idle else .writing j g c

/-- The staging cells of slot i reclaimed (R104). -/
def reclaimCells (i : SlotId) (s : State) : State :=
  { s with stg := { s.stg with cells := mapAll (s.reclaimCell i) s.stg.cells, drain := s.drainAfterRetiring i } }

/-- The owed ABORT of slot i placed in the control queue (R20). -/
def placeAbort (i : SlotId) (s : State) : State :=
  match s.ex i with
  | none => s
  | some e =>
    match e.outcome with
    | none => s
    | some o =>
      (s.pushCtrl (e.frame s.sn (.abort o.abortReason)) (.slot i (s.gen i))).updEx i (Exchange.setAbort .queued)

/-- An ABORT becomes owed: it is placed at once if an entry is free and no older owed ABORT waits, or waits ahead of the
line, behind the older ones (R20, R106). -/
def oweAbort (i : SlotId) (s : State) : State :=
  if s.ctrlFull = false ∧ s.txq.owed = [] then s.placeAbort i
  else { s with txq := { s.txq with owed := s.txq.owed ++ [i] } }

/-- ENTRY TO RETIRING (R18): the outcome of slot i is r, and an ABORT with the given reason is owed, if any. A slot
that is FREE or already RETIRING does not act on the cause (R19). -/
def retire (i : SlotId) (r : Result) (owes : Option Reason) (s : State) : State :=
  match s.ex i with
  | none => s
  | some e =>
    match e.state with
    | .retiring => s
    | .opening | .backoff | .parked | .sending | .receiving | .confirming | .finishing =>
      let t := s |>.withdraw i (fun _ => true) |>.giveUpBuffers i |>.reclaimCells i |>.withdrawRequests i
        |>.unclaimReport (.mark i) |>.updEx i (Exchange.enterRetiring r owes)
      if owes.isSome then t.oweAbort i else t

/-- A cause that ends the exchange with a reason and owes an ABORT with the same reason (R18). -/
def abortWith (i : SlotId) (r : Reason) (s : State) : State := s.retire i (.failed r none) (some r)

/-- A cause that ends the exchange with a reason and owes no ABORT (R18). -/
def endWith (i : SlotId) (r : Reason) (s : State) : State := s.retire i (.failed r none) none

/-- The settling of a slot's ABORT, which no longer waits for an entry (R20). -/
def settle (i : SlotId) (s : State) : State :=
  let t := s.updEx i Exchange.settleAbort
  { t with txq := { t.txq with owed := t.txq.owed.filter (· != i) } }

end State

/-- Does CANCEL owe an ABORT: in every state but BACKOFF, and but OPENING while no OPEN of the slot has ever been
handed to the transmit slot (R18, R42). -/
def Exchange.cancelOwes (e : Exchange) : Bool :=
  match e.state with
  | .backoff => false
  | .opening => e.openHanded
  | .parked | .sending | .receiving | .confirming | .finishing | .retiring => true

namespace State

/-- The cancel of an exchange (R42, R66, R145). -/
def cancel (i : SlotId) (s : State) : State :=
  match s.ex i with
  | none => s
  | some e => s.retire i (.failed .cancelled none) (if e.cancelOwes then some .cancelled else none)

/-! ### Credit (R87 to R89) -/

/-- The FREE cells in number order (R88). -/
def freeCells (s : State) : List CellId := (List.finRange 64).filter fun c => (s.cell c).isNone

/-- Is a cell held by slot i's exchange (R87). -/
def cellIsOf (s : State) (i : SlotId) (c : CellId) : Bool :=
  match s.cell c with
  | some v => v.slot == i && v.gen == s.gen i
  | none => false

/-- The outstanding count of slot i's exchange (R87). -/
def outstanding (s : State) (i : SlotId) : Nat := ((List.finRange 64).filter (s.cellIsOf i)).length

/-- The cells a service grants (R88). -/
def grantSize (s : State) (i : SlotId) (e : Exchange) : Nat :=
  min (min s.freeCells.length (s.par.window - s.outstanding i)) e.cellsToGrant

/-- The first n FREE cells become RESERVED for the next n cell indices of slot i's exchange (R88). -/
def reserveCells (i : SlotId) (e : Exchange) (n : Nat) (s : State) : State :=
  let taken := s.freeCells.take n
  { s with
    stg :=
      { s.stg with
        cells := mapAll
          (fun c v => if taken.contains c then some ⟨.reserved, i, s.gen i, cellsOf e.granted + taken.idxOf c, []⟩ else v)
          s.stg.cells } }

/-- The record after a grant of n cells: the limit rises, capped at the length, and a limit that rises above bytes
received starts the QUIET timer (R12, R88; log 16). -/
def grantRecord (p : StartParams) (n : Nat) (e : Exchange) : Exchange :=
  let e' := { e with granted := min (e.granted + 256 * n) e.length }
  if e.granted ≤ e.received ∧ e'.received < e'.granted then e'.startQuiet p else e'

/-- One service of the credit allocator to slot i (R88); also the initial grant (R89). -/
def grant (i : SlotId) (s : State) : State :=
  match s.ex i with
  | none => s
  | some e =>
    (s.reserveCells i e (s.grantSize i e)).updEx i (grantRecord s.par (s.grantSize i e))

/-- A receiver's slot opens: RECEIVING with its initial grant, or FINISHING for length 0 (R89, R103). -/
def openReceiver (i : SlotId) (s : State) : State :=
  match s.ex i with
  | none => s
  | some e =>
    if e.length = 0 then s.updEx i fun e => { e.clearTimer with state := .finishing }
    else (s.updEx i fun e => { e.idleQuiet s.par with state := .receiving }).grant i

/-- A sender's slot opens: SENDING, or CONFIRMING for length 0, with its QUIET timer started (R36, R54, R103). -/
def openSender (i : SlotId) (s : State) : State :=
  s.updEx i fun e => { e.startQuiet s.par with state := if e.length = 0 then .confirming else .sending }

end State

end Sys2Proof.Machine
end

