-- ==== Sys2Proof/Machine/Transfer.lean ====
section
/-!
DEFINITION. The work of a transfer: fills of outbound buffers (R80 to R82), marks (R75 to R77), arriving DATA (R92 to
R94), the drain (R95, R96), CONTINUE at a slot (R100) and the credit allocator's choice (R88).
-/

namespace Sys2Proof.Machine

/-! ### Fills (R80 to R82) -/

/-- The record with its walk at a new position. -/
def Exchange.withWalk (w : Walk) (e : Exchange) : Exchange := { e with walk := w }

/-- The record after its walk has handed out c bytes to a fill (R81). -/
def Exchange.prepare (c : Nat) (e : Exchange) : Exchange := { e with prepared := e.prepared + c }

/-- The ceiling of a fill that starts at bytes prepared (R81). -/
def Exchange.fillCeiling (e : Exchange) : Nat :=
  min (min ((e.prepared / 256 + 1) * 256) e.creditReceived) e.length

namespace State

/-- Is a buffer held by slot i's exchange (R79). -/
def bufferIsOf (s : State) (i : SlotId) (b : BufId) : Bool :=
  match s.buffer b with
  | some v => v.slot == i && v.gen == s.gen i
  | none => false

/-- Is a buffer of slot i's exchange in some state. -/
def bufferIn (s : State) (i : SlotId) (st : BufState) (b : BufId) : Bool :=
  match s.buffer b with
  | some v => v.slot == i && v.gen == s.gen i && v.state == st
  | none => false

/-- Is an exchange eligible for a new fill (R80). -/
def fillEligible (s : State) (i : SlotId) : Bool :=
  match s.ex i with
  | none => false
  | some e =>
    e.state == .sending && !e.localPause
      && decide ((bufIds.filter (s.bufferIsOf i)).length < 2)
      && !bufIds.any (s.bufferIn i .filling)
      && decide (e.prepared < e.creditReceived ∧ e.prepared < e.length)
      && (match e.walk.gate with
          | none => true
          | some g => decide (e.prepared < g))

/-- One step of the fill in buffer b: it ends at its ceiling, or asks the walk for the next bytes (R81, R82). A fill that
waits for room in the mark queue stays FILLING, but where every mark's point lies inside its own frame the frame ends
before the flagged entry, so that the wait can end (R75; log 34). -/
def fillGo (b : BufId) (s : State) : State :=
  match s.buffer b with
  | none => s
  | some v =>
    match s.ex v.slot with
    | none => s
    | some e =>
      if v.ceiling ≤ e.prepared then s.setBuffer b (some { v with state := .ready })
      else
        let a := e.walk.ask e.length v.ceiling
        let t := s.updEx v.slot (Exchange.withWalk a.1)
        match a.2 with
        | .piece addr c => (t.updEx v.slot (Exchange.prepare c)).placeFor v.slot ⟨.dataRead v.slot v.gen b, addr, c, []⟩
        | .read addr => t.placeFor v.slot ⟨.entryRead v.slot v.gen, addr, 16, []⟩
        | .gate =>
          if e.prepared = v.offset then t.setBuffer b none else t.setBuffer b (some { v with state := .ready })
        | .wait => if e.walk.waitEnds v.offset then t else t.setBuffer b (some { v with state := .ready })
        | .error r => t.abortWith v.slot r

/-- A fill of slot i that waits for room in the mark queue goes on (R75, R81). -/
def resumeFill (i : SlotId) (s : State) : State :=
  match s.ex i with
  | none => s
  | some e =>
    match bufIds.find? (s.bufferIn i .filling) with
    | none => s
    | some b => if e.state = .sending ∧ e.transfers = 0 then s.fillGo b else s

/-! ### Marks (R76, R77) -/

/-- The mark at the head of slot i's mark queue, when its point is reached (R76). -/
def headMark (s : State) (i : SlotId) : Option Mark :=
  match s.ex i with
  | none => none
  | some e =>
    match e.walk.marks with
    | [] => none
    | m :: _ => if m.point ≤ e.doneBytes then some m else none

end State

/-- The report queue entries a mark needs (R76, R77). -/
def Mark.need (m : Mark) : Nat := if m.note && m.pause then 2 else 1

/-- The record whose head mark has left the mark queue. -/
def Exchange.popMark (e : Exchange) : Exchange := { e with walk := { e.walk with marks := e.walk.marks.tail } }

/-- The record as a PAUSE acts on it (R77, R13). -/
def Exchange.pause (e : Exchange) : Exchange := { e.stopTimer with localPause := true }

namespace State

/-- The head mark of slot i acts: NOTE, then PAUSE, in one step (R76, R77). -/
def actMark (i : SlotId) (m : Mark) (s : State) : State :=
  match s.ex i with
  | none => s
  | some e =>
    let t := (s.updEx i Exchange.popMark).unclaimReport (.mark i)
    let t := if m.note then t.pushReport (.note e.orderTag m.base m.index) else t
    if m.pause then ((t.updEx i Exchange.pause).pushReport (.paused e.orderTag m.point)).dueHold i else t

/-- Does the mark at the head of slot i's mark queue act now: its point is reached and its reports have their entries
(R76, R77). -/
def headActs (s : State) (i : SlotId) : Bool :=
  match s.headMark i with
  | none => false
  | some m => s.reportTurn (.mark i) m.need

/-- The marks of slot i whose points are reached act one after another, in entry order; one whose reports have no
entries stays at the head and waits for them (R76). -/
def actMarks : Nat → SlotId → State → State
  | 0, _, s => s
  | n + 1, i, s =>
    match s.headMark i with
    | none => s
    | some m => if s.reportTurn (.mark i) m.need then actMarks n i (s.actMark i m) else s.claimReport (.mark i)

/-- The mark queue of slot i examined, in more rounds than it has places: every mark whose point is reached acts first
(R76), and only then a fill that waited for their room goes on (R75). A mark that the fill records then acts too, where
its point is reached already (R76). -/
def settleMarks (i : SlotId) (s : State) : State :=
  if s.headActs i then actMarks 16 i ((actMarks 16 i s).resumeFill i) else actMarks 16 i s

/-- The fill in buffer b goes on, and marks it has recorded act if their points are reached (R75, R76, R81). -/
def fillOn (b : BufId) (s : State) : State :=
  match s.buffer b with
  | none => s
  | some v => (s.fillGo b).settleMarks v.slot

/-! ### Arriving DATA (R92 to R94, R99, R102) -/

/-- The cell of slot i's exchange with a cell index (R87). -/
def findCell (s : State) (i : SlotId) (k : Nat) : Option CellId :=
  (List.finRange 64).find? fun c =>
    match s.cell c with
    | some v => v.slot == i && v.gen == s.gen i && v.index == k
    | none => false

/-- A payload stored in the cell of its range (R93). -/
def storePayload (i : SlotId) (offset : Nat) (payload : List Byte) (s : State) : State :=
  match s.findCell i (offset / 256) with
  | none => s
  | some c =>
    match s.cell c with
    | none => s
    | some v => s.setCell c (some { v with state := .filled, bytes := v.bytes ++ payload })

end State

/-- The record after an accepted DATA frame that ends at offset r (R93, R99, R102, R12). -/
def Exchange.accepted (p : StartParams) (r : Nat) (e : Exchange) : Exchange :=
  let e' := { e with received := r, peerHold := false }
  if r = e.length then { e'.clearTimer with state := .finishing }
  else if e'.creditOwed then e'.restartQuiet p
  else e'.stopTimer

/-- The record with peer hold cleared, and the QUIET timer restarted where it runs (R99, R12). -/
def Exchange.unhold (p : StartParams) (e : Exchange) : Exchange := { e with peerHold := false }.restartQuiet p

/-- What the checks of R93 decide for a DATA frame at an exchange in RECEIVING. -/
inductive DataCheck where
  | malformed | duplicate | outOfOrder | overrun | accepted
  deriving DecidableEq, Repr

/-- The checks of R93, in order: offset a, count c. -/
def Exchange.checkData (e : Exchange) (a c : Nat) : DataCheck :=
  if c = 0 ∨ 256 < c ∨ a / 256 ≠ (a + c - 1) / 256 then .malformed
  else if a < e.received then .duplicate
  else if e.received < a then .outOfOrder
  else if e.granted < a + c then .overrun
  else .accepted

namespace State

/-- A DATA frame at an exchange in RECEIVING (R93, R94). -/
def receiveData (i : SlotId) (e : Exchange) (a c : Nat) (payload : List Byte) (s : State) : State :=
  match e.checkData a c with
  | .malformed | .outOfOrder => s.abortWith i .protocol
  | .duplicate => s.updEx i (Exchange.unhold s.par)
  | .overrun => s.abortWith i .overrun
  | .accepted => (s.storePayload i a payload).updEx i (Exchange.accepted s.par (a + c))

/-- A DATA frame dispatched: looked up and checked at once (R92; log 17). -/
def takeData (f : Frame) (a c : Nat) (payload : List Byte) (s : State) : State :=
  match s.lookup f with
  | none => s.replyUnknown f
  | some i =>
    match s.ex i with
    | none => s
    | some e =>
      match e.state with
      | .receiving => s.receiveData i e a c payload
      | .finishing => s.updEx i (Exchange.unhold s.par)
      | .sending | .confirming => s.quiet i
      | .opening | .backoff | .parked | .retiring => s

/-! ### The drain (R95, R96) -/

end State

/-- The end of the range the drain asks for: bytes received, or the end of the cell that holds bytes drained (R95). -/
def Exchange.drainEnd (e : Exchange) : Nat := min e.received ((e.drained / 256 + 1) * 256)

/-- The end of the range of the cell with an index (R86). -/
def Exchange.cellEnd (e : Exchange) (k : Nat) : Nat := min ((k + 1) * 256) e.length

namespace State

/-- Is a receiving exchange drainable (R95). -/
def drainable (s : State) (i : SlotId) : Bool :=
  match s.ex i with
  | none => false
  | some e =>
    (e.state == .receiving || e.state == .finishing) && !e.localPause && decide (e.drained < e.received)
      && e.walk.canGoOn e.length e.drainEnd

/-- The drain's choice set. -/
def setDrain (d : DrainState) (s : State) : State := { s with stg := { s.stg with drain := d } }

/-- A drain write of c bytes at an address placed from the cell that holds bytes drained (R95). -/
def placeDrain (i : SlotId) (e : Exchange) (addr c : Nat) (s : State) : State :=
  match s.findCell i (e.drained / 256) with
  | none => s.setDrain .idle
  | some k =>
    match s.cell k with
    | none => s.setDrain .idle
    | some v =>
      (s.placeFor i ⟨.drainWrite i (s.gen i) k, addr, c, (v.bytes.drop (e.drained % 256)).take c⟩).setDrain
        (.writing i (s.gen i) k)

/-- The drain asks the chosen exchange's walk for the next piece (R95, R73). -/
def drainGo (i : SlotId) (s : State) : State :=
  match s.ex i with
  | none => s.setDrain .idle
  | some e =>
    let a := e.walk.ask e.length e.drainEnd
    let t := s.updEx i (Exchange.withWalk a.1)
    match a.2 with
    | .piece addr c => t.placeDrain i e addr c
    | .read addr => (t.placeFor i ⟨.entryRead i (s.gen i), addr, 16, []⟩).setDrain (.choosing i (s.gen i))
    | .gate | .wait => t.setDrain .idle
    | .error r => (t.setDrain .idle).abortWith i r

/-- The drain goes on with the chosen exchange, and marks its walk has recorded act if their points are reached. -/
def drainOn (i : SlotId) (s : State) : State := (s.drainGo i).settleMarks i

/-- A cell becomes FREE once the drain has passed the end of its range (R96). -/
def freeDrained (i : SlotId) (c : CellId) (s : State) : State :=
  match s.ex i, s.cell c with
  | some e, some v => if e.cellEnd v.index ≤ e.drained then s.setCell c none else s
  | _, _ => s

/-- The slot's DONE becomes due when the drain has ended in FINISHING (R96, R102). -/
def dueDrained (i : SlotId) (s : State) : State :=
  match s.ex i with
  | none => s
  | some e => if e.state = .finishing ∧ e.drained = e.length then s.dueDone i else s

/-- A completed drain write of n bytes from cell c at slot i in RECEIVING or FINISHING (R96). -/
def drained (i : SlotId) (c : CellId) (n : Nat) (s : State) : State :=
  s |>.updEx i (fun e => { e with drained := e.drained + n }) |>.settleMarks i |>.freeDrained i c |>.dueDrained i

/-- A RECLAIMING cell becomes FREE at the end of the write from it (R96, R104). -/
def freeReclaimed (c : CellId) (s : State) : State :=
  match s.cell c with
  | some v => if v.state = .reclaiming then s.setCell c none else s
  | none => s

/-! ### CONTINUE (R100) -/

end State

/-- The record as CONTINUE clears its local pause: the gate opens and the timer starts again (R78, R13). -/
def Exchange.resume (p : StartParams) (e : Exchange) : Exchange :=
  { e with localPause := false, walk := { e.walk with gate := none } }.resumeTimer p

namespace State

/-- A CONTINUE at slot i (R100). -/
def continueSlot (i : SlotId) (s : State) : State :=
  match s.ex i with
  | none => s
  | some e =>
    if e.localPause then
      let t := (s.updEx i (Exchange.resume s.par)).withdraw i FrameBody.isHold
      match e.side with
      | .sender => t
      | .receiver => t.dueCredit i
    else s

/-! ### The credit allocator (R88) -/

/-- Is a receiving exchange eligible for service by the credit allocator (R88). -/
def grantEligible (s : State) (i : SlotId) : Bool :=
  match s.ex i with
  | none => false
  | some e =>
    e.state == .receiving && !e.localPause && decide (s.outstanding i < s.par.window) && decide (0 < e.cellsToGrant)

end State

end Sys2Proof.Machine
end

