-- ==== Sys2Proof/Machine/Matcher.lean ====
section
/-!
DEFINITION. The matcher: binding a request to an offer (R54, R63), an OPEN at the inbox head (R52 to R56), rescans of
the Pending List (R61 to R64), the release of a slot (R22, R65).
-/

namespace Sys2Proof.Machine

/-! ### Due rescans (R61) -/

namespace State

/-- A rescan becomes due; in any state other than ONLINE it is cleared without running (R61). It takes its place in the
line of R106 at that moment, and waits for an entry where the control queue is full. -/
def makeRescanDue (s : State) : State :=
  if s.sct.station = .online then
    { s with
      xen :=
        { s.xen with
          rescanDue := true,
          rescanWaits := s.xen.rescanWaits || decide (Config.ctrlCap ≤ s.txq.ctrl.length) } }.claimCtrl .rescan
  else s

/-! ### Binding (R54, R63, R103) -/

end State

/-- The record of a responder slot at allocation (R54, R2, R3). -/
def Exchange.ofOffer (o : OfferId) (v : Offer) (peer : Station) (tag : Tag) (dir : Direction) (key : Word) (size : Nat) :
    Exchange where
  state := .opening
  role := .responder
  dir := dir
  peer := peer
  tag := tag
  key := key
  length := match dir with
    | .push => size
    | .pull => v.size
  orderTag := v.orderTag
  offer := some o
  walk := Walk.start v.base
  prepared := 0
  acknowledged := 0
  creditReceived := 0
  received := 0
  drained := 0
  granted := 0
  openAttempts := 0
  backoffs := 0
  localPause := false
  peerHold := false
  timer := Timer.cleared
  outcome := none
  transfers := 0
  openHanded := false

/-- The field of an ACCEPT or RECALL: the credit limit granted for a PUSH, the length for a PULL (R54, R63). -/
def Exchange.answerField (e : Exchange) : Nat :=
  match e.dir with
  | .push => e.granted
  | .pull => e.length

namespace State

/-- The slot of a bound request opens by its side (R54): it takes its own state in the same step. -/
def openResponder (i : SlotId) (dir : Direction) (s : State) : State :=
  match dir with
  | .push => s.openReceiver i
  | .pull => s.openSender i

/-- The answer to a bound request placed, and the DONE(0) of a receiver of length 0 due behind it (R54, R103). -/
def answerBound (i : SlotId) (answer : BitVec 24 → FrameBody) (s : State) : State :=
  match s.ex i with
  | none => s
  | some e =>
    let t := s.pushCtrl (e.frame s.sn (answer (to24 e.answerField))) (.slot i (s.gen i))
    match e.state with
    | .finishing => t.dueDone i
    | _ => t

/-- A request bound to offer o in slot i: the slot is allocated, the offer becomes BOUND, the slot opens, and its
answer, an ACCEPT or a RECALL, is placed (R54, R63). -/
def bind (i : SlotId) (o : OfferId) (answer : BitVec 24 → FrameBody) (peer : Station) (tag : Tag) (dir : Direction)
    (key : Word) (size : Nat) (s : State) : State :=
  match s.offer o with
  | none => s
  | some v =>
    s |>.setOffer o (some { v with state := .bound i }) |>.setEx i (some (Exchange.ofOffer o v peer tag dir key size))
      |>.openResponder i dir |>.answerBound i answer

/-- A capacity failure: ABORT(TOO_LONG) to the originator, SERVED(TOO_LONG) for the chosen offer (R51). -/
def tooLong (o : OfferId) (peer : Station) (tag : Tag) (key : Word) (s : State) : State :=
  match s.offer o with
  | none => s
  | some v =>
    (s.pushCtrl (s.replyFrame peer tag (.abort .tooLong)) .nobody).pushReport
      (.served v.orderTag peer key 0 (.failed .tooLong none))

/-! ### An OPEN at the inbox head (R52 to R56) -/

/-- The inbox head's handling ends (R126). -/
def popInbox (s : State) : State :=
  let t := { s with lpt := { s.lpt with inbox := s.lpt.inbox.tail } }
  (t.unclaimCtrl .inboxHead).unclaimReport .inboxHead

/-- A stale entry taken off the Pending List (R53). -/
def dropStale (p : Station) (t : Tag) (s : State) : State := s.dropDeferred (Deferred.sameSlot p t)

/-- A request stored on the Pending List, as the youngest or at a kept rank (R53, R55). -/
def storeDeferred (d : Deferred) (rank : Option Nat) (s : State) : State :=
  match rank with
  | some k => { s with xen := { s.xen with deferred := s.xen.deferred.set k d } }
  | none =>
    if s.xen.deferred.length < Config.deferredCap then
      { s with xen := { s.xen with deferred := s.xen.deferred ++ [d] } }
    else s

/-- The answer to a further copy of an OPEN (R56), which counts for the QUIET timer (R12). -/
def answerCopy (i : SlotId) (s : State) : State :=
  match s.ex i with
  | none => s
  | some e => (s.pushCtrl (e.frame s.sn (.accept (to24 e.answerField))) (.slot i (s.gen i))).quiet i

/-- The handling of an OPEN by its plan, when what it needs is free for it (R52 to R56). -/
def handleOpen (f : Frame) (key : Word) (dir : Direction) (size : Nat) (plan : OpenPlan) (s : State) : State :=
  match plan with
  | .copy i => s.answerCopy i
  | .copySilent i => s.quiet i
  | .discard => s
  | .detaching => s.pushCtrl (s.replyFrame f.src f.tag (.abort .detaching)) .nobody
  | .held => s.pushCtrl (s.replyFrame f.src f.tag (.defer .held)) .nobody
  | .bind i o => (s.dropStale f.src f.tag).bind i o .accept f.src f.tag dir key size
  | .tooLong o => (s.dropStale f.src f.tag).tooLong o f.src f.tag key
  | .store rank =>
    (s.storeDeferred ⟨f.src, f.tag, dir, key, size⟩ rank).pushCtrl (s.replyFrame f.src f.tag (.defer .held)) .nobody
  | .full => s.pushCtrl (s.replyFrame f.src f.tag (.defer .full)) .nobody

/-- Is everything a plan needs free for the inbox head (R52). -/
def openReady (s : State) (plan : OpenPlan) : Bool :=
  (!plan.needsCtrl || s.ctrlTurn .inboxHead) && (!plan.needsReport || s.reportTurn .inboxHead 1)

/-- The inbox head waits for what its plan lacks, and for no report where its plan has come to need none (R52, R106,
R152). -/
def openWaits (plan : OpenPlan) (s : State) : State :=
  let t := if plan.needsCtrl then s.claimCtrl .inboxHead else s
  if plan.needsReport then t.claimReport .inboxHead else t.unclaimReport .inboxHead

/-- An OPEN at the inbox head: handled, when it no longer waits for an entry, or it waits (R52). -/
def takeOpen (s : State) : State :=
  match s.lpt.inbox with
  | [] => s
  | f :: _ =>
    match f.body with
    | .openReq key dir size =>
      let plan := s.openPlan f key dir size.toNat
      if s.openReady plan then ((s.unclaimCtrl .inboxHead).handleOpen f key dir size.toNat plan).popInbox
      else s.openWaits plan
    | _ => s

/-! ### The release of a slot (R22, R65) -/

end State

/-- The bytes an exchange's final report carries (R22). -/
def Exchange.bytesReported (e : Exchange) (r : Result) : Nat :=
  match r with
  | .completed => e.length
  | .failed _ _ => e.doneBytes

/-- The cause of a CLOSED report at a release, where the offer is removed (R65). -/
def Offer.closes (v : Offer) (r : Result) : Option CloseCause :=
  match r, v.standing, v.state with
  | .completed, false, _ => some .used
  | _, _, .withdrawing _ => some .withdrawn
  | _, _, _ => none

namespace State

/-- The offer a responder slot is bound to. -/
def boundOffer (s : State) (e : Exchange) : Option Offer :=
  match e.offer with
  | some o => s.offer o
  | none => none

/-- The reports of a release, in order (R22, R65). -/
def releaseReports (s : State) (e : Exchange) (r : Result) : List Report :=
  match e.role with
  | .originator =>
    match r with
    | .completed => [.finished e.orderTag e.length]
    | .failed why p => [.failed e.orderTag why p (e.bytesReported r)]
  | .responder =>
    .served e.orderTag e.peer e.key (e.bytesReported r) r ::
      match s.boundOffer e with
      | none => []
      | some v =>
        match v.closes r with
        | none => []
        | some c => [.closed v.orderTag c]

/-- The offer of a released responder slot: removed for the CLOSED cases, OPEN again for the others (R65). -/
def freeOfferOf (e : Exchange) (r : Result) (s : State) : State :=
  match e.offer with
  | none => s
  | some o =>
    match s.offer o with
    | none => s
    | some v =>
      match v.closes r with
      | some _ => s.removeOffer o
      | none => s.setOffer o (some { v with state := .openState })

end State

/-- Can a RETIRING record's slot be released, as far as its ABORT and its transfers go (R22). -/
def Exchange.settled (e : Exchange) : Option Result :=
  match e.state, e.outcome with
  | .retiring, some o =>
    if (o.abort = .settled ∨ o.abort = .notNeeded) ∧ e.transfers = 0 then some o.result else none
  | _, _ => none

/-- A held head is examined again at a slot release (R140). -/
def Head.afterRelease : Head → Head
  | .record o .held => .record o .examine
  | .absent => .absent
  | .fetching => .fetching
  | .record o w => .record o w

namespace State

/-- A slot made FREE: its generation advances (R22). A due rescan that had no FREE slot waited for one, not for a control
queue entry (R61, R106; log 14). -/
def freeSlotOf (i : SlotId) (s : State) : State :=
  { s with
    xen :=
      { s.xen with
        slots := s.xen.slots.set i ⟨s.gen i + 1, none⟩,
        originOrder := s.xen.originOrder.filter (· != i),
        rescanWaits := s.xen.rescanWaits && s.freeSlot.isSome } }

/-- Reports queued in order. -/
def pushReports (l : List Report) (s : State) : State := l.foldl (fun t r => t.pushReport r) s

/-- The release of a slot (R22): the reports, the offer, the generation, the record; then a rescan is due, the ACKs
that await the release are due, and a held head is examined again. -/
def releaseSlot (i : SlotId) (e : Exchange) (r : Result) (s : State) : State :=
  let g := s.gen i
  let t := s |>.pushReports (s.releaseReports e r) |>.freeOfferOf e r |>.freeSlotOf i |>.unclaimReport (.release i)
    |>.ackEvent (· == .release i g)
  { t with ord := { t.ord with head := t.ord.head.afterRelease } }.makeRescanDue

/-- A RETIRING slot ready for release is released, or waits for its report queue entries (R22, R152). -/
def tryRelease (i : SlotId) (s : State) : State :=
  match s.ex i with
  | none => s
  | some e =>
    match e.settled with
    | none => s
    | some r =>
      if s.reportTurn (.release i) (s.releaseReports e r).length then s.releaseSlot i e r else s.claimReport (.release i)

/-! ### Rescans (R62 to R64) -/

/-- A rescan ends (R62), and is made due again where it has stopped. One that has become due meanwhile takes its place
now, and waits for an entry only where the queue is full now (R106; log 14, log 28). -/
def endRescan (again : Bool) (s : State) : State :=
  let t := (s.unclaimCtrl .rescan).unclaimReport .rescan
  let t := { t with xen := { t.xen with rescanWaits := false, rescanAt := none } }
  if again || t.xen.rescanDue then t.makeRescanDue else t

/-- The entry at a place removed from the Pending List (R58). -/
def eraseDeferred (k : Nat) (s : State) : State :=
  { s with xen := { s.xen with deferred := s.xen.deferred.eraseIdx k } }

/-- A rescan from the entry at place k on, for at most n entries (R62 to R64). Where an entry's offer is too small, the
control queue is looked at before the report queue: with both full the rescan ends and is due again (log 37). -/
def rescanFrom : Nat → Nat → State → State
  | 0, _, s => s.endRescan false
  | n + 1, k, s =>
    match s.xen.deferred[k]? with
    | none => s.endRescan false
    | some d =>
      match s.matchOffer d.peer d.dir d.key with
      | none => rescanFrom n (k + 1) s
      | some o =>
        if s.offerHolds o d.dir d.size then
          match s.freeSlot with
          | none => s.endRescan true
          | some i =>
            if s.ctrlTurn .rescan then
              rescanFrom n k ((s.eraseDeferred k).bind i o .recall d.peer d.tag d.dir d.key d.size)
            else s.endRescan true
        else if s.ctrlTurn .rescan then
          if s.reportTurn .rescan 1 then
            rescanFrom n k (((s.eraseDeferred k).tooLong o d.peer d.tag d.key).unclaimReport .rescan)
          else { s with xen := { s.xen with rescanAt := some k } }.claimReport .rescan
        else s.endRescan true

/-- A rescan that stands at an entry is served its report queue entry, and goes on (R64). It goes on at no other moment,
also where the entry it stood at has left meanwhile or its offer no longer fails (log 28). -/
def serveRescan (s : State) : State :=
  match s.xen.rescanAt with
  | none => s.unclaimReport .rescan
  | some k =>
    if s.sct.station = .online ∧ s.ctrlFull = false ∧ s.reportTurn .rescan 1 = true then
      rescanFrom (s.xen.deferred.length + 1) k { s with xen := { s.xen with rescanAt := none } }
    else s

/-- A due rescan runs when the station is ONLINE, a slot is FREE and a control queue entry is free for it (R61). -/
def runRescan (s : State) : State :=
  match s.xen.rescanAt with
  | some _ => s.serveRescan
  | none =>
    if s.xen.rescanDue ∧ s.sct.station = .online ∧ s.freeSlot.isSome ∧ s.ctrlTurn .rescan = true then
      rescanFrom (s.xen.deferred.length + 1) 0 { s with xen := { s.xen with rescanDue := false, rescanWaits := false } }
    else s

end State

end Sys2Proof.Machine
end

