-- ==== Sys2Proof/Machine/Station.lean ====
section
/-!
DEFINITION. Station Control's operations: the status word (R158), the probe (R168 to R170), leaving the lane (R134), the
lane clear event (R131 to R133), entry to FAULT (R173, R174), and the SILENT mark (R129).
-/

namespace Sys2Proof.Machine

namespace State

/-! ### The status word (R158) -/

/-- The status word write as it stands now (R158, 12.1). -/
def statusRequest (s : State) : Request :=
  ⟨.statusWord, s.sct.startBlock.toNat + 0x30, 4, statusWordBytes s.sct.station s.sct.faultCause s.sn⟩

/-- The status word write placed (R158). -/
def placeStatus (s : State) : State :=
  { s with rpt := { s.rpt with status := .inProgress false } }.place s.statusRequest

/-- A status word write becomes due; it is placed at once where the Report Unit has no write placed (R158). -/
def makeStatusDue (s : State) : State :=
  match s.rpt.status with
  | .inProgress _ => { s with rpt := { s.rpt with status := .inProgress true } }
  | .due => s
  | .none => if s.rpt.writer = .idle then s.placeStatus else { s with rpt := { s.rpt with status := .due } }

/-- A change of station state: the FAULT line follows it, and a status word write becomes due (R158, R175). -/
def enter (st : StationState) (s : State) : State :=
  { s with sct := { s.sct with station := st, faultPin := faultLevel st } }.makeStatusDue

/-! ### The lane (R134) -/

/-- The station leaves the lane: the frame in the transmit slot is abandoned and nothing is driven (R134). -/
def leaveLane (s : State) : State :=
  { s with lpt := { s.lpt with tx := none, phase := .idle, pins := { LanePins.released with lcl := s.lpt.pins.lcl } } }

/-- The inbox emptied; its head waits for nothing any more (R126, R132). -/
def emptyInbox (s : State) : State :=
  (({ s with lpt := { s.lpt with inbox := [] } }).unclaimCtrl .inboxHead).unclaimReport .inboxHead

/-! ### The probe (R168 to R170) -/

/-- A PROBE with the present probe mark placed for Station Control (R121, R168). -/
def placeProbe (s : State) : State :=
  { s with sct := { s.sct with probe := true } }.pushCtrl
    ⟨s.sn, s.sn, true, ⟨0, 0⟩, .probe s.sct.tickCount⟩ .stationControl

/-- Entry to PROBING: a probe begins (R168). -/
def startProbe (s : State) : State := (s.enter .probing).placeProbe

/-- The probe ends with the number free (R169). A rescan that has stayed due waits for an entry again (R61). -/
def numberFree (s : State) : State :=
  let t := ({ s with sct := { s.sct with probe := false } }.enter .online).stationReport ⟨.online, .numberFree, 0⟩
  if t.xen.rescanDue then t.makeRescanDue else t

/-- The probe ends with the number taken (R169). -/
def numberTaken (s : State) : State :=
  let t := { s with
    sct := { s.sct with probe := false },
    txq := { s.txq with ctrl := s.txq.ctrl.filter fun c => c.owner != Owner.stationControl } }
  ((t.leaveLane.emptyInbox).enter .conflict).stationReport ⟨.conflict, .numberTaken, 0⟩

end State

/-! ### Lane clear (R131 to R133, R170) -/

/-- After a lane clear no buffer is READY or SENDING (R85, R114). -/
def OutBuffer.afterClear (v : Option OutBuffer) : Option OutBuffer :=
  v.filter fun b => b.state != .sending && b.state != .ready

/-- The Lane Port after a lane clear (R116, R132). -/
def LanePort.cleared (_ : LanePort) : LanePort :=
  { tx := none, spent := false, inbox := [], peers := Vector.replicate 32 .unknown, phase := .idle,
    pins := LanePins.released }

/-- The Transmit Queue after a lane clear (R114); a rescan that stays due keeps its place (R61). -/
def TransmitQueue.cleared (rescanDue : Bool) (q : TransmitQueue) : TransmitQueue :=
  { q with ctrl := [], owed := [], line := q.line.filter (fun c => c == .rescan && rescanDue), takenBack := none }

/-- An await of this station's pulse becomes one of the lane clear event that includes it (R131, R147). -/
def Await.atClear (n : Nat) : Await → Await
  | .clearPulse => .clearReport n
  | .release i g => .release i g
  | .clearReport k => .clearReport k
  | .offlineReport => .offlineReport

namespace State

/-- The Lane Port, the Transmit Queue, the buffers and the Pending List at a lane clear (R60, R85, R114, R132). The due
mark stays as it stands (R61). That a rescan which stands at an entry waiting for a report queue entry (R64) ends here,
and is not made due again, is a DESIGN CHOICE (log 28): R61 speaks of the due mark only. -/
def clearLane (s : State) : State :=
  { s with
    lpt := s.lpt.cleared,
    txq := s.txq.cleared s.xen.rescanDue,
    fbd := { s.fbd with buffers := s.fbd.buffers.map OutBuffer.afterClear },
    xen := { s.xen with deferred := [], rescanWaits := false, rescanAt := none } }

/-- A lane clear at one slot (R23): a RETIRING slot keeps its outcome and its ABORT is settled. -/
def clearSlot (s : State) (i : SlotId) : State :=
  match s.ex i with
  | none => s
  | some e => if e.state = .retiring then s.settle i else s.endWith i .laneCleared

/-- The event is counted, and the CLRs whose pulse it includes await its report (R131, R147; log 9). -/
def countClear (own : Bool) (s : State) : State :=
  { s with
    ord :=
      { s.ord with
        clears := s.ord.clears + 1,
        acks := if own then
            s.ord.acks.map fun a => { a with await := a.await.atClear (s.ord.clears + 1) }
          else s.ord.acks } }

/-- A lane clear event (R132, R133, R170). -/
def takeClear (s : State) : State :=
  let t := slotIds.foldl clearSlot (s.countClear s.lpt.pins.lcl).clearLane
  let t := (t.unclaimReport .inboxHead).unclaimReport .rescan
  let t := t.stationReport ⟨t.sct.station, .laneCleared, t.ord.clears⟩
  if t.sct.station = .probing then t.placeProbe else t

/-- The lane clear event of the station's own pulse, where a CLR's pulse is driven and its event has not come yet. It
comes before the station leaves the states that take lane clear, since that event always occurs at the issuer (R149;
log 9). -/
def ownClear (s : State) : State := if s.lpt.pins.lcl = true ∧ s.takesClear = true then s.takeClear else s

/-! ### Entry to FAULT (R173, R174) -/

/-- The fault abort of one live slot (R174). -/
def slotFaultAbort (s : State) (i : SlotId) : Option FaultAbort :=
  match s.ex i with
  | none => none
  | some e => if e.state = .retiring then none else some ⟨e.peer, e.tag, e.role == .originator⟩

/-- The fault aborts of an attached station: live slots in slot order, then pending entries oldest first (R174). -/
def faultAbortsNow (s : State) : List FaultAbort :=
  slotIds.filterMap s.slotFaultAbort ++ s.xen.deferred.map fun d => ⟨d.peer, d.tag, false⟩

end State

/-- A slot at entry to FAULT: the timer of a live exchange that is not RETIRING is stopped (R24). -/
def Slot.atFault (v : Slot) : Slot :=
  { v with ex := v.ex.map fun e => if e.state = .retiring then e else e.stopTimer }

/-- Does the transmit slot keep its frame at entry to FAULT: a control frame keeps its attempts, and a DATA frame ends
a tenure in progress (R173). -/
def LanePort.keepsTx (l : LanePort) : Bool :=
  match l.tx with
  | none => false
  | some t =>
    match t.src, l.phase with
    | .ctrl, _ => true
    | .data _, .sent _ => t.begun
    | .data _, .idle | .data _, .won | .data _, .other | .data _, .unanswered | .data _, .answered _ _ => false

/-- The Lane Port of an attached station at entry to FAULT (R173; log 25). -/
def LanePort.atFault (l : LanePort) : LanePort :=
  if l.keepsTx then l
  else { l with tx := none, phase := if l.phase = .won then .idle else l.phase, pins := { l.pins with wait := false } }

/-- The writer at entry to FAULT: a write in progress runs to its end, and a waiting one is discarded (R156, R165). That
the writer is idle where its write has failed or is discarded is a DESIGN CHOICE (log 39). -/
def Writer.atFault (w : Writer) (inProgress : Bool) : Writer := if inProgress then w else .idle

namespace State

/-- The station is attached: ONLINE or DETACHING (R173). -/
def attached (s : State) : Bool := s.sct.station == .online || s.sct.station == .detaching

/-- The one status word write of FAULT, placed once no transfer is in progress (R158, R165). -/
def placeFaultStatus (s : State) : State :=
  match s.lmp.transfer, s.rpt.status with
  | none, .due => s.placeStatus
  | _, _ => s

/-- The fault aborts to be placed after entry to FAULT: none unless the station was attached (R173, R174). -/
def faultAbortsAtEntry (s : State) : List FaultAbort := if s.attached then s.faultAbortsNow else []

/-- The control queue at entry to FAULT: an attached station keeps the IN_SLOT frame only (R115, R134, R173). That in
another state the IN_SLOT entry of an abandoned PROBE leaves the queue too is a DESIGN CHOICE (log 38). -/
def ctrlAtFault (s : State) : List CtrlEntry := if s.attached then s.txq.ctrl.filter (·.inSlot) else []

/-- Each block stops at entry to FAULT (R24, R115, R156, R165, R173). -/
def stopBlocks (c : FaultCause) (s : State) : State :=
  { s with
    sct :=
      { s.sct with
        station := .fault, faultCause := c, probe := false, faultAborts := s.faultAbortsAtEntry,
        present := s.attached, faultPin := true },
    xen := { s.xen with slots := s.xen.slots.map Slot.atFault },
    txq := { s.txq with ctrl := s.ctrlAtFault, owed := [], line := [] },
    rpt :=
      { s.rpt with
        writer := s.rpt.writer.atFault (s.inProgress .reportEntry || s.inProgress .producerWord), status := .due },
    lmp := { s.lmp with waiting := [] } }

/-- The Lane Port at entry to FAULT from an attached state (R173). -/
def laneAtFault (s : State) : State := { s with lpt := s.lpt.atFault }

/-- The station stops: the cause is recorded, the FAULT line is asserted, and each block stops (R173). -/
def stopStation (c : FaultCause) (s : State) : State :=
  let t := s.stopBlocks c
  (if s.attached then t.laneAtFault else t.leaveLane).placeFaultStatus

/-- ENTRY TO FAULT (R173), behind the lane clear event of the station's own pulse where that has not come yet (R149;
log 9). In FAULT already, nothing is recorded. -/
def enterFault (c : FaultCause) (s : State) : State :=
  if s.sct.station = .fault then s else s.ownClear.stopStation c

/-! ### The SILENT mark (R129) -/

end State

/-- Does a claim in the line of R106 concern frames to a peer (R113); peerOf gives the peers of the slots. -/
def CtrlClaim.isTo (peerOf : SlotId → Option Station) (p : Station) : CtrlClaim → Bool
  | .frame f _ => f.dst == p
  | .credit i => peerOf i == some p
  | .pendingAbort q _ => q == p
  | .inboxHead | .rescan => false

namespace State

/-- The peer of a slot's exchange. -/
def peerOf (s : State) (i : SlotId) : Option Station := (s.ex i).map (·.peer)

/-- The purge of R113: WAITING entries and due frames addressed to the peer are removed. -/
def purge (p : Station) (s : State) : State :=
  { s with
    txq :=
      { s.txq with
        ctrl := s.txq.ctrl.filter fun c => c.inSlot || c.frame.dst != p,
        line := s.txq.line.filter fun c => !c.isTo s.peerOf p } }

/-- The SILENT mark at one slot (R18, R20, R129). -/
def silentSlot (p : Station) (s : State) (i : SlotId) : State :=
  match s.ex i with
  | none => s
  | some e => if e.peer = p then (if e.state = .retiring then s.settle i else s.endWith i .peerSilent) else s

/-- A peer marked SILENT (R129): the mark reaches the Transmit Queue, the Exchange Table and the Pending List; in FAULT
the Peer Table, the Transmit Queue and the fault aborts only (R129, R174). -/
def markSilent (p : Station) (s : State) : State :=
  let t := (s.setPeer p .silent).purge p
  if t.sct.station = .fault then
    { t with sct := { t.sct with faultAborts := t.sct.faultAborts.filter (·.dst != p) } }
  else (slotIds.foldl (silentSlot p) t).dropDeferred (·.peer == p)

end State

end Sys2Proof.Machine
end

