-- ==== Sys2Proof/Machine/OrderOps.lean ====
section
/-!
DEFINITION. The Order Unit's operations: the checks and the taking of the head order (R138 to R149), due ACKs (R147),
and the handing out of freed report queue entries (R152).
-/

namespace Sys2Proof.Machine

/-! ### Checks (R139, R176) -/

/-- The kind of an order record (12.3). -/
def OrderRec.kindOf (o : OrderRec) : Option OrderKind := OrderKind.ofCode o.kind

/-- Does a SEND or FETCH hold a field outside its range (R139). -/
def OrderRec.badMove (o : OrderRec) : Bool := decide (32 ≤ o.peer.toNat) || decide (Config.maxSize < o.size.toNat)

/-- Does an OFFER hold a field outside its range (R139, R176). -/
def OrderRec.badOffer (o : OrderRec) : Bool :=
  decide (o.type ≠ 0x01#8 ∧ o.type ≠ 0x02#8) || decide (o.standing ≠ 0x00#8 ∧ o.standing ≠ 0x01#8)
    || decide (32 ≤ o.peer.toNat ∧ o.peer ≠ 0xFF#8) || decide (Config.maxSize < o.size.toNat)

/-- Is the list base of a SEND, FETCH or OFFER misaligned, with a size above 0 (R139). -/
def OrderRec.badBase (o : OrderRec) : Bool := decide (o.base.toNat % 16 ≠ 0 ∧ o.size.toNat ≠ 0)

/-- The station number a SEND or FETCH names. -/
def OrderRec.peerNo (o : OrderRec) : Station := o.peer.setWidth 5

/-- Does an offer carry an order tag. -/
def Offer.hasTag (v : Offer) (tag : BitVec 16) : Bool := v.orderTag == tag

namespace State

/-- The station is OFFLINE or in CONFLICT (R139). -/
def offLane (s : State) : Bool := s.sct.station == .offline || s.sct.station == .conflict

/-- The checks of a SEND or FETCH, in the order of R139. -/
def moveRefusal (s : State) (o : OrderRec) (fetch : Bool) : Option Reason :=
  if o.badMove then some .badOrder
  else if o.badBase then some .badOrder
  else if fetch = true ∧ o.size = 0#32 ∧ o.base ≠ 0#32 then some .badOrder
  else if o.peerNo = s.sn then some .badPeer
  else if s.offLane then some .offline
  else if s.peer o.peerNo = .silent then some .peerSilent
  else none

/-- The checks of an OFFER, in the order of R139. -/
def offerRefusal (s : State) (o : OrderRec) : Option Reason :=
  if o.badOffer then some .badOrder
  else if o.badBase then some .badOrder
  else if s.freeOffer.isNone then some .noRoom
  else none

/-- The check of a CLR (R139). -/
def clrRefusal (s : State) : Option Reason := if s.offLane then some .offline else none

/-! ### Taking the head (R138) -/

/-- The head set. -/
def setHead (h : Head) (s : State) : State := { s with ord := { s.ord with head := h } }

/-- The head order that may be examined now: the station takes orders, and what the record waits for has come (R137,
R138, R164). -/
def headOrder (s : State) : Option OrderRec :=
  if s.takesOrders = true ∧ s.ord.orderFault = false then
    match s.ord.head with
    | .record o w =>
      match w with
      | .examine => some o
      | .held => none
      | .report => if s.reportTurn .head 1 then some o else none
      | .ack => if s.ackRoom then some o else none
    | .absent | .fetching => none
  else none

/-- The write of the order-taken index (R138, 12.1). -/
def indexRequest (s : State) : Request :=
  ⟨.indexWrite, s.sct.startBlock.toNat + 0x28, 4, countWord s.ord.taken⟩

/-- The ring words read (R136, R137). -/
def ringRequest (s : State) : Request := ⟨.ringWords, s.sct.startBlock.toNat + 0x20, 8, []⟩

/-- The head order is taken: the count advances, the head is absent, and the index write is placed (R138), at once or
when the ring words read in progress has ended (R160; log 31). -/
def taken (s : State) : State :=
  let t := { s with ord := { s.ord with taken := s.ord.taken + 1, head := .absent, indexWrite := true } }
  (if s.ord.ringRead = .idle then t.place t.indexRequest else t).unclaimReport .head

/-- Is an order fetch or an index write of the Order Unit placed, a ring words read not being placed (R160). -/
def orderBusy (s : State) : Bool := s.ord.head == .fetching || s.ord.indexWrite

/-- A transfer of the Order Unit has ended: the one that waited for it is placed (R160; log 31). -/
def nextOrderTransfer (s : State) : State :=
  if s.ord.ringRead ≠ .idle then s.place s.ringRequest
  else if s.ord.indexWrite then s.place s.indexRequest
  else s

/-- The head waits for a report queue entry (R138, R152). -/
def waitReport (o : OrderRec) (s : State) : State := (s.setHead (.record o .report)).claimReport .head

/-- The head waits for an acknowledgement list entry (R147). -/
def waitAck (o : OrderRec) (s : State) : State := (s.setHead (.record o .ack)).unclaimReport .head

/-- The head is marked held (R140). -/
def hold (o : OrderRec) (s : State) : State := (s.setHead (.record o .held)).unclaimReport .head

/-- The head taken with one report queued at take, or waiting for its entry (R139, R143, R146, R148). -/
def takeWith (o : OrderRec) (r : Report) (s : State) : State :=
  if s.reportTurn .head 1 then (s.pushReport r).taken else s.waitReport o

/-- A refused head (R139). -/
def refuse (o : OrderRec) (why : Reason) (s : State) : State := s.takeWith o (.failed o.tag why none 0)

/-! ### SEND and FETCH (R25, R26, R140, R141) -/

end State

/-- The record of an originator slot at allocation (R25, R26, R3). -/
def Exchange.ofOrder (o : OrderRec) (dir : Direction) (tag : Tag) : Exchange where
  state := .opening
  role := .originator
  dir := dir
  peer := o.peerNo
  tag := tag
  key := o.key
  length := o.size.toNat
  orderTag := o.tag
  offer := none
  walk := Walk.start o.base
  prepared := 0
  acknowledged := 0
  creditReceived := 0
  received := 0
  drained := 0
  granted := 0
  openAttempts := 0
  backoffs := 0
  localPause := false
  peerHold := false
  timer := Timer.cleared
  outcome := none
  transfers := 0
  openHanded := false

/-- The tag of an originator slot (R4). -/
def originTag (i : SlotId) (g : Gen) : Tag := ⟨g, BitVec.ofNat 4 i.val⟩

namespace State

/-- An originator slot allocated, with its OPEN due (R25, R26, R141). -/
def allocate (i : SlotId) (o : OrderRec) (dir : Direction) (s : State) : State :=
  let t := s.setEx i (some (Exchange.ofOrder o dir (originTag i (s.gen i))))
  { t with xen := { t.xen with originOrder := t.xen.originOrder ++ [i] } }.dueOpen i

/-- A SEND or FETCH examined (R139 to R141). -/
def takeMove (o : OrderRec) (dir : Direction) (s : State) : State :=
  match s.moveRefusal o (dir == .pull) with
  | some why => s.refuse o why
  | none =>
    match s.freeSlot with
    | none => s.hold o
    | some i => if s.originRoom then (s.allocate i o dir).taken else s.hold o

/-! ### OFFER and WITHDRAW (R48, R66, R142, R143) -/

end State

/-- The offer an OFFER order posts (R47, R48). -/
def Offer.ofOrder (o : OrderRec) : Offer where
  state := .openState
  type := if o.type = 0x02#8 then .give else .receive
  peer := if o.peer = 0xFF#8 then none else some o.peerNo
  key := o.key
  mask := o.mask
  standing := o.standing == 0x01#8
  base := o.base
  size := o.size.toNat
  orderTag := o.tag

namespace State

/-- An offer placed in an entry, as the youngest of the posting order (R48). -/
def postOffer (e : OfferId) (v : Offer) (s : State) : State :=
  let t := s.setOffer e (some v)
  { t with xen := { t.xen with postOrder := t.xen.postOrder ++ [e] } }.makeRescanDue

/-- An OFFER examined (R139, R142). -/
def takeOffer (o : OrderRec) (s : State) : State :=
  match s.offerRefusal o with
  | some why => s.refuse o why
  | none =>
    match s.freeOffer with
    | none => s
    | some e => (s.postOffer e (Offer.ofOrder o)).taken

/-- Is an offer a target of WITHDRAW: OPEN or BOUND, with the target tag (R66). -/
def withdrawable (s : State) (tag : BitVec 16) (e : OfferId) : Bool :=
  match s.offer e with
  | none => false
  | some v =>
    v.hasTag tag &&
      match v.state with
      | .openState | .bound _ => true
      | .withdrawing _ => false

/-- The target of a WITHDRAW: the oldest such offer (R66, R143). -/
def withdrawTarget (s : State) (tag : BitVec 16) : Option OfferId := s.xen.postOrder.find? (s.withdrawable tag)

/-- An acknowledgement list entry that awaits the release of slot i (R147). -/
def awaitRelease (i : SlotId) (o : OrderRec) (k : OrderKind) (s : State) : State :=
  s.addAck ⟨o.tag, k, .release i (s.gen i), false⟩

/-- A WITHDRAW examined (R66, R143). -/
def takeWithdraw (o : OrderRec) (s : State) : State :=
  match s.withdrawTarget o.target with
  | none => s.takeWith o (.ack o.tag .withdraw false)
  | some e =>
    match s.offer e with
    | none => s
    | some v =>
      match v.state with
      | .openState =>
        if s.reportTurn .head 1 then ((s.removeOffer e).pushReport (.closed v.orderTag .withdrawn)).taken
        else s.waitReport o
      | .bound i =>
        if s.ackRoom then
          (((s.setOffer e (some { v with state := .withdrawing i })).cancel i).awaitRelease i o .withdraw).taken
        else s.waitAck o
      | .withdrawing _ => s

/-! ### CANCEL and CONTINUE (R144 to R146) -/

/-- Does an originator slot carry an order tag (R144). -/
def originatorHasTag (s : State) (tag : BitVec 16) (i : SlotId) : Bool :=
  match s.ex i with
  | none => false
  | some e => e.role == .originator && e.orderTag == tag

/-- Is an offer BOUND or WITHDRAWING with an order tag (R144). -/
def boundHasTag (s : State) (tag : BitVec 16) (e : OfferId) : Bool :=
  match s.offer e with
  | none => false
  | some v => v.hasTag tag && v.state.slot.isSome

/-- The slot of the oldest bound offer with a target tag (R144). -/
def boundTarget (s : State) (tag : BitVec 16) : Option SlotId :=
  match s.xen.postOrder.find? (s.boundHasTag tag) with
  | none => none
  | some e =>
    match s.offer e with
    | none => none
    | some v => v.state.slot

/-- The target exchange of a CANCEL or CONTINUE (R144). -/
def exchangeTarget (s : State) (tag : BitVec 16) : Option SlotId :=
  match s.xen.originOrder.find? (s.originatorHasTag tag) with
  | some i => some i
  | none => s.boundTarget tag

/-- A CANCEL examined (R145). -/
def takeCancel (o : OrderRec) (s : State) : State :=
  match s.exchangeTarget o.target with
  | none => s.takeWith o (.ack o.tag .cancel false)
  | some i => if s.ackRoom then ((s.cancel i).awaitRelease i o .cancel).taken else s.waitAck o

/-- A CONTINUE examined (R146). -/
def takeContinue (o : OrderRec) (s : State) : State :=
  match s.exchangeTarget o.target with
  | none => s.takeWith o (.ack o.tag .continue false)
  | some i =>
    if s.reportTurn .head 1 then ((s.pushReport (.ack o.tag .continue true)).continueSlot i).taken else s.waitReport o

/-! ### DETACH, ATTACH and CLR (R148, R149, R60, R171) -/

/-- A pending entry ended with ABORT(DETACHING): it leaves the list in the step that places its ABORT, which waits in
the line while no entry is free (R60). -/
def endPending (s : State) (d : Deferred) : State :=
  if s.ctrlRoom then
    (s.pushCtrl (s.replyFrame d.peer d.tag (.abort .detaching)) .nobody).dropDeferred (Deferred.isOf d.peer d.tag)
  else s.claimCtrl (.pendingAbort d.peer d.tag)

/-- The station enters DETACHING (R148, R171); a rescan that stands waiting does not go on, and one that is due waits for
the station, no longer for an entry (R61). -/
def beginDetach (s : State) : State :=
  let t := (s.enter .detaching).unclaimReport .rescan
  let t := { t with xen := { t.xen with rescanWaits := false, rescanAt := none } }
  t.xen.deferred.foldl endPending t

/-- A DETACH examined (R148). -/
def takeDetach (o : OrderRec) (s : State) : State :=
  if s.sct.station = .online then
    if s.ackRoom then (s.beginDetach.addAck ⟨o.tag, .detach, .offlineReport, false⟩).taken else s.waitAck o
  else s.takeWith o (.ack o.tag .detach false)

/-- An ATTACH examined (R148, R172). -/
def takeAttach (o : OrderRec) (s : State) : State :=
  if s.offLane then
    if s.reportTurn .head 1 then ((s.pushReport (.ack o.tag .attach true)).startProbe).taken else s.waitReport o
  else s.takeWith o (.ack o.tag .attach false)

/-- The station asserts LCL for a pulse, which the next LANE_CLEAR ends (R131; log 9). -/
def pulseClear (s : State) : State := { s with lpt := { s.lpt with pins := { s.lpt.pins with lcl := true } } }

/-- A CLR examined (R149). -/
def takeClr (o : OrderRec) (s : State) : State :=
  match s.clrRefusal with
  | some why => s.refuse o why
  | none =>
    if s.ackRoom then (s.pulseClear.addAck ⟨o.tag, .clr, .clearPulse, false⟩).taken else s.waitAck o

/-- The head order examined by its kind (R138, R139). -/
def examine (o : OrderRec) (s : State) : State :=
  match o.kindOf with
  | none => s.refuse o .badOrder
  | some .send => s.takeMove o .push
  | some .fetch => s.takeMove o .pull
  | some .offer => s.takeOffer o
  | some .withdraw => s.takeWithdraw o
  | some .cancel => s.takeCancel o
  | some .continue => s.takeContinue o
  | some .detach => s.takeDetach o
  | some .attach => s.takeAttach o
  | some .clr => s.takeClr o

/-- The refusal the checks of R139 give an order, if any. -/
def refusal (s : State) (o : OrderRec) : Option Reason :=
  match o.kindOf with
  | none => some .badOrder
  | some .send => s.moveRefusal o false
  | some .fetch => s.moveRefusal o true
  | some .offer => s.offerRefusal o
  | some .clr => s.clrRefusal
  | some .withdraw | some .cancel | some .continue | some .detach | some .attach => none

/-- The head order examined, if it may be now. -/
def examineHead (s : State) : State :=
  match s.headOrder with
  | none => s
  | some o => s.examine o

/-- A head order just fetched is refused at once where the checks of R139 refuse it; otherwise the step of its kind
examines it (R138, R139; log 15). -/
def refuseHead (s : State) : State :=
  match s.headOrder with
  | none => s
  | some o =>
    match s.refusal o with
    | some why => s.refuse o why
    | none => s

/-! ### Due ACKs (R147) and the handing out of report queue entries (R152) -/

/-- Each due ACK that does not wait yet begins to wait: it has its own place in the line (R147, R152; log 12). -/
def claimAcks (s : State) : State :=
  let due := (s.ord.acks.filter (·.due)).length
  { s with rpt := { s.rpt with line := s.rpt.line ++ List.replicate (due - s.rpt.line.count .acks) .acks } }

/-- The ACK of an acknowledgement list entry queued: the entry leaves the list, and its place the line (R147). -/
def queueAck (a : AckEntry) (s : State) : State :=
  let t := s.pushReport (.ack a.tag a.kind true)
  { t with
    ord := { t.ord with acks := t.ord.acks.eraseP (·.due) },
    rpt := { t.rpt with line := t.rpt.line.erase .acks } }

/-- Due ACKs queued in list order while it is their turn for an entry (R147, R152; log 12). -/
def queueAcks : Nat → State → State
  | 0, s => s
  | n + 1, s =>
    match s.ord.acks.find? (·.due) with
    | none => s.unclaimReport .acks
    | some a => if s.reportTurn .acks 1 then queueAcks n (s.queueAck a) else s.claimAcks

/-- Due ACKs queued: more rounds than the list has places. -/
def settleAcks (s : State) : State := queueAcks 17 s

/-- The first claimant of the report queue that is not passed over is served, if its need is met (R152; log 13). -/
def serveClaim (c : ReportClaim) (s : State) : State :=
  match c with
  | .inboxHead => s.takeOpen
  | .mark i => s.settleMarks i
  | .release i => s.tryRelease i
  | .rescan => s.serveRescan
  | .head => s.examineHead
  | .acks => s.settleAcks

/-- Waiting STATION reports queued, in the order of their events, while entries are free (R152). -/
def flushStation : Nat → State → State
  | 0, s => s
  | n + 1, s =>
    match s.rpt.stationWaiting with
    | [] => s
    | w :: rest =>
      if s.reportRoom 1 then flushStation n ({ s with rpt := { s.rpt with stationWaiting := rest } }.queueStation w)
      else s

/-- Freed report queue entries handed out (R152): STATION reports first, then the oldest claimants. -/
def handOut : Nat → State → State
  | 0, s => s
  | n + 1, s =>
    let t := flushStation 8 s
    match t.rpt.line.find? fun c => !t.passedOver c with
    | none => t
    | some c =>
      let u := t.serveClaim c
      if u.rpt.line = t.rpt.line then u else handOut n u

/-- Freed report queue entries handed out: more rounds than claimants can wait. -/
def giveEntries (s : State) : State := handOut 64 s

/-! ### Order faults (R164) -/

/-- An order fault: the Order Unit stops taking orders, and STATION(FAULT, ORDER_READ) is made (R164; log 26). -/
def failOrders (s : State) : State :=
  if s.ord.orderFault then s
  else ({ s with ord := { s.ord with orderFault := true } }.unclaimReport .head).stationReport ⟨.fault, .orderRead, 0⟩

end State

end Sys2Proof.Machine
end

