-- ==== Sys2Proof/Machine/Link.lean ====
section
/-!
DEFINITION. The operations of the Transmit Queue and the Lane Port: the choice of the next frame and the take-back
(R109, R110), bids and their resolution (R118, R119), the answer of a receiver (R123), link outcomes (R111, R112) and
dispatch (R125).
-/

namespace Sys2Proof.Machine

namespace State

/-! ### Choosing the next frame (R109, R110) -/

/-- An OPEN of the slot has been handed to the transmit slot (R42). -/
def markOpenHanded (c : CtrlEntry) (s : State) : State :=
  match c.owner with
  | .slot i g => if c.frame.body.isOpen && s.live i g then s.updEx i fun e => { e with openHanded := true } else s
  | .stationControl | .nobody => s

/-- The oldest WAITING entry is handed to the transmit slot (R109). -/
def handOver (s : State) : State :=
  match s.txq.ctrl.findIdx? fun c => !c.inSlot with
  | none => s
  | some k =>
    match s.txq.ctrl[k]? with
    | none => s
    | some c =>
      { s with
        txq := { s.txq with ctrl := s.txq.ctrl.set k { c with inSlot := true } },
        lpt := { s.lpt with tx := some ⟨.ctrl, c.frame, 0, false⟩ } }.markOpenHanded c

/-- Does a WAITING entry exist (R109). -/
def anyWaiting (s : State) : Bool := s.txq.ctrl.any fun c => !c.inSlot

/-- A buffer's DATA frame (R82). -/
def dataFrame (s : State) (v : OutBuffer) (e : Exchange) : Frame :=
  e.frame s.sn (.data (to24 v.offset) (BitVec.ofNat 16 v.payload.length) v.payload)

/-- The live exchange that holds a buffer, unless it is RETIRING: only its frame may still be sent from READY (R4, R84). -/
def bufferOwner (s : State) (v : OutBuffer) : Option Exchange :=
  (s.ex v.slot).filter fun e => s.gen v.slot == v.gen && e.state != .retiring

/-- A READY buffer is handed to the transmit slot (R109); one whose exchange has ended is given up (R84). -/
def handBuffer (b : BufId) (s : State) : State :=
  match s.buffer b with
  | none => s
  | some v =>
    match s.bufferOwner v with
    | none => s.setBuffer b none
    | some e =>
      let t := s.setBuffer b (some { v with state := .sending })
      { t with lpt := { t.lpt with tx := some ⟨.data b, s.dataFrame v e, 0, false⟩ } }

/-- The DATA frame in the transmit slot taken back into buffer b: the buffer is READY again and is chosen first, or is
given up where its exchange has ended meanwhile, as any READY buffer of an ended exchange is (R84, R110; log 35). -/
def returnBuffer (b : BufId) (v : OutBuffer) (s : State) : State :=
  let t := { s with lpt := { s.lpt with tx := none } }
  match s.bufferOwner v with
  | none => t.setBuffer b none
  | some _ =>
    let u := t.setBuffer b (some { v with state := .ready })
    { u with txq := { u.txq with takenBack := some b } }

/-- The DATA frame in the transmit slot is taken back for a WAITING control entry, where no tenure of it has begun and
the station is not bidding with it (R110). -/
def takeBack (s : State) : State :=
  match s.lpt.tx with
  | none => s
  | some t =>
    match t.src with
    | .ctrl => s
    | .data b =>
      if t.begun = false ∧ s.lpt.phase ≠ .won ∧ s.anyWaiting = true then
        match s.buffer b with
        | none => s
        | some v => (s.returnBuffer b v).handOver
      else s

/-- The offset of a READY buffer of slot i. -/
def readyOffset (s : State) (i : SlotId) (b : BufId) : Option Nat :=
  match s.buffer b with
  | some v => if v.slot = i ∧ v.gen = s.gen i ∧ v.state = .ready then some v.offset else none
  | none => none

/-- The better of two READY buffers: the one with the lower offset (R82). -/
def lowerReady (s : State) (i : SlotId) (best : Option BufId) (b : BufId) : Option BufId :=
  match s.readyOffset i b with
  | none => best
  | some x =>
    match best with
    | none => some b
    | some a =>
      match s.readyOffset i a with
      | none => some b
      | some y => if x < y then some b else some a

/-- The READY buffer slot i offers: of two, the one with the lower offset (R82, R109). -/
def offeredBuffer (s : State) (i : SlotId) : Option BufId := bufIds.foldl (s.lowerReady i) none

/-- The round-robin among READY buffers (R109). -/
def chooseData (s : State) : State :=
  match (afterSlot s.txq.lastTx).find? fun i => (s.offeredBuffer i).isSome with
  | none => s
  | some i =>
    match s.offeredBuffer i with
    | none => s
    | some b => { s with txq := { s.txq with lastTx := i } }.handBuffer b

/-- The choice for an empty transmit slot (R109, R110); in FAULT no DATA frame is offered (R115). -/
def chooseFrame (s : State) : State :=
  if s.anyWaiting then s.handOver
  else if s.sct.station = .fault then s
  else
    match s.txq.takenBack with
    | some b => { s with txq := { s.txq with takenBack := none } }.handBuffer b
    | none => s.chooseData

/-! ### Arbitration (R118 to R120) -/

/-- The station's bid in a window (R118, R119). -/
def ownBid (s : State) : Option Bid :=
  if s.onLane then
    match s.lpt.tx with
    | none => none
    | some t =>
      match t.src with
      | .ctrl => some (1#1 ++ s.sn)
      | .data _ => if s.lpt.spent then none else some (0#1 ++ s.sn)
  else none

/-- Does the station assert WAIT in a window (R119). -/
def ownWait (s : State) : Bool :=
  s.onLane && s.lpt.spent &&
    match s.lpt.tx with
    | none => false
    | some t =>
      match t.src with
      | .ctrl => false
      | .data _ => true

end State

/-- One line of a window: a bid whose bit is 0 where the line reads 1 withdraws (R118). -/
def resolveLine (bids : List Bid) (k : Nat) : List Bid :=
  if bids.any (·.getLsbD k) then bids.filter (·.getLsbD k) else bids

/-- What a bidding station drives on the lines given, most significant first, with the bids still on them: at the first
line where its bit is 0 and the line reads 1 it stops driving that line and all lower ones (R118). -/
def driven (b : Bid) : List Nat → List Bid → Bid
  | [], _ => 0
  | k :: ks, bids =>
    if b.getLsbD k = false ∧ bids.any (·.getLsbD k) = true then 0
    else (b &&& BitVec.twoPow 6 k) ||| driven b ks (resolveLine bids k)

/-- The lines of a window, most significant first (R118). -/
def arbLines : List Nat := [5, 4, 3, 2, 1, 0]

/-- The bids still on the lines after ARB0 (R118). -/
def resolveBids (bids : List Bid) : List Bid := arbLines.foldl resolveLine bids

/-- Is a frame from the control queue or a DATA frame. -/
def TxFrame.isData (t : TxFrame) : Bool :=
  match t.src with
  | .ctrl => false
  | .data _ => true

/-- The Lane Port after a window the station has won: a data win sets SPENT (R120). -/
def LanePort.won (l : LanePort) : LanePort :=
  { l with
    phase := .won,
    spent := l.spent || (match l.tx with
      | some t => t.isData
      | none => false) }

/-- The Lane Port after a window in which no station bids (R120). -/
def LanePort.emptyWindow (l : LanePort) (wait : Bool) : LanePort :=
  if wait then { l with spent := false, phase := .idle } else { l with phase := .idle }

/-! ### Tenures (R121 to R123) -/

/-- The bytes a sender drives when it reads back the bytes seen: up to the first that differs, that one included (R121). -/
def drivenBytes : List Byte → List Byte → List Byte
  | [], _ => []
  | x :: _, [] => [x]
  | x :: xs, y :: ys => if x = y then x :: drivenBytes xs ys else [x]

/-- Is every byte driven read back as driven (R121). -/
def readBack (driven seen : List Byte) : Bool := seen.take driven.length == driven

namespace State

/-- What a receiver drives for a complete frame, and what the frame is for its dispatch (R123). In FAULT every frame it
answers is TAKEN. -/
def answerFor (s : State) (bytes : List Byte) : Option (Ack × Received) :=
  if crcPasses bytes = false then none
  else if addressedTo s.sn bytes = false then none
  else if s.answersFrames = false then none
  else if isProbeBytes bytes then some (.taken, .probe)
  else
    match Frame.parse s.sn bytes with
    | none => some (.taken, .malformed)
    | some f =>
      if s.sct.station = .fault then some (.taken, .frame f)
      else
        match f.body with
        | .data _ _ _ => some (.taken, .frame f)
        | _ => if s.lpt.inbox.length < Config.inboxCap then some (.taken, .frame f) else some (.busy, .frame f)

/-- The Lane Port's sequence and answer line set. -/
def setPhase (p : LanePhase) (a : Option Ack) (s : State) : State :=
  { s with lpt := { s.lpt with phase := p, pins := { s.lpt.pins with ack := a } } }

/-- Another station's tenure received (R122, R123, R127). -/
def receiveTenure (bytes : List Byte) (s : State) : State :=
  if s.sct.station = .probing ∧ crcPasses bytes = true ∧ sourceIsOwn s.sn bytes = true then s.numberTaken
  else
    match s.answerFor bytes with
    | none => s.setPhase .unanswered none
    | some (a, what) => s.setPhase (.answered a what) (some a)

/-- The station's own tenure with the frame t (R121, R122). -/
def sendTenure (t : TxFrame) (bytes : List Byte) (s : State) : State :=
  let driven := t.frame.encode
  let u := { s with
    lpt :=
      { s.lpt with
        tx := some { t with attempts := t.attempts + 1, begun := true },
        phase := .sent (!readBack driven bytes),
        pins := { s.lpt.pins with data := drivenBytes driven bytes } } }
  if readBack driven bytes = false ∧ s.sct.station = .probing then u.numberTaken else u

/-! ### Link outcomes (R111, R112) -/

/-- The entry in the transmit slot removed from the control queue (R111). -/
def freeInSlot (s : State) : State := { s with txq := { s.txq with ctrl := s.txq.ctrl.filter fun c => !c.inSlot } }

/-- The TAKEN outcome of a slot's control frame (R11, R12, R20, R28, R54, R90, R97, R102). -/
def slotTaken (i : SlotId) (f : Frame) (e : Exchange) (s : State) : State :=
  match e.state with
  | .retiring => if f.body.isAbort then s.settle i else s
  | .opening => if f.body.isOpen then s.updEx i (Exchange.startTimer .answer s.par.quiet) else s
  | .finishing => if f.body.isDone then s.retire i .completed none else s
  | .backoff | .parked | .sending | .receiving | .confirming => s.quiet i

/-- The TAKEN outcome of a control frame, returned to its owner (R111). -/
def ctrlTaken (c : CtrlEntry) (s : State) : State :=
  match c.owner with
  | .nobody => s
  | .stationControl => if c.frame.body.isProbe = true ∧ s.sct.station = .probing then s.numberTaken else s
  | .slot i g =>
    if s.sct.station = .fault ∨ s.live i g = false then s
    else
      match s.ex i with
      | none => s
      | some e => s.slotTaken i c.frame e

/-- The record of a sender after the TAKEN outcome of a DATA frame of n bytes (R83). -/
def ackData (i : SlotId) (n : Nat) (s : State) : State :=
  (s.updEx i fun e => { e with acknowledged := e.acknowledged + n }).quiet i

/-- A sender whose every byte is acknowledged enters CONFIRMING (R101). -/
def confirmIfDone (i : SlotId) (s : State) : State :=
  match s.ex i with
  | none => s
  | some e =>
    if e.state = .sending ∧ e.acknowledged = e.length then
      s.updEx i fun e => { e.startQuiet s.par with state := .confirming }
    else s

/-- The TAKEN outcome of the DATA frame of buffer b (R83, R101): marks it reaches act before the entry to CONFIRMING. -/
def dataTaken (b : BufId) (s : State) : State :=
  match s.buffer b with
  | none => s
  | some v =>
    let t := s.setBuffer b none
    if t.live v.slot v.gen = false then t
    else
      match t.ex v.slot with
      | none => t
      | some e =>
        match e.state with
        | .sending => t |>.ackData v.slot v.payload.length |>.settleMarks v.slot |>.confirmIfDone v.slot
        | .opening | .backoff | .parked | .receiving | .confirming | .finishing | .retiring => t

/-- The entry in the transmit slot returns to the tail of the queue with a busy count (R112). -/
def requeue (c : CtrlEntry) (n : Nat) (s : State) : State := s.freeInSlot.pushEntry { c with busy := n, inSlot := false }

/-- The merge of a CREDIT that returns BUSY into the slot's WAITING CREDIT (R108). -/
def mergeCredit (i : SlotId) (n : Nat) (s : State) : State :=
  let t := s.freeInSlot
  { t with
    txq :=
      { t.txq with
        ctrl := t.txq.ctrl.map fun c => if t.isWaitingCredit i c then { c with busy := max c.busy n } else c } }

end State

/-- The abort state of a record. -/
def Exchange.abortState (e : Exchange) : Option AbortState := e.outcome.map (·.abort)

namespace State

/-- The BUSY outcome of a slot's control frame, n its busy count after the increase: the lines of R112 in order. A CREDIT
without a WAITING CREDIT to merge with returns with its old limit, and a due CREDIT of the slot keeps its place in the
line (R108; log 36). -/
def slotBusy (i : SlotId) (c : CtrlEntry) (e : Exchange) (n : Nat) (s : State) : State :=
  if e.state = .retiring ∧ (c.frame.body.isAbort = false ∨ e.abortState ≠ some .queued) then s.freeInSlot
  else if c.frame.body.isOpen = true ∧ e.state ≠ .opening then s.freeInSlot
  else if Config.busyCap ≤ n then
    if e.state = .retiring then s.freeInSlot.settle i else s.freeInSlot.endWith i .peerCongested
  else if c.frame.body.isCredit = true ∧ s.txq.ctrl.any (s.isWaitingCredit i) = true then s.mergeCredit i n
  else s.requeue c n

/-- The BUSY outcome of a control frame (R112; R17, R57 for no owner; R174 for fault aborts; log 21, log 27). -/
def ctrlBusy (c : CtrlEntry) (s : State) : State :=
  match c.owner with
  | .nobody => s.freeInSlot
  | .stationControl =>
    if c.frame.body.isAbort = true ∧ c.busy + 1 < Config.busyCap then s.requeue c (c.busy + 1) else s.freeInSlot
  | .slot i g =>
    if s.sct.station = .fault ∨ s.live i g = false then s.freeInSlot
    else
      match s.ex i with
      | none => s.freeInSlot
      | some e => s.slotBusy i c e (c.busy + 1)

/-- The transmit slot empties (R116). -/
def emptyTx (s : State) : State := { s with lpt := { s.lpt with tx := none } }

/-- The link outcome TAKEN of the frame in the transmit slot (R111, R124). -/
def linkTaken (t : TxFrame) (s : State) : State :=
  match t.src with
  | .data b => s.emptyTx.dataTaken b
  | .ctrl =>
    match s.txq.ctrl.find? (·.inSlot) with
    | none => s.emptyTx
    | some c => s.emptyTx.freeInSlot.ctrlTaken c

/-- The link outcome BUSY (R112). A BUSY seen for a DATA frame frees its buffer and is not taken as TAKEN. -/
def linkBusy (t : TxFrame) (s : State) : State :=
  match t.src with
  | .data b => s.emptyTx.setBuffer b none
  | .ctrl =>
    match s.txq.ctrl.find? (·.inSlot) with
    | none => s.emptyTx
    | some c => s.emptyTx.ctrlBusy c

/-- The exhausted outcome (R111, R124): a PROBE's number is free, any other frame's destination is marked SILENT. -/
def linkExhausted (t : TxFrame) (s : State) : State :=
  match t.src with
  | .data b => (s.emptyTx.setBuffer b none).markSilent t.frame.dst
  | .ctrl =>
    if t.frame.body.isProbe then
      if s.sct.station = .probing then s.emptyTx.freeInSlot.numberFree else s.emptyTx.freeInSlot
    else s.emptyTx.freeInSlot.markSilent t.frame.dst

end State

/-- The answer a sender reads in the acknowledge slot (R124). -/
def readAnswer (ackt ackb : Bool) : Option Ack := if ackb then some .busy else if ackt then some .taken else none

namespace State

/-- Has the frame in the transmit slot attempts left after one without an answer (R124). -/
def attemptsLeft (t : TxFrame) (s : State) : Bool := decide (t.attempts < 1 + s.par.linkRetry)

/-- The end of a DATA frame's acknowledge slot in FAULT: the frame is removed without further attempts, its outcome is
returned to no block (R173), and its buffer stands (R85, R175). Where its attempts are exhausted, its destination is
marked SILENT as any frame's is (R124, R129). -/
def removeInFault (t : TxFrame) (answer : Option Ack) (s : State) : State :=
  if answer = none ∧ s.attemptsLeft t = false then s.emptyTx.markSilent t.frame.dst else s.emptyTx

/-- The acknowledge slot of the station's own frame (R124). -/
def readSlot (t : TxFrame) (answer : Option Ack) (s : State) : State :=
  if s.sct.station = .fault ∧ t.isData = true then s.removeInFault t answer
  else
    match answer with
    | some .taken => s.linkTaken t
    | some .busy => s.linkBusy t
    | none => if s.attemptsLeft t then s else s.linkExhausted t

/-! ### Dispatch (R125, R128) -/

/-- A Peer Table entry becomes HEARD (R128). -/
def heard (p : Station) (s : State) : State := if p = s.sn then s else s.setPeer p .heard

/-- A control frame joins the inbox at the tail (R126). -/
def pushInbox (f : Frame) (s : State) : State :=
  if s.lpt.inbox.length < Config.inboxCap then { s with lpt := { s.lpt with inbox := s.lpt.inbox ++ [f] } } else s

/-- A well-formed frame that the station answered TAKEN (R125). -/
def dispatchFrame (f : Frame) (s : State) : State :=
  match f.body with
  | .data a n payload => s.takeData f a.toNat n.toNat payload
  | _ => s.pushInbox f

/-- The dispatch of a frame the station answered, at the end of its acknowledge slot: the Peer Table acts first, also in
FAULT, where the frame is then discarded (R125, R128; log 23). -/
def dispatch (a : Ack) (what : Received) (s : State) : State :=
  match what with
  | .probe | .malformed => s
  | .frame f =>
    let t := s.heard f.src
    if s.sct.station = .fault then t
    else
      match a with
      | .busy => t
      | .taken => t.dispatchFrame f

end State

end Sys2Proof.Machine
end

