-- ==== Sys2Proof/Machine/Reset.lean ====
section
/-!
DEFINITION. The meanings of RESET_ASSERT, RESET_RELEASE, TIMER_TICK and POST.
-/

namespace Sys2Proof.Machine

/-- RESET_ASSERT (R165, R166): every block takes its value after hardware reset; transfers and requests are abandoned.
The commands that wait are not the station's. -/
def execResetAssert (s : State) : Host.Outcome State Fault Refusal :=
  .next { State.reset with pending := s.pending }

namespace State

/-- The start record read (R167, 12.1). -/
def startRequest (s : State) : Request := ⟨.startRecord, s.sct.startBlock.toNat, 32, []⟩

/-- The release of RESET (R166): the straps are sampled, the station enters STARTING, and the status word write and
the start record read are placed. -/
def releaseReset (sn : Station) (sb : BitVec 2) (s : State) : State :=
  let t := { s with
    sct := { s.sct with inReset := false, stationNumber := sn, startBlock := Config.startBlockOf sb } }
  let u := t.enter .starting
  u.place u.startRequest

/-- A POST edge makes a ring words read due (R136): it is placed at once, or when the Order Unit's other transfer has
ended (R160; log 31). -/
def postEdge (s : State) : State :=
  match s.ord.ringRead with
  | .idle =>
    let t := { s with ord := { s.ord with ringRead := .inProgress } }
    if s.orderBusy then t else t.place s.ringRequest
  | .inProgress | .furtherDue => { s with ord := { s.ord with ringRead := .furtherDue } }

end State

/-- A slot at one tick: a running timer counts down (R9). -/
def Slot.tick (v : Slot) : Slot := { v with ex := v.ex.map fun e => { e with timer := e.timer.tick } }

namespace State

/-- One 1 ms tick at every slot timer and at the count behind the probe mark (R9, R121, R166). -/
def tick (s : State) : State :=
  { s with
    sct := { s.sct with tickCount := s.sct.tickCount + 1 },
    xen := { s.xen with slots := s.xen.slots.map Slot.tick } }

end State

/-- RESET_RELEASE (R166). -/
def execResetRelease (sn : Station) (sb : BitVec 2) (s : State) : Host.Outcome State Fault Refusal :=
  .next (if s.up then s else s.releaseReset sn sb)

/-- POST (R136): ignored in STARTING and FAULT. -/
def execPost (s : State) : Host.Outcome State Fault Refusal :=
  .next (if s.runs = true ∧ s.sct.station ≠ .starting then s.postEdge else s)

/-- TIMER_TICK (R9, R166): in FAULT the timers stand still (R24, R175; log 8). -/
def execTimerTick (s : State) : Host.Outcome State Fault Refusal :=
  .next (if s.runs then s.tick else s)

end Sys2Proof.Machine
end

