-- ==== Sys2Proof/Machine/Lane.lean ====
section
/-!
DEFINITION. The meanings of LANE_CLEAR, ARBITRATION_WINDOW, TENURE, ACKNOWLEDGE_SLOT, TRANSMIT_CHOICE,
CONTROL_FRAME_PLACED, DETACH_COMPLETE and PRESENCE_END.
-/

namespace Sys2Proof.Machine

/-! ### An assertion of LCL that is no event (R131) -/

namespace State

/-- An assertion of LCL at a station that observes windows and does not take lane clear (R117, R131): it is no event
there. Another station's tenure is abandoned by that station, so that the next window is observed (log 9). -/
def ignoreClear (s : State) : State :=
  match s.lpt.phase with
  | .idle | .won | .sent _ => { s with lpt := { s.lpt with pins := { s.lpt.pins with lcl := false } } }
  | .other | .unanswered | .answered _ _ =>
    { s with lpt := { s.lpt with phase := .idle, pins := { s.lpt.pins with ack := none, lcl := false } } }

/-! ### Windows, tenures, acknowledge slots -/

/-- An arbitration window, with the bids of the other stations and whether one of them asserts WAIT (R118 to R120). At
its end ARB5-ARB0 show what the station still drives: all of a winning bid, of a losing one the lines above the one it
lost at. The pins keep that level and WAIT until the next window, or until they are released (log 10). -/
def window (bids : List Bid) (wait : Bool) (s : State) : State :=
  let all := s.ownBid.toList ++ bids
  let w := s.ownWait
  let pins := { s.lpt.pins with arb := s.ownBid.map fun b => driven b arbLines all, wait := w }
  let t := { s with lpt := { s.lpt with pins := pins } }
  match all with
  | [] => { t with lpt := t.lpt.emptyWindow (w || wait) }
  | _ :: _ =>
    match s.ownBid with
    | none => { t with lpt := { t.lpt with phase := .other } }
    | some b =>
      if (resolveBids all).contains b then { t with lpt := t.lpt.won }
      else { t with lpt := { t.lpt with phase := .other } }

/-- A tenure, with the bytes seen on the lane (R121 to R123). A station that has begun to observe since the tenure's
window opened receives it like any other (R122, R127). -/
def tenure (bytes : List Byte) (s : State) : State :=
  match s.lpt.phase with
  | .won =>
    match s.lpt.tx with
    | none => s.setPhase .idle none
    | some t => s.sendTenure t bytes
  | .other | .idle => s.receiveTenure bytes
  | .sent _ | .unanswered | .answered _ _ => s

/-- The end of an acknowledge slot, with the levels of ACKT and ACKB (R124, R125). -/
def ackSlot (ackt ackb : Bool) (s : State) : State :=
  match s.lpt.phase with
  | .sent collided =>
    match s.lpt.tx with
    | none => s.setPhase .idle none
    | some t => (s.setPhase .idle none).readSlot t (if collided then none else readAnswer ackt ackb)
  | .answered a what => (s.setPhase .idle none).dispatch a what
  | .unanswered => s.setPhase .idle none
  | .idle | .won | .other => s

/-! ### Placing control frames (R106, R174) -/

/-- The next fault abort placed, in order, when an entry is free (R174). Entry to FAULT places none by itself: each is
placed by a CONTROL_FRAME_PLACED (log 13). -/
def placeFaultAbort (s : State) : State :=
  match s.sct.faultAborts with
  | [] => s
  | a :: rest =>
    if s.ctrlFull then s
    else
      { s with sct := { s.sct with faultAborts := rest } }.pushCtrl
        ⟨a.dst, s.sn, a.fromOrig, a.tag, .abort .stationFault⟩ .stationControl

/-- The claimant of the line that has its turn is served (R106). A due CREDIT that comes to find a WAITING CREDIT of its
slot, one that has returned BUSY since, raises its limit, and no entry is placed (R90, R108; log 36). -/
def serveCtrl (c : CtrlClaim) (s : State) : State :=
  match c with
  | .frame f o =>
    ({ s with txq := { s.txq with line := s.txq.line.erase c } }).pushCtrl f o
  | .credit i =>
    match s.ex i with
    | none => s.unclaimCtrl c
    | some e =>
      if s.txq.ctrl.any (s.isWaitingCredit i) then (s.unclaimCtrl c).raiseCredit i e.granted
      else (s.unclaimCtrl c).pushCtrl (e.frame s.sn (.credit (to24 e.granted))) (.slot i (s.gen i))
  | .pendingAbort p t =>
    ((s.unclaimCtrl c).pushCtrl (s.replyFrame p t (.abort .detaching)) .nobody).dropDeferred (Deferred.isOf p t)
  | .inboxHead => s.takeOpen
  | .rescan => s.runRescan

/-- A freed control queue entry is given: to the ABORT owed longest, else to the earliest claimant that can use it (R20,
R106). -/
def giveCtrl (s : State) : State :=
  if s.ctrlFull then s
  else
    match s.txq.owed with
    | i :: rest => ({ s with txq := { s.txq with owed := rest } }).placeAbort i
    | [] =>
      match s.txq.line.find? s.claimAble with
      | none => s
      | some c => s.serveCtrl c

/-! ### The end of a detach and of a presence (R171, R174) -/

end State

/-- Is a claim of the line a frame that is due (R171). -/
def CtrlClaim.isFrame : CtrlClaim → Bool
  | .frame _ _ | .credit _ | .pendingAbort _ _ => true
  | .inboxHead | .rescan => false

namespace State

/-- The conditions of a complete detach (R171). -/
def detachDone (s : State) : Bool :=
  s.sct.station == .detaching && slotIds.all (fun i => (s.ex i).isNone) && s.xen.deferred.isEmpty
    && s.txq.ctrl.isEmpty && s.txq.owed.isEmpty && !s.txq.line.any CtrlClaim.isFrame && s.lpt.tx.isNone
    && s.lpt.inbox.isEmpty

/-- The completion of a detach (R171), behind the lane clear event of the station's own pulse where that has not come yet
(R149; log 9). -/
def completeDetach (s : State) : State :=
  ((s.ownClear.leaveLane.emptyInbox).enter .offline).stationReport ⟨.offline, .detached, 0⟩

/-- Does Station Control own an entry of the control queue (R174). -/
def hasFaultAbort (s : State) : Bool := s.txq.ctrl.any fun c => c.owner == Owner.stationControl

/-- The conditions under which Station Control ends the presence of a station in FAULT (R174). -/
def presenceOver (s : State) : Bool :=
  s.sct.station == .fault && s.sct.present && s.sct.faultAborts.isEmpty && !s.hasFaultAbort && s.lpt.tx.isNone

/-- The end of the station's presence (R134, R174). -/
def endPresence (s : State) : State := { s with sct := { s.sct with present := false } }.leaveLane

end State

/-! ### The meanings -/

/-- LANE_CLEAR (R131 to R133, R170): no event in a state that does not take lane clear (R117). -/
def execLaneClear (s : State) : Host.Outcome State Fault Refusal :=
  .next (if s.takesClear then s.takeClear else if s.observes then s.ignoreClear else s)

/-- ARBITRATION_WINDOW (R118 to R120). -/
def execArbitrationWindow (bids : List Bid) (wait : Bool) (s : State) : Host.Outcome State Fault Refusal :=
  .next (if s.observes = true ∧ s.lpt.phase = .idle then s.window bids wait else s)

/-- TENURE (R121 to R123, R127). -/
def execTenure (bytes : List Byte) (s : State) : Host.Outcome State Fault Refusal :=
  .next (if s.observes then s.tenure bytes else s)

/-- ACKNOWLEDGE_SLOT (R124, R125). -/
def execAcknowledgeSlot (ackt ackb : Bool) (s : State) : Host.Outcome State Fault Refusal :=
  .next (if s.observes then s.ackSlot ackt ackb else s)

/-- TRANSMIT_CHOICE (R109, R110). -/
def execTransmitChoice (s : State) : Host.Outcome State Fault Refusal :=
  .next (if s.onLane then (if s.lpt.tx.isNone then s.chooseFrame else s.takeBack) else s)

/-- CONTROL_FRAME_PLACED (R106, R174), and the take-back of R110 for the frame placed. -/
def execControlFramePlaced (s : State) : Host.Outcome State Fault Refusal :=
  .next (
    if s.runs then s.giveCtrl.takeBack
    else if s.up = true ∧ s.sct.present = true then s.placeFaultAbort
    else s)

/-- DETACH_COMPLETE (R171). -/
def execDetachComplete (s : State) : Host.Outcome State Fault Refusal :=
  .next (if s.up = true ∧ s.detachDone = true then s.completeDetach else s)

/-- PRESENCE_END (R174). -/
def execPresenceEnd (s : State) : Host.Outcome State Fault Refusal :=
  .next (if s.up = true ∧ s.presenceOver = true then s.endPresence else s)

end Sys2Proof.Machine
end

