-- ==== Sys2Proof/Machine/Inbox.lean ====
section
/-!
DEFINITION. The meanings of the nine steps by which the Exchange Engine takes the control frame at the inbox head.
-/

namespace Sys2Proof.Machine

/-! ### ACCEPT and RECALL (R35 to R39) -/

/-- Does the field of an ACCEPT or RECALL pass its check (R36, R38). -/
def Exchange.fieldOk (e : Exchange) (n : Nat) : Bool :=
  match e.dir with
  | .push => validLimit n e.length
  | .pull => decide (n ≤ e.length)

/-- The record as a valid ACCEPT or RECALL is taken: the initial credit limit or the length (R36, R38). -/
def Exchange.opened (n : Nat) (e : Exchange) : Exchange :=
  match e.dir with
  | .push => { e with creditReceived := max e.creditReceived n }
  | .pull => { e with length := n }

namespace State

/-- A receiver that has opened: its first CREDIT becomes due, or its DONE(0) (R38, R89, R103). -/
def firstOfReceiver (i : SlotId) (s : State) : State :=
  match s.ex i with
  | none => s
  | some e =>
    match e.state with
    | .finishing => s.dueDone i
    | _ => s.dueCredit i

/-- A valid ACCEPT or RECALL opens the exchange (R35, R36, R38). -/
def openExchange (i : SlotId) (n : Nat) (dir : Direction) (s : State) : State :=
  let t := (s.withdraw i FrameBody.isOpen).updEx i (Exchange.opened n)
  match dir with
  | .push => t.openSender i
  | .pull => (t.openReceiver i).firstOfReceiver i

/-- An ACCEPT or RECALL at its slot (R35, R39, R16). -/
def answered (i : SlotId) (n : Nat) (s : State) : State :=
  match s.ex i with
  | none => s
  | some e =>
    match e.state with
    | .opening | .backoff | .parked => if e.fieldOk n then s.openExchange i n e.dir else s.abortWith i .protocol
    | .sending | .receiving | .confirming => s.quiet i
    | .finishing | .retiring => s

/-! ### DEFER (R30, R31, R33) -/

/-- A DEFER(HELD) at its slot (R30, R31). -/
def deferredHeld (i : SlotId) (s : State) : State :=
  match s.ex i with
  | none => s
  | some e =>
    match e.state with
    | .opening | .backoff =>
      (s.withdraw i FrameBody.isOpen).updEx i fun e => { e.startTimer .park s.par.parkMs with state := .parked }
    | .parked => s.updEx i (Exchange.startTimer .park s.par.parkMs)
    | .sending | .receiving | .confirming => s.quiet i
    | .finishing | .retiring => s

/-- A DEFER(FULL) at its slot (R31, R33). -/
def deferredFull (i : SlotId) (s : State) : State :=
  match s.ex i with
  | none => s
  | some e =>
    match e.state with
    | .opening =>
      if e.backoffs < s.par.openRetry then
        (s.withdraw i FrameBody.isOpen).updEx i fun e =>
          { e.startTimer .backoff (s.par.backoffMs (e.backoffs + 1)) with
            state := .backoff, backoffs := e.backoffs + 1 }
      else s.endWith i .refused
    | .sending | .receiving | .confirming => s.quiet i
    | .backoff | .parked | .finishing | .retiring => s

/-! ### CREDIT, HOLD, DONE, ABORT (R37, R91, R98, R99, R101, R40, R41, R59) -/

/-- A CREDIT at its slot (R37, R91, R99). -/
def credited (i : SlotId) (n : Nat) (s : State) : State :=
  match s.ex i with
  | none => s
  | some e =>
    match e.side with
    | .receiver => s.quiet i
    | .sender =>
      if validLimit n e.length then
        match e.state with
        | .opening | .backoff | .parked => s.updEx i fun e => { e with creditReceived := max e.creditReceived n }
        | .sending =>
          s.updEx i fun e => { e with creditReceived := max e.creditReceived n }.unhold s.par
        | .confirming => s.updEx i (Exchange.unhold s.par)
        | .receiving | .finishing | .retiring => s
      else s

/-- A HOLD at its slot (R98). -/
def held (i : SlotId) (s : State) : State :=
  match s.ex i with
  | none => s
  | some e =>
    match e.state with
    | .sending | .receiving => s.updEx i fun e => { e with peerHold := true }.restartQuiet s.par
    | .finishing => s.updEx i fun e => { e with peerHold := true }
    | .confirming => s.quiet i
    | .opening | .backoff | .parked | .retiring => s

/-- A DONE at its slot (R40, R101). -/
def doneAt (i : SlotId) (n : Nat) (s : State) : State :=
  match s.ex i with
  | none => s
  | some e =>
    match e.state with
    | .confirming => if n = e.length then s.retire i .completed none else s.abortWith i .protocol
    | .sending =>
      if e.prepared = e.length ∧ n = e.length then s.retire i .completed none else s.abortWith i .protocol
    | .opening | .backoff | .parked =>
      if e.dir = .push ∧ e.length = 0 ∧ n = 0 then s.retire i .completed none else s
    | .receiving => s.quiet i
    | .finishing | .retiring => s

/-- An ABORT at its slot (R18, R41). -/
def abortedAt (i : SlotId) (r : Reason) (s : State) : State :=
  if r = .unknown then s.endWith i .unknownAtPeer else s.retire i (.failed .peerAbort (some r)) none

/-- An ABORT taken from the inbox head (R15, R17, R41, R59). -/
def abortFrom (f : Frame) (r : Reason) (s : State) : State :=
  match s.lookup f with
  | some i => s.abortedAt i r
  | none =>
    if f.fromOrig then (s.dropDeferred (Deferred.isOf f.src f.tag)).unclaimCtrl (.pendingAbort f.src f.tag) else s

/-- A frame of another kind at its slot, or unknown: an unknown ACCEPT, DEFER, RECALL or CREDIT draws ABORT(UNKNOWN)
(R15, R17). -/
def atSlot (f : Frame) (replies : Bool) (act : SlotId → State → State) (s : State) : State :=
  match s.lookup f with
  | some i => act i s
  | none => if replies then s.replyUnknown f else s

/-- The frame at the inbox head. -/
def inboxHead (s : State) : Option Frame := if s.runs then s.lpt.inbox.head? else none

end State

/-! ### The meanings -/

/-- OPEN (R52 to R56). -/
def execOpenFrame (s : State) : Host.Outcome State Fault Refusal := .next (if s.runs then s.takeOpen else s)

/-- ACCEPT (R35 to R39). -/
def execAcceptFrame (s : State) : Host.Outcome State Fault Refusal :=
  match s.inboxHead with
  | some ⟨d, c, o, t, .accept n⟩ => .next (s.atSlot ⟨d, c, o, t, .accept n⟩ true (State.answered · n.toNat)).popInbox
  | _ => .next s

/-- RECALL (R35 to R39): acted on as an ACCEPT would be. -/
def execRecallFrame (s : State) : Host.Outcome State Fault Refusal :=
  match s.inboxHead with
  | some ⟨d, c, o, t, .recall n⟩ => .next (s.atSlot ⟨d, c, o, t, .recall n⟩ true (State.answered · n.toNat)).popInbox
  | _ => .next s

/-- DEFER_HELD (R30, R31). -/
def execDeferHeld (s : State) : Host.Outcome State Fault Refusal :=
  match s.inboxHead with
  | some ⟨d, c, o, t, .defer .held⟩ => .next (s.atSlot ⟨d, c, o, t, .defer .held⟩ true State.deferredHeld).popInbox
  | _ => .next s

/-- DEFER_FULL (R31, R33). -/
def execDeferFull (s : State) : Host.Outcome State Fault Refusal :=
  match s.inboxHead with
  | some ⟨d, c, o, t, .defer .full⟩ => .next (s.atSlot ⟨d, c, o, t, .defer .full⟩ true State.deferredFull).popInbox
  | _ => .next s

/-- CREDIT (R37, R91, R99). -/
def execCreditFrame (s : State) : Host.Outcome State Fault Refusal :=
  match s.inboxHead with
  | some ⟨d, c, o, t, .credit n⟩ => .next (s.atSlot ⟨d, c, o, t, .credit n⟩ true (State.credited · n.toNat)).popInbox
  | _ => .next s

/-- HOLD (R98). -/
def execHoldFrame (s : State) : Host.Outcome State Fault Refusal :=
  match s.inboxHead with
  | some ⟨d, c, o, t, .hold⟩ => .next (s.atSlot ⟨d, c, o, t, .hold⟩ false State.held).popInbox
  | _ => .next s

/-- DONE (R40, R101). -/
def execDoneFrame (s : State) : Host.Outcome State Fault Refusal :=
  match s.inboxHead with
  | some ⟨d, c, o, t, .done n⟩ => .next (s.atSlot ⟨d, c, o, t, .done n⟩ false (State.doneAt · n.toNat)).popInbox
  | _ => .next s

/-- ABORT (R41, R59). -/
def execAbortFrame (s : State) : Host.Outcome State Fault Refusal :=
  match s.inboxHead with
  | some ⟨d, c, o, t, .abort r⟩ => .next (s.abortFrom ⟨d, c, o, t, .abort r⟩ r).popInbox
  | _ => .next s

end Sys2Proof.Machine
end

