-- ==== Sys2Proof/Machine/Expiry.lean ====
section
/-!
DEFINITION. The meanings of the four expiries of the slot timer (R9, R10, R14).
-/

namespace Sys2Proof.Machine

namespace State

/-- The record of a slot whose timer of a kind has expired, the expiry not yet taken (R9, R14). -/
def expired (s : State) (i : SlotId) (k : TimerKind) : Option Exchange :=
  if s.runs then (s.ex i).filter fun e => e.expiredAs k else none

/-- The ANSWER expiry (R29). -/
def answerExpired (i : SlotId) (e : Exchange) (s : State) : State :=
  if e.openAttempts < s.par.openRetry then
    (s.updEx i fun e => { e.clearTimer with openAttempts := e.openAttempts + 1 }).dueOpen i
  else s.endWith i .noAnswer

/-- The BACKOFF expiry (R34). -/
def backoffExpired (i : SlotId) (s : State) : State :=
  (s.updEx i fun e => { e.clearTimer with state := .opening }).dueOpen i

end State

/-- ANSWER_EXPIRY (R29). -/
def execAnswerExpiry (i : SlotId) (s : State) : Host.Outcome State Fault Refusal :=
  match s.expired i .answer with
  | none => .next s
  | some e => .next (if e.state = .opening then s.answerExpired i e else s)

/-- BACKOFF_EXPIRY (R34). -/
def execBackoffExpiry (i : SlotId) (s : State) : Host.Outcome State Fault Refusal :=
  match s.expired i .backoff with
  | none => .next s
  | some e => .next (if e.state = .backoff then s.backoffExpired i else s)

/-- PARK_EXPIRY (R32). -/
def execParkExpiry (i : SlotId) (s : State) : Host.Outcome State Fault Refusal :=
  match s.expired i .park with
  | none => .next s
  | some e => .next (if e.state = .parked then s.abortWith i .parkExpired else s)

/-- QUIET_EXPIRY (R10, R18). -/
def execQuietExpiry (i : SlotId) (s : State) : Host.Outcome State Fault Refusal :=
  match s.expired i .quiet with
  | none => .next s
  | some e =>
    match e.state with
    | .sending | .receiving | .confirming => .next (s.abortWith i .quiet)
    | .opening | .backoff | .parked | .finishing | .retiring => .next s

end Sys2Proof.Machine
end

