-- ==== Sys2Proof/Machine/Orders.lean ====
section
/-!
DEFINITION. The meanings of the nine order kinds at the ring head (R139 to R149), of ORDER_FETCH and DUE_ACK_QUEUED.
-/

namespace Sys2Proof.Machine

namespace State

/-- The head order that may be examined now, if it is of a kind (R138). -/
def headOfKind (s : State) (k : OrderKind) : Option OrderRec := s.headOrder.filter fun o => o.kindOf == some k

/-- The head order that the command of a kind R139 may refuse examines: one of that kind, or one of no order kind, whose
refusal with BAD_ORDER is no kind's own (R138, R139, R152; log 15). -/
def headToRefuse (s : State) (k : OrderKind) : Option OrderRec :=
  s.headOrder.filter fun o => o.kindOf == some k || o.kindOf.isNone

/-- The number of orders present (R135). -/
def ordersPresent (s : State) : Nat := (s.ord.producer - s.ord.taken).toNat

/-- The read of the ring entry for the taken count (R135, R138). -/
def fetchRequest (s : State) : Request :=
  ⟨.orderFetch, s.par.orderBase.toNat + 32 * (s.ord.taken.toNat % s.par.orderSize.toNat), 32, []⟩

/-- May the head be fetched (R138, R164), the Order Unit having no other transfer placed (R160; log 31). -/
def mayFetch (s : State) : Bool :=
  s.takesOrders && !s.ord.orderFault && s.ord.head == .absent && decide (0 < s.ordersPresent) && !s.ord.indexWrite
    && s.ord.ringRead == .idle

end State

/-- SEND (R25, R139 to R141). -/
def execSendOrder (s : State) : Host.Outcome State Fault Refusal :=
  match s.headToRefuse .send with
  | none => .next s
  | some o => .next (s.examine o)

/-- FETCH (R26, R139 to R141). -/
def execFetchOrder (s : State) : Host.Outcome State Fault Refusal :=
  match s.headToRefuse .fetch with
  | none => .next s
  | some o => .next (s.examine o)

/-- OFFER (R48, R139, R142). -/
def execOfferOrder (s : State) : Host.Outcome State Fault Refusal :=
  match s.headToRefuse .offer with
  | none => .next s
  | some o => .next (s.examine o)

/-- WITHDRAW (R66, R143). -/
def execWithdrawOrder (s : State) : Host.Outcome State Fault Refusal :=
  match s.headOfKind .withdraw with
  | none => .next s
  | some o => .next (s.takeWithdraw o)

/-- CANCEL (R42, R144, R145). -/
def execCancelOrder (s : State) : Host.Outcome State Fault Refusal :=
  match s.headOfKind .cancel with
  | none => .next s
  | some o => .next (s.takeCancel o)

/-- CONTINUE (R100, R144, R146). -/
def execContinueOrder (s : State) : Host.Outcome State Fault Refusal :=
  match s.headOfKind .continue with
  | none => .next s
  | some o => .next (s.takeContinue o)

/-- DETACH (R60, R148, R171). -/
def execDetachOrder (s : State) : Host.Outcome State Fault Refusal :=
  match s.headOfKind .detach with
  | none => .next s
  | some o => .next (s.takeDetach o)

/-- ATTACH (R148, R172). -/
def execAttachOrder (s : State) : Host.Outcome State Fault Refusal :=
  match s.headOfKind .attach with
  | none => .next s
  | some o => .next (s.takeAttach o)

/-- CLR (R131, R149). -/
def execClrOrder (s : State) : Host.Outcome State Fault Refusal :=
  match s.headToRefuse .clr with
  | none => .next s
  | some o => .next (s.examine o)

/-- ORDER_FETCH (R138). -/
def execOrderFetch (s : State) : Host.Outcome State Fault Refusal :=
  .next (if s.mayFetch then (s.setHead .fetching).place s.fetchRequest else s)

/-- DUE_ACK_QUEUED (R147). -/
def execDueAckQueued (s : State) : Host.Outcome State Fault Refusal := .next (if s.runs then s.settleAcks else s)

end Sys2Proof.Machine
end

