-- ==== Sys2Proof/Machine/Bus.lean ====
section
/-!
DEFINITION. The meanings of the ends of local memory transfers (R163, R164) and of LMP_CHOOSE_TRANSFER (R161, R162).
-/

namespace Sys2Proof.Machine

namespace State

/-! ### The end of a transfer -/

/-- The request leaves the port (R159). -/
def endRequest (s : State) : State := { s with lmp := { s.lmp with transfer := none, progress := .start } }

/-- The transfer in progress, if its purpose is as asked and its bytes have come (R159, R163). -/
def transferOf (s : State) (p : Purpose → Bool) : Option Request :=
  if s.up then s.lmp.transfer.filter fun r => p r.purpose else none

/-- LREQ is asserted while a transfer is in progress (R162). -/
def lreq (s : State) : Bool := s.lmp.transfer.isSome

/-- The words that the beats of the transfer in progress touch, in ascending order (R162). -/
def busWords (s : State) : List Nat :=
  match s.lmp.transfer with
  | none => []
  | some r => beats r.addr r.count

/-- The beat under way on the bus, while the grant is held (R162). -/
def busBeat (s : State) : Option BusBeat :=
  match s.lmp.transfer with
  | none => none
  | some r => if s.lmp.progress.granted then r.beat s.lmp.progress.beat else none

/-- The bytes of the write in progress that stand in local memory if the beat under way ends with LERR: those of the
beats before it (R162). -/
def bytesWritten (s : State) : List (Nat × Byte) :=
  match s.lmp.transfer with
  | none => []
  | some r => r.writtenBefore s.lmp.progress.beat

/-- One event of the bus: LGNT gives the grant, or LRDY ends a beat that is not the last. The last beat ends with the
command that ends the transfer (R162; log 6). -/
def busTick (s : State) : State :=
  match s.lmp.transfer with
  | none => s
  | some r =>
    if s.lmp.progress.granted = false then { s with lmp := { s.lmp with progress := ⟨true, 0⟩ } }
    else if s.lmp.progress.beat + 1 < (beats r.addr r.count).length then
      { s with lmp := { s.lmp with progress := ⟨true, s.lmp.progress.beat + 1⟩ } }
    else s

/-- The producer index has been written: the count advances and the head report leaves the queue (R153). -/
def advanceProducer (s : State) : State :=
  { s with
    rpt := { s.rpt with producer := s.rpt.producer + 1, queue := s.rpt.queue.tail, writer := .idle } }

/-- The level of REPORT after a change of a count (R155). -/
def setReportPin (s : State) : State :=
  { s with rpt := { s.rpt with reportPin := reportLevel s.rpt.producer s.rpt.release } }

/-- A transfer that ends in FAULT, completed or failed (R156, R165): its result is not used, but a producer index write
that completes completes its step, and one that fails advances no count (R153); then the one status word write is placed,
unless the transfer was that write. That the writer is idle after an entry write, and after a write that fails, is a
DESIGN CHOICE (log 39). -/
def endInFault (completed : Bool) (r : Request) (s : State) : State :=
  let t := s.endRequest
  match r.purpose with
  | .statusWord =>
    (match t.rpt.status with
      | .inProgress _ => { t with rpt := { t.rpt with status := .none } }
      | .none | .due => t).placeFaultStatus
  | .producerWord =>
    (if completed then t.advanceProducer else { t with rpt := { t.rpt with writer := .idle } }).placeFaultStatus
  | .reportEntry => { t with rpt := { t.rpt with writer := .idle } }.placeFaultStatus
  | .drainWrite _ _ _ | .entryRead _ _ | .dataRead _ _ _ | .ringWords | .orderFetch | .indexWrite | .startRecord =>
    t.placeFaultStatus

/-! ### Ring words, orders and the start record (R136, R138, R154, R167) -/

end State

/-- The ring words read when the one in progress has ended (R136). -/
def RingRead.next : RingRead → RingRead
  | .furtherDue => .inProgress
  | .idle | .inProgress => .idle

namespace State

/-- The release word reaches the Report Unit (R154, R155). -/
def acceptRelease (w : BitVec 16) (s : State) : State :=
  if (w - s.rpt.release).toNat ≤ (s.rpt.producer - s.rpt.release).toNat then
    { s with rpt := { s.rpt with release := w } }.setReportPin
  else s

/-- The producer word examined (R136). -/
def acceptProducer (p : BitVec 16) (s : State) : State :=
  if s.ordersPresent ≤ (p - s.ord.taken).toNat ∧ (p - s.ord.taken).toNat ≤ s.par.orderSize.toNat then
    { s with ord := { s.ord with producer := p } }
  else s

/-- The ring words read has ended: a further one that is due is placed at once (R136), else an index write that waited
for it (R160). -/
def nextRingRead (s : State) : State :=
  { s with ord := { s.ord with ringRead := s.ord.ringRead.next } }.nextOrderTransfer

/-- The start record checked (R167). -/
def checkStart (bytes : List Byte) (s : State) : State :=
  match startRecord bytes with
  | some p => { s with sct := { s.sct with params := some p } }.startProbe
  | none => s.enterFault .startInvalid

/-! ### Entry reads and data reads (R72, R74, R81, R82, R84) -/

/-- A buffer of a RETIRING slot that waited for an entry read becomes FREE (R84). -/
def freeFilling (i : SlotId) (g : Gen) (v : Option OutBuffer) : Option OutBuffer :=
  v.filter fun b => !(b.slot == i && b.gen == g && b.state == .filling)

/-- The end of an entry read of a RETIRING slot: what waited for it is given up (R74, R84, R95). -/
def dropEntryRead (i : SlotId) (g : Gen) (s : State) : State :=
  { s with
    fbd := { s.fbd with buffers := s.fbd.buffers.map (freeFilling i g) },
    stg := { s.stg with drain := if s.stg.drain = .choosing i g then .idle else s.stg.drain } }

/-- The fill of slot i that is under way goes on (R81). -/
def fillWaiting (i : SlotId) (s : State) : State :=
  match bufIds.find? (s.bufferIn i .filling) with
  | none => s
  | some b => s.fillOn b

/-- The request that waited for an entry read goes on: the slot's fill, or the drain (R74). -/
def walkOn (i : SlotId) (s : State) : State :=
  match s.stg.drain with
  | .choosing j _ => if j = i then s.drainOn i else s.fillWaiting i
  | .idle | .writing _ _ _ => s.fillWaiting i

/-- The entry read of a live slot that is not RETIRING (R69, R72, R73). -/
def useEntry (i : SlotId) (r : EntryRead) (s : State) : State :=
  match r with
  | .bad => s.abortWith i .listBad
  | .link base => (s.updEx i fun e => { e with walk := e.walk.follow base }).walkOn i
  | .data d => (s.updEx i fun e => { e with walk := e.walk.cache d }).walkOn i

/-- An entry read ends for slot i at generation g (R74, R21, R5). -/
def entryDone (i : SlotId) (g : Gen) (bytes : List Byte) (s : State) : State :=
  let t := s.endRequest.endTransfer i g
  if t.live i g = false then t
  else
    match t.ex i with
    | none => t
    | some e => if e.state = .retiring then t.dropEntryRead i g else t.useEntry i (EntryRead.parse bytes)

/-- A data read ends into buffer b (R81, R82, R84). -/
def dataDone (i : SlotId) (g : Gen) (b : BufId) (bytes : List Byte) (s : State) : State :=
  let t := s.endRequest.endTransfer i g
  match t.buffer b with
  | none => t
  | some v =>
    match v.state with
    | .discarding => t.setBuffer b none
    | .filling => (t.setBuffer b (some { v with payload := v.payload ++ bytes })).fillOn b
    | .ready | .sending => t

/-- A drain write of n bytes ends (R96, R21, R104). -/
def drainDone (i : SlotId) (g : Gen) (c : CellId) (n : Nat) (s : State) : State :=
  let t := (s.endRequest.endTransfer i g).setDrain .idle
  if t.live i g = false then t.freeReclaimed c
  else
    match t.ex i with
    | none => t
    | some e =>
      match e.state with
      | .receiving | .finishing => t.drained i c n
      | .opening | .backoff | .parked | .sending | .confirming | .retiring => t.freeReclaimed c

/-! ### Bus errors (R164) -/

/-- A bus error of a transfer made for an exchange (R164): LOCAL_ERROR, unless the slot is RETIRING or released. -/
def localError (i : SlotId) (g : Gen) (s : State) : State :=
  let t := s.endTransfer i g
  if t.live i g then t.abortWith i .localError else t

/-- A failed data read (R82, R84, R164). -/
def dataFailed (i : SlotId) (g : Gen) (b : BufId) (s : State) : State :=
  let t := s.localError i g
  match t.buffer b with
  | none => t
  | some v => if v.state = .discarding then t.setBuffer b none else t

/-- The outcome of a bus error, by the client that placed the request, which has left the port (R164). In FAULT it
makes no new outcome (R165). An index write that waited for a failed ring words read is not placed (R164; log 31). -/
def failed (r : Request) (s : State) : State :=
  if s.sct.station = .fault then s.endInFault false r
  else
    match r.purpose with
    | .entryRead i g => (s.localError i g).dropEntryRead i g
    | .dataRead i g b => s.dataFailed i g b
    | .drainWrite i g c => ((s.setDrain .idle).localError i g).freeReclaimed c
    | .ringWords => { s with ord := { s.ord with indexWrite := false } }.nextRingRead.failOrders
    | .orderFetch => (s.setHead .absent).nextOrderTransfer.failOrders
    | .indexWrite => { s with ord := { s.ord with indexWrite := false } }.nextOrderTransfer.failOrders
    | .startRecord => s.enterFault .startRead
    | .reportEntry | .producerWord => s.enterFault .reportWrite
    | .statusWord => s.enterFault .statusWrite

/-! ### The choice of the next transfer (R161, R162) -/

/-- The better of two waiting requests: the client of the higher priority, then the one placed earlier (R161). -/
def earlier (best : Option Request) (r : Request) : Option Request :=
  match best with
  | none => some r
  | some b => if r.purpose.client < b.purpose.client then some r else some b

/-- The waiting request the port chooses (R161). -/
def nextRequest (s : State) : Option Request := s.lmp.waiting.foldl earlier none

/-- Would a transfer run past the top of the address space (R162). -/
def wraps (r : Request) : Bool := decide (Config.topAddress < r.addr + r.count - 1)

/-- The port chooses a request; one that would wrap fails in the same step, and the port chooses again (R161, R162). -/
def chooseTransfer : Nat → State → State
  | 0, s => s
  | n + 1, s =>
    match s.nextRequest with
    | none => s
    | some r =>
      let t := { s with lmp := { s.lmp with waiting := s.lmp.waiting.erase r } }
      if wraps r then chooseTransfer n (t.failed r)
      else { t with lmp := { t.lmp with transfer := some r, progress := .start } }

end State

/-! ### The meanings -/

/-- RING_WORDS_READ_DONE (R136, R154, R176): the order producer word, then the report release word. -/
def execRingWordsReadDone (bytes : List Byte) (s : State) : Host.Outcome State Fault Refusal :=
  match s.transferOf fun p => p == .ringWords && decide (bytes.length = 8) with
  | none => .next s
  | some r =>
    .next (
      if s.sct.station = .fault then s.endInFault true r
      else ((s.endRequest.acceptRelease (le16 bytes 4)).acceptProducer (le16 bytes 0)).nextRingRead)

/-- ORDER_FETCH_DONE (R138, R139; log 15). -/
def execOrderFetchDone (bytes : List Byte) (s : State) : Host.Outcome State Fault Refusal :=
  match s.transferOf fun p => p == .orderFetch && decide (bytes.length = 32) with
  | none => .next s
  | some r =>
    .next (
      if s.sct.station = .fault then s.endInFault true r
      else (s.endRequest.setHead (.record (OrderRec.parse bytes) .examine)).nextOrderTransfer.refuseHead)

/-- INDEX_WRITE_DONE (R138). -/
def execIndexWriteDone (s : State) : Host.Outcome State Fault Refusal :=
  match s.transferOf fun p => p == .indexWrite with
  | none => .next s
  | some r =>
    .next (
      if s.sct.station = .fault then s.endInFault true r
      else { s.endRequest with ord := { s.ord with indexWrite := false } }.nextOrderTransfer)

/-- START_RECORD_READ_DONE (R167): the start record is checked in STARTING, the only state in which its read is made. -/
def execStartRecordReadDone (bytes : List Byte) (s : State) : Host.Outcome State Fault Refusal :=
  match s.transferOf fun p => p == .startRecord && decide (bytes.length = 32) with
  | none => .next s
  | some r =>
    .next (
      if s.sct.station = .fault then s.endInFault true r
      else if s.sct.station = .starting then s.endRequest.checkStart bytes
      else s)

/-- ENTRY_READ_DONE (R69, R72 to R74). -/
def execEntryReadDone (bytes : List Byte) (s : State) : Host.Outcome State Fault Refusal :=
  if bytes.length = 16 ∧ s.up = true then
    match s.lmp.transfer with
    | some ⟨.entryRead i g, a, n, d⟩ =>
      .next (
        if s.sct.station = .fault then s.endInFault true ⟨.entryRead i g, a, n, d⟩ else s.entryDone i g bytes)
    | _ => .next s
  else .next s

/-- DATA_READ_DONE (R81, R82, R84). -/
def execDataReadDone (bytes : List Byte) (s : State) : Host.Outcome State Fault Refusal :=
  if s.up then
    match s.lmp.transfer with
    | some ⟨.dataRead i g b, a, n, d⟩ =>
      .next (
        if bytes.length ≠ n then s
        else if s.sct.station = .fault then s.endInFault true ⟨.dataRead i g b, a, n, d⟩
        else s.dataDone i g b bytes)
    | _ => .next s
  else .next s

/-- DRAIN_WRITE_DONE (R96, R104). -/
def execDrainWriteDone (s : State) : Host.Outcome State Fault Refusal :=
  if s.up then
    match s.lmp.transfer with
    | some ⟨.drainWrite i g c, a, n, d⟩ =>
      .next (
        if s.sct.station = .fault then s.endInFault true ⟨.drainWrite i g c, a, n, d⟩ else s.drainDone i g c n)
    | _ => .next s
  else .next s

namespace State

/-- The write of the report producer word (R153, 12.1). -/
def producerRequest (s : State) : Request :=
  ⟨.producerWord, s.sct.startBlock.toNat + 0x2C, 4, countWord (s.rpt.producer + 1)⟩

/-- A ring entry write has completed: the producer index is written (R153). That a status word write which has become
due meanwhile follows the producer word write, and does not go ahead of it, is a DESIGN CHOICE (log 40): R153 places the
index write as the entry write completes, R158 a due status write ahead of the next report write. -/
def entryWritten (s : State) : State :=
  { s.endRequest with rpt := { s.rpt with writer := .index } }.place s.producerRequest

/-- Is the head report the one an order fault waits for (R164). -/
def faultReported (s : State) : Bool :=
  match s.rpt.queue with
  | .station .fault .orderRead :: _ => true
  | _ => false

/-- A producer word write has completed (R153, R155): freed entries are handed out (R152), or, where the report was the
one an order fault waits for, the station enters FAULT and hands out nothing more (R164; log 13). -/
def indexWritten (s : State) : State :=
  let t := s.endRequest.advanceProducer.setReportPin
  if s.faultReported then t.enterFault .orderRead else t.giveEntries

/-- A status word write has completed: a further one that is due is placed (R158). -/
def statusWritten (s : State) : State :=
  match s.rpt.status with
  | .inProgress true => s.endRequest.placeStatus
  | .inProgress false | .none | .due => { s.endRequest with rpt := { s.rpt with status := .none } }

end State

/-- REPORT_ENTRY_WRITE_DONE (R153, R156). -/
def execReportEntryWriteDone (s : State) : Host.Outcome State Fault Refusal :=
  match s.transferOf fun p => p == .reportEntry with
  | none => .next s
  | some r => .next (if s.sct.station = .fault then s.endInFault true r else s.entryWritten)

/-- PRODUCER_WORD_WRITE_DONE (R152, R153, R155, R164). -/
def execProducerWordWriteDone (s : State) : Host.Outcome State Fault Refusal :=
  match s.transferOf fun p => p == .producerWord with
  | none => .next s
  | some r => .next (if s.sct.station = .fault then s.endInFault true r else s.indexWritten)

/-- STATUS_WORD_WRITE_DONE (R158). -/
def execStatusWordWriteDone (s : State) : Host.Outcome State Fault Refusal :=
  match s.transferOf fun p => p == .statusWord with
  | none => .next s
  | some r => .next (if s.sct.station = .fault then s.endInFault true r else s.statusWritten)

/-- BUS_ERROR (R164). -/
def execBusError (s : State) : Host.Outcome State Fault Refusal :=
  match s.transferOf fun _ => true with
  | none => .next s
  | some r => .next (s.endRequest.failed r)

/-- LMP_CHOOSE_TRANSFER (R161, R162). -/
def execLmpChooseTransfer (s : State) : Host.Outcome State Fault Refusal :=
  .next (if s.up = true ∧ s.lmp.transfer.isNone = true then State.chooseTransfer 64 s else s)

end Sys2Proof.Machine
end

