-- ==== Sys2Proof/Machine/Engine.lean ====
section
/-!
DEFINITION. The meanings of FILL_START, CREDIT_GRANT, DRAIN_CHOOSE, RESCAN, SLOT_RELEASE, NOTE_MARK, PAUSE_MARK and
REPORT_WRITE_START.
-/

namespace Sys2Proof.Machine

namespace State

/-- A fill started for slot i in buffer b (R80, R81). -/
def startFill (i : SlotId) (b : BufId) (s : State) : State :=
  match s.ex i with
  | none => s
  | some e =>
    let t := s.setBuffer b (some ⟨.filling, i, s.gen i, e.prepared, e.fillCeiling, []⟩)
    { t with fbd := { t.fbd with lastFill := i } }.fillOn b

/-- The Frame Builder's choice (R80). -/
def chooseFill (s : State) : State :=
  match bufIds.find? fun b => (s.buffer b).isNone with
  | none => s
  | some b =>
    match (afterSlot s.fbd.lastFill).find? s.fillEligible with
    | none => s
    | some i => s.startFill i b

/-- The credit allocator's choice (R88, R90). -/
def chooseGrant (s : State) : State :=
  if s.freeCells.isEmpty then s
  else
    match (afterSlot s.stg.lastGrant).find? s.grantEligible with
    | none => s
    | some i =>
      let t := s.grant i
      { t with stg := { t.stg with lastGrant := i } }.dueCredit i

/-- The drain's choice (R95). -/
def chooseDrain (s : State) : State :=
  match s.stg.drain with
  | .choosing _ _ | .writing _ _ _ => s
  | .idle =>
    match (afterSlot s.stg.lastDrain).find? s.drainable with
    | none => s
    | some i => { s with stg := { s.stg with lastDrain := i } }.drainOn i

/-- The mark at the head of slot i's mark queue carries a flag. -/
def headMarkIs (s : State) (i : SlotId) (p : Mark → Bool) : Bool :=
  match s.headMark i with
  | some m => p m
  | none => false

/-- The write of a report's ring entry (R153, 12.1). -/
def entryRequest (s : State) (r : Report) : Request :=
  ⟨.reportEntry, s.par.reportBase.toNat + 16 * (s.rpt.producer.toNat % s.par.reportSize.toNat), 16, r.bytes s.sn⟩

/-- The writer starts the head report's ring entry write, where the ring has room (R153). -/
def startEntry (s : State) : State :=
  match s.rpt.queue with
  | [] => s
  | r :: _ =>
    if (s.rpt.producer - s.rpt.release).toNat < s.par.reportSize.toNat then
      { s with rpt := { s.rpt with writer := .entry } }.place (s.entryRequest r)
    else s

/-- The Report Unit's next write: a due status word first, then the head report (R153, R158). It places one write at a
time (R160). -/
def startWrite (s : State) : State :=
  match s.rpt.writer, s.rpt.status with
  | .idle, .due => s.placeStatus
  | .idle, .none => s.startEntry
  | _, _ => s

end State

/-- FILL_START (R80, R81). -/
def execFillStart (s : State) : Host.Outcome State Fault Refusal := .next (if s.runs then s.chooseFill else s)

/-- CREDIT_GRANT (R88, R90). -/
def execCreditGrant (s : State) : Host.Outcome State Fault Refusal := .next (if s.runs then s.chooseGrant else s)

/-- DRAIN_CHOOSE (R95). -/
def execDrainChoose (s : State) : Host.Outcome State Fault Refusal := .next (if s.runs then s.chooseDrain else s)

/-- RESCAN (R61 to R64). -/
def execRescan (s : State) : Host.Outcome State Fault Refusal := .next (if s.runs then s.runRescan else s)

/-- SLOT_RELEASE (R22, R65). -/
def execSlotRelease (i : SlotId) (s : State) : Host.Outcome State Fault Refusal :=
  .next (if s.runs then s.tryRelease i else s)

/-- NOTE_MARK (R76): the head mark carries NOTE. -/
def execNoteMark (i : SlotId) (s : State) : Host.Outcome State Fault Refusal :=
  .next (if s.runs = true ∧ s.headMarkIs i (·.note) = true then s.settleMarks i else s)

/-- PAUSE_MARK (R77): the head mark carries PAUSE. -/
def execPauseMark (i : SlotId) (s : State) : Host.Outcome State Fault Refusal :=
  .next (if s.runs = true ∧ s.headMarkIs i (·.pause) = true then s.settleMarks i else s)

/-- REPORT_WRITE_START (R153, R158): in FAULT no report write starts (R156). -/
def execReportWriteStart (s : State) : Host.Outcome State Fault Refusal := .next (if s.runs then s.startWrite else s)

end Sys2Proof.Machine
end

