-- ==== Sys2Proof/Machine/Dispatch.lean ====
section
/-!
DEFINITION. exec: one arm per command, each one call of its meaning.
-/

namespace Sys2Proof.Machine

/-- The effect of a command on everything but the queue of commands. -/
def exec (i : Instr) (s : State) : Host.Outcome State Fault Refusal :=
  match i with
  | .resetAssert => Sys2Proof.Machine.execResetAssert s
  | .resetRelease sn sb => Sys2Proof.Machine.execResetRelease sn sb s
  | .post => Sys2Proof.Machine.execPost s
  | .laneClear => Sys2Proof.Machine.execLaneClear s
  | .arbitrationWindow bids wait => Sys2Proof.Machine.execArbitrationWindow bids wait s
  | .tenure bytes => Sys2Proof.Machine.execTenure bytes s
  | .acknowledgeSlot ackt ackb => Sys2Proof.Machine.execAcknowledgeSlot ackt ackb s
  | .openFrame => Sys2Proof.Machine.execOpenFrame s
  | .acceptFrame => Sys2Proof.Machine.execAcceptFrame s
  | .recallFrame => Sys2Proof.Machine.execRecallFrame s
  | .deferHeld => Sys2Proof.Machine.execDeferHeld s
  | .deferFull => Sys2Proof.Machine.execDeferFull s
  | .creditFrame => Sys2Proof.Machine.execCreditFrame s
  | .holdFrame => Sys2Proof.Machine.execHoldFrame s
  | .doneFrame => Sys2Proof.Machine.execDoneFrame s
  | .abortFrame => Sys2Proof.Machine.execAbortFrame s
  | .answerExpiry slot => Sys2Proof.Machine.execAnswerExpiry slot s
  | .backoffExpiry slot => Sys2Proof.Machine.execBackoffExpiry slot s
  | .parkExpiry slot => Sys2Proof.Machine.execParkExpiry slot s
  | .quietExpiry slot => Sys2Proof.Machine.execQuietExpiry slot s
  | .sendOrder => Sys2Proof.Machine.execSendOrder s
  | .fetchOrder => Sys2Proof.Machine.execFetchOrder s
  | .offerOrder => Sys2Proof.Machine.execOfferOrder s
  | .withdrawOrder => Sys2Proof.Machine.execWithdrawOrder s
  | .cancelOrder => Sys2Proof.Machine.execCancelOrder s
  | .continueOrder => Sys2Proof.Machine.execContinueOrder s
  | .detachOrder => Sys2Proof.Machine.execDetachOrder s
  | .attachOrder => Sys2Proof.Machine.execAttachOrder s
  | .clrOrder => Sys2Proof.Machine.execClrOrder s
  | .ringWordsReadDone bytes => Sys2Proof.Machine.execRingWordsReadDone bytes s
  | .orderFetch => Sys2Proof.Machine.execOrderFetch s
  | .orderFetchDone bytes => Sys2Proof.Machine.execOrderFetchDone bytes s
  | .indexWriteDone => Sys2Proof.Machine.execIndexWriteDone s
  | .startRecordReadDone bytes => Sys2Proof.Machine.execStartRecordReadDone bytes s
  | .entryReadDone bytes => Sys2Proof.Machine.execEntryReadDone bytes s
  | .dataReadDone bytes => Sys2Proof.Machine.execDataReadDone bytes s
  | .drainWriteDone => Sys2Proof.Machine.execDrainWriteDone s
  | .reportEntryWriteDone => Sys2Proof.Machine.execReportEntryWriteDone s
  | .producerWordWriteDone => Sys2Proof.Machine.execProducerWordWriteDone s
  | .statusWordWriteDone => Sys2Proof.Machine.execStatusWordWriteDone s
  | .busError => Sys2Proof.Machine.execBusError s
  | .lmpChooseTransfer => Sys2Proof.Machine.execLmpChooseTransfer s
  | .fillStart => Sys2Proof.Machine.execFillStart s
  | .creditGrant => Sys2Proof.Machine.execCreditGrant s
  | .drainChoose => Sys2Proof.Machine.execDrainChoose s
  | .transmitChoice => Sys2Proof.Machine.execTransmitChoice s
  | .controlFramePlaced => Sys2Proof.Machine.execControlFramePlaced s
  | .rescan => Sys2Proof.Machine.execRescan s
  | .slotRelease slot => Sys2Proof.Machine.execSlotRelease slot s
  | .noteMark slot => Sys2Proof.Machine.execNoteMark slot s
  | .pauseMark slot => Sys2Proof.Machine.execPauseMark slot s
  | .dueAckQueued => Sys2Proof.Machine.execDueAckQueued s
  | .reportWriteStart => Sys2Proof.Machine.execReportWriteStart s
  | .detachComplete => Sys2Proof.Machine.execDetachComplete s
  | .presenceEnd => Sys2Proof.Machine.execPresenceEnd s
  | .timerTick => Sys2Proof.Machine.execTimerTick s

end Sys2Proof.Machine
end

