-- ==== Sys2Proof/Safety.lean ====
section
/-!
DEFINITION. The laws of the station that statements speak of: capacities, the FAULT and REPORT lines, the origin limit,
what FAULT holds still, the conditions under which a command meets free queues, and the rules by which marks act and
walks, fills and the drain go on.
-/

namespace Sys2Proof.Machine

/-! ### Laws -/

/-- No queue of the station holds more than its capacity (R58, R105, R116, R147, R152). -/
abbrev State.queueCaps (s : State) : Prop :=
  s.txq.ctrl.length ≤ Config.ctrlCap ∧ s.lpt.inbox.length ≤ Config.inboxCap ∧ s.rpt.queue.length ≤ Config.reportCap ∧
    s.xen.deferred.length ≤ Config.deferredCap ∧ s.ord.acks.length ≤ Config.ackCap

/-- No exchange's mark queue holds more than its capacity (R75). -/
abbrev State.markCaps (s : State) : Prop := ∀ i e, s.ex i = some e → e.walk.marks.length ≤ Config.markCap

/-- No queue or list holds more than its capacity: those of the station, and the mark queue of each exchange (4.3). -/
abbrev State.withinCaps (s : State) : Prop := s.queueCaps ∧ s.markCaps

/-- The ORIGINATOR slots that are not FREE number at most the origin limit (R6). -/
abbrev State.withinOriginLimit (s : State) : Prop := s.originators ≤ s.par.originLimit

/-- Is a request a read of the start record (R167). -/
def Request.isStart (r : Request) : Bool := r.purpose == .startRecord

/-- The reads of the start record that are placed with the Local Memory Port, in progress or waiting (R159, R167). -/
def State.startReads (s : State) : Nat := ((s.lmp.transfer.toList ++ s.lmp.waiting).filter Request.isStart).length

/-- The origin limit holds, and cannot change before the next hardware reset: while RESET is low there are no start
parameters, at most one read of the start record is placed, and none is once the parameters are accepted or while RESET
is low (R6, R166, R167). -/
abbrev State.originLaw (s : State) : Prop :=
  s.withinOriginLimit ∧ s.startReads ≤ 1 ∧
    (s.sct.params ≠ none ∨ s.sct.inReset = true → s.startReads = 0) ∧
    (s.sct.inReset = true → s.sct.params = none)

/-- Does an entry of the acknowledgement list await the lane clear event of the station's own pulse (R147, R149). -/
def State.awaitsPulse (s : State) : Bool := s.ord.acks.any fun a => a.await == .clearPulse

/-- The station drives LCL in ONLINE and DETACHING only, which take lane clear (R117), and a CLR whose event has not come
has its pulse on the line: so the event of a CLR's pulse always comes at the issuer (R131, R149). -/
abbrev State.pulseLaw (s : State) : Prop :=
  (s.lpt.pins.lcl = true → s.up = true ∧ (s.sct.station = .online ∨ s.sct.station = .detaching)) ∧
    (s.awaitsPulse = true → s.lpt.pins.lcl = true)

/-- FAULT is asserted in FAULT and CONFLICT only (R175), the pulse of a CLR stands on LCL until its event comes (R149),
and while RESET is low every block holds its reset value (R166). -/
abbrev State.lineLaw (s : State) : Prop :=
  s.sct.faultPin = faultLevel s.sct.station ∧ s.pulseLaw ∧
    (s.sct.inReset = true → { s with pending := [] } = State.reset)

/-- The station is in FAULT with RESET released, every WAITING entry of the control queue is Station Control's (R115),
and a DATA frame in the transmit slot has begun its tenure (R173). -/
abbrev State.stopped (s : State) : Prop :=
  s.sct.inReset = false ∧ s.sct.station = .fault ∧
    (∀ c ∈ s.txq.ctrl, c.inSlot = false → c.owner = Owner.stationControl) ∧
    (∀ f, s.lpt.tx = some f → f.isData = true → f.begun = true)

/-! ### When a command meets free queues -/

/-- A control queue entry is free and nobody waits for one (R106). -/
abbrev State.ctrlOpen (s : State) : Prop := s.txq.ctrl.length < 16 ∧ s.txq.owed = [] ∧ s.txq.line = []

/-- Report queue entries are free for k reports and nobody waits for one (R152). -/
abbrev State.reportOpen (s : State) (k : Nat) : Prop :=
  s.rpt.queue.length + k ≤ 8 ∧ s.rpt.stationWaiting = [] ∧ s.rpt.line = []

/-- The claimants of the report queue whose step changes nothing while no entry is free for them: a mark, a release, and
the head order that waits for a report (R152). -/
def State.keepsPlace (s : State) : ReportClaim → Prop
  | .mark _ | .release _ => True
  | .head => ∃ o, s.ord.head = .record o .report
  | .inboxHead | .rescan | .acks => False

/-- The mark at the head of the mark queue does not act: its point is above the bytes done, or it waits already for
report queue entries that are not free (R76, R77). -/
def State.headMarkRests (s : State) (i : SlotId) (e : Exchange) (done : Nat) : Prop :=
  ∀ m rest, e.walk.marks = m :: rest → done < m.point ∨
    (ReportClaim.mark i ∈ s.rpt.line ∧ 8 < s.rpt.queue.length + if m.note = true ∧ m.pause = true then 2 else 1)

/-- The buffer b is the one that slot i fills, and its ceiling is not reached (R81). -/
def State.fills (s : State) (i : SlotId) (e : Exchange) (b : BufId) (v : OutBuffer) : Prop :=
  s.buffer b = some v ∧ v.slot = i ∧ v.gen = s.gen i ∧ v.state = .filling ∧ e.prepared < v.ceiling ∧
    ∀ b' v', b' < b → s.buffer b' = some v' → ¬(v'.slot = i ∧ v'.gen = s.gen i ∧ v'.state = .filling)

/-- The order o is the head, is due for examination, and orders are taken (R137, R138, R164). -/
abbrev State.atHead (s : State) (o : OrderRec) : Prop :=
  s.takesOrders = true ∧ s.ord.orderFault = false ∧ s.ord.head = .record o .examine

/-- The frame f is at the inbox head, and the Exchange Engine acts (R15, R126). -/
abbrev State.inboxFirst (s : State) (f : Frame) : Prop := s.runs = true ∧ s.lpt.inbox.head? = some f

/-- The transfer r is in progress, RESET is released and the station is not in FAULT (R163, R165). -/
abbrev State.ending (s : State) (r : Request) : Prop := s.runs = true ∧ s.lmp.transfer = some r

/-! ### What a step leaves behind -/

/-- The frame at the inbox head has been handled: it leaves the inbox, and the head waits for nothing (R126). -/
def State.inboxTaken (s : State) : State :=
  { s with
    lpt := { s.lpt with inbox := s.lpt.inbox.tail },
    txq := { s.txq with line := s.txq.line.filter (· != .inboxHead) },
    rpt := { s.rpt with line := s.rpt.line.filter (· != .inboxHead) } }

/-- The head order has been taken: the taken count rises by one, the head is absent, and the write of the new count to
the order-taken index is placed, or follows the ring words read that is placed (R138, R160, 12.1; log 31). -/
def State.orderTaken (s : State) : State :=
  { s with
    ord := { s.ord with taken := s.ord.taken + 1, head := .absent, indexWrite := true },
    lmp :=
      { s.lmp with
        waiting := s.lmp.waiting ++
          if s.ord.ringRead = .idle then
            [⟨.indexWrite, s.sct.startBlock.toNat + 0x28, 4,
              [(s.ord.taken + 1).extractLsb' 0 8, (s.ord.taken + 1).extractLsb' 8 8, 0, 0]⟩]
          else [] },
    rpt := { s.rpt with line := s.rpt.line.filter (· != .head) } }

/-- The reason with which R139 refuses an order, if it does: the first line of its table that applies. The kinds are SEND
01h, FETCH 02h, OFFER 03h and CLR 09h (12.3). -/
def State.reasonToRefuse (s : State) (o : OrderRec) : Option Reason :=
  if o.kind.toNat = 0 ∨ 9 < o.kind.toNat then some .badOrder
  else if (o.kind = 0x01 ∨ o.kind = 0x02) ∧ (32 ≤ o.peer.toNat ∨ 16777215 < o.size.toNat) then some .badOrder
  else if o.kind = 0x03 ∧ ((o.type ≠ 0x01 ∧ o.type ≠ 0x02) ∨ (o.standing ≠ 0x00 ∧ o.standing ≠ 0x01) ∨
      (32 ≤ o.peer.toNat ∧ o.peer ≠ 0xFF) ∨ 16777215 < o.size.toNat) then some .badOrder
  else if (o.kind = 0x01 ∨ o.kind = 0x02 ∨ o.kind = 0x03) ∧ o.base.toNat % 16 ≠ 0 ∧ o.size ≠ 0 then some .badOrder
  else if o.kind = 0x02 ∧ o.size = 0 ∧ o.base ≠ 0 then some .badOrder
  else if (o.kind = 0x01 ∨ o.kind = 0x02) ∧ o.peer = s.sn.setWidth 8 then some .badPeer
  else if (o.kind = 0x01 ∨ o.kind = 0x02 ∨ o.kind = 0x09) ∧
      (s.sct.station = .offline ∨ s.sct.station = .conflict) then some .offline
  else if (o.kind = 0x01 ∨ o.kind = 0x02) ∧ s.peer (o.peer.setWidth 5) = .silent then some .peerSilent
  else if o.kind = 0x03 ∧ ∀ e, s.offer e ≠ none then some .noRoom
  else none

/-- A control frame has joined the control queue as the youngest WAITING entry with busy count 0; where it fills the
queue, a due rescan waits for an entry from now on (R61, R105, R106). -/
def State.enqueued (f : Frame) (o : Owner) (s : State) : State :=
  { s with
    txq := { s.txq with ctrl := s.txq.ctrl ++ [⟨f, o, 0, false⟩] },
    xen := { s.xen with rescanWaits := s.rescanWaitsAt (s.txq.ctrl.length + 1) } }

/-- A report has joined the report queue (R152). -/
def State.reported (r : Report) (s : State) : State := { s with rpt := { s.rpt with queue := s.rpt.queue ++ [r] } }

/-- The mark m at the head of slot i's mark queue has acted on record e: it has left the queue, NOTE has queued its
report, and PAUSE has set local pause, stopped the timer, queued PAUSED and placed a HOLD (R76, R77). -/
def State.marked (s : State) (i : SlotId) (e : Exchange) (m : Mark) : State :=
  if m.pause then
    State.enqueued ⟨e.peer, s.sn, e.role == .originator, e.tag, .hold⟩ (.slot i (s.gen i))
      { s.setEx i (some { e with
          walk := { e.walk with marks := e.walk.marks.tail }, localPause := true,
          timer := { e.timer with run := .stopped } }) with
        rpt := { s.rpt with
          queue := s.rpt.queue ++
            ((if m.note then [.note e.orderTag m.base m.index] else []) ++ [.paused e.orderTag m.point]) } }
  else
    { s.setEx i (some { e with walk := { e.walk with marks := e.walk.marks.tail } }) with
      rpt := { s.rpt with queue := s.rpt.queue ++ if m.note then [.note e.orderTag m.base m.index] else [] } }

/-- The marks ms at the head of slot i's mark queue, which carry NOTE only, have acted one after another on record e, and
the marks in rest are left (R76). -/
def State.noted (s : State) (i : SlotId) (e : Exchange) (ms rest : List Mark) : State :=
  { s.setEx i (some { e with walk := { e.walk with marks := rest } }) with
    rpt := { s.rpt with queue := s.rpt.queue ++ ms.map fun m => .note e.orderTag m.base m.index } }

/-- The marks ms carry NOTE only and their points are reached, the report queue has room for all their reports, and the
point of the mark that follows them is not reached (R76). -/
def State.notesReached (s : State) (ms rest : List Mark) (done : Nat) : Prop :=
  (∀ m ∈ ms, m.note = true ∧ m.pause = false ∧ m.point ≤ done) ∧ s.reportOpen ms.length ∧
    ∀ m l, rest = m :: l → done < m.point

/-- No fill of slot i goes on behind a mark that acts: the slot is not in SENDING, has a local transfer, or fills no
buffer (R75, R81). -/
def State.fillRests (s : State) (i : SlotId) (e : Exchange) : Prop :=
  e.state ≠ .sending ∨ e.transfers ≠ 0 ∨
    ∀ b v, s.buffer b = some v → v.slot = i → v.gen = s.gen i → v.state ≠ .filling

/-- From s to t, with some bytes of slot i done, n marks at the head of its mark queue have acted one after another, in
entry order, until the mark at the head rests or begins to wait for report queue entries (R76, R77, R152). -/
inductive State.MarksAct (i : SlotId) (done : Nat) : Nat → State → State → Prop
  /-- the head mark rests, or there is none -/
  | rests {s : State} {e : Exchange} : s.ex i = some e → s.headMarkRests i e done → MarksAct i done 0 s s
  /-- the head mark's point is reached, and its reports do not fit: it begins to wait -/
  | waits {s : State} {e : Exchange} {m : Mark} {l : List Mark} : s.ex i = some e → e.walk.marks = m :: l →
      m.point ≤ done → ReportClaim.mark i ∉ s.rpt.line →
      (s.rpt.stationWaiting ≠ [] ∨ 8 < s.rpt.queue.length + if m.note = true ∧ m.pause = true then 2 else 1) →
      MarksAct i done 0 s { s with rpt := { s.rpt with line := s.rpt.line ++ [.mark i] } }
  /-- the head mark's point is reached and the queues are free: it acts, and the next mark comes to the head -/
  | acts {n : Nat} {s t : State} {e : Exchange} {m : Mark} {l : List Mark} : s.ex i = some e →
      e.walk.marks = m :: l → m.point ≤ done → m.note = true ∨ m.pause = true →
      s.reportOpen (if m.note = true ∧ m.pause = true then 2 else 1) →
      (m.pause = true → s.ctrlOpen ∧ ∀ y ∈ s.txq.ctrl, y.owner = .slot i (s.gen i) → y.frame.body ≠ .hold) →
      MarksAct i done n (s.marked i e m) t → MarksAct i done (n + 1) s t

/-- A request has joined the requests that wait for the Local Memory Port (R159). -/
def State.requested (r : Request) (s : State) : State := { s with lmp := { s.lmp with waiting := s.lmp.waiting ++ [r] } }

/-- The transfer in progress has left the Local Memory Port (R159). -/
def State.portFree (s : State) : State := { s with lmp := { s.lmp with transfer := none, progress := ⟨false, 0⟩ } }

/-- The requests that the Order Unit places when a transfer of its own has ended: the ring words read that is due, else
the write of the order-taken index that waited for it (R136, R138, R160; log 31). -/
def State.orderDue (s : State) : List Request :=
  if s.ord.ringRead ≠ .idle then [⟨.ringWords, s.sct.startBlock.toNat + 0x20, 8, []⟩]
  else if s.ord.indexWrite then
    [⟨.indexWrite, s.sct.startBlock.toNat + 0x28, 4,
      [s.ord.taken.extractLsb' 0 8, s.ord.taken.extractLsb' 8 8, 0, 0]⟩]
  else []

/-- Is the owner of a frame a slot whose exchange with peer p has not ended (R18, R113). -/
def State.liveWith (s : State) (p : Station) : Owner → Bool
  | .slot j g => g == s.gen j && (s.ex j).any fun e => e.peer == p && e.state != .retiring
  | .stationControl | .nobody => false

/-- The status write after a change of station state (R158). -/
def State.statusAfter (s : State) : StatusWrite :=
  match s.rpt.status with
  | .inProgress _ => .inProgress true
  | .due => .due
  | .none => if s.rpt.writer = .idle then .inProgress false else .due

/-- The status word write that a change to station state st places at once: none while the Report Unit has a write placed
or due (12.1, R158). -/
def State.statusPlaced (s : State) (st : StationState) : List Request :=
  if s.rpt.status = .none ∧ s.rpt.writer = .idle then
    [⟨.statusWord, s.sct.startBlock.toNat + 0x30, 4, [st.code, s.sct.faultCause.code, s.sn.setWidth 8, 0x00]⟩]
  else []

/-- Is the QUIET timer of a record one that runs: in SENDING and CONFIRMING, and in RECEIVING while credit is owed, and
never while local pause is set (R10, R12, R13). -/
def Exchange.quietRuns (e : Exchange) : Bool :=
  !e.localPause &&
    (e.state == .sending || e.state == .confirming || (e.state == .receiving && decide (e.received < e.granted)))

/-- The record with its QUIET timer started: Q, or P × 10 ms while peer hold is set (R10, R12). -/
def State.quietStarted (s : State) (e : Exchange) : Exchange :=
  { e with timer := ⟨.quiet, if e.peerHold then s.par.park * 10 else s.par.quiet, .running⟩ }

/-- The record after a frame or an outcome that restarts the QUIET timer (R12). -/
def State.quietAgain (s : State) (e : Exchange) : Exchange := if e.quietRuns then s.quietStarted e else e

/-- Is an entry of the control queue an OPEN of slot i that has not been handed to the transmit slot (R27). -/
def State.isOpenOf (s : State) (i : SlotId) (f : Frame) (o : Owner) : Bool :=
  o == .slot i (s.gen i) &&
    match f.body with
    | .openReq _ _ _ => true
    | _ => false

/-- The OPEN of slot i is withdrawn from the control queue, or dropped from the line (R27, R107). -/
def State.openDropped (i : SlotId) (s : State) : State :=
  { s with
    txq :=
      { s.txq with
        ctrl := s.txq.ctrl.filter fun c => c.inSlot || !s.isOpenOf i c.frame c.owner,
        line := s.txq.line.filter fun c =>
          match c with
          | .frame f o => !s.isOpenOf i f o
          | _ => true } }

/-- Slot i is served in its turn: it is the first with the property in slot order, from the slot after the last served
on, wrapping from 15 to 0 (R80, R88, R95, R109). -/
def inTurn (p : SlotId → Bool) (last i : SlotId) : Prop :=
  p i = true ∧ ∀ k : SlotId, k < i - last - 1 → p (last + 1 + k) = false

/-- The FREE cells in number order (R88). -/
def State.emptyCells (s : State) : List CellId := (List.finRange 64).filter fun c => (s.cell c).isNone

/-- The cells a grant gives slot i towards n cells still to be granted (R88). -/
def State.cellsGiven (s : State) (i : SlotId) (n : Nat) : Nat :=
  min (min s.emptyCells.length (s.par.window - s.outstanding i)) n

/-- The cells after a grant of k cells to slot i: the k lowest FREE cells are RESERVED for its next k cell indices, and
no other cell has changed (R88). -/
def State.Reserves (s : State) (cells : Vector (Option Cell) 64) (i : SlotId) (next k : Nat) : Prop :=
  ∀ x : CellId, cells[x] =
    if x ∈ s.emptyCells.take k then some ⟨.reserved, i, s.gen i, next + s.emptyCells.idxOf x, []⟩ else s.cell x

/-- The length of the exchange of a request bound to offer v (R2, R54). -/
def Deferred.boundLength (d : Deferred) (v : Offer) : Nat :=
  match d.dir with
  | .push => d.size
  | .pull => v.size

/-- The cells of the initial grant to the exchange of a request bound to offer v in slot i (R54, R89). -/
def State.boundCells (s : State) (i : SlotId) (v : Offer) (d : Deferred) : Nat :=
  match d.dir with
  | .push => s.cellsGiven i ((d.boundLength v + 255) / 256)
  | .pull => 0

/-- The limit of the initial grant (R54, R88, R89). -/
def State.boundLimit (s : State) (i : SlotId) (v : Offer) (d : Deferred) : Nat :=
  min (256 * s.boundCells i v d) (d.boundLength v)

/-- The record of a request bound to offer v, entry o of the Offer List, in slot i (R2, R3, R10, R54, R89, R103). -/
def State.boundRecord (s : State) (i : SlotId) (o : OfferId) (v : Offer) (d : Deferred) : Exchange where
  state :=
    match d.dir with
    | .push => if d.boundLength v = 0 then .finishing else .receiving
    | .pull => if d.boundLength v = 0 then .confirming else .sending
  role := .responder
  dir := d.dir
  peer := d.peer
  tag := d.tag
  key := d.key
  length := d.boundLength v
  orderTag := v.orderTag
  offer := some o
  walk := ⟨v.base, 0, 0, none, 0, 0, [], none⟩
  prepared := 0
  acknowledged := 0
  creditReceived := 0
  received := 0
  drained := 0
  granted := s.boundLimit i v d
  openAttempts := 0
  backoffs := 0
  localPause := false
  peerHold := false
  timer :=
    match d.dir with
    | .push =>
      if d.boundLength v = 0 then ⟨.none, 0, .stopped⟩
      else ⟨.quiet, s.par.quiet, if 0 < s.boundLimit i v d then .running else .stopped⟩
    | .pull => ⟨.quiet, s.par.quiet, .running⟩
  outcome := none
  transfers := 0
  openHanded := false

/-- From s to t the request d has been bound to offer v, entry o, in slot i: the offer is BOUND, the slot holds its
record, the initial grant holds its cells, and the answer, an ACCEPT or a RECALL with the limit (PUSH) or the length
(PULL), is placed, with DONE(0) behind it for a PUSH of length 0 (R54, R63, R89, R103). -/
def State.Binds (s t : State) (i : SlotId) (o : OfferId) (v : Offer) (d : Deferred) (answer : BitVec 24 → FrameBody) :
    Prop :=
  ∃ cells : Vector (Option Cell) 64, s.Reserves cells i 0 (s.boundCells i v d) ∧
    ∀ u : State, u = State.enqueued
        ⟨d.peer, s.sn, false, d.tag, answer (BitVec.ofNat 24 (
          match d.dir with
          | .push => s.boundLimit i v d
          | .pull => d.boundLength v))⟩ (.slot i (s.gen i))
        { (s.setOffer o (some { v with state := .bound i })).setEx i (some (s.boundRecord i o v d)) with
          stg := { s.stg with cells := cells } } →
      t = if d.dir = .push ∧ d.boundLength v = 0 then
          u.enqueued ⟨d.peer, s.sn, false, d.tag, .done 0⟩ (.slot i (s.gen i))
        else u

/-- The entries of the control queue that are left when the WAITING frames of slot i are withdrawn (R18, R107). -/
def State.ctrlWithout (s : State) (i : SlotId) : List CtrlEntry :=
  s.txq.ctrl.filter fun c => c.inSlot || c.owner != .slot i (s.gen i)

/-- Is a control queue entry free for an ABORT that slot i comes to owe, with no older owed ABORT waiting (R20, R106). -/
def State.abortRoom (s : State) (i : SlotId) : Bool := decide ((s.ctrlWithout i).length < 16 ∧ s.txq.owed = [])

/-- The abort state at entry to RETIRING (R18, R20). -/
def State.abortAtEntry (s : State) (i : SlotId) : Option Reason → AbortState
  | none => .notNeeded
  | some _ => if s.abortRoom i then .queued else .owed

/-- The record of e when it has entered RETIRING with outcome r (R18, R78). -/
def State.ended (s : State) (i : SlotId) (e : Exchange) (r : Result) (owes : Option Reason) : Exchange :=
  { e with
    state := .retiring, timer := ⟨.none, 0, .stopped⟩, localPause := false, peerHold := false,
    walk := { e.walk with marks := [], gate := none },
    outcome := some ⟨r, s.abortAtEntry i owes, owes.getD .unknown⟩,
    transfers := e.transfers - (s.lmp.waiting.filter (Request.isOf i (s.gen i))).length }

/-- The ABORT that is placed at the entry of slot i to RETIRING, if one is owed and an entry is free (R20). -/
def State.abortPlaced (s : State) (i : SlotId) (e : Exchange) : Option Reason → List CtrlEntry
  | none => []
  | some a =>
    if s.abortRoom i then
      [⟨⟨e.peer, s.sn, e.role == .originator, e.tag, .abort a⟩, .slot i (s.gen i), 0, false⟩]
    else []

/-- The slots whose ABORT waits for an entry after the entry of slot i to RETIRING (R20). -/
def State.owedAfter (s : State) (i : SlotId) : Option Reason → List SlotId
  | none => s.txq.owed
  | some _ => if s.abortRoom i then s.txq.owed else s.txq.owed ++ [i]

/-- From s to t the exchange e of slot i has entered RETIRING with outcome r, owing an ABORT with a reason or none
(R18, R20, R21, R78, R84, R104), and no other slot has changed. -/
structure State.Ends (s t : State) (i : SlotId) (e : Exchange) (r : Result) (owes : Option Reason) : Prop where
  record : t.ex i = some (s.ended i e r owes)
  others : ∀ j, j ≠ i → t.ex j = s.ex j
  gens : ∀ j, t.gen j = s.gen j
  ctrl : t.txq.ctrl = s.ctrlWithout i ++ s.abortPlaced i e owes
  owed : t.txq.owed = s.owedAfter i owes
  waiting : t.lmp.waiting = s.lmp.waiting.filter fun q => !q.isOf i (s.gen i)
  transfer : t.lmp.transfer = s.lmp.transfer
  buffers : ∀ b v, t.buffer b = some v → ¬(v.slot = i ∧ v.gen = s.gen i ∧ v.state = .ready)
  otherBuffers : ∀ b v, s.buffer b = some v → ¬(v.slot = i ∧ v.gen = s.gen i) → t.buffer b = some v
  cells : ∀ c v, t.cell c = some v → v.slot = i → v.gen = s.gen i → v.state = .reclaiming
  otherCells : ∀ c v, s.cell c = some v → ¬(v.slot = i ∧ v.gen = s.gen i) → t.cell c = some v
  offers : t.xen.offers = s.xen.offers ∧ t.xen.postOrder = s.xen.postOrder ∧ t.xen.deferred = s.xen.deferred
  reports : t.rpt.queue = s.rpt.queue
  rest : t.sct = s.sct ∧ t.ord = s.ord ∧ t.lpt = s.lpt

/-! ### Walks, fills and the drain -/

/-- The walk when its cached entry has been passed: the mark of a flagged entry is recorded with its point, PAUSE closes
the gate at that point, and the index is one further (R72, R75, R77). -/
def Walk.passed (w : Walk) (d : Entry) : Walk :=
  { w with
    index := w.index + 1, inEntry := 0, cached := none,
    marks := w.marks ++
      if d.note = true ∨ d.pause = true then [⟨w.base, w.index, w.offset, d.note, d.pause⟩] else [],
    gate := if d.pause then some w.offset else w.gate }

/-- The answer of a walk that is asked for bytes from its offset up to a bound above it, and the walk it leaves (R71 to
R73, R75, R77). -/
inductive Walk.Answers (w : Walk) (length upto : Nat) : Walk → WalkAnswer → Prop
  /-- the gate stands at the offset (R71) -/
  | gate : w.gate = some w.offset → Answers w length upto w .gate
  /-- no entry is cached: the entry at the index is read, its visit counted (R72) -/
  | entry : w.gate ≠ some w.offset → w.cached = none → w.visited < 4096 →
      Answers w length upto { w with visited := w.visited + 1 } (.read (w.base.toNat + 16 * w.index))
  /-- no entry is cached, and 4096 have been visited (R73) -/
  | loop : w.gate ≠ some w.offset → w.cached = none → 4096 ≤ w.visited →
      Answers w length upto w (.error .listLoop)
  /-- the cached entry has bytes left: c of them, with the entry's NOTE mark where they reach the length (R71, R72, R75) -/
  | piece (d : Entry) (c : Nat) (ms : List Mark) : w.gate ≠ some w.offset → w.cached = some d → w.inEntry < d.len →
      c = (match w.gate with
        | none => min (upto - w.offset) (d.len - w.inEntry)
        | some g => min (min (upto - w.offset) (d.len - w.inEntry)) (g - w.offset)) →
      ms = (if w.offset + c = length ∧ d.note = true then [⟨w.base, w.index, w.offset + c, true, false⟩] else []) →
      ms = [] ∨ w.marks.length < 8 →
      Answers w length upto { w with inEntry := w.inEntry + c, offset := w.offset + c, marks := w.marks ++ ms }
        (.piece (d.addr.toNat + w.inEntry) c)
  /-- that last piece waits for room for its NOTE mark (R75; log 19) -/
  | pieceWaits (d : Entry) (c : Nat) : w.gate ≠ some w.offset → w.cached = some d → w.inEntry < d.len →
      c = (match w.gate with
        | none => min (upto - w.offset) (d.len - w.inEntry)
        | some g => min (min (upto - w.offset) (d.len - w.inEntry)) (g - w.offset)) →
      w.offset + c = length → d.note = true → 8 ≤ w.marks.length → Answers w length upto w .wait
  /-- the cached entry is exhausted and flagged, and waits for room for its mark (R75) -/
  | flagWaits (d : Entry) : w.gate ≠ some w.offset → w.cached = some d → d.len ≤ w.inEntry →
      d.note = true ∨ d.pause = true → 8 ≤ w.marks.length → Answers w length upto w .wait
  /-- the exhausted entry is the last of its list (R73; log 18) -/
  | short (d : Entry) : w.gate ≠ some w.offset → w.cached = some d → d.len ≤ w.inEntry →
      d.note = false ∧ d.pause = false ∨ w.marks.length < 8 → d.fin = true →
      Answers w length upto (w.passed d) (.error .listShort)
  /-- the exhausted entry's PAUSE closes the gate (R77) -/
  | closes (d : Entry) : w.gate ≠ some w.offset → w.cached = some d → d.len ≤ w.inEntry → w.marks.length < 8 →
      d.fin = false → d.pause = true → Answers w length upto (w.passed d) .gate
  /-- the exhausted entry is passed, and the next one read, its visit counted (R72) -/
  | next (d : Entry) : w.gate ≠ some w.offset → w.cached = some d → d.len ≤ w.inEntry →
      d.note = false ∨ w.marks.length < 8 → d.fin = false → d.pause = false → w.visited < 4096 →
      Answers w length upto { w.passed d with visited := w.visited + 1 } (.read (w.base.toNat + 16 * (w.index + 1)))
  /-- the exhausted entry is passed, and 4096 have been visited (R73; log 18) -/
  | nextLoop (d : Entry) : w.gate ≠ some w.offset → w.cached = some d → d.len ≤ w.inEntry →
      d.note = false ∨ w.marks.length < 8 → d.fin = false → d.pause = false → 4096 ≤ w.visited →
      Answers w length upto (w.passed d) (.error .listLoop)

/-- What a fill of slot i into buffer b does with its walk's answer, w the walk it leaves: it places a read of the
piece's bytes or of the entry, ends its frame at the gate, waits for room in the mark queue, where its frame ends instead
if every mark's point lies inside it (log 34), or ends the exchange. The state and the record it leaves are then settled
(R73, R75, R81, R82). -/
def State.FillStep (t : State) (i : SlotId) (b : BufId) (v : OutBuffer) (e : Exchange) (w : Walk)
    (settled : State → Exchange → Prop) (o : Host.Outcome State Fault Refusal) : WalkAnswer → Prop
  | .piece addr c => ∀ e', e' = { e with walk := w, prepared := e.prepared + c, transfers := e.transfers + 1 } →
      settled (State.requested ⟨.dataRead i v.gen b, addr, c, []⟩ (t.setEx i (some e'))) e'
  | .read addr => ∀ e', e' = { e with walk := w, transfers := e.transfers + 1 } →
      settled (State.requested ⟨.entryRead i v.gen, addr, 16, []⟩ (t.setEx i (some e'))) e'
  | .gate => settled ((t.setEx i (some { e with walk := w })).setBuffer b
      (if e.prepared = v.offset then none else some { v with state := .ready })) { e with walk := w }
  | .wait => ∀ m l, e.walk.marks = m :: l →
      (m.point ≤ v.offset → settled t e) ∧
        (v.offset < m.point → settled (t.setBuffer b (some { v with state := .ready })) e)
  | .error r => ∃ u : State,
      State.Ends (t.setEx i (some { e with walk := w })) u i { e with walk := w } (.failed r none) (some r) ∧ o = .next u

/-- The mark queue of slot i, with record e and some bytes done, has been examined in s, and o is the outcome: the marks
whose points are reached have acted; where one of them has, a fill of the slot that waited for its room goes on, and the
marks it records act if their points are reached already (R75, R76, R77). -/
def State.MarksSettled (s : State) (i : SlotId) (e : Exchange) (done : Nat) (o : Host.Outcome State Fault Refusal) :
    Prop :=
  ∀ n t, State.MarksAct i done n s t →
    (n = 0 ∨ s.fillRests i e → o = .next t) ∧
    ∀ e' b v w a, n ≠ 0 → t.ex i = some e' → t.fills i e' b v → e'.state = .sending → e'.transfers = 0 →
      e'.walk.Answers e'.length v.ceiling w a →
      t.FillStep i b v e' w (fun x _ => ∀ k y, State.MarksAct i done k x y → o = .next y) o a

/-- What the drain does with the answer of the chosen exchange's walk, w the walk it leaves: it places the write of the
piece's bytes from the cell that holds bytes drained, or the read of the entry; its choice lapses where the walk cannot
go on; or the exchange ends. The mark queue is then examined (R73, R95). -/
def State.DrainStep (s : State) (i : SlotId) (e : Exchange) (w : Walk) (done : Nat)
    (o : Host.Outcome State Fault Refusal) : WalkAnswer → Prop
  | .piece addr c => ∀ k x e', s.findCell i (e.drained / 256) = some k → s.cell k = some x →
      e' = { e with walk := w, transfers := e.transfers + 1 } →
      (State.requested ⟨.drainWrite i (s.gen i) k, addr, c, (x.bytes.drop (e.drained % 256)).take c⟩
        { s.setEx i (some e') with stg := { s.stg with drain := .writing i (s.gen i) k } }).MarksSettled i e' done o
  | .read addr => ∀ e', e' = { e with walk := w, transfers := e.transfers + 1 } →
      (State.requested ⟨.entryRead i (s.gen i), addr, 16, []⟩
        { s.setEx i (some e') with stg := { s.stg with drain := .choosing i (s.gen i) } }).MarksSettled i e' done o
  | .gate | .wait => ({ s.setEx i (some { e with walk := w }) with stg := { s.stg with drain := .idle } } : State).MarksSettled
      i { e with walk := w } done o
  | .error r => ∃ u : State,
      State.Ends { s.setEx i (some { e with walk := w }) with stg := { s.stg with drain := .idle } } u i
        { e with walk := w } (.failed r none) (some r) ∧ o = .next u

end Sys2Proof.Machine
end

