-- ==== Sys2Proof/Certificates/Slice0/Obligations.lean ====
section
/-!
DEFINITION. The statements for the provers: what the Mebsol 3216's steps do, by the rules of the spec.
-/

section

open Sys2Proof Sys2Proof.Machine

/-! ### Steps, reset, laws -/

/-- A step takes the command at the front of the queue and runs it with the queue's rest. On an empty queue the
local bus moves on: the grant comes, or a beat that is not the last ends; with no transfer in progress, or at its last
beat, the block idles. The queue is the model's own choice (log 1), and that one event of the local bus is one step on
an empty queue is too (log 6); no rule of the spec says either. -/
def Obligations.StepRunsFrontCommand : Prop :=
  (∀ (c : Instr) (rest : List Instr) (s : State), s.pending = c :: rest →
    step s = exec c { s with pending := rest }) ∧
  ∀ s : State, s.pending = [] →
    (s.lmp.transfer = none → step s = .next s) ∧
    ∀ r, s.lmp.transfer = some r →
      (s.lmp.progress.granted = false →
        step s = .next { s with lmp := { s.lmp with progress := ⟨true, 0⟩ } }) ∧
      (s.lmp.progress.granted = true →
        (s.lmp.progress.beat + 1 < (beats r.addr r.count).length →
          step s = .next { s with lmp := { s.lmp with progress := ⟨true, s.lmp.progress.beat + 1⟩ } }) ∧
        ((beats r.addr r.count).length ≤ s.lmp.progress.beat + 1 → step s = .next s))

/-- Every command completes in every state, and leaves the queue of commands as it is (log 1, log 2). That a command
the hardware could not meet completes with no effect is the model's choice (log 2). -/
def Obligations.EveryCommandAnswersNext : Prop :=
  ∀ (c : Instr) (s : State), ∃ t : State, exec c s = .next t ∧ t.pending = s.pending

/-- RESET_ASSERT: every block takes its value after hardware reset. That RESET_ASSERT leaves the command queue alone
is the model's choice (log 1). -/
def Obligations.ResetAssertGivesResetValues : Prop :=
  ∀ s : State, ∃ t : State, exec .resetAssert s = .next t ∧ t.pending = s.pending ∧
    (∀ i, t.ex i = none ∧ t.gen i = 0) ∧ t.xen.originOrder = [] ∧ (∀ o, t.offer o = none) ∧ t.xen.postOrder = [] ∧
    t.xen.deferred = [] ∧ t.xen.rescanDue = false ∧ t.xen.rescanWaits = false ∧ t.xen.rescanAt = none ∧
    (∀ b, t.buffer b = none) ∧ t.fbd.lastFill = 15 ∧
    (∀ c, t.cell c = none) ∧ t.stg.lastGrant = 15 ∧ t.stg.lastDrain = 15 ∧ t.stg.drain = .idle ∧
    t.txq.ctrl = [] ∧ t.txq.owed = [] ∧ t.txq.line = [] ∧ t.txq.lastTx = 15 ∧ t.txq.takenBack = none ∧
    t.lpt.tx = none ∧ t.lpt.spent = false ∧ t.lpt.inbox = [] ∧ (∀ p, t.peer p = .unknown) ∧
    t.lpt.pins = ⟨none, false, [], none, false⟩ ∧
    t.ord.producer = 0 ∧ t.ord.taken = 0 ∧ t.ord.ringRead = .idle ∧ t.ord.head = .absent ∧ t.ord.indexWrite = false ∧
    t.ord.acks = [] ∧ t.ord.orderFault = false ∧
    t.rpt.queue = [] ∧ t.rpt.producer = 0 ∧ t.rpt.release = 0 ∧ t.rpt.writer = .idle ∧ t.rpt.status = .none ∧
    t.rpt.reportPin = false ∧ t.lmp.waiting = [] ∧ t.lmp.transfer = none ∧ t.lmp.progress = ⟨false, 0⟩ ∧
    t.sct.faultCause = .none ∧ t.sct.params = none ∧ t.sct.faultAborts = [] ∧ t.sct.faultPin = false ∧
    t.sct.inReset = true

/-- RESET_RELEASE: the straps are sampled, the station enters STARTING, and the status word write and the start record
read wait together; that at a station whose RESET is not low the command changes nothing is the model's choice
(log 2). -/
def Obligations.ResetReleaseSamplesStraps : Prop :=
  (∀ (sn : Station) (sb : BitVec 2) (base : Word) (s : State), s.lineLaw → s.sct.inReset = true →
    base = (if sb = 0 then 0x00000400#32 else if sb = 1 then 0x00100000#32 else if sb = 2 then 0x40000000#32
      else 0x7FFFF000#32) →
    exec (.resetRelease sn sb) s = .next { State.reset with
      sct := { State.reset.sct with inReset := false, stationNumber := sn, startBlock := base, station := .starting },
      rpt := { State.reset.rpt with status := .inProgress false },
      lmp := ⟨[⟨.statusWord, base.toNat + 0x30, 4, [0x01, 0x00, sn.setWidth 8, 0x00]⟩,
        ⟨.startRecord, base.toNat, 32, []⟩], none, ⟨false, 0⟩⟩,
      pending := s.pending }) ∧
  ∀ (sn : Station) (sb : BitVec 2) (s : State), s.sct.inReset = false → exec (.resetRelease sn sb) s = .next s

/-- The laws hold right after hardware reset. -/
def Obligations.LawsHoldAtReset : Prop :=
  State.reset.withinCaps ∧ State.reset.originLaw ∧ State.reset.lineLaw

/-- No step makes a queue or list longer than its capacity, the mark queue of each exchange included
(log 34 says what a fill does at 8 marks). -/
def Obligations.StepKeepsCapacities : Prop :=
  ∀ s t : State, s.withinCaps → step s = .next t → t.withinCaps

/-- No step brings the ORIGINATOR slots above the origin limit, and the start parameters, with that limit, stay as they
are from their acceptance to the next hardware reset: at most one start record read is placed, and none once the
parameters are accepted. -/
def Obligations.StepKeepsOriginLimit : Prop :=
  ∀ s t : State, s.originLaw → step s = .next t →
    t.originLaw ∧ (t.sct.inReset = true ∨ s.sct.params = none ∨ t.sct.params = s.sct.params)

/-- Every step keeps FAULT asserted in FAULT and CONFLICT only, LCL driven in ONLINE and DETACHING only and while a CLR
awaits the event of its pulse, and every block at its reset value while RESET is low. What the station shows while RESET
is low follows log 3 where the spec names no value. That a CLR drives LCL until its event comes follows log 9. -/
def Obligations.StepKeepsLineLaw : Prop :=
  ∀ s t : State, s.lineLaw → step s = .next t → t.lineLaw

/-- In FAULT a step that is not hardware reset leaves the station in FAULT with its cause, its FAULT and REPORT lines,
the Exchange Table, the offers, the Pending List, the buffers, the cells and the Order Unit as the stop left them.
That the REPORT line keeps its level is DEDUCED (log 24). -/
def Obligations.FaultHoldsStill : Prop :=
  ∀ s t : State, s.stopped → step s = .next t →
    t.sct.inReset = true ∨
      (t.stopped ∧ t.sct.faultCause = s.sct.faultCause ∧ t.sct.faultPin = s.sct.faultPin ∧
        t.rpt.reportPin = s.rpt.reportPin ∧ t.xen = s.xen ∧ t.fbd = s.fbd ∧ t.stg = s.stg ∧ t.ord = s.ord)

/-! ### Timer tick, POST and the ring words -/

/-- TIMER_TICK: every running timer counts down by 1 and expires at 0, every stopped timer stays, and the count behind
the probe mark rises; in FAULT and while RESET is low nothing changes. That an expired timer waits for its expiry
command is DEDUCED (log 7), and that FAULT stops the tick is DEDUCED (log 8). -/
def Obligations.TimerTickCountsDown : Prop :=
  (∀ s : State, s.runs = true → ∃ t : State, exec .timerTick s = .next t ∧
    t = { s with
      sct := { s.sct with tickCount := s.sct.tickCount + 1 },
      xen := { s.xen with slots := t.xen.slots } } ∧
    ∀ i, t.gen i = s.gen i ∧ (s.ex i = none → t.ex i = none) ∧
      ∀ e, s.ex i = some e →
        (e.timer.run = .running → 2 ≤ e.timer.remaining →
          t.ex i = some { e with timer := ⟨e.timer.kind, e.timer.remaining - 1, .running⟩ }) ∧
        (e.timer.run = .running → e.timer.remaining < 2 →
          t.ex i = some { e with timer := ⟨e.timer.kind, 0, .expired⟩ }) ∧
        (e.timer.run ≠ .running → t.ex i = some e)) ∧
  ∀ s : State, s.runs = false → exec .timerTick s = .next s

/-- POST places the ring words read, at once or when the Order Unit's other transfer has ended (log 31), or marks a
further one due while one is in progress; in STARTING, in FAULT and while RESET is low the edge is ignored.
RING_WORDS_READ_DONE: the producer word p and the release word r are each accepted or ignored, REPORT follows the
counts, and a further read that is due is placed, else an index write that waited for the read. That a read or write
that meets another Order Unit transfer waits for its end is the model's reading (log 31). -/
def Obligations.PostAndRingWords : Prop :=
  (∀ s : State, s.runs = true → s.sct.station ≠ .starting →
    (s.ord.ringRead = .idle →
      (s.ord.head ≠ .fetching → s.ord.indexWrite = false →
        exec .post s = .next ({ s with ord := { s.ord with ringRead := .inProgress } }.requested
          ⟨.ringWords, s.sct.startBlock.toNat + 0x20, 8, []⟩)) ∧
      (s.ord.head = .fetching ∨ s.ord.indexWrite = true →
        exec .post s = .next { s with ord := { s.ord with ringRead := .inProgress } })) ∧
    (s.ord.ringRead ≠ .idle → exec .post s = .next { s with ord := { s.ord with ringRead := .furtherDue } })) ∧
  (∀ s : State, s.runs = false ∨ s.sct.station = .starting → exec .post s = .next s) ∧
  ∀ (s : State) (q : Request) (p0 p1 p2 p3 r0 r1 r2 r3 : Byte) (p r : BitVec 16),
    s.ending q → q.purpose = .ringWords → p = p1 ++ p0 → r = r1 ++ r0 →
    exec (.ringWordsReadDone [p0, p1, p2, p3, r0, r1, r2, r3]) s = .next { s with
      rpt :=
        if (r - s.rpt.release).toNat ≤ (s.rpt.producer - s.rpt.release).toNat then
          { s.rpt with release := r, reportPin := s.rpt.producer != r }
        else s.rpt,
      ord :=
        { s.ord with
          producer :=
            if (s.ord.producer - s.ord.taken).toNat ≤ (p - s.ord.taken).toNat ∧
                (p - s.ord.taken).toNat ≤ s.par.orderSize.toNat then p
            else s.ord.producer,
          ringRead := if s.ord.ringRead = .furtherDue then .inProgress else .idle },
      lmp :=
        ⟨s.lmp.waiting ++
          (if s.ord.ringRead = .furtherDue then [⟨.ringWords, s.sct.startBlock.toNat + 0x20, 8, []⟩]
          else if s.ord.indexWrite then
            [⟨.indexWrite, s.sct.startBlock.toNat + 0x28, 4,
              [s.ord.taken.extractLsb' 0 8, s.ord.taken.extractLsb' 8 8, 0, 0]⟩]
          else []), none, ⟨false, 0⟩⟩ }

/-- START_RECORD_READ_DONE: the record is valid when every line of R167 holds. In STARTING a valid record becomes the
start parameters, and the station enters PROBING with one PROBE placed; any other makes it enter FAULT(START_INVALID).
That in a state in which the read is never made the command changes nothing is the model's choice (log 2), and so is
that entry to FAULT from there leaves the control queue empty (log 38). -/
def Obligations.StartRecordDecides : Prop :=
  (∀ bytes : List Byte, ∀ p, p = StartParams.parse bytes →
    (startRecord bytes = some p ↔
      le32 bytes 0 = 0x4D533216#32 ∧
      (∃ k, 3 ≤ k ∧ k ≤ 10 ∧ p.orderSize.toNat = 2 ^ k) ∧ p.orderBase.toNat % 32 = 0 ∧
      p.orderBase.toNat + 32 * p.orderSize.toNat ≤ 2 ^ 32 ∧
      (∃ k, 3 ≤ k ∧ k ≤ 10 ∧ p.reportSize.toNat = 2 ^ k) ∧ p.reportBase.toNat % 16 = 0 ∧
      p.reportBase.toNat + 16 * p.reportSize.toNat ≤ 2 ^ 32 ∧
      1 ≤ p.originLimit ∧ p.originLimit ≤ 16 ∧ 1 ≤ p.linkRetry ∧ p.linkRetry ≤ 7 ∧ p.openRetry ≤ 15 ∧
      1 ≤ p.quiet ∧ 1 ≤ p.park ∧ 1 ≤ p.backoff ∧ p.backoff ≤ 1000 ∧ 1 ≤ p.window ∧ p.window ≤ 16 ∧ 1 ≤ p.divisor)) ∧
  (∀ (s : State) (q : Request) (bytes : List Byte) (p : StartParams), s.ending q → q.purpose = .startRecord →
    bytes.length = 32 → startRecord bytes = some p → s.sct.station = .starting → s.txq.ctrl = [] →
    exec (.startRecordReadDone bytes) s = .next { s with
      sct := { s.sct with params := some p, station := .probing, faultPin := false, probe := true },
      txq := { s.txq with
        ctrl := [⟨⟨s.sn, s.sn, true, ⟨0, 0⟩, .probe s.sct.tickCount⟩, .stationControl, 0, false⟩] },
      rpt := { s.rpt with status := s.statusAfter },
      lmp := ⟨s.lmp.waiting ++ s.statusPlaced .probing, none, ⟨false, 0⟩⟩ }) ∧
  (∀ (s : State) (bytes : List Byte), s.runs = true → s.sct.station ≠ .starting →
    exec (.startRecordReadDone bytes) s = .next s) ∧
  ∀ (s : State) (q : Request) (bytes : List Byte), s.ending q → q.purpose = .startRecord → bytes.length = 32 →
    startRecord bytes = none → s.sct.station = .starting →
    ∃ t : State, exec (.startRecordReadDone bytes) s = .next t ∧ t.sct.station = .fault ∧
      t.sct.faultCause = .startInvalid ∧ t.sct.faultPin = true ∧ t.sct.params = s.sct.params ∧
      t.sct.faultAborts = [] ∧ t.sct.present = false ∧ t.rpt.queue = s.rpt.queue ∧ t.txq.ctrl = [] ∧
      t.lpt.tx = none ∧ t.rpt.status = .inProgress false ∧
      t.lmp = ⟨[⟨.statusWord, s.sct.startBlock.toNat + 0x30, 4, [0x02, 0x02, s.sn.setWidth 8, 0x00]⟩], none,
        ⟨false, 0⟩⟩

/-! ### The lane -/

/-- ARBITRATION_WINDOW: a station on the lane bids 32 × class + station number, but not with data while SPENT, when it
asserts WAIT instead; the highest bid wins, a data win sets SPENT, and a window without a bid in which WAIT is asserted
clears SPENT. At the window's end a winner still drives its whole bid, and a loser the lines above the one it lost at.
One window is one step in the model, and the pins keep its levels (log 10). -/
def Obligations.HighestBidWins : Prop :=
  ∀ (bids : List Bid) (wait : Bool) (s : State), s.observes = true → s.lpt.phase = .idle →
    (∀ (t : TxFrame) (b : Bid), s.onLane = true → s.lpt.tx = some t →
      (t.src = .ctrl ∧ b = BitVec.ofNat 6 (32 + s.sn.toNat) ∨
        t.isData = true ∧ s.lpt.spent = false ∧ b = BitVec.ofNat 6 s.sn.toNat) →
      ∃ d : Bid, exec (.arbitrationWindow bids wait) s = .next { s with
          lpt := { s.lpt with
            phase := if ∀ x ∈ bids, x.toNat ≤ b.toNat then .won else .other,
            spent := if (∀ x ∈ bids, x.toNat ≤ b.toNat) ∧ t.isData = true then true else s.lpt.spent,
            pins := { s.lpt.pins with arb := some d, wait := false } } } ∧
        ((∀ x ∈ bids, x.toNat ≤ b.toNat) → d = b) ∧
        ∀ k, d.getLsbD k = (b.getLsbD k && decide (∀ x ∈ bids, x.toNat / 2 ^ k ≤ b.toNat / 2 ^ k))) ∧
    (∀ w : Bool, (w = true ∧ s.onLane = true ∧ s.lpt.spent = true ∧ (∃ t, s.lpt.tx = some t ∧ t.isData = true) ∨
        w = false ∧ (s.onLane = false ∨ s.lpt.tx = none)) →
      exec (.arbitrationWindow bids wait) s = .next { s with
        lpt := { s.lpt with
          phase := if bids = [] then .idle else .other,
          spent := if bids = [] ∧ (w = true ∨ wait = true) then false else s.lpt.spent,
          pins := { s.lpt.pins with arb := none, wait := w } } })

/-- TENURE of the winner: it drives its frame's bytes, its attempt count rises and its first tenure has begun. A byte
read back otherwise than driven stops it: in PROBING the number is taken, else the attempt will count as unanswered.
That a missing byte counts as a collision is the model's reading of the operand (log 11). -/
def Obligations.TenureSendsTheFrame : Prop :=
  ∀ (bytes : List Byte) (t : TxFrame) (s : State), s.observes = true → s.lpt.phase = .won → s.lpt.tx = some t →
    (bytes.take t.frame.encode.length = t.frame.encode →
      exec (.tenure bytes) s = .next { s with
        lpt := { s.lpt with
          tx := some { t with attempts := t.attempts + 1, begun := true },
          phase := .sent false,
          pins := { s.lpt.pins with data := t.frame.encode } } }) ∧
    (∀ k, k < t.frame.encode.length → bytes.take k = t.frame.encode.take k → bytes[k]? ≠ t.frame.encode[k]? →
      s.sct.station ≠ .probing →
      exec (.tenure bytes) s = .next { s with
        lpt := { s.lpt with
          tx := some { t with attempts := t.attempts + 1, begun := true },
          phase := .sent true,
          pins := { s.lpt.pins with data := t.frame.encode.take (k + 1) } } }) ∧
    (bytes.take t.frame.encode.length ≠ t.frame.encode → s.sct.station = .probing →
      ∃ u : State, exec (.tenure bytes) s = .next u ∧ u.sct.station = .conflict ∧ u.sct.faultPin = true ∧
        u.lpt.tx = none ∧ u.lpt.inbox = [] ∧ u.lpt.phase = .idle ∧ u.xen = s.xen ∧ u.ord.taken = s.ord.taken ∧
        (∀ c ∈ u.txq.ctrl, c.owner ≠ .stationControl) ∧
        (s.reportOpen 1 → u.rpt.queue = s.rpt.queue ++ [.station .conflict .numberTaken]))

/-- TENURE of another station: what a receiver drives is decided by the first line of R123's table that applies. In
PROBING it drives nothing, and a checked frame with the station's own number as its source shows that the number is
taken (R127). In PROBING the source is compared on bits 4 to 0 of its byte, which is DEDUCED (log 20). That a station
that has begun to observe since the window opened, and is in the idle phase, receives the tenure too is the model's
(log 29). -/
def Obligations.ReceiverAnswers : Prop :=
  ∀ (bytes : List Byte) (s : State), s.observes = true → (s.lpt.phase = .other ∨ s.lpt.phase = .idle) →
    (s.sct.station = .probing → crcPasses bytes = true → bytes[1]? = some (s.sn.setWidth 8) →
      ∃ u : State, exec (.tenure bytes) s = .next u ∧ u.sct.station = .conflict ∧ u.sct.faultPin = true ∧
        u.lpt.tx = none ∧ u.lpt.phase = .idle ∧ u.xen = s.xen ∧ (∀ c ∈ u.txq.ctrl, c.owner ≠ .stationControl)) ∧
    (s.sct.station = .probing → (crcPasses bytes = false ∨ ∀ x, bytes[1]? = some x → x.setWidth 5 ≠ s.sn) →
      exec (.tenure bytes) s = .next (s.setPhase .unanswered none)) ∧
    (s.sct.station ≠ .probing → exec (.tenure bytes) s = .next (
      if crcPasses bytes = false ∨ bytes[0]? ≠ some (s.sn.setWidth 8) ∨ s.answersFrames = false then
        s.setPhase .unanswered none
      else if bytes[2]? = some 0x0A then s.setPhase (.answered .taken .probe) (some .taken)
      else
        match Frame.parse s.sn bytes with
        | none => s.setPhase (.answered .taken .malformed) (some .taken)
        | some f =>
          if s.sct.station = .fault ∨
              (match f.body with | .data _ _ _ => true | _ => decide (s.lpt.inbox.length < 8)) = true then
            s.setPhase (.answered .taken (.frame f)) (some .taken)
          else s.setPhase (.answered .busy (.frame f)) (some .busy)))

/-- ACKNOWLEDGE_SLOT without an answer: below 1 + N attempts the frame stays in the transmit slot; at 1 + N a PROBE's
number is free and the station is ONLINE, and any other frame's destination is marked SILENT, with the purge of R113:
its WAITING frames, its frames in the line and the frames of its exchanges go, all others stay in their order, its live
exchanges end with PEER_SILENT, and an ABORT that one of its RETIRING slots owes is settled. That a PROBE is not
addressed to a peer and so purges nothing follows R169. In FAULT a fault abort stays likewise below 1 + N attempts, and
a DATA frame is removed without further attempts, its buffer as it is, whatever the answer; at 1 + N unanswered attempts
the destination of either is marked SILENT, the aborts that wait for that peer go, those still to be placed are not
placed, and the Exchange Table stands. That the buffer of the DATA frame stands is DEDUCED (log 25). -/
def Obligations.UnansweredFrameEnds : Prop :=
  (∀ (t : TxFrame) (ackt ackb collided : Bool) (s : State), s.observes = true → s.sct.station ≠ .fault →
    s.lpt.phase = .sent collided → s.lpt.tx = some t → (collided = true ∨ ackt = false ∧ ackb = false) →
    (t.attempts < 1 + s.par.linkRetry →
      exec (.acknowledgeSlot ackt ackb) s = .next (s.setPhase .idle none)) ∧
    (1 + s.par.linkRetry ≤ t.attempts → t.src = .ctrl → (∃ m, t.frame.body = .probe m) → s.sct.station = .probing →
      s.reportOpen 1 →
      ∃ u : State, exec (.acknowledgeSlot ackt ackb) s = .next u ∧ u.sct.station = .online ∧ u.lpt.tx = none ∧
        u.txq.ctrl = s.txq.ctrl.filter (fun c => !c.inSlot) ∧ u.lpt.peers = s.lpt.peers ∧
        u.rpt.queue = s.rpt.queue ++ [.station .online .numberFree] ∧ u.sct.faultPin = false ∧
        u.xen.slots = s.xen.slots ∧ u.xen.offers = s.xen.offers) ∧
    (1 + s.par.linkRetry ≤ t.attempts → (∀ m, t.frame.body ≠ .probe m) →
      ∃ u : State, exec (.acknowledgeSlot ackt ackb) s = .next u ∧ u.lpt.tx = none ∧
        u.peer t.frame.dst = .silent ∧ (∀ p, p ≠ t.frame.dst → u.peer p = s.peer p) ∧
        u.txq.ctrl = s.txq.ctrl.filter (fun c => if c.inSlot then t.isData
          else c.frame.dst != t.frame.dst && !s.liveWith t.frame.dst c.owner) ∧
        u.txq.line = s.txq.line.filter (fun c =>
          match c with
          | .frame f o => f.dst != t.frame.dst && !s.liveWith t.frame.dst o
          | .credit j => (s.ex j).all fun e => e.peer != t.frame.dst
          | .pendingAbort p _ => p != t.frame.dst
          | .inboxHead => true
          | .rescan => true) ∧
        u.txq.owed = s.txq.owed.filter (fun j =>
          !(s.ex j).any fun e => e.peer == t.frame.dst && e.state == .retiring) ∧
        u.xen.deferred = s.xen.deferred.filter (fun d => d.peer != t.frame.dst) ∧
        (∀ i e, s.ex i = some e → e.peer = t.frame.dst → e.state ≠ .retiring →
          ∃ e' o, u.ex i = some e' ∧ e'.state = .retiring ∧ e'.outcome = some o ∧
            o.result = .failed .peerSilent none ∧ o.abort = .notNeeded) ∧
        (∀ i e o, s.ex i = some e → e.peer = t.frame.dst → e.state = .retiring → e.outcome = some o →
          u.ex i = some { e with
            outcome := some { o with abort := if o.abort = .notNeeded then .notNeeded else .settled } }) ∧
        (∀ b v e, u.buffer b = some v → v.state = .ready → s.ex v.slot = some e → v.gen = s.gen v.slot →
          e.peer = t.frame.dst → e.state = .retiring) ∧
        (∀ i e, s.ex i = some e → e.peer ≠ t.frame.dst → u.ex i = some e) ∧
        u.xen.offers = s.xen.offers ∧ u.rpt.queue = s.rpt.queue)) ∧
  (∀ (t : TxFrame) (ackt ackb collided : Bool) (s : State), s.observes = true → s.sct.station = .fault →
    s.lpt.phase = .sent collided → s.lpt.tx = some t → (collided = true ∨ ackt = false ∧ ackb = false) →
    (t.src = .ctrl → t.attempts < 1 + s.par.linkRetry →
      exec (.acknowledgeSlot ackt ackb) s = .next (s.setPhase .idle none)) ∧
    (t.isData = true → t.attempts < 1 + s.par.linkRetry → exec (.acknowledgeSlot ackt ackb) s = .next { s with
      lpt := { s.lpt with tx := none, phase := .idle, pins := { s.lpt.pins with ack := none } } }) ∧
    (1 + s.par.linkRetry ≤ t.attempts → (t.isData = true ∨ ∃ r, t.frame.body = .abort r) →
      ∃ u : State, exec (.acknowledgeSlot ackt ackb) s = .next u ∧ u.lpt.tx = none ∧ u.lpt.phase = .idle ∧
        u.peer t.frame.dst = .silent ∧ (∀ p, p ≠ t.frame.dst → u.peer p = s.peer p) ∧
        u.txq.ctrl = s.txq.ctrl.filter (fun c => if c.inSlot then t.isData else c.frame.dst != t.frame.dst) ∧
        u.sct = { s.sct with faultAborts := s.sct.faultAborts.filter fun x => x.dst != t.frame.dst } ∧
        u.xen = s.xen ∧ u.fbd = s.fbd ∧ u.stg = s.stg ∧ u.rpt = s.rpt ∧ u.ord = s.ord)) ∧
  ∀ (t : TxFrame) (ackt ackb : Bool) (s : State), s.observes = true → s.sct.station = .fault →
    s.lpt.phase = .sent false → s.lpt.tx = some t → t.isData = true → (ackt = true ∨ ackb = true) →
    exec (.acknowledgeSlot ackt ackb) s = .next { s with
      lpt := { s.lpt with tx := none, phase := .idle, pins := { s.lpt.pins with ack := none } } }

/-- ACKNOWLEDGE_SLOT with an answer. TAKEN: an OPEN starts the ANSWER timer in OPENING, a DONE completes a receiver, an
owed ABORT is settled, any other frame of the slot restarts the QUIET timer where that runs and changes nothing else of
the slot. A DATA frame frees its buffer, whatever the answer: TAKEN at a slot in SENDING advances bytes acknowledged,
the NOTE and PAUSE marks it reaches act one after another, in entry order, a fill that waited for their room goes on,
and at the length the sender then enters CONFIRMING; where the report queue has room and no fill goes on behind them,
all the NOTE marks it reaches act; elsewhere, at a RETIRING slot or another generation, nothing advances; nor does it at
a BUSY. BUSY: below the 64th a slot's frame returns to the tail with its busy count, a CREDIT with its old limit, but a
CREDIT merges into the slot's WAITING CREDIT; the 64th ends the exchange with PEER_CONGESTED, or settles the ABORT of a
RETIRING slot. A BUSY frame of no owner, of a slot that is FREE or of another generation, of a RETIRING slot other than
its owed ABORT, or an OPEN outside OPENING is removed, and TAKEN of a frame without a live owner changes nothing else
either. The PROBE TAKEN in PROBING: the number is taken, and the station is in CONFLICT. In FAULT an
ABORT(STATION_FAULT) that is TAKEN is done, a BUSY one below its 64th goes back to the tail, at once by log 27, and the
64th drops it; a frame of any other owner is removed and its outcome reaches no slot. That a due CREDIT keeps its place
in the line when its slot's CREDIT returns BUSY is the model's reading (log 36). The BUSY of a PROBE (log 21) lies
outside this statement. -/
def Obligations.LinkOutcomesReachTheSlot : Prop :=
  (∀ (t : TxFrame) (ackt ackb : Bool) (s : State) (i : SlotId) (e : Exchange), s.observes = true →
    s.sct.station ≠ .fault → s.lpt.phase = .sent false → s.lpt.tx = some t → s.ex i = some e →
    (∀ (pre : List CtrlEntry) (c : CtrlEntry) (post : List CtrlEntry), t.src = .ctrl →
      s.txq.ctrl = pre ++ c :: post → c.inSlot = true → (∀ d ∈ pre ++ post, d.inSlot = false) → c.owner = .slot i (s.gen i) →
      (ackt = true ∧ ackb = false →
        (e.state = .opening → (∃ k d n, c.frame.body = .openReq k d n) →
          exec (.acknowledgeSlot ackt ackb) s = .next ({ s with
            txq := { s.txq with ctrl := pre ++ post },
            lpt := { s.lpt with tx := none, phase := .idle, pins := { s.lpt.pins with ack := none } } }.setEx i
              (some { e with timer := ⟨.answer, s.par.quiet, .running⟩ }))) ∧
        (e.state = .finishing → (∃ n, c.frame.body = .done n) →
          ∃ u : State, exec (.acknowledgeSlot ackt ackb) s = .next u ∧ State.Ends { s with
            txq := { s.txq with ctrl := pre ++ post },
            lpt := { s.lpt with tx := none, phase := .idle, pins := { s.lpt.pins with ack := none } } } u i e
              .completed none) ∧
        (∀ r res a why, e.state = .retiring → e.outcome = some ⟨res, a, why⟩ → (a = .owed ∨ a = .queued) →
          c.frame.body = .abort r →
          exec (.acknowledgeSlot ackt ackb) s = .next ({ s with
            txq := { s.txq with ctrl := pre ++ post, owed := s.txq.owed.filter (· != i) },
            lpt := { s.lpt with tx := none, phase := .idle, pins := { s.lpt.pins with ack := none } } }.setEx i
              (some { e with outcome := some ⟨res, .settled, why⟩ }))) ∧
        ((e.state = .opening → ∀ k d n, c.frame.body ≠ .openReq k d n) →
          (e.state = .finishing → ∀ n, c.frame.body ≠ .done n) →
          (e.state = .retiring → ∀ r, c.frame.body ≠ .abort r) →
          exec (.acknowledgeSlot ackt ackb) s = .next ({ s with
            txq := { s.txq with ctrl := pre ++ post },
            lpt := { s.lpt with tx := none, phase := .idle, pins := { s.lpt.pins with ack := none } } }.setEx i
              (some (s.quietAgain e))))) ∧
      (ackb = true →
        (e.state = .retiring ∧
            ((∀ r, c.frame.body ≠ .abort r) ∨ ∀ o, e.outcome = some o → o.abort ≠ .queued) ∨
          e.state ≠ .opening ∧ ∃ k d n, c.frame.body = .openReq k d n) →
        exec (.acknowledgeSlot ackt ackb) s = .next { s with
          txq := { s.txq with ctrl := pre ++ post },
          lpt := { s.lpt with tx := none, phase := .idle, pins := { s.lpt.pins with ack := none } } }) ∧
      (ackb = true → (e.state = .retiring → (∃ r, c.frame.body = .abort r) ∧ ∃ o, e.outcome = some o ∧ o.abort = .queued) →
        ((∃ k d n, c.frame.body = .openReq k d n) → e.state = .opening) →
        (c.busy + 1 < 64 → s.txq.ctrl.length ≤ 16 →
          ((∀ l, c.frame.body ≠ .credit l) ∨
            ∀ d ∈ pre ++ post, d.owner = .slot i (s.gen i) → ∀ l, d.frame.body ≠ .credit l) →
          exec (.acknowledgeSlot ackt ackb) s = .next { s with
            txq := { s.txq with ctrl := pre ++ post ++ [{ c with busy := c.busy + 1, inSlot := false }] },
            xen := { s.xen with rescanWaits := s.rescanWaitsAt s.txq.ctrl.length },
            lpt := { s.lpt with tx := none, phase := .idle, pins := { s.lpt.pins with ack := none } } }) ∧
        (c.busy + 1 < 64 → (∃ l, c.frame.body = .credit l) →
          (∃ d ∈ pre ++ post, d.owner = .slot i (s.gen i) ∧ ∃ l, d.frame.body = .credit l) →
          exec (.acknowledgeSlot ackt ackb) s = .next { s with
            txq := { s.txq with ctrl := (pre ++ post).map fun d =>
              if d.owner = .slot i (s.gen i) ∧ d.frame.body.isCredit = true then { d with busy := max d.busy (c.busy + 1) }
              else d },
            lpt := { s.lpt with tx := none, phase := .idle, pins := { s.lpt.pins with ack := none } } }) ∧
        (∀ res why, 64 ≤ c.busy + 1 → e.state = .retiring → e.outcome = some ⟨res, .queued, why⟩ →
          exec (.acknowledgeSlot ackt ackb) s = .next ({ s with
            txq := { s.txq with ctrl := pre ++ post, owed := s.txq.owed.filter (· != i) },
            lpt := { s.lpt with tx := none, phase := .idle, pins := { s.lpt.pins with ack := none } } }.setEx i
              (some { e with outcome := some ⟨res, .settled, why⟩ }))) ∧
        (64 ≤ c.busy + 1 → e.state ≠ .retiring →
          ∃ u : State, exec (.acknowledgeSlot ackt ackb) s = .next u ∧ State.Ends { s with
            txq := { s.txq with ctrl := pre ++ post },
            lpt := { s.lpt with tx := none, phase := .idle, pins := { s.lpt.pins with ack := none } } } u i e
              (.failed .peerCongested none) none))) ∧
    (∀ (b : BufId) (v : OutBuffer), t.src = .data b → s.buffer b = some v → v.slot = i → v.gen = s.gen i →
      e.state = .sending → ackt = true → ackb = false →
      (∀ ms rest, e.walk.marks = ms ++ rest →
        (e.walk.marks ≠ [] → e.role = .originator ∧ e.dir = .push ∨ e.role = .responder ∧ e.dir = .pull) →
        (ms ≠ [] → s.notesReached ms rest (e.acknowledged + v.payload.length) ∧
          ∀ b' v', b' ≠ b → s.buffer b' = some v' → v'.slot = i → v'.state ≠ .filling) →
        (∀ m l, rest = m :: l → e.acknowledged + v.payload.length < m.point) →
        exec (.acknowledgeSlot ackt ackb) s = .next (State.noted
          ({ s with
            lpt := { s.lpt with tx := none, phase := .idle, pins := { s.lpt.pins with ack := none } } }.setBuffer b none)
          i
          (if e.acknowledged + v.payload.length = e.length then
            s.quietStarted { e with acknowledged := e.length, state := .confirming }
          else s.quietAgain { e with acknowledged := e.acknowledged + v.payload.length }) ms rest)) ∧
      ∀ (e1 : Exchange) (t1 : State) (done : Nat),
        done = (if e.role = .originator ∧ e.dir = .push ∨ e.role = .responder ∧ e.dir = .pull then
          e.acknowledged + v.payload.length else e.drained) →
        e1 = s.quietAgain { e with acknowledged := e.acknowledged + v.payload.length } →
        t1 = (({ s with
          lpt := { s.lpt with tx := none, phase := .idle, pins := { s.lpt.pins with ack := none } } }.setBuffer b none).setEx
            i (some e1)) →
        ∃ u : State, t1.MarksSettled i e1 done (.next u) ∧ exec (.acknowledgeSlot ackt ackb) s = .next (
          match u.ex i with
          | none => u
          | some e2 =>
            if e2.state = .sending ∧ e2.acknowledged = e2.length then
              u.setEx i (some (u.quietStarted { e2 with state := .confirming }))
            else u))) ∧
  (∀ (t : TxFrame) (ackt ackb : Bool) (s : State) (pre : List CtrlEntry) (c : CtrlEntry) (post : List CtrlEntry),
    s.observes = true → s.sct.station ≠ .fault → s.lpt.phase = .sent false → s.lpt.tx = some t → t.src = .ctrl →
    s.txq.ctrl = pre ++ c :: post → c.inSlot = true → (∀ d ∈ pre ++ post, d.inSlot = false) →
    (c.owner = .nobody ∨ ∃ j g, c.owner = .slot j g ∧ (s.ex j = none ∨ s.gen j ≠ g)) → (ackt = true ∨ ackb = true) →
    exec (.acknowledgeSlot ackt ackb) s = .next { s with
      txq := { s.txq with ctrl := pre ++ post },
      lpt := { s.lpt with tx := none, phase := .idle, pins := { s.lpt.pins with ack := none } } }) ∧
  (∀ (t : TxFrame) (ackt ackb : Bool) (s : State) (b : BufId) (v : OutBuffer), s.observes = true →
    s.sct.station ≠ .fault → s.lpt.phase = .sent false → s.lpt.tx = some t → t.src = .data b → s.buffer b = some v →
    (ackb = true ∨ ackt = true ∧ ∀ e, s.ex v.slot = some e → v.gen = s.gen v.slot → e.state ≠ .sending) →
    exec (.acknowledgeSlot ackt ackb) s = .next ({ s with
      lpt := { s.lpt with tx := none, phase := .idle, pins := { s.lpt.pins with ack := none } } }.setBuffer b none)) ∧
  (∀ (t : TxFrame) (s : State) (pre : List CtrlEntry) (c : CtrlEntry) (post : List CtrlEntry),
    s.observes = true → s.sct.station = .probing → s.lpt.phase = .sent false → s.lpt.tx = some t → t.src = .ctrl →
    s.txq.ctrl = pre ++ c :: post → c.inSlot = true → (∀ d ∈ pre ++ post, d.inSlot = false) →
    c.owner = .stationControl → (∃ m, c.frame.body = .probe m) →
    ∃ u : State, exec (.acknowledgeSlot true false) s = .next u ∧ u.sct.station = .conflict ∧ u.sct.faultPin = true ∧
      u.sct.probe = false ∧ u.lpt.tx = none ∧ u.lpt.inbox = [] ∧ u.lpt.phase = .idle ∧
      u.lpt.pins = ⟨none, false, [], none, s.lpt.pins.lcl⟩ ∧ u.xen = s.xen ∧ u.ord.taken = s.ord.taken ∧
      u.txq.ctrl = (pre ++ post).filter (fun d => d.owner != .stationControl) ∧
      (s.reportOpen 1 → u.rpt.queue = s.rpt.queue ++ [.station .conflict .numberTaken])) ∧
  ∀ (t : TxFrame) (ackt ackb : Bool) (s : State), s.observes = true → s.sct.station = .fault →
    s.lpt.phase = .sent false → s.lpt.tx = some t → (ackt = true ∨ ackb = true) →
    (t.isData = true → exec (.acknowledgeSlot ackt ackb) s = .next { s with
      lpt := { s.lpt with tx := none, phase := .idle, pins := { s.lpt.pins with ack := none } } }) ∧
    ∀ (pre : List CtrlEntry) (c : CtrlEntry) (post : List CtrlEntry), t.src = .ctrl → s.txq.ctrl = pre ++ c :: post →
      c.inSlot = true → (∀ d ∈ pre ++ post, d.inSlot = false) →
      (ackb = false ∨ c.owner ≠ .stationControl ∨ 64 ≤ c.busy + 1 →
        exec (.acknowledgeSlot ackt ackb) s = .next { s with
          txq := { s.txq with ctrl := pre ++ post },
          lpt := { s.lpt with tx := none, phase := .idle, pins := { s.lpt.pins with ack := none } } }) ∧
      (∀ r, ackb = true → c.owner = .stationControl → c.frame.body = .abort r → c.busy + 1 < 64 →
        s.txq.ctrl.length ≤ 16 →
        exec (.acknowledgeSlot ackt ackb) s = .next { s with
          txq := { s.txq with ctrl := pre ++ post ++ [{ c with busy := c.busy + 1, inSlot := false }] },
          lpt := { s.lpt with tx := none, phase := .idle, pins := { s.lpt.pins with ack := none } } })

/-- ACKNOWLEDGE_SLOT of another station's frame: a frame answered TAKEN or BUSY makes its source HEARD; a control
frame answered TAKEN joins the inbox at the tail, but in FAULT it is discarded; a BUSY, a malformed frame and a PROBE
place nothing. That FAULT still hears the source is DEDUCED (log 23). -/
def Obligations.FrameDispatched : Prop :=
  ∀ (ackt ackb : Bool) (s : State), s.observes = true →
    (∀ what, what = .probe ∨ what = .malformed → s.lpt.phase = .answered .taken what →
      exec (.acknowledgeSlot ackt ackb) s = .next (s.setPhase .idle none)) ∧
    (∀ f a, s.lpt.phase = .answered a (.frame f) → (a = .busy ∨ s.sct.station = .fault) → f.src ≠ s.sn →
      exec (.acknowledgeSlot ackt ackb) s = .next ((s.setPhase .idle none).setPeer f.src .heard)) ∧
    (∀ f, s.lpt.phase = .answered .taken (.frame f) → s.sct.station ≠ .fault → f.src ≠ s.sn →
      (∀ a n p, f.body ≠ .data a n p) → s.lpt.inbox.length < 8 →
      exec (.acknowledgeSlot ackt ackb) s = .next ({ s with
        lpt := { s.lpt with inbox := s.lpt.inbox ++ [f], phase := .idle, pins := { s.lpt.pins with ack := none } }
        }.setPeer f.src .heard))

/-- ACKNOWLEDGE_SLOT of a DATA frame with offset a and count c. In RECEIVING it is accepted into the cell of its
range, dropped as a duplicate, or ends the exchange with PROTOCOL or OVERRUN and the ABORT owed (R93, R94, R102, R12).
In FINISHING it clears peer hold, at a sender it restarts the QUIET timer, in the opening states and RETIRING it is
discarded, and an unknown one draws ABORT(UNKNOWN) if an entry is free, and no reply otherwise (R92, R99, R17). That DATA
at a sender restarts the QUIET timer is DEDUCED (log 17), and so is that an entry is free for the reply also while somebody
waits to be handed it (log 13); that the timer of a receiver owed no credit stops with its time kept is the reading of
R12. -/
def Obligations.DataActsByChecks : Prop :=
  ∀ (ackt ackb : Bool) (s : State) (f : Frame) (a : BitVec 24) (c : BitVec 16) (payload : List Byte),
    s.observes = true → s.sct.station ≠ .fault → s.lpt.phase = .answered .taken (.frame f) →
    f.src ≠ s.sn → f.body = .data a c payload →
    ∀ v : State, v = (s.setPhase .idle none).setPeer f.src .heard →
      (∀ (i : SlotId) (e : Exchange), s.lookup f = some i → s.ex i = some e → e.state = .receiving →
        ((c.toNat = 0 ∨ 256 < c.toNat ∨ a.toNat / 256 ≠ (a.toNat + c.toNat - 1) / 256) →
          ∃ u : State, exec (.acknowledgeSlot ackt ackb) s = .next u ∧
            v.Ends u i e (.failed .protocol none) (some .protocol)) ∧
        (1 ≤ c.toNat → c.toNat ≤ 256 → a.toNat / 256 = (a.toNat + c.toNat - 1) / 256 →
          (a.toNat < e.received →
            exec (.acknowledgeSlot ackt ackb) s =
              .next (v.setEx i (some (s.quietAgain { e with peerHold := false })))) ∧
          (e.received < a.toNat →
            ∃ u : State, exec (.acknowledgeSlot ackt ackb) s = .next u ∧
              v.Ends u i e (.failed .protocol none) (some .protocol)) ∧
          (a.toNat = e.received → e.granted < a.toNat + c.toNat →
            ∃ u : State, exec (.acknowledgeSlot ackt ackb) s = .next u ∧
              v.Ends u i e (.failed .overrun none) (some .overrun)) ∧
          (a.toNat = e.received → a.toNat + c.toNat ≤ e.granted → ∀ k x, s.findCell i (a.toNat / 256) = some k →
            s.cell k = some x →
            exec (.acknowledgeSlot ackt ackb) s = .next ((v.setCell k
                (some { x with state := .filled, bytes := x.bytes ++ payload })).setEx i (some (
              if a.toNat + c.toNat = e.length then
                { e with received := e.length, peerHold := false, state := .finishing, timer := ⟨.none, 0, .stopped⟩ }
              else if a.toNat + c.toNat < e.granted then
                s.quietAgain { e with received := a.toNat + c.toNat, peerHold := false }
              else
                { e with
                  received := a.toNat + c.toNat, peerHold := false, timer := { e.timer with run := .stopped } })))))) ∧
      (∀ (i : SlotId) (e : Exchange), s.lookup f = some i → s.ex i = some e →
        (e.state = .finishing →
          exec (.acknowledgeSlot ackt ackb) s = .next (v.setEx i (some { e with peerHold := false }))) ∧
        (e.state = .sending ∨ e.state = .confirming →
          exec (.acknowledgeSlot ackt ackb) s = .next (v.setEx i (some (s.quietAgain e)))) ∧
        (e.state = .opening ∨ e.state = .backoff ∨ e.state = .parked ∨ e.state = .retiring →
          exec (.acknowledgeSlot ackt ackb) s = .next v)) ∧
      (s.lookup f = none →
        (s.txq.ctrl.length < 16 → exec (.acknowledgeSlot ackt ackb) s =
          .next (v.enqueued ⟨f.src, s.sn, !f.fromOrig, f.tag, .abort .unknown⟩ .nobody)) ∧
        (16 ≤ s.txq.ctrl.length → exec (.acknowledgeSlot ackt ackb) s = .next v))

/-- LANE_CLEAR: in a state that takes lane clear the lane, the queues, the Peer Table and the Pending List are emptied,
at most a due rescan stays in the line, every live slot enters RETIRING(LANE_CLEARED) or keeps its outcome with its
ABORT settled, the cells of the slots it ends become FREE, or RECLAIMING where the drain is writing from them, the
offers and the head stand, and STATION(LANE_CLEARED) is made; the ACK of every CLR whose pulse the event includes is
then due, and the entries that await a release or the OFFLINE report stand. In any other state it is no event: where the
station observes windows LCL is released by it and another station's tenure is abandoned, which is the model's choice
(log 9), and where it does not nothing changes. One LANE_CLEAR is one whole assertion of LCL (log 9). That a lane clear
ends a standing rescan is the model's choice (log 28), and that a due rescan waits for no entry behind it is its reading
(log 14). -/
def Obligations.LaneClearClearsStation : Prop :=
  (∀ s : State, s.takesClear = true → s.reportOpen 1 →
    ∃ t : State, exec .laneClear s = .next t ∧
      t.lpt.tx = none ∧ t.lpt.spent = false ∧ t.lpt.inbox = [] ∧ (∀ p, t.peer p = .unknown) ∧ t.lpt.phase = .idle ∧
      t.lpt.pins = ⟨none, false, [], none, false⟩ ∧
      t.txq.owed = [] ∧ t.txq.line = (if s.xen.rescanDue then s.txq.line.filter (· == .rescan) else []) ∧
      t.txq.lastTx = s.txq.lastTx ∧ t.txq.takenBack = none ∧ (s.sct.station ≠ .probing → t.txq.ctrl = [] ∧ t.sct = s.sct) ∧
      (s.sct.station = .probing → t.txq.ctrl =
        [⟨⟨s.sn, s.sn, true, ⟨0, 0⟩, .probe s.sct.tickCount⟩, .stationControl, 0, false⟩]) ∧
      (∀ b v, t.buffer b = some v → v.state ≠ .sending ∧ v.state ≠ .ready) ∧
      (∀ k, s.cell k = none → t.cell k = none) ∧
      (∀ k x, s.cell k = some x →
        (x.state = .reclaiming → t.cell k = some x) ∧
        ∀ e, s.ex x.slot = some e → x.gen = s.gen x.slot → e.state ≠ .retiring → x.state ≠ .reclaiming →
          (∀ r, x.state = .filled → s.lmp.transfer = some r → r.purpose = .drainWrite x.slot x.gen k →
            t.cell k = some { x with state := .reclaiming }) ∧
          (x.state = .reserved ∨ (∀ r, s.lmp.transfer = some r → r.purpose ≠ .drainWrite x.slot x.gen k) →
            t.cell k = none)) ∧
      t.xen.deferred = [] ∧ t.xen.offers = s.xen.offers ∧ t.xen.postOrder = s.xen.postOrder ∧
      t.xen.rescanDue = s.xen.rescanDue ∧ t.xen.rescanWaits = false ∧ t.xen.rescanAt = none ∧
      (∀ i, t.gen i = s.gen i ∧ (s.ex i = none → t.ex i = none) ∧ ∀ e, s.ex i = some e →
        (e.state ≠ .retiring → ∃ e', t.ex i = some e' ∧ e'.state = .retiring ∧ e'.timer = ⟨.none, 0, .stopped⟩ ∧
          e'.localPause = false ∧ e'.peerHold = false ∧
          e'.outcome = some ⟨.failed .laneCleared none, .notNeeded, .unknown⟩ ∧
          e'.drained = e.drained ∧ e'.acknowledged = e.acknowledged ∧ e'.orderTag = e.orderTag) ∧
        (e.state = .retiring → ∀ o, e.outcome = some o → t.ex i = some { e with
          outcome := some { o with abort := if o.abort = .notNeeded then .notNeeded else .settled } })) ∧
      t.ord.head = s.ord.head ∧ t.ord.taken = s.ord.taken ∧ t.ord.producer = s.ord.producer ∧
      t.ord.acks.length = s.ord.acks.length ∧
      (∀ (n : Nat) (a : AckEntry), s.ord.acks[n]? = some a → ∃ x, t.ord.acks[n]? = some x ∧
        x.tag = a.tag ∧ x.kind = a.kind ∧
        (a.await = .clearPulse → s.lpt.pins.lcl = true → x.due = true) ∧
        ((∃ i g, a.await = .release i g) ∨ a.await = .offlineReport → x = a)) ∧
      t.rpt.queue = s.rpt.queue ++ [.station s.sct.station .laneCleared] ∧ t.lmp.transfer = s.lmp.transfer) ∧
  ∀ s : State, s.takesClear = false →
    (s.observes = false → exec .laneClear s = .next s) ∧
    (s.observes = true →
      (s.lpt.phase = .other ∨ s.lpt.phase = .unanswered ∨ (∃ a w, s.lpt.phase = .answered a w) →
        exec .laneClear s = .next { s with
          lpt := { s.lpt with phase := .idle, pins := { s.lpt.pins with ack := none, lcl := false } } }) ∧
      (s.lpt.phase = .idle ∨ s.lpt.phase = .won ∨ (∃ c, s.lpt.phase = .sent c) →
        exec .laneClear s = .next { s with lpt := { s.lpt with pins := { s.lpt.pins with lcl := false } } }))

/-- A well-formed frame read from the bytes it is sent as is that frame: no field is dropped by the layouts of 12.2. -/
def Obligations.FrameRoundTrip : Prop :=
  ∀ (sn : Station) (f : Frame), f.src ≠ sn → f.body.origFits f.fromOrig = true →
    (∀ r, f.body = .abort r → r.inFrame = true) →
    (∀ a n p, f.body = .data a n p → p.length = n.toNat ∧ n.toNat ≤ 256) →
    crcPasses f.encode = true ∧ Frame.parse sn f.encode = some f

/-! ### Frames taken from the inbox head -/

/-- The lookup of a frame: with the from-originator bit set, a RESPONDER slot with its source and whole tag; with the bit
clear, the slot its tag's index names, if it is an ORIGINATOR of the tag's generation with the frame's source. -/
def Obligations.LookupFindsTheExchange : Prop :=
  ∀ (s : State) (f : Frame),
    (f.fromOrig = true →
      (∀ i, s.lookup f = some i → ∃ e, s.ex i = some e ∧ e.role = .responder ∧ e.peer = f.src ∧ e.tag = f.tag) ∧
      (s.lookup f = none → ∀ i e, s.ex i = some e → ¬(e.role = .responder ∧ e.peer = f.src ∧ e.tag = f.tag))) ∧
    (f.fromOrig = false → ∀ i : SlotId, s.lookup f = some i ↔
      i.val = f.tag.idx.toNat ∧ s.gen i = f.tag.gen ∧
        ∃ e, s.ex i = some e ∧ e.role = .originator ∧ e.peer = f.src)

/-- ACCEPT and RECALL taken by a PUSH originator in OPENING, BACKOFF or PARKED, with a valid limit L: the OPEN is given
up, the credit limit received becomes the larger of L and its value, and the slot enters SENDING, or CONFIRMING for
length 0, with its QUIET timer started. -/
def Obligations.AnswerOpensPush : Prop :=
  ∀ (c : Instr) (s : State) (f : Frame) (n : BitVec 24) (i : SlotId) (e : Exchange),
    (c = .acceptFrame ∧ f.body = .accept n ∨ c = .recallFrame ∧ f.body = .recall n) → s.inboxFirst f →
    s.lookup f = some i → s.ex i = some e → (e.state = .opening ∨ e.state = .backoff ∨ e.state = .parked) →
    e.dir = .push → n.toNat ≤ e.length → (n.toNat % 256 = 0 ∨ n.toNat = e.length) →
    exec c s = .next (((s.openDropped i).setEx i (some (s.quietStarted { e with
      creditReceived := max e.creditReceived n.toNat,
      state := if e.length = 0 then .confirming else .sending }))).inboxTaken)

/-- ACCEPT and RECALL taken by a PULL originator in OPENING, BACKOFF or PARKED, with a length N up to its capacity: the
OPEN is given up and the length is N. With N above 0 the slot enters RECEIVING, its initial grant reserves the lowest
FREE cells, and its CREDIT carries the limit; with N = 0 it enters FINISHING and its DONE(0) is placed. -/
def Obligations.AnswerOpensPull : Prop :=
  ∀ (c : Instr) (s : State) (f : Frame) (n : BitVec 24) (i : SlotId) (e : Exchange),
    (c = .acceptFrame ∧ f.body = .accept n ∨ c = .recallFrame ∧ f.body = .recall n) → s.inboxFirst f →
    s.lookup f = some i → s.ex i = some e → (e.state = .opening ∨ e.state = .backoff ∨ e.state = .parked) →
    e.dir = .pull → n.toNat ≤ e.length → s.ctrlOpen →
    (∀ x ∈ s.txq.ctrl, x.owner = .slot i (s.gen i) →
      (∀ m, x.frame.body ≠ .done m) ∧ ∀ l, x.inSlot = false → x.frame.body ≠ .credit l) →
    (n.toNat = 0 →
      exec c s = .next ((((s.openDropped i).setEx i (some { e with
        length := 0, state := .finishing, timer := ⟨.none, 0, .stopped⟩ })).enqueued
          ⟨e.peer, s.sn, e.role == Role.originator, e.tag, .done 0⟩ (.slot i (s.gen i))).inboxTaken)) ∧
    (0 < n.toNat → ∀ k limit : Nat, k = s.cellsGiven i ((n.toNat + 255) / 256 - (e.granted + 255) / 256) →
      limit = min (e.granted + 256 * k) n.toNat →
      ∃ cells : Vector (Option Cell) 64, s.Reserves cells i ((e.granted + 255) / 256) k ∧
        exec c s = .next (((({ s.openDropped i with stg := { s.stg with cells := cells } }).setEx i (some (
          let e' := { e with length := n.toNat, state := .receiving, granted := limit }
          if e.granted ≤ e.received ∧ e.received < limit then s.quietStarted e'
          else { e' with timer := ⟨.quiet, s.par.quiet, .stopped⟩ }))).enqueued
            ⟨e.peer, s.sn, e.role == Role.originator, e.tag, .credit (BitVec.ofNat 24 limit)⟩
              (.slot i (s.gen i))).inboxTaken))

/-- An ACCEPT or RECALL whose field fails its check, taken in OPENING, BACKOFF or PARKED: the slot enters RETIRING with
reason PROTOCOL and ABORT(PROTOCOL) owed. -/
def Obligations.BadAnswerFieldEndsExchange : Prop :=
  ∀ (c : Instr) (s : State) (f : Frame) (n : BitVec 24) (i : SlotId) (e : Exchange),
    (c = .acceptFrame ∧ f.body = .accept n ∨ c = .recallFrame ∧ f.body = .recall n) → s.inboxFirst f →
    s.lookup f = some i → s.ex i = some e → (e.state = .opening ∨ e.state = .backoff ∨ e.state = .parked) →
    (e.dir = .push ∧ ¬(n.toNat ≤ e.length ∧ (n.toNat % 256 = 0 ∨ n.toNat = e.length)) ∨
      e.dir = .pull ∧ e.length < n.toNat) →
    ∃ u : State, s.Ends u i e (.failed .protocol none) (some .protocol) ∧ exec c s = .next u.inboxTaken

/-- An ACCEPT or RECALL taken after the exchange has opened is a duplicate: it only restarts the QUIET timer where that
runs; in FINISHING and RETIRING it changes nothing at the slot. -/
def Obligations.LateAnswerOnlyRestartsQuiet : Prop :=
  ∀ (c : Instr) (s : State) (f : Frame) (n : BitVec 24) (i : SlotId) (e : Exchange),
    (c = .acceptFrame ∧ f.body = .accept n ∨ c = .recallFrame ∧ f.body = .recall n) → s.inboxFirst f →
    s.lookup f = some i → s.ex i = some e →
    (e.state = .sending ∨ e.state = .receiving ∨ e.state = .confirming →
      exec c s = .next ((s.setEx i (some (s.quietAgain e))).inboxTaken)) ∧
    (e.state = .finishing ∨ e.state = .retiring → exec c s = .next s.inboxTaken)

/-- DEFER(HELD): in OPENING or BACKOFF the slot parks, its OPEN is given up and its PARK timer starts; in PARKED the PARK
timer restarts and nothing else changes. DEFER(FULL) in PARKED is discarded. Either kind in a later state is discarded,
but restarts the QUIET timer where that runs. -/
def Obligations.DeferHeldParks : Prop :=
  ∀ (s : State) (f : Frame) (i : SlotId) (e : Exchange), s.inboxFirst f → s.lookup f = some i → s.ex i = some e →
    (f.body = .defer .held →
      (e.state = .opening ∨ e.state = .backoff →
        exec .deferHeld s = .next (((s.openDropped i).setEx i (some { e with
          state := .parked, timer := ⟨.park, s.par.park * 10, .running⟩ })).inboxTaken)) ∧
      (e.state = .parked →
        exec .deferHeld s = .next ((s.setEx i (some { e with
          timer := ⟨.park, s.par.park * 10, .running⟩ })).inboxTaken))) ∧
    (f.body = .defer .full → e.state = .parked → exec .deferFull s = .next s.inboxTaken) ∧
    (∀ c, c = .deferHeld ∧ f.body = .defer .held ∨ c = .deferFull ∧ f.body = .defer .full →
      (e.state = .sending ∨ e.state = .receiving ∨ e.state = .confirming →
        exec c s = .next ((s.setEx i (some (s.quietAgain e))).inboxTaken)) ∧
      (e.state = .finishing → exec c s = .next s.inboxTaken))

/-- DEFER(FULL) in OPENING: below the open retry limit the backoff is counted and the slot enters BACKOFF for
B × 2^(min(k,4)-1); at the limit it enters RETIRING(REFUSED) with no ABORT. In BACKOFF it is discarded. -/
def Obligations.DeferFullBacksOff : Prop :=
  ∀ (s : State) (f : Frame) (i : SlotId) (e : Exchange), s.inboxFirst f → s.lookup f = some i → s.ex i = some e →
    f.body = .defer .full →
    (e.state = .opening → e.backoffs < s.par.openRetry →
      exec .deferFull s = .next (((s.openDropped i).setEx i (some { e with
        state := .backoff, backoffs := e.backoffs + 1,
        timer := ⟨.backoff, s.par.backoff * 2 ^ (min (e.backoffs + 1) 4 - 1), .running⟩ })).inboxTaken)) ∧
    (e.state = .opening → s.par.openRetry ≤ e.backoffs →
      ∃ u : State, s.Ends u i e (.failed .refused none) none ∧ exec .deferFull s = .next u.inboxTaken) ∧
    (e.state = .backoff → exec .deferFull s = .next s.inboxTaken)

/-- CREDIT at a slot: an invalid limit changes nothing at a sender; a valid one raises the credit limit received to the
larger value, and in SENDING and CONFIRMING clears peer hold and restarts the QUIET timer. -/
def Obligations.CreditActsByState : Prop :=
  ∀ (s : State) (f : Frame) (n : BitVec 24) (i : SlotId) (e : Exchange), s.inboxFirst f → f.body = .credit n →
    s.lookup f = some i → s.ex i = some e → (e.role = .originator ∧ e.dir = .push ∨ e.role = .responder ∧ e.dir = .pull) →
    (¬(n.toNat ≤ e.length ∧ (n.toNat % 256 = 0 ∨ n.toNat = e.length)) → exec .creditFrame s = .next s.inboxTaken) ∧
    (n.toNat ≤ e.length → (n.toNat % 256 = 0 ∨ n.toNat = e.length) →
      (e.state = .opening ∨ e.state = .backoff ∨ e.state = .parked →
        exec .creditFrame s = .next ((s.setEx i (some { e with
          creditReceived := max e.creditReceived n.toNat })).inboxTaken)) ∧
      (e.state = .sending →
        exec .creditFrame s = .next ((s.setEx i (some (s.quietAgain { e with
          creditReceived := max e.creditReceived n.toNat, peerHold := false }))).inboxTaken)) ∧
      (e.state = .confirming →
        exec .creditFrame s = .next ((s.setEx i (some (s.quietAgain { e with peerHold := false }))).inboxTaken)) ∧
      (e.state = .retiring → exec .creditFrame s = .next s.inboxTaken))

/-- HOLD at a slot: in SENDING and RECEIVING peer hold is set, and a QUIET timer that runs restarts with P × 10 ms; in
FINISHING peer hold is set; in CONFIRMING the QUIET timer restarts; in the other states it is discarded. -/
def Obligations.HoldActsByState : Prop :=
  ∀ (s : State) (f : Frame) (i : SlotId) (e : Exchange), s.inboxFirst f → f.body = .hold →
    s.lookup f = some i → s.ex i = some e →
    (e.state = .sending ∨ e.state = .receiving →
      exec .holdFrame s = .next ((s.setEx i (some (
        if e.quietRuns then { e with peerHold := true, timer := ⟨.quiet, s.par.park * 10, .running⟩ }
        else { e with peerHold := true }))).inboxTaken)) ∧
    (e.state = .finishing → exec .holdFrame s = .next ((s.setEx i (some { e with peerHold := true })).inboxTaken)) ∧
    (e.state = .confirming → exec .holdFrame s = .next ((s.setEx i (some (s.quietAgain e))).inboxTaken)) ∧
    (e.state = .opening ∨ e.state = .backoff ∨ e.state = .parked ∨ e.state = .retiring →
      exec .holdFrame s = .next s.inboxTaken)

/-- DONE at a slot: the length confirmed completes a sender in CONFIRMING, in SENDING once all is prepared, and in the
opening states for a PUSH of length 0; a wrong count in SENDING or CONFIRMING is PROTOCOL; elsewhere it is discarded.
A DONE of the right side is meant; where a frame at the wrong side restarts a timer is DEDUCED (log 17). -/
def Obligations.DoneActsByState : Prop :=
  ∀ (s : State) (f : Frame) (n : BitVec 24) (i : SlotId) (e : Exchange), s.inboxFirst f → f.body = .done n →
    s.lookup f = some i → s.ex i = some e →
    ((e.state = .confirming ∨ e.state = .sending ∧ e.prepared = e.length) → n.toNat = e.length →
      ∃ u : State, s.Ends u i e .completed none ∧ exec .doneFrame s = .next u.inboxTaken) ∧
    ((e.state = .confirming ∧ n.toNat ≠ e.length ∨
        e.state = .sending ∧ ¬(e.prepared = e.length ∧ n.toNat = e.length)) →
      ∃ u : State, s.Ends u i e (.failed .protocol none) (some .protocol) ∧ exec .doneFrame s = .next u.inboxTaken) ∧
    (e.state = .opening ∨ e.state = .backoff ∨ e.state = .parked →
      (e.dir = .push ∧ e.length = 0 ∧ n.toNat = 0 →
        ∃ u : State, s.Ends u i e .completed none ∧ exec .doneFrame s = .next u.inboxTaken) ∧
      (¬(e.dir = .push ∧ e.length = 0 ∧ n.toNat = 0) → exec .doneFrame s = .next s.inboxTaken)) ∧
    (e.state = .receiving → exec .doneFrame s = .next ((s.setEx i (some (s.quietAgain e))).inboxTaken)) ∧
    (e.state = .finishing ∨ e.state = .retiring → exec .doneFrame s = .next s.inboxTaken)

/-- ABORT: at a live slot the exchange ends with PEER_ABORT and the ABORT's reason, or with UNKNOWN_AT_PEER, and owes no
ABORT; a RETIRING slot keeps its outcome; an originator's ABORT that finds no slot removes the pending entry with its
source and whole tag. -/
def Obligations.AbortEndsExchange : Prop :=
  ∀ (s : State) (f : Frame) (r : Reason), s.inboxFirst f → f.body = .abort r →
    (∀ i e, s.lookup f = some i → s.ex i = some e → e.state ≠ .retiring →
      ∃ u : State, s.Ends u i e (if r = .unknown then .failed .unknownAtPeer none else .failed .peerAbort (some r)) none ∧
        exec .abortFrame s = .next u.inboxTaken) ∧
    (∀ i e, s.lookup f = some i → s.ex i = some e → e.state = .retiring →
      exec .abortFrame s = .next s.inboxTaken) ∧
    (s.lookup f = none → f.fromOrig = true → s.xen.rescanAt = none →
      exec .abortFrame s = .next ({ s with
        xen := { s.xen with deferred := s.xen.deferred.filter (fun d => !(d.peer == f.src && d.tag == f.tag)) },
        txq := { s.txq with line := s.txq.line.filter (· != CtrlClaim.pendingAbort f.src f.tag) } }).inboxTaken) ∧
    (s.lookup f = none → f.fromOrig = false → exec .abortFrame s = .next s.inboxTaken)

/-- An unknown ACCEPT, RECALL, DEFER or CREDIT draws ABORT(UNKNOWN) with its tag and the from-originator bit inverted,
if an entry is free, and no reply otherwise; an unknown HOLD or DONE draws none. That an entry is free for the reply also
while somebody waits to be handed it is DEDUCED (log 13). -/
def Obligations.UnknownFrameReply : Prop :=
  ∀ (s : State) (f : Frame) (c : Instr), s.inboxFirst f → s.lookup f = none →
    ((∃ n, c = .acceptFrame ∧ f.body = .accept n) ∨ (∃ n, c = .recallFrame ∧ f.body = .recall n) ∨
        c = .deferHeld ∧ f.body = .defer .held ∨ c = .deferFull ∧ f.body = .defer .full ∨
        (∃ n, c = .creditFrame ∧ f.body = .credit n) →
      (s.txq.ctrl.length < 16 → exec c s =
        .next ((s.enqueued ⟨f.src, s.sn, !f.fromOrig, f.tag, .abort .unknown⟩ .nobody).inboxTaken)) ∧
      (16 ≤ s.txq.ctrl.length → exec c s = .next s.inboxTaken)) ∧
    (c = .holdFrame ∧ f.body = .hold ∨ (∃ n, c = .doneFrame ∧ f.body = .done n) → exec c s = .next s.inboxTaken)

/-! ### OPEN and matching -/

/-- OPEN, fresh, in ONLINE, with a chosen offer that holds it and a FREE slot: the lowest FREE slot becomes the
RESPONDER's, the offer is BOUND to it, and ACCEPT is placed with the initial limit (PUSH) or the length (PULL). -/
def Obligations.OpenBinds : Prop :=
  ∀ (s : State) (f : Frame) (key : Word) (dir : Direction) (size : BitVec 24) (i : SlotId) (o : OfferId) (v : Offer),
    s.inboxFirst f → f.body = .openReq key dir size → s.sct.station = .online → s.findResponder f.src f.tag = none →
    (∀ d ∈ s.xen.deferred, ¬(d.peer = f.src ∧ d.tag.idx = f.tag.idx)) →
    s.matchOffer f.src dir key = some o → s.offer o = some v →
    (dir = .push → size.toNat ≤ v.size) → (dir = .pull → v.size ≤ size.toNat) →
    s.freeSlot = some i → s.ctrlOpen → (∀ x ∈ s.txq.ctrl, x.owner ≠ .slot i (s.gen i)) →
    (dir = .push → size.toNat = 0 → s.txq.ctrl.length < 15) →
    ∃ u : State, s.Binds u i o v ⟨f.src, f.tag, dir, key, size.toNat⟩ .accept ∧ exec .openFrame s = .next u.inboxTaken

/-- OPEN answered without binding: a request that no offer fits, or for which no slot is FREE, is stored with DEFER(HELD),
or refused with DEFER(FULL) on a full Pending List; in place of a stale entry it is stored at that entry's rank; a
retransmission of a stored request draws DEFER(HELD) again; a chosen offer too small draws ABORT(TOO_LONG) and
SERVED(TOO_LONG); in DETACHING the answer is ABORT(DETACHING). A further copy of an OPEN draws the ACCEPT of its live
RESPONDER slot again, unless that slot's answer is still queued, and restarts its QUIET timer; a RETIRING slot's copy is
discarded. -/
def Obligations.OpenAnsweredOnce : Prop :=
  (∀ (s : State) (f : Frame) (key : Word) (dir : Direction) (size : BitVec 24) (i : SlotId) (e : Exchange),
    s.inboxFirst f → f.body = .openReq key dir size → s.findResponder f.src f.tag = some i → s.ex i = some e →
    (e.state = .retiring → exec .openFrame s = .next s.inboxTaken) ∧
    (e.state ≠ .retiring →
      ((∀ y ∈ s.txq.ctrl, y.owner = .slot i (s.gen i) → ∀ n, y.frame.body ≠ .accept n ∧ y.frame.body ≠ .recall n) →
        s.ctrlOpen → exec .openFrame s = .next (((s.enqueued ⟨f.src, s.sn, false, f.tag,
          .accept (BitVec.ofNat 24 (if e.dir = .push then e.granted else e.length))⟩ (.slot i (s.gen i))).setEx i
            (some (s.quietAgain e))).inboxTaken)) ∧
      ((∃ y ∈ s.txq.ctrl, y.owner = .slot i (s.gen i) ∧ ∃ n, y.frame.body = .accept n ∨ y.frame.body = .recall n) →
        exec .openFrame s = .next ((s.setEx i (some (s.quietAgain e))).inboxTaken)))) ∧
  ∀ (s : State) (f : Frame) (key : Word) (dir : Direction) (size : BitVec 24),
    s.inboxFirst f → f.body = .openReq key dir size → s.findResponder f.src f.tag = none → s.ctrlOpen →
    (s.sct.station = .detaching → exec .openFrame s =
      .next ((s.enqueued ⟨f.src, s.sn, false, f.tag, .abort .detaching⟩ .nobody).inboxTaken)) ∧
    (s.sct.station = .online →
      (∀ d ∈ s.xen.deferred, d.peer = f.src → d.tag.idx = f.tag.idx → d.tag.gen = f.tag.gen) →
      (∃ d ∈ s.xen.deferred, d.peer = f.src ∧ d.tag = f.tag) → exec .openFrame s =
        .next ((s.enqueued ⟨f.src, s.sn, false, f.tag, .defer .held⟩ .nobody).inboxTaken)) ∧
    (s.sct.station = .online → ∀ pre d post, s.xen.deferred = pre ++ d :: post → d.peer = f.src →
      d.tag.idx = f.tag.idx → d.tag.gen ≠ f.tag.gen → (∀ x ∈ pre, ¬(x.peer = f.src ∧ x.tag.idx = f.tag.idx)) →
      (s.matchOffer f.src dir key = none ∨ s.freeSlot = none ∧ ∃ o v, s.matchOffer f.src dir key = some o ∧
        s.offer o = some v ∧ (dir = .push → size.toNat ≤ v.size) ∧ (dir = .pull → v.size ≤ size.toNat)) →
      exec .openFrame s = .next (State.inboxTaken (State.enqueued
        ⟨f.src, s.sn, false, f.tag, .defer .held⟩ .nobody { s with
          xen := { s.xen with deferred := pre ++ ⟨f.src, f.tag, dir, key, size.toNat⟩ :: post } }))) ∧
    (s.sct.station = .online → (∀ d ∈ s.xen.deferred, ¬(d.peer = f.src ∧ d.tag.idx = f.tag.idx)) →
      (s.matchOffer f.src dir key = none ∨ s.freeSlot = none ∧ (∃ o v, s.matchOffer f.src dir key = some o ∧
          s.offer o = some v ∧ (dir = .push → size.toNat ≤ v.size) ∧ (dir = .pull → v.size ≤ size.toNat)) →
        (s.xen.deferred.length < 8 → exec .openFrame s = .next (State.inboxTaken (State.enqueued
          ⟨f.src, s.sn, false, f.tag, .defer .held⟩ .nobody { s with
            xen := { s.xen with deferred := s.xen.deferred ++ [⟨f.src, f.tag, dir, key, size.toNat⟩] } }))) ∧
        (8 ≤ s.xen.deferred.length → exec .openFrame s =
          .next ((s.enqueued ⟨f.src, s.sn, false, f.tag, .defer .full⟩ .nobody).inboxTaken))) ∧
      (∀ o v, s.matchOffer f.src dir key = some o → s.offer o = some v →
        (dir = .push ∧ v.size < size.toNat ∨ dir = .pull ∧ size.toNat < v.size) → s.reportOpen 1 →
        exec .openFrame s = .next (((s.enqueued ⟨f.src, s.sn, false, f.tag, .abort .tooLong⟩ .nobody).reported
          (.served v.orderTag f.src key 0 (.failed .tooLong none))).inboxTaken)))

/-- Matching chooses, among the offers in state OPEN that fit by type, peer and masked key, the oldest in posting order;
the size plays no part. -/
def Obligations.MatchingTakesOldestFit : Prop :=
  ∀ (s : State) (p : Station) (dir : Direction) (key : Word) (o : OfferId),
    s.matchOffer p dir key = some o ↔
      ∃ before after, s.xen.postOrder = before ++ o :: after ∧
        (∃ v, s.offer o = some v ∧ v.state = .openState ∧
          (v.type = .receive ∧ dir = .push ∨ v.type = .give ∧ dir = .pull) ∧ (v.peer = none ∨ v.peer = some p) ∧
          key &&& v.mask = v.key &&& v.mask) ∧
        ∀ q ∈ before, ∀ v, s.offer q = some v →
          ¬(v.state = .openState ∧ (v.type = .receive ∧ dir = .push ∨ v.type = .give ∧ dir = .pull) ∧
            (v.peer = none ∨ v.peer = some p) ∧ key &&& v.mask = v.key &&& v.mask)

/-! ### Expiries of the slot timer -/

/-- ANSWER_EXPIRY in OPENING: below the open retry limit the attempt is counted and an OPEN is due again, with no timer;
at the limit the slot enters RETIRING(NO_ANSWER) with no ABORT. -/
def Obligations.AnswerExpirySendsOpenAgain : Prop :=
  ∀ (s : State) (i : SlotId) (e : Exchange), s.runs = true → s.ex i = some e → e.state = .opening →
    e.timer.kind = .answer → e.timer.run = .expired →
    (e.openAttempts < s.par.openRetry → (∀ x ∈ s.txq.ctrl, s.isOpenOf i x.frame x.owner = false) →
      ∀ (t : State) (open' : Frame),
        t = s.setEx i (some { e with timer := ⟨.none, 0, .stopped⟩, openAttempts := e.openAttempts + 1 }) →
        open' = ⟨e.peer, s.sn, e.role == Role.originator, e.tag, .openReq e.key e.dir (BitVec.ofNat 24 e.length)⟩ →
        (s.ctrlOpen → exec (.answerExpiry i) s = .next (t.enqueued open' (.slot i (s.gen i)))) ∧
        (16 ≤ s.txq.ctrl.length → s.txq.line = [] → exec (.answerExpiry i) s = .next { t with
          txq := { t.txq with line := [.frame open' (.slot i (s.gen i))] } })) ∧
    (s.par.openRetry ≤ e.openAttempts →
      ∃ u : State, s.Ends u i e (.failed .noAnswer none) none ∧ exec (.answerExpiry i) s = .next u)

/-- BACKOFF_EXPIRY in BACKOFF: the slot returns to OPENING with no timer, its OPEN is due, and open attempts is kept. -/
def Obligations.BackoffExpiryReturnsToOpening : Prop :=
  ∀ (s : State) (i : SlotId) (e : Exchange), s.runs = true → s.ex i = some e → e.state = .backoff →
    e.timer.kind = .backoff → e.timer.run = .expired → (∀ x ∈ s.txq.ctrl, s.isOpenOf i x.frame x.owner = false) →
    ∀ (t : State) (open' : Frame),
      t = s.setEx i (some { e with timer := ⟨.none, 0, .stopped⟩, state := .opening }) →
      open' = ⟨e.peer, s.sn, e.role == Role.originator, e.tag, .openReq e.key e.dir (BitVec.ofNat 24 e.length)⟩ →
      (s.ctrlOpen → exec (.backoffExpiry i) s = .next (t.enqueued open' (.slot i (s.gen i)))) ∧
      (16 ≤ s.txq.ctrl.length → s.txq.line = [] → exec (.backoffExpiry i) s = .next { t with
        txq := { t.txq with line := [.frame open' (.slot i (s.gen i))] } })

/-- PARK_EXPIRY ends a parked exchange with PARK_EXPIRED, and QUIET_EXPIRY an open one with QUIET, each with its ABORT
owed; a timer that has not expired ends nothing. That an expiry command of a timer that has not expired changes
nothing is the model's choice (log 2). -/
def Obligations.ParkAndQuietExpiryEnd : Prop :=
  ∀ (s : State) (i : SlotId) (e : Exchange), s.runs = true → s.ex i = some e →
    (e.timer.run = .expired → e.timer.kind = .park → e.state = .parked →
      ∃ u : State, s.Ends u i e (.failed .parkExpired none) (some .parkExpired) ∧ exec (.parkExpiry i) s = .next u) ∧
    (e.timer.run = .expired → e.timer.kind = .quiet →
      (e.state = .sending ∨ e.state = .receiving ∨ e.state = .confirming) →
      ∃ u : State, s.Ends u i e (.failed .quiet none) (some .quiet) ∧ exec (.quietExpiry i) s = .next u) ∧
    (e.timer.run ≠ .expired → exec (.parkExpiry i) s = .next s ∧ exec (.quietExpiry i) s = .next s ∧
      exec (.answerExpiry i) s = .next s ∧ exec (.backoffExpiry i) s = .next s)

/-! ### Orders -/

/-- SEND and FETCH that pass their checks: with a FREE slot and the origin limit not reached, the lowest FREE slot becomes
the ORIGINATOR's in OPENING with its OPEN placed, and the order is taken; otherwise the head is held, and nothing else
changes. -/
def Obligations.SendFetchTakenOrHeld : Prop :=
  ∀ (c : Instr) (dir : Direction) (s : State) (o : OrderRec),
    (c = .sendOrder ∧ dir = .push ∧ o.kind = 0x01 ∨ c = .fetchOrder ∧ dir = .pull ∧ o.kind = 0x02) → s.atHead o →
    o.peer.toNat < 32 → o.size.toNat ≤ 16777215 → (o.base.toNat % 16 = 0 ∨ o.size = 0) →
    (dir = .pull → o.size = 0 → o.base = 0) → o.peerNo ≠ s.sn → s.sct.station = .online →
    s.peer o.peerNo ≠ .silent →
    (∀ i, s.freeSlot = some i → s.originators < s.par.originLimit → s.ctrlOpen →
      (∀ x ∈ s.txq.ctrl, x.owner ≠ .slot i (s.gen i)) →
      exec c s = .next (State.orderTaken (State.enqueued
        ⟨o.peerNo, s.sn, true, ⟨s.gen i, BitVec.ofNat 4 i.val⟩, .openReq o.key dir (BitVec.ofNat 24 o.size.toNat)⟩
        (.slot i (s.gen i)) { s with
          xen := { (s.setEx i (some {
              state := .opening, role := .originator, dir := dir, peer := o.peerNo,
              tag := ⟨s.gen i, BitVec.ofNat 4 i.val⟩, key := o.key, length := o.size.toNat, orderTag := o.tag,
              offer := none, walk := ⟨o.base, 0, 0, none, 0, 0, [], none⟩, prepared := 0, acknowledged := 0,
              creditReceived := 0, received := 0, drained := 0, granted := 0, openAttempts := 0, backoffs := 0,
              localPause := false, peerHold := false, timer := ⟨.none, 0, .stopped⟩, outcome := none, transfers := 0,
              openHanded := false })).xen with originOrder := s.xen.originOrder ++ [i] } }))) ∧
    (s.freeSlot = none ∨ s.par.originLimit ≤ s.originators →
      exec c s = .next { s with
        ord := { s.ord with head := .record o .held },
        rpt := { s.rpt with line := s.rpt.line.filter (· != ReportClaim.head) } })

/-- A head that R139 refuses: the first line of its table that applies gives the reason, and the order is taken with one
FAILED report and no other effect. While the report queue is full it stays at the head and waits; when an entry is free
and no claimant waits before it, it is checked afresh and refused then. The command of its kind examines it, and that of
any of SEND, FETCH, OFFER and CLR where its kind is undefined, which is the model's choice (log 15). -/
def Obligations.OrderRefused : Prop :=
  ∀ (c : Instr) (s : State) (o : OrderRec) (w : HeadWait) (why : Reason), s.takesOrders = true →
    s.ord.orderFault = false → s.ord.head = .record o w → s.reasonToRefuse o = some why →
    (c = .sendOrder ∧ o.kind = 0x01 ∨ c = .fetchOrder ∧ o.kind = 0x02 ∨ c = .offerOrder ∧ o.kind = 0x03 ∨
      c = .clrOrder ∧ o.kind = 0x09 ∨
      (c = .sendOrder ∨ c = .fetchOrder ∨ c = .offerOrder ∨ c = .clrOrder) ∧
        (o.kind.toNat = 0 ∨ 9 < o.kind.toNat)) →
    (w = .examine ∨ w = .report → s.rpt.queue.length < 8 → s.rpt.stationWaiting = [] →
      (s.rpt.line = [] ∨ ∃ others, s.rpt.line = .head :: others) →
      exec c s = .next ((s.reported (.failed o.tag why none 0)).orderTaken)) ∧
    (w = .examine → 8 ≤ s.rpt.queue.length → s.rpt.line = [] →
      exec c s = .next { s with
        ord := { s.ord with head := .record o .report }, rpt := { s.rpt with line := [.head] } }) ∧
    (w = .report → 8 ≤ s.rpt.queue.length → exec c s = .next s)

/-- OFFER that passes its checks: it is placed in the lowest empty entry, in state OPEN, as the youngest offer, and
the order is taken without a report; in ONLINE a rescan becomes due and takes its place in the line of R106 (log 12),
and it waits for a control queue entry where the queue is full (log 14). -/
def Obligations.OfferPosted : Prop :=
  ∀ (s : State) (o : OrderRec) (e : OfferId), s.atHead o → o.kind = 0x03 → (o.type = 0x01 ∨ o.type = 0x02) →
    (o.standing = 0x00 ∨ o.standing = 0x01) → (o.peer.toNat < 32 ∨ o.peer = 0xFF) → o.size.toNat ≤ 16777215 →
    (o.base.toNat % 16 = 0 ∨ o.size = 0) → s.offer e = none → (∀ e', e' < e → s.offer e' ≠ none) →
    exec .offerOrder s = .next (State.orderTaken { s with
      xen := { s.xen with
        offers := s.xen.offers.set e (some ⟨.openState, if o.type = 0x02 then .give else .receive,
          if o.peer = 0xFF then none else some (o.peer.setWidth 5), o.key, o.mask, o.standing == 0x01, o.base,
          o.size.toNat, o.tag⟩),
        postOrder := s.xen.postOrder ++ [e],
        rescanDue := s.xen.rescanDue || s.sct.station == .online,
        rescanWaits := s.xen.rescanWaits || (s.sct.station == .online && decide (16 ≤ s.txq.ctrl.length)) },
      txq := { s.txq with
        line := if s.sct.station = .online ∧ CtrlClaim.rescan ∉ s.txq.line then s.txq.line ++ [.rescan]
          else s.txq.line } })

/-- WITHDRAW acts on the oldest offer, in posting order, that is OPEN or BOUND and has the target tag; offers in
WITHDRAWING are passed over. An OPEN target is removed with CLOSED(WITHDRAWN); a BOUND target becomes WITHDRAWING, its
slot is cancelled and an acknowledgement list entry awaits its release; without a target the answer is ACK(NO_SUCH). The
order is taken. -/
def Obligations.WithdrawActs : Prop :=
  (∀ (s : State) (tag : BitVec 16),
    (∀ before e after v, s.xen.postOrder = before ++ e :: after → s.offer e = some v → v.orderTag = tag →
      (v.state = .openState ∨ ∃ i, v.state = .bound i) →
      (∀ q ∈ before, ∀ w, s.offer q = some w → w.orderTag = tag → ∃ i, w.state = .withdrawing i) →
      s.withdrawTarget tag = some e) ∧
    ((∀ q ∈ s.xen.postOrder, ∀ w, s.offer q = some w → w.orderTag = tag → ∃ i, w.state = .withdrawing i) →
      s.withdrawTarget tag = none)) ∧
  ∀ (s : State) (o : OrderRec), s.atHead o → o.kind = 0x04 →
    (∀ e v, s.withdrawTarget o.target = some e → s.offer e = some v → v.state = .openState → s.reportOpen 1 →
      exec .withdrawOrder s = .next (State.orderTaken (State.reported (.closed v.orderTag .withdrawn) { s with
        xen := { s.xen with
          offers := s.xen.offers.set e none, postOrder := s.xen.postOrder.filter (· ≠ e) } }))) ∧
    (∀ e v i x, s.withdrawTarget o.target = some e → s.offer e = some v → v.state = .bound i → s.ex i = some x →
      s.ord.acks.length < 16 →
      ∀ t : State, t = { s with
          xen := { s.xen with offers := s.xen.offers.set e (some { v with state := .withdrawing i }) } } →
        (x.state ≠ .retiring → x.state ≠ .opening → x.state ≠ .backoff →
          ∃ u : State, t.Ends u i x (.failed .cancelled none) (some .cancelled) ∧
            exec .withdrawOrder s = .next (State.orderTaken { u with
              ord := { u.ord with acks := u.ord.acks ++ [⟨o.tag, .withdraw, .release i (s.gen i), false⟩] } })) ∧
        (x.state = .retiring →
          exec .withdrawOrder s = .next (State.orderTaken { t with
            ord := { t.ord with acks := t.ord.acks ++ [⟨o.tag, .withdraw, .release i (s.gen i), false⟩] } }))) ∧
    (s.withdrawTarget o.target = none → s.reportOpen 1 →
      exec .withdrawOrder s = .next ((s.reported (.ack o.tag .withdraw false)).orderTaken))

/-- The target exchange of CANCEL and CONTINUE: the earliest allocated live ORIGINATOR slot with the target tag, else the
slot bound to the oldest BOUND or WITHDRAWING offer with it, else none. -/
def Obligations.TargetOfCancelAndContinue : Prop :=
  ∀ (s : State) (tag : BitVec 16),
    (∀ before i after, s.xen.originOrder = before ++ i :: after →
      (∃ e, s.ex i = some e ∧ e.role = .originator ∧ e.orderTag = tag) →
      (∀ j ∈ before, ∀ e, s.ex j = some e → ¬(e.role = .originator ∧ e.orderTag = tag)) →
      s.exchangeTarget tag = some i) ∧
    ((∀ j ∈ s.xen.originOrder, ∀ e, s.ex j = some e → ¬(e.role = .originator ∧ e.orderTag = tag)) →
      (∀ before e after i v, s.xen.postOrder = before ++ e :: after → s.offer e = some v → v.orderTag = tag →
        (v.state = .bound i ∨ v.state = .withdrawing i) →
        (∀ q ∈ before, ∀ w, s.offer q = some w → ¬(w.orderTag = tag ∧ w.state ≠ .openState)) →
        s.exchangeTarget tag = some i) ∧
      ((∀ q ∈ s.xen.postOrder, ∀ w, s.offer q = some w → ¬(w.orderTag = tag ∧ w.state ≠ .openState)) →
        s.exchangeTarget tag = none))

/-- CANCEL: a target that is not RETIRING ends with CANCELLED, and owes ABORT(CANCELLED) except in BACKOFF and in OPENING
while no OPEN has been handed over; a RETIRING target keeps its outcome; an acknowledgement list entry awaits the
release. Without a target the answer is ACK(NO_SUCH). The order is taken. -/
def Obligations.CancelActs : Prop :=
  ∀ (s : State) (o : OrderRec), s.atHead o → o.kind = 0x05 →
    (∀ i x, s.exchangeTarget o.target = some i → s.ex i = some x → s.ord.acks.length < 16 →
      (x.state ≠ .retiring →
        ∃ u : State, s.Ends u i x (.failed .cancelled none)
            (if x.state = .backoff ∨ x.state = .opening ∧ x.openHanded = false then none else some .cancelled) ∧
          exec .cancelOrder s = .next (State.orderTaken { u with
            ord := { u.ord with acks := u.ord.acks ++ [⟨o.tag, .cancel, .release i (s.gen i), false⟩] } })) ∧
      (x.state = .retiring →
        exec .cancelOrder s = .next (State.orderTaken { s with
          ord := { s.ord with acks := s.ord.acks ++ [⟨o.tag, .cancel, .release i (s.gen i), false⟩] } }))) ∧
    (∀ i, s.exchangeTarget o.target = some i → 16 ≤ s.ord.acks.length →
      exec .cancelOrder s = .next { s with
        ord := { s.ord with head := .record o .ack },
        rpt := { s.rpt with line := s.rpt.line.filter (· != ReportClaim.head) } }) ∧
    (s.exchangeTarget o.target = none → s.reportOpen 1 →
      exec .cancelOrder s = .next ((s.reported (.ack o.tag .cancel false)).orderTaken))

/-- CONTINUE: ACK(DONE) is queued; a paused exchange's pause ends, its gate opens, its QUIET timer starts again where it
runs and its waiting HOLD is withdrawn; at a receiver a CREDIT with the limit granted is placed. A slot that is not paused
is not changed. Without a target the answer is ACK(NO_SUCH). -/
def Obligations.ContinueResumes : Prop :=
  ∀ (s : State) (o : OrderRec), s.atHead o → o.kind = 0x06 → s.reportOpen 1 →
    (∀ i x, s.exchangeTarget o.target = some i → s.ex i = some x → x.localPause = true →
      (x.role = .originator ∧ x.dir = .push ∨ x.role = .responder ∧ x.dir = .pull) → x.state = .sending →
      s.txq.line = [] →
      exec .continueOrder s = .next (State.orderTaken (State.reported (.ack o.tag .continue true) { s with
        xen := (s.setEx i (some (s.quietStarted { x with
          localPause := false, walk := { x.walk with gate := none } }))).xen,
        txq := { s.txq with
          ctrl := s.txq.ctrl.filter fun y =>
            y.inSlot || !(y.owner == .slot i (s.gen i) && y.frame.body == .hold) } }))) ∧
    (∀ i x, s.exchangeTarget o.target = some i → s.ex i = some x → x.localPause = true →
      (x.role = .originator ∧ x.dir = .pull ∨ x.role = .responder ∧ x.dir = .push) →
      (x.state = .receiving ∨ x.state = .finishing) → s.ctrlOpen →
      (∀ y ∈ s.txq.ctrl, y.inSlot = false → y.owner = .slot i (s.gen i) → ∀ l, y.frame.body ≠ .credit l) →
      exec .continueOrder s = .next (State.orderTaken (State.reported (.ack o.tag .continue true) (State.enqueued
        ⟨x.peer, s.sn, x.role == Role.originator, x.tag, .credit (BitVec.ofNat 24 x.granted)⟩ (.slot i (s.gen i))
        { s with
          xen := (s.setEx i (some (s.quietAgain { x with localPause := false, walk := { x.walk with gate := none } }))).xen,
          txq := { s.txq with
            ctrl := s.txq.ctrl.filter fun y =>
              y.inSlot || !(y.owner == .slot i (s.gen i) && y.frame.body == .hold) } })))) ∧
    (∀ i x, s.exchangeTarget o.target = some i → s.ex i = some x → x.localPause = false →
      exec .continueOrder s = .next ((s.reported (.ack o.tag .continue true)).orderTaken)) ∧
    (s.exchangeTarget o.target = none →
      exec .continueOrder s = .next ((s.reported (.ack o.tag .continue false)).orderTaken))

/-- DETACH in ONLINE enters DETACHING, ends each pending entry with ABORT(DETACHING) and makes an entry that awaits the
OFFLINE report; elsewhere it draws ACK(NO_SUCH). ATTACH in OFFLINE or CONFLICT queues ACK(DONE) and starts the probe; in
ONLINE it draws ACK(NO_SUCH). CLR in ONLINE asserts LCL and makes an entry that awaits the lane clear event. That a
DETACH ends a standing rescan, with its claim for a report queue entry, is the model's reading (log 28), and so is that
a due rescan waits for no control queue entry behind it (log 14). That CLR is held back at a full acknowledgement list
follows R147. -/
def Obligations.DetachAttachClrTaken : Prop :=
  ∀ (s : State) (o : OrderRec), s.atHead o →
    (o.kind = 0x07 → s.sct.station = .online → s.ord.acks.length < 16 → s.ctrlOpen →
      s.txq.ctrl.length + s.xen.deferred.length ≤ 16 →
      exec .detachOrder s = .next (State.orderTaken { s with
        sct := { s.sct with station := .detaching, faultPin := false },
        xen := { s.xen with deferred := [], rescanWaits := false, rescanAt := none },
        txq := { s.txq with ctrl := s.txq.ctrl ++ s.xen.deferred.map fun d =>
          ⟨⟨d.peer, s.sn, false, d.tag, .abort .detaching⟩, .nobody, 0, false⟩ },
        ord := { s.ord with acks := s.ord.acks ++ [⟨o.tag, .detach, .offlineReport, false⟩] },
        rpt := { s.rpt with status := s.statusAfter, line := s.rpt.line.filter (· != ReportClaim.rescan) },
        lmp := { s.lmp with waiting := s.lmp.waiting ++ s.statusPlaced .detaching } })) ∧
    (o.kind = 0x07 → s.sct.station ≠ .online → s.reportOpen 1 →
      exec .detachOrder s = .next ((s.reported (.ack o.tag .detach false)).orderTaken)) ∧
    (o.kind = 0x08 → (s.sct.station = .offline ∨ s.sct.station = .conflict) → s.reportOpen 1 →
      s.txq.ctrl.length < 16 →
      exec .attachOrder s = .next (State.orderTaken (State.enqueued
        ⟨s.sn, s.sn, true, ⟨0, 0⟩, .probe s.sct.tickCount⟩ .stationControl
        { s with
          sct := { s.sct with station := .probing, faultPin := false, probe := true },
          rpt := { s.rpt with queue := s.rpt.queue ++ [.ack o.tag .attach true], status := s.statusAfter },
          lmp := { s.lmp with waiting := s.lmp.waiting ++ s.statusPlaced .probing } }))) ∧
    (o.kind = 0x08 → s.sct.station = .online → s.reportOpen 1 →
      exec .attachOrder s = .next ((s.reported (.ack o.tag .attach false)).orderTaken)) ∧
    (o.kind = 0x09 → s.sct.station = .online →
      (s.ord.acks.length < 16 → exec .clrOrder s = .next (State.orderTaken { s with
        lpt := { s.lpt with pins := { s.lpt.pins with lcl := true } },
        ord := { s.ord with acks := s.ord.acks ++ [⟨o.tag, .clr, .clearPulse, false⟩] } })) ∧
      (16 ≤ s.ord.acks.length → exec .clrOrder s = .next { s with
        ord := { s.ord with head := .record o .ack },
        rpt := { s.rpt with line := s.rpt.line.filter (· != ReportClaim.head) } }))

/-- ORDER_FETCH places the read of the ring entry for the taken count under its conditions, the Order Unit having no
other transfer placed, and nothing otherwise; ORDER_FETCH_DONE makes the record the head, of every kind, or takes it at
once with FAILED and the first reason of R139's table that applies, or has it wait for its report while the report queue
is full; INDEX_WRITE_DONE ends the index write. Each end places the transfer of the Order Unit that waited for it, which
is the model's reading (log 31). A head that passes its checks waits for the command of its kind (log 15). -/
def Obligations.OrderReadPath : Prop :=
  (∀ s : State, s.takesOrders = true → s.ord.orderFault = false → s.ord.head = .absent →
    s.ord.producer ≠ s.ord.taken → s.ord.indexWrite = false → s.ord.ringRead = .idle →
    exec .orderFetch s = .next (State.requested
      ⟨.orderFetch, s.par.orderBase.toNat + 32 * (s.ord.taken.toNat % s.par.orderSize.toNat), 32, []⟩
      { s with ord := { s.ord with head := .fetching } })) ∧
  (∀ s : State, (s.takesOrders = false ∨ s.ord.orderFault = true ∨ s.ord.head ≠ .absent ∨
      s.ord.producer = s.ord.taken ∨ s.ord.indexWrite = true ∨ s.ord.ringRead ≠ .idle) →
    exec .orderFetch s = .next s) ∧
  (∀ (s : State) (q : Request) (bytes : List Byte) (o : OrderRec), s.ending q → q.purpose = .orderFetch →
    bytes.length = 32 → o = OrderRec.parse bytes → s.takesOrders = true → s.ord.orderFault = false →
    ∀ t : State, t = { s.portFree with lmp := { s.portFree.lmp with waiting := s.lmp.waiting ++ s.orderDue } } →
    (s.reasonToRefuse o = none →
      exec (.orderFetchDone bytes) s = .next { t with ord := { s.ord with head := .record o .examine } }) ∧
    (∀ why, s.reasonToRefuse o = some why →
      (s.reportOpen 1 →
        exec (.orderFetchDone bytes) s = .next ((t.reported (.failed o.tag why none 0)).orderTaken)) ∧
      (8 ≤ s.rpt.queue.length → s.rpt.line = [] →
        exec (.orderFetchDone bytes) s = .next { t with
          ord := { s.ord with head := .record o .report }, rpt := { s.rpt with line := [.head] } }))) ∧
  (∀ (s : State) (q : Request), s.ending q → q.purpose = .indexWrite →
    ∀ t : State, t = { s with ord := { s.ord with indexWrite := false } } →
    exec .indexWriteDone s =
      .next { t.portFree with lmp := { t.portFree.lmp with waiting := s.lmp.waiting ++ t.orderDue } })

/-! ### Walks, fills and the drain -/

/-- ENTRY_READ_DONE: a malformed entry ends the exchange with LIST_BAD. The drain or the fill that waited for the entry
goes on. A LINK makes the walk read the first entry of the new list. A DATA entry with no bytes is passed at once: its
mark is recorded, END ends the exchange with LIST_SHORT, PAUSE closes the gate, so that the choice of the drain lapses
or the frame ends, and otherwise the next entry is read. The visit after the 4096th ends the exchange with LIST_LOOP. A
DATA entry with bytes is cached and its first piece placed, a drain write or a data read; where the piece reaches the
length inside an entry with NOTE, its mark is recorded. While 8 marks are queued a flagged entry waits: the drain's
choice lapses, and a fill stays FILLING or its frame ends before the entry. Marks whose points are reached act at once.
The gate is open, as it is whenever an entry is read. Logs 18 (an error before the mark just recorded), 19 (the last
piece waits for room for its mark) and 34 (the frame's end before a flagged entry) are the model's readings. -/
def Obligations.EntryReadFeedsDrain : Prop :=
  ∀ (s : State) (i : SlotId) (e e' : Exchange) (addr n done : Nat) (old bytes : List Byte)
    (o : Host.Outcome State Fault Refusal),
    s.ending ⟨.entryRead i (s.gen i), addr, n, old⟩ → s.ex i = some e → e.state ≠ .retiring → bytes.length = 16 →
    e' = { e with transfers := e.transfers - 1 } → o = exec (.entryReadDone bytes) s →
    done = (if e.role = .originator ∧ e.dir = .push ∨ e.role = .responder ∧ e.dir = .pull then e.acknowledged
      else e.drained) →
    (byteAt bytes 8 ≠ 0x01 ∧ byteAt bytes 8 ≠ 0x02 ∨
        byteAt bytes 8 = 0x02 ∧ (byteAt bytes 9 &&& 0x07 ≠ 0 ∨ (le32 bytes 0).toNat % 16 ≠ 0) →
      ∃ u : State, State.Ends (s.portFree.setEx i (some e')) u i e' (.failed .listBad none) (some .listBad) ∧
        o = .next u) ∧
    (e.walk.gate = none →
      ∀ (d : Entry) (ec : Exchange), d = ⟨le32 bytes 0, (le24 bytes 4).toNat, (byteAt bytes 9).getLsbD 0,
          (byteAt bytes 9).getLsbD 1, (byteAt bytes 9).getLsbD 2⟩ →
        ec = { e' with walk := { e.walk with cached := some d, inEntry := 0 } } →
      (∀ (r t : State) (e2 e3 : Exchange) (m : List Mark) (base : Word) (index : Nat),
        (e.state ≠ .sending ∧ (∃ g, s.stg.drain = .choosing i g) ∧
            r = { s.portFree with stg := { s.stg with drain := .choosing i (s.gen i) } } ∧
            t = { s.portFree with stg := { s.stg with drain := .idle } } ∨
          (∀ g, s.stg.drain ≠ .choosing i g) ∧ (∃ b v, s.fills i e b v) ∧ r = s.portFree ∧ t = s.portFree) →
        (byteAt bytes 8 = 0x02 ∧ byteAt bytes 9 &&& 0x07 = 0 ∧ (le32 bytes 0).toNat % 16 = 0 ∧ m = [] ∧
            base = le32 bytes 0 ∧ index = 0 ∨
          byteAt bytes 8 = 0x01 ∧ d.len = 0 ∧ d.fin = false ∧ d.pause = false ∧
            m = (if d.note then [⟨e.walk.base, e.walk.index, e.walk.offset, true, false⟩] else []) ∧
            (d.note = true → e.walk.marks.length < 8) ∧ base = e.walk.base ∧ index = e.walk.index + 1) →
        e2 = { e' with walk := { e.walk with
          base := base, index := index, inEntry := 0, cached := none, marks := e.walk.marks ++ m } } →
        e3 = { e2 with transfers := e'.transfers + 1, walk := { e2.walk with visited := e.walk.visited + 1 } } →
        (e.walk.visited < 4096 →
          (State.requested ⟨.entryRead i (s.gen i), base.toNat + 16 * index, 16, []⟩
            (r.setEx i (some e3))).MarksSettled i e3 done o) ∧
        (4096 ≤ e.walk.visited →
          ∃ u : State, State.Ends (t.setEx i (some e2)) u i e2 (.failed .listLoop none) (some .listLoop) ∧ o = .next u)) ∧
      (∀ (e2 : Exchange) (m : List Mark), byteAt bytes 8 = 0x01 → d.len = 0 →
        m = (if d.note = true ∨ d.pause = true then [⟨e.walk.base, e.walk.index, e.walk.offset, d.note, d.pause⟩]
          else []) →
        e2 = { e' with walk := { e.walk with
          index := e.walk.index + 1, inEntry := 0, cached := none, marks := e.walk.marks ++ m,
          gate := if d.pause then some e.walk.offset else none } } →
        ∀ t : State, t = { s.portFree with stg := { s.stg with drain := .idle } } →
        (e.state ≠ .sending → (∃ g, s.stg.drain = .choosing i g) →
          (m ≠ [] → 8 ≤ e.walk.marks.length → (t.setEx i (some ec)).MarksSettled i ec done o) ∧
          (m = [] ∨ e.walk.marks.length < 8 →
            (d.fin = true → ∃ u : State,
              State.Ends (t.setEx i (some e2)) u i e2 (.failed .listShort none) (some .listShort) ∧ o = .next u) ∧
            (d.fin = false → d.pause = true → (t.setEx i (some e2)).MarksSettled i e2 done o))) ∧
        (∀ b v, (∀ g, s.stg.drain ≠ .choosing i g) → s.fills i e b v →
          (∀ m0 rest, m ≠ [] → 8 ≤ e.walk.marks.length → e.walk.marks = m0 :: rest →
            (m0.point ≤ v.offset → (s.portFree.setEx i (some ec)).MarksSettled i ec done o) ∧
            (v.offset < m0.point →
              ((s.portFree.setEx i (some ec)).setBuffer b (some { v with state := .ready })).MarksSettled i ec done o)) ∧
          (m = [] ∨ e.walk.marks.length < 8 →
            (d.fin = true → ∃ u : State,
              State.Ends (s.portFree.setEx i (some e2)) u i e2 (.failed .listShort none) (some .listShort) ∧
                o = .next u) ∧
            (d.fin = false → d.pause = true →
              ((s.portFree.setEx i (some e2)).setBuffer b
                (if e.prepared = v.offset then none else some { v with state := .ready })).MarksSettled i e2 done o)))) ∧
      (∀ (c upto : Nat) (m : List Mark), byteAt bytes 8 = 0x01 → 0 < d.len → c = min (upto - e.walk.offset) d.len →
        m = (if e.walk.offset + c = e.length ∧ d.note = true then
          [⟨e.walk.base, e.walk.index, e.walk.offset + c, true, false⟩] else []) →
        (e.state ≠ .sending → (∃ g, s.stg.drain = .choosing i g) →
          upto = min e.received ((e.drained / 256 + 1) * 256) →
          (m ≠ [] → 8 ≤ e.walk.marks.length → ∀ t : State,
            t = { s.portFree.setEx i (some ec) with stg := { s.stg with drain := .idle } } → t.MarksSettled i ec done o) ∧
          (∀ k x e2, m = [] ∨ e.walk.marks.length < 8 → s.findCell i (e.drained / 256) = some k → s.cell k = some x →
            e2 = { ec with transfers := e'.transfers + 1, walk := { ec.walk with
              inEntry := c, offset := e.walk.offset + c, marks := e.walk.marks ++ m } } →
            (State.requested ⟨.drainWrite i (s.gen i) k, d.addr.toNat, c, (x.bytes.drop (e.drained % 256)).take c⟩
              { s.portFree.setEx i (some e2) with
                stg := { s.stg with drain := .writing i (s.gen i) k } }).MarksSettled i e2 done o)) ∧
        (∀ b v, (∀ g, s.stg.drain ≠ .choosing i g) → s.fills i e b v → upto = v.ceiling →
          (∀ m0 rest, m ≠ [] → 8 ≤ e.walk.marks.length → e.walk.marks = m0 :: rest →
            (m0.point ≤ v.offset → (s.portFree.setEx i (some ec)).MarksSettled i ec done o) ∧
            (v.offset < m0.point →
              ((s.portFree.setEx i (some ec)).setBuffer b (some { v with state := .ready })).MarksSettled i ec done o)) ∧
          (∀ e2, m = [] ∨ e.walk.marks.length < 8 →
            e2 = { ec with transfers := e'.transfers + 1, prepared := e.prepared + c, walk := { ec.walk with
              inEntry := c, offset := e.walk.offset + c, marks := e.walk.marks ++ m } } →
            (State.requested ⟨.dataRead i (s.gen i) b, d.addr.toNat, c, []⟩
              (s.portFree.setEx i (some e2))).MarksSettled i e2 done o))))

/-- FILL_START serves the eligible exchanges in turn: the lowest FREE buffer is taken from bytes prepared up to the
ceiling, and the walk is asked for its bytes. DATA_READ_DONE: the bytes join the payload; at its ceiling the buffer is
READY, and below it the walk is asked again; a DISCARDING buffer becomes FREE. The walk's answer is that of its rules: a
piece of the cached entry or the next entry is read, an exhausted entry is passed with its mark recorded, END and the
visit after the 4096th end the exchange, the gate ends the frame, and a full list of marks makes the fill wait, or ends
its frame where every mark's point lies inside it. Marks whose points are reached act. Logs 18 (an error before the mark
just recorded), 19 (the last piece waits for room for its mark) and 34 (the frame's end before a flagged entry) are the
model's readings. -/
def Obligations.FillMakesBufferReady : Prop :=
  (∀ (s : State) (i : SlotId), s.fillEligible i = true ↔
    ∃ e, s.ex i = some e ∧ e.state = .sending ∧ e.localPause = false ∧
      ((List.finRange 4).filter fun b => (s.buffer b).any fun v => v.slot == i && v.gen == s.gen i).length < 2 ∧
      (∀ b v, s.buffer b = some v → v.slot = i → v.gen = s.gen i → v.state ≠ .filling) ∧
      e.prepared < e.creditReceived ∧ e.prepared < e.length ∧ ∀ g, e.walk.gate = some g → e.prepared < g) ∧
  (∀ (s : State) (i : SlotId) (e : Exchange) (b : BufId) (top : Nat), s.runs = true →
    inTurn s.fillEligible s.fbd.lastFill i → s.ex i = some e → s.buffer b = none → (∀ b', b' < b → s.buffer b' ≠ none) →
    top = min (min ((e.prepared / 256 + 1) * 256) e.creditReceived) e.length →
    ∀ t : State, t = { s.setBuffer b (some ⟨.filling, i, s.gen i, e.prepared, top, []⟩) with
        fbd := { (s.setBuffer b (some ⟨.filling, i, s.gen i, e.prepared, top, []⟩)).fbd with lastFill := i } } →
      (e.walk.gate = none → e.walk.marks = [] → e.walk.cached = none → e.walk.visited < 4096 →
        exec .fillStart s = .next (State.requested
          ⟨.entryRead i (s.gen i), e.walk.base.toNat + 16 * e.walk.index, 16, []⟩
          (t.setEx i (some { e with
            walk := { e.walk with visited := e.walk.visited + 1 }, transfers := e.transfers + 1 })))) ∧
      (∀ d c, e.walk.gate = none → e.walk.marks = [] → e.walk.cached = some d → d.note = false → e.walk.inEntry < d.len →
        c = min (top - e.walk.offset) (d.len - e.walk.inEntry) →
        exec .fillStart s = .next (State.requested
          ⟨.dataRead i (s.gen i) b, d.addr.toNat + e.walk.inEntry, c, []⟩
          (t.setEx i (some { e with
            walk := { e.walk with inEntry := e.walk.inEntry + c, offset := e.walk.offset + c },
            prepared := e.prepared + c, transfers := e.transfers + 1 })))) ∧
      (∀ w a done, e.walk.Answers e.length top w a →
        done = (if e.role = .originator ∧ e.dir = .push ∨ e.role = .responder ∧ e.dir = .pull then e.acknowledged
          else e.drained) →
        t.FillStep i b ⟨.filling, i, s.gen i, e.prepared, top, []⟩ e w
          (fun x e' => x.MarksSettled i e' done (exec .fillStart s)) (exec .fillStart s) a)) ∧
  ∀ (s : State) (i : SlotId) (e : Exchange) (b : BufId) (v : OutBuffer) (addr : Nat) (bytes old : List Byte),
    s.ending ⟨.dataRead i (s.gen i) b, addr, bytes.length, old⟩ → s.ex i = some e → s.buffer b = some v →
    (v.state = .discarding → exec (.dataReadDone bytes) s = .next
      ((s.portFree.setEx i (some { e with transfers := e.transfers - 1 })).setBuffer b none)) ∧
    (v.state = .filling → v.slot = i → v.gen = s.gen i → v.ceiling ≤ e.prepared → e.walk.marks = [] →
      exec (.dataReadDone bytes) s = .next ((s.portFree.setEx i (some { e with transfers := e.transfers - 1 })).setBuffer
        b (some { v with state := .ready, payload := v.payload ++ bytes }))) ∧
    (v.state = .filling → v.slot = i → v.gen = s.gen i → ∀ (e' : Exchange) (v' : OutBuffer) (done : Nat),
      e' = { e with transfers := e.transfers - 1 } → v' = { v with payload := v.payload ++ bytes } →
      done = (if e.role = .originator ∧ e.dir = .push ∨ e.role = .responder ∧ e.dir = .pull then e.acknowledged
        else e.drained) →
      (v.ceiling ≤ e.prepared →
        ((s.portFree.setEx i (some e')).setBuffer b (some { v' with state := .ready })).MarksSettled i e' done
          (exec (.dataReadDone bytes) s)) ∧
      (∀ w a, e.prepared < v.ceiling → e.state ≠ .retiring → e.walk.Answers e.length v.ceiling w a →
        ((s.portFree.setEx i (some e')).setBuffer b (some v')).FillStep i b v' e' w
          (fun x y => x.MarksSettled i y done (exec (.dataReadDone bytes) s)) (exec (.dataReadDone bytes) s) a))

/-- DRAIN_CHOOSE serves the drainable exchanges in turn, those with bytes to drain and no local pause whose walk can go
on. The walk's answer is that of its rules: the write of the next piece is placed from the cell that holds bytes
drained, or the read of the next entry, an exhausted one having been passed with its mark recorded; at a gate that
closes or a full list of marks the choice lapses; END and the visit after the 4096th end the exchange. DRAIN_WRITE_DONE:
bytes drained rises, the NOTE and PAUSE marks whose points are reached act, a cell whose range is passed becomes FREE,
and the DONE of a receiver in FINISHING is placed at the end; at a RETIRING slot only the cell is freed. That an
exchange whose walk stands at an exhausted entry with PAUSE counts as drainable is DEDUCED (log 33); logs 18 (an error
before the mark just recorded) and 19 (the last piece waits for room for its mark) are the model's readings. -/
def Obligations.DrainMovesBytes : Prop :=
  (∀ (s : State) (i : SlotId) (e : Exchange), s.ex i = some e → e.walk.gate = none → e.walk.marks.length < 8 →
    (s.drainable i = true ↔
      (e.state = .receiving ∨ e.state = .finishing) ∧ e.localPause = false ∧ e.drained < e.received)) ∧
  (∀ (s : State) (i : SlotId) (e : Exchange), s.ex i = some e → (s.drainable i = true ↔
    (e.state = .receiving ∨ e.state = .finishing) ∧ e.localPause = false ∧ e.drained < e.received ∧
      ∀ w a, e.walk.Answers e.length (min e.received ((e.drained / 256 + 1) * 256)) w a →
        a ≠ .wait ∧ (a = .gate → e.walk.gate ≠ some e.walk.offset))) ∧
  (∀ (s : State) (i : SlotId) (e : Exchange), s.runs = true → s.stg.drain = .idle →
    inTurn s.drainable s.stg.lastDrain i → s.ex i = some e →
    (e.walk.gate = none → e.walk.marks = [] → e.walk.cached = none → e.walk.visited < 4096 →
      exec .drainChoose s = .next (State.requested
        ⟨.entryRead i (s.gen i), e.walk.base.toNat + 16 * e.walk.index, 16, []⟩
        { s.setEx i (some { e with
            walk := { e.walk with visited := e.walk.visited + 1 }, transfers := e.transfers + 1 }) with
          stg := { s.stg with lastDrain := i, drain := .choosing i (s.gen i) } })) ∧
    (∀ d c k x, e.walk.gate = none → e.walk.marks = [] → e.walk.cached = some d → d.note = false →
      e.walk.inEntry < d.len → c = min (min e.received ((e.drained / 256 + 1) * 256) - e.walk.offset) (d.len - e.walk.inEntry) →
      s.findCell i (e.drained / 256) = some k → s.cell k = some x →
      exec .drainChoose s = .next (State.requested
        ⟨.drainWrite i (s.gen i) k, d.addr.toNat + e.walk.inEntry, c, (x.bytes.drop (e.drained % 256)).take c⟩
        { s.setEx i (some { e with
            walk := { e.walk with inEntry := e.walk.inEntry + c, offset := e.walk.offset + c },
            transfers := e.transfers + 1 }) with
          stg := { s.stg with lastDrain := i, drain := .writing i (s.gen i) k } })) ∧
    (∀ w a done, e.walk.Answers e.length (min e.received ((e.drained / 256 + 1) * 256)) w a →
      done = (if e.role = .originator ∧ e.dir = .push ∨ e.role = .responder ∧ e.dir = .pull then e.acknowledged
        else e.drained) →
      ({ s with stg := { s.stg with lastDrain := i } } : State).DrainStep i e w done (exec .drainChoose s) a)) ∧
  ∀ (s : State) (i : SlotId) (e : Exchange) (k : CellId) (x : Cell) (addr n : Nat) (data : List Byte),
    s.ending ⟨.drainWrite i (s.gen i) k, addr, n, data⟩ → s.ex i = some e → s.cell k = some x →
    (e.state = .receiving ∨ e.state = .finishing → e.walk.marks = [] → s.ctrlOpen →
      (∀ y ∈ s.txq.ctrl, y.owner = .slot i (s.gen i) → ∀ m, y.frame.body ≠ .done m) →
      ∀ t : State, t = { s.portFree.setEx i (some { e with
          transfers := e.transfers - 1, drained := e.drained + n }) with
        stg := { s.stg with
          drain := .idle,
          cells :=
            if min ((x.index + 1) * 256) e.length ≤ e.drained + n then s.stg.cells.set k none else s.stg.cells } } →
      exec .drainWriteDone s = .next (
        if e.state = .finishing ∧ e.drained + n = e.length then
          t.enqueued ⟨e.peer, s.sn, e.role == Role.originator, e.tag, .done (BitVec.ofNat 24 e.length)⟩ (.slot i (s.gen i))
        else t)) ∧
    (e.state = .receiving ∨ e.state = .finishing → ∀ (e1 : Exchange) (t1 : State) (done : Nat),
      e1 = { e with transfers := e.transfers - 1, drained := e.drained + n } →
      t1 = { s.portFree.setEx i (some e1) with stg := { s.stg with drain := .idle } } →
      done = (if e.role = .originator ∧ e.dir = .push ∨ e.role = .responder ∧ e.dir = .pull then e.acknowledged
        else e.drained + n) →
      ∃ u : State, t1.MarksSettled i e1 done (.next u) ∧ ∀ v : State,
        v = (if min ((x.index + 1) * 256) e.length ≤ e.drained + n then u.setCell k none else u) →
        (¬(e.state = .finishing ∧ e.drained + n = e.length) → exec .drainWriteDone s = .next v) ∧
        (e.state = .finishing → e.drained + n = e.length → u.ctrlOpen →
          (∀ y ∈ u.txq.ctrl, y.owner = .slot i (s.gen i) → ∀ m, y.frame.body ≠ .done m) →
          exec .drainWriteDone s = .next (v.enqueued
            ⟨e.peer, s.sn, e.role == Role.originator, e.tag, .done (BitVec.ofNat 24 e.length)⟩ (.slot i (s.gen i))))) ∧
    (e.state = .retiring → x.state = .reclaiming →
      exec .drainWriteDone s = .next { s.portFree.setEx i (some { e with transfers := e.transfers - 1 }) with
        stg := { s.stg with drain := .idle, cells := s.stg.cells.set k none } })

/-- CREDIT_GRANT serves the eligible exchanges in turn: the limit rises by 256 for each of the lowest FREE cells that
becomes RESERVED, capped at the length; the QUIET timer starts where credit comes to be owed; the CREDIT is placed, or
the limit of a waiting one is raised. That the QUIET timer starts only where credit comes to be owed is DEDUCED (log
16). -/
def Obligations.CreditGranted : Prop :=
  (∀ (s : State) (i : SlotId), s.grantEligible i = true ↔
    ∃ e, s.ex i = some e ∧ e.state = .receiving ∧ e.localPause = false ∧ s.outstanding i < s.par.window ∧
      (e.granted + 255) / 256 < (e.length + 255) / 256) ∧
  (∀ (s : State) (i : SlotId) (e : Exchange) (k limit : Nat), s.runs = true → s.emptyCells ≠ [] →
    inTurn s.grantEligible s.stg.lastGrant i → s.ex i = some e → s.ctrlOpen →
    k = s.cellsGiven i ((e.length + 255) / 256 - (e.granted + 255) / 256) →
    limit = min (e.granted + 256 * k) e.length →
    ∃ cells : Vector (Option Cell) 64, s.Reserves cells i ((e.granted + 255) / 256) k ∧
      ∀ t : State, t = { s.setEx i (some (
            if e.granted ≤ e.received ∧ e.received < limit then s.quietStarted { e with granted := limit }
            else { e with granted := limit })) with
          stg := { s.stg with cells := cells, lastGrant := i } } →
        ((∀ y ∈ s.txq.ctrl, y.inSlot = false → y.owner = .slot i (s.gen i) → ∀ l, y.frame.body ≠ .credit l) →
          exec .creditGrant s = .next (t.enqueued
            ⟨e.peer, s.sn, e.role == Role.originator, e.tag, .credit (BitVec.ofNat 24 limit)⟩ (.slot i (s.gen i)))) ∧
        (∀ pre y post l, s.txq.ctrl = pre ++ y :: post → y.inSlot = false → y.owner = .slot i (s.gen i) →
          y.frame.body = .credit l →
          (∀ z ∈ pre ++ post, z.inSlot = false → z.owner = .slot i (s.gen i) → ∀ m, z.frame.body ≠ .credit m) →
          exec .creditGrant s = .next { t with txq := { t.txq with
            ctrl := pre ++ { y with frame := { y.frame with body := .credit (BitVec.ofNat 24 limit) } } :: post } })) ∧
  ∀ s : State, s.runs = true → (s.emptyCells = [] ∨ ∀ i, s.grantEligible i = false) → exec .creditGrant s = .next s

/-! ### Rescan, release and marks -/

/-- RESCAN in ONLINE walks the Pending List from the oldest entry on. Entries that no offer fits stay. The first that
a chosen offer holds is bound to it in the lowest FREE slot, and RECALL is placed; a chosen offer too small draws
ABORT(TOO_LONG) and SERVED(TOO_LONG). The walk goes on with the entries behind it: where none of them fits it ends,
and at the next that a chosen offer holds, with no slot FREE or the control queue full, it stops and is due again.
When a rescan that stops again waits for a control queue entry is the model's reading (log 14). -/
def Obligations.RescanBinds : Prop :=
  (∀ (s r u : State) (pre post : List Deferred) (d : Deferred) (i : SlotId) (o : OfferId) (v : Offer),
    s.runs = true → s.sct.station = .online → s.xen.rescanDue = true → s.xen.rescanAt = none →
    s.xen.deferred = pre ++ d :: post → (∀ x ∈ pre, s.matchOffer x.peer x.dir x.key = none) → s.freeSlot = some i →
    s.txq.ctrl.length < 15 → s.txq.owed = [] → s.txq.line = [.rescan] → s.rpt.queue.length < 8 →
    s.rpt.stationWaiting = [] → s.rpt.line = [] → s.matchOffer d.peer d.dir d.key = some o → s.offer o = some v →
    r = { s with
      xen := { s.xen with deferred := pre ++ post, rescanDue := false, rescanWaits := false },
      txq := { s.txq with line := [] } } →
    ((d.dir = .push ∧ d.size ≤ v.size ∨ d.dir = .pull ∧ v.size ≤ d.size) ∧
        (∀ x ∈ s.txq.ctrl, x.owner ≠ .slot i (s.gen i)) ∧ r.Binds u i o v d .recall ∨
      (d.dir = .push ∧ v.size < d.size ∨ d.dir = .pull ∧ d.size < v.size) ∧
        u = (r.enqueued ⟨d.peer, s.sn, false, d.tag, .abort .tooLong⟩ .nobody).reported
          (.served v.orderTag d.peer d.key 0 (.failed .tooLong none))) →
    ((∀ x ∈ post, u.matchOffer x.peer x.dir x.key = none) → exec .rescan s = .next u) ∧
    (∀ mid d' post' o' v', post = mid ++ d' :: post' → (∀ x ∈ mid, u.matchOffer x.peer x.dir x.key = none) →
      u.matchOffer d'.peer d'.dir d'.key = some o' → u.offer o' = some v' →
      (d'.dir = .push ∧ d'.size ≤ v'.size ∨ d'.dir = .pull ∧ v'.size ≤ d'.size) →
      (u.freeSlot = none ∨ 16 ≤ u.txq.ctrl.length) →
      exec .rescan s = .next { u with
        xen := { u.xen with rescanDue := true, rescanWaits := decide (16 ≤ u.txq.ctrl.length) },
        txq := { u.txq with line := [.rescan] } })) ∧
  (∀ s : State, s.runs = true → s.sct.station = .online → s.xen.rescanDue = true → s.xen.rescanAt = none →
    s.freeSlot ≠ none → s.txq.ctrl.length < 16 → s.txq.owed = [] → s.txq.line = [.rescan] →
    (∀ d ∈ s.xen.deferred, s.matchOffer d.peer d.dir d.key = none) →
    exec .rescan s = .next { s with
      xen := { s.xen with rescanDue := false, rescanWaits := false }, txq := { s.txq with line := [] },
      rpt := { s.rpt with line := s.rpt.line.filter (· != ReportClaim.rescan) } }) ∧
  ∀ s : State, s.runs = true → s.xen.rescanDue = false → s.xen.rescanAt = none → exec .rescan s = .next s

/-- SLOT_RELEASE of a RETIRING slot with its ABORT settled or not needed and no transfer left: its reports are queued,
its generation advances and it is FREE; the bound offer is OPEN again, or removed with CLOSED; ACKs that await the
release are due, a held head is examined again, and in ONLINE a rescan is due. No other slot is released. When the due
rescan begins to wait follows logs 12 and 14. -/
def Obligations.SlotReleased : Prop :=
  (∀ (s : State) (i : SlotId), s.runs = true →
    (∀ e r a why, s.ex i = some e → e.state = .retiring → e.outcome = some ⟨r, a, why⟩ →
      a = .owed ∨ a = .queued ∨ 0 < e.transfers) → exec (.slotRelease i) s = .next s) ∧
  ∀ (s : State) (i : SlotId) (e : Exchange) (r : Result) (a : AbortState) (why : Reason) (n : Nat), s.runs = true →
    s.ex i = some e → e.outcome = some ⟨r, a, why⟩ →
    n = (if r = .completed then e.length
      else if e.role = .originator ∧ e.dir = .push ∨ e.role = .responder ∧ e.dir = .pull then e.acknowledged
      else e.drained) →
    e.state = .retiring → (a = .settled ∨ a = .notNeeded) → e.transfers = 0 →
      ∀ (reports : List Report) (offers : Vector (Option Offer) 32) (order : List OfferId),
        (e.role = .originator ∧ e.offer = none ∧ offers = s.xen.offers ∧ order = s.xen.postOrder ∧
            reports = (match r with
              | .completed => [.finished e.orderTag n]
              | .failed c p => [.failed e.orderTag c p n]) ∨
          e.role = .responder ∧ ∃ o v, e.offer = some o ∧ s.offer o = some v ∧
            ∀ closed : Option CloseCause,
              closed = (if r = .completed ∧ v.standing = false then some .used
                else if v.state = .withdrawing i then some .withdrawn
                else none) → (v.state = .bound i ∨ v.state = .withdrawing i) ∧
              offers = s.xen.offers.set o (if closed = none then some { v with state := .openState } else none) ∧
              order = (if closed = none then s.xen.postOrder else s.xen.postOrder.filter (· ≠ o)) ∧
              reports = Report.served e.orderTag e.peer e.key n r ::
                (closed.toList.map fun c => .closed v.orderTag c)) →
        s.reportOpen reports.length →
        exec (.slotRelease i) s = .next { s with
          xen := { s.xen with
            slots := s.xen.slots.set i ⟨s.gen i + 1, none⟩, originOrder := s.xen.originOrder.filter (· != i),
            offers := offers, postOrder := order, rescanDue := s.xen.rescanDue || s.sct.station == .online,
            rescanWaits := s.xen.rescanWaits && s.freeSlot.isSome ||
              s.sct.station == .online && decide (16 ≤ s.txq.ctrl.length) },
          rpt := { s.rpt with queue := s.rpt.queue ++ reports },
          ord := { s.ord with
            acks := s.ord.acks.map fun x => if x.await = .release i (s.gen i) then { x with due := true } else x,
            head := match s.ord.head with
              | .record o .held => .record o .examine
              | h => h },
          txq := { s.txq with
            line := if s.sct.station = .online ∧ CtrlClaim.rescan ∉ s.txq.line then s.txq.line ++ [.rescan]
              else s.txq.line } }

/-- NOTE_MARK and PAUSE_MARK at the head mark, whose point is reached: it leaves the queue; NOTE queues a NOTE report
with its list base and index; PAUSE sets local pause, stops the timer, queues PAUSED and places a HOLD. Where several
NOTE marks are reached, they all act one after another, in entry order. They do so before a fill of the slot goes on:
one that waits at an exhausted END entry ends the exchange with LIST_SHORT, with all those reports in the queue. That it
drops the mark of that END entry itself, where the entry is flagged, is the model's reading (log 18). In general every
mark whose point is reached acts in its turn, a PAUSE behind NOTE marks too, one whose reports do not fit begins to
wait, and a fill that waited for room goes on as its walk answers. -/
def Obligations.MarksAct : Prop :=
  ∀ (c : Instr) (s : State) (i : SlotId) (e : Exchange) (done : Nat), s.runs = true → s.ex i = some e →
    done = (if e.role = .originator ∧ e.dir = .push ∨ e.role = .responder ∧ e.dir = .pull then e.acknowledged
      else e.drained) →
    (∀ m, e.walk.marks = [m] → (c = .noteMark i ∧ m.note = true ∨ c = .pauseMark i ∧ m.pause = true) →
      (m.point ≤ done → (∀ b v, s.buffer b = some v → v.slot = i → v.state ≠ .filling) →
        s.reportOpen (if m.note = true ∧ m.pause = true then 2 else 1) →
        (m.pause = false → exec c s = .next (State.reported (.note e.orderTag m.base m.index)
          (s.setEx i (some { e with walk := { e.walk with marks := [] } })))) ∧
        (m.pause = true → s.ctrlOpen →
          (∀ y ∈ s.txq.ctrl, y.owner = .slot i (s.gen i) → y.frame.body ≠ .hold) →
          exec c s = .next (State.enqueued ⟨e.peer, s.sn, e.role == Role.originator, e.tag, .hold⟩ (.slot i (s.gen i))
            { s.setEx i (some { e with
                walk := { e.walk with marks := [] }, localPause := true, timer := { e.timer with run := .stopped } }) with
              rpt := { s.rpt with queue := s.rpt.queue ++
                (if m.note then [.note e.orderTag m.base m.index] else []) ++ [.paused e.orderTag m.point] } }))) ∧
      (done < m.point → exec c s = .next s)) ∧
    (∀ ms rest, c = .noteMark i → e.walk.marks = ms ++ rest → ms ≠ [] → s.notesReached ms rest done →
      ((∀ b v, s.buffer b = some v → v.slot = i → v.state ≠ .filling) → exec c s = .next (s.noted i e ms rest)) ∧
      (∀ b v d, s.fills i e b v → e.state = .sending → e.transfers = 0 → e.walk.gate = none → e.walk.cached = some d →
        d.len ≤ e.walk.inEntry → d.fin = true → rest.length < 8 →
        ∃ w u, exec c s = .next u ∧
          State.Ends ((s.noted i e ms rest).setEx i (some { e with walk := w })) u i { e with walk := w }
            (.failed .listShort none) (some .listShort))) ∧
    (∀ m l, e.walk.marks = m :: l → (c = .noteMark i ∧ m.note = true ∨ c = .pauseMark i ∧ m.pause = true) →
      s.MarksSettled i e done (exec c s))

/-! ### Transmit choice, reports, the Local Memory Port, the end of a presence -/

/-- TRANSMIT_CHOICE: the oldest WAITING control frame goes first; without one, the buffer taken back, else the READY
buffer of the next slot in turn, the one with the lower offset of two; a DATA frame that has not begun is taken back
for a WAITING control frame. The buffer of an exchange that has ended is given up, taken back or not yet sent (log 35). -/
def Obligations.TransmitChoiceHandsOver : Prop :=
  ∀ s : State, s.onLane = true →
    (∀ pre c post, s.txq.ctrl = pre ++ c :: post → c.inSlot = false → (∀ x ∈ pre, x.inSlot = true) →
      (∀ k d n, c.frame.body ≠ .openReq k d n) →
      (s.lpt.tx = none → exec .transmitChoice s = .next { s with
        txq := { s.txq with ctrl := pre ++ { c with inSlot := true } :: post },
        lpt := { s.lpt with tx := some ⟨.ctrl, c.frame, 0, false⟩ } }) ∧
      (∀ b v f n, s.lpt.tx = some ⟨.data b, f, n, false⟩ → s.lpt.phase ≠ .won → s.buffer b = some v →
        (∀ e, s.ex v.slot = some e → e.state ≠ .retiring → v.gen = s.gen v.slot →
          exec .transmitChoice s = .next { s.setBuffer b (some { v with state := .ready }) with
            txq := { s.txq with ctrl := pre ++ { c with inSlot := true } :: post, takenBack := some b },
            lpt := { s.lpt with tx := some ⟨.ctrl, c.frame, 0, false⟩ } }) ∧
        ((∀ e, s.ex v.slot = some e → v.gen = s.gen v.slot → e.state = .retiring) →
          exec .transmitChoice s = .next { s.setBuffer b none with
            txq := { s.txq with ctrl := pre ++ { c with inSlot := true } :: post },
            lpt := { s.lpt with tx := some ⟨.ctrl, c.frame, 0, false⟩ } }))) ∧
    (∀ b v, s.lpt.tx = none → (∀ c ∈ s.txq.ctrl, c.inSlot = true) → s.sct.station ≠ .fault → s.buffer b = some v →
      s.txq.takenBack = some b → (∀ e, s.ex v.slot = some e → v.gen = s.gen v.slot → e.state = .retiring) →
      exec .transmitChoice s = .next { s.setBuffer b none with txq := { s.txq with takenBack := none } }) ∧
    (∀ pre c post i e k d n, s.txq.ctrl = pre ++ c :: post → c.inSlot = false → (∀ x ∈ pre, x.inSlot = true) →
      c.frame.body = .openReq k d n → c.owner = .slot i (s.gen i) → s.ex i = some e → s.lpt.tx = none →
      exec .transmitChoice s = .next { s.setEx i (some { e with openHanded := true }) with
        txq := { s.txq with ctrl := pre ++ { c with inSlot := true } :: post },
        lpt := { s.lpt with tx := some ⟨.ctrl, c.frame, 0, false⟩ } }) ∧
    (∀ b v e, s.lpt.tx = none → (∀ c ∈ s.txq.ctrl, c.inSlot = true) → s.sct.station ≠ .fault → s.buffer b = some v →
      s.ex v.slot = some e → e.state ≠ .retiring → v.gen = s.gen v.slot →
      ∀ t : State, t = { s.setBuffer b (some { v with state := .sending }) with
        lpt := { s.lpt with tx := some ⟨.data b, ⟨e.peer, s.sn, e.role == .originator, e.tag,
          .data (BitVec.ofNat 24 v.offset) (BitVec.ofNat 16 v.payload.length) v.payload⟩, 0, false⟩ } } →
      (s.txq.takenBack = some b →
        exec .transmitChoice s = .next { t with txq := { t.txq with takenBack := none } }) ∧
      (s.txq.takenBack = none → v.state = .ready →
        (∀ b' v', s.buffer b' = some v' → v'.state = .ready → v'.slot = v.slot → v'.gen = v.gen → b' ≠ b →
          v.offset < v'.offset) →
        (∀ k : SlotId, k < v.slot - s.txq.lastTx - 1 → ∀ b' v', s.buffer b' = some v' → v'.state = .ready →
          v'.slot = s.txq.lastTx + 1 + k → v'.gen ≠ s.gen v'.slot) →
        exec .transmitChoice s = .next { t with txq := { t.txq with lastTx := v.slot } }))

/-- CONTROL_FRAME_PLACED gives a free entry to the ABORT owed longest, else to the claimant that began waiting first:
a due frame, a CREDIT, the ABORT of a pending entry, the inbox head's OPEN, a due rescan; in FAULT to the next fault
abort. While no entry is free or nobody waits it changes nothing. For the frame placed, a DATA frame in the transmit
slot that has not begun is taken back. One entry a command is the model's choice (log 13). Which claimants are passed
over is the model's reading (log 14), and so is that a CREDIT which finds a WAITING one of its slot, one that has
returned BUSY since, raises its limit and takes no entry (log 36). -/
def Obligations.FreedEntryGiven : Prop :=
  (∀ s : State, s.up = true → s.txq.ctrl.length < 16 → (∀ t, s.lpt.tx = some t → t.src = .ctrl) →
    (s.sct.station ≠ .fault →
      (∀ i rest e r a, s.txq.owed = i :: rest → s.ex i = some e → e.outcome = some ⟨r, .owed, a⟩ →
        exec .controlFramePlaced s = .next (State.enqueued
          ⟨e.peer, s.sn, e.role == Role.originator, e.tag, .abort a⟩ (.slot i (s.gen i))
          { s.setEx i (some { e with outcome := some ⟨r, .queued, a⟩ }) with
            txq := { s.txq with owed := rest } })) ∧
      (∀ f o rest, s.txq.owed = [] → s.txq.line = .frame f o :: rest →
        exec .controlFramePlaced s = .next (State.enqueued f o { s with txq := { s.txq with line := rest } })) ∧
      (∀ i e rest, s.txq.owed = [] → s.txq.line = .credit i :: rest → CtrlClaim.credit i ∉ rest → s.ex i = some e →
        (∀ y ∈ s.txq.ctrl, y.inSlot = false → y.owner = .slot i (s.gen i) → ∀ l, y.frame.body ≠ .credit l) →
        exec .controlFramePlaced s = .next (State.enqueued
          ⟨e.peer, s.sn, e.role == Role.originator, e.tag, .credit (BitVec.ofNat 24 e.granted)⟩ (.slot i (s.gen i))
          { s with txq := { s.txq with line := rest } })) ∧
      (∀ i e rest pre y post l, s.txq.owed = [] → s.txq.line = .credit i :: rest → CtrlClaim.credit i ∉ rest →
        s.ex i = some e → s.txq.ctrl = pre ++ y :: post → y.inSlot = false → y.owner = .slot i (s.gen i) →
        y.frame.body = .credit l →
        (∀ x ∈ pre ++ post, x.inSlot = false → x.owner = .slot i (s.gen i) → ∀ k, x.frame.body ≠ .credit k) →
        exec .controlFramePlaced s = .next { s with
          txq := { s.txq with
            ctrl := pre ++ { y with frame := { y.frame with body := .credit (BitVec.ofNat 24 e.granted) } } :: post,
            line := rest } }) ∧
      (∀ p tag rest, s.txq.owed = [] → s.txq.line = .pendingAbort p tag :: rest →
        CtrlClaim.pendingAbort p tag ∉ rest → s.xen.rescanAt = none →
        exec .controlFramePlaced s = .next (State.enqueued ⟨p, s.sn, false, tag, .abort .detaching⟩ .nobody
          { s with
            txq := { s.txq with line := rest },
            xen := { s.xen with deferred := s.xen.deferred.filter fun d => !(d.peer == p && d.tag == tag) } })) ∧
      (∀ rest, s.txq.owed = [] → s.txq.line = .inboxHead :: rest → s.headNeedsCtrl = true → s.headNeedsReport = false →
        exec .controlFramePlaced s = exec .openFrame s) ∧
      (∀ rest, s.txq.owed = [] → s.txq.line = .rescan :: rest → s.xen.rescanDue = true → s.xen.rescanWaits = true →
        s.xen.rescanAt = none → s.sct.station = .online → s.freeSlot ≠ none →
        exec .controlFramePlaced s = exec .rescan s) ∧
      (s.txq.owed = [] → s.txq.line = [] → exec .controlFramePlaced s = .next s)) ∧
    (s.sct.station = .fault →
      (∀ x rest, s.sct.present = true → s.sct.faultAborts = x :: rest →
        exec .controlFramePlaced s = .next (State.enqueued
          ⟨x.dst, s.sn, x.fromOrig, x.tag, .abort .stationFault⟩ .stationControl
          { s with sct := { s.sct with faultAborts := rest } })) ∧
      (s.sct.present = false ∨ s.sct.faultAborts = [] → exec .controlFramePlaced s = .next s))) ∧
  (∀ s : State, s.up = true → 16 ≤ s.txq.ctrl.length → (∀ t, s.lpt.tx = some t → t.src = .ctrl) →
    exec .controlFramePlaced s = .next s) ∧
  ∀ (s : State) (f : Frame) (o : Owner) (rest : List CtrlClaim) (b : BufId) (g : Frame) (n : Nat) (v : OutBuffer)
    (e : Exchange), s.runs = true → s.txq.ctrl = [] → s.txq.owed = [] → s.txq.line = .frame f o :: rest →
    (∀ k d m, f.body ≠ .openReq k d m) → s.lpt.tx = some ⟨.data b, g, n, false⟩ → s.lpt.phase ≠ .won →
    s.buffer b = some v → s.ex v.slot = some e → e.state ≠ .retiring → v.gen = s.gen v.slot →
    exec .controlFramePlaced s = .next { s.setBuffer b (some { v with state := .ready }) with
      txq := { s.txq with ctrl := [⟨f, o, 0, true⟩], line := rest, takenBack := some b },
      lpt := { s.lpt with tx := some ⟨.ctrl, f, 0, false⟩ } }

/-- The report path: a due status word goes before the head report, whose ring entry is written where the ring has room;
the entry's end places the producer word; its end advances the count and REPORT, and the freed entry is handed out, or
it enters FAULT behind STATION(FAULT, ORDER_READ); a status word's end places the further one that is due; a due ACK is
queued. The freed entry goes to a STATION report that waits, before every claimant; else to the claimant that began
waiting first: a due ACK, a refused head order, a CANCEL without a target, the inbox head's OPEN or a rescan at an offer
too small, a mark, a release, each of which acts as its own command does with nobody waiting; a PAUSE mark with NOTE
that lacks the second of its two entries lets nobody behind it be served. That the entry is handed out in that same step
is the model's choice, and that the one which STATION(FAULT, ORDER_READ) frees is handed to no claimant is DEDUCED (log
13); that the lane clear event of a CLR's pulse which is still driven comes before FAULT is DEDUCED (log 9). That the
entry's end places the producer word also while a status word write is due, which then follows it, is the model's choice
(log 40). -/
def Obligations.ReportPath : Prop :=
  (∀ s : State, s.runs = true → s.rpt.writer = .idle →
    (s.rpt.status = .due → exec .reportWriteStart s = .next (State.requested
      ⟨.statusWord, s.sct.startBlock.toNat + 0x30, 4, [s.sct.station.code, s.sct.faultCause.code, s.sn.setWidth 8, 0]⟩
      { s with rpt := { s.rpt with status := .inProgress false } })) ∧
    (∀ r rest, s.rpt.status = .none → s.rpt.queue = r :: rest →
      ((s.rpt.producer - s.rpt.release).toNat < s.par.reportSize.toNat →
        exec .reportWriteStart s = .next (State.requested
          ⟨.reportEntry, s.par.reportBase.toNat + 16 * (s.rpt.producer.toNat % s.par.reportSize.toNat), 16,
            r.bytes s.sn⟩ { s with rpt := { s.rpt with writer := .entry } })) ∧
      (s.par.reportSize.toNat ≤ (s.rpt.producer - s.rpt.release).toNat →
        exec .reportWriteStart s = .next s))) ∧
  (∀ (s : State) (q : Request), s.ending q →
    (q.purpose = .reportEntry → exec .reportEntryWriteDone s = .next (State.requested
      ⟨.producerWord, s.sct.startBlock.toNat + 0x2C, 4,
        [(s.rpt.producer + 1).extractLsb' 0 8, (s.rpt.producer + 1).extractLsb' 8 8, 0, 0]⟩
      { s.portFree with rpt := { s.rpt with writer := .index } })) ∧
    (∀ r rest, q.purpose = .producerWord → s.rpt.queue = r :: rest →
      (r ≠ .station .fault .orderRead → ∀ v : State, v = { s.portFree with rpt := { s.rpt with
          producer := s.rpt.producer + 1, queue := rest, writer := .idle,
          reportPin := s.rpt.producer + 1 != s.rpt.release } } →
        (s.rpt.stationWaiting = [] → s.rpt.line = [] → exec .producerWordWriteDone s = .next v) ∧
        (∀ w more, s.rpt.stationWaiting = w :: more → rest.length = 7 →
          (s.rpt.line = [] ∨ ∃ c others, s.rpt.line = c :: others ∧ s.keepsPlace c) →
          exec .producerWordWriteDone s = .next (State.reported (.station w.state w.cause) { v with
            rpt := { v.rpt with stationWaiting := more },
            ord := { s.ord with acks := s.ord.acks.map fun a =>
              if w.cause = .detached ∧ a.await = .offlineReport ∨
                w.cause = .laneCleared ∧ a.await = .clearReport w.event then { a with due := true } else a } })) ∧
        (∀ i others m e, s.rpt.stationWaiting = [] → s.rpt.line = .mark i :: others → rest.length = 7 →
          s.ex i = some e → e.walk.marks.head? = some m → m.note = true → m.pause = true →
          exec .producerWordWriteDone s = .next v) ∧
        (∀ c others, s.rpt.stationWaiting = [] → s.rpt.line = c :: others → c ∉ others → rest.length = 7 →
          (others = [] ∨ ∃ d more, others = d :: more ∧ s.keepsPlace d) →
          ∀ u : State, u = { v with rpt := { v.rpt with line := others } } →
          (∀ pre post a, c = .acks → s.ord.acks = pre ++ a :: post → a.due = true → (∀ x ∈ pre ++ post, x.due = false) →
            exec .producerWordWriteDone s = .next (State.reported (.ack a.tag a.kind true)
              { u with ord := { u.ord with acks := pre ++ post } })) ∧
          (∀ o why, c = .head → s.ord.head = .record o .report → s.takesOrders = true → s.ord.orderFault = false →
            (s.reasonToRefuse o = some why → exec .producerWordWriteDone s =
              .next ((u.reported (.failed o.tag why none 0)).orderTaken)) ∧
            (o.kind = 0x05 → s.exchangeTarget o.target = none → exec .producerWordWriteDone s =
              .next ((u.reported (.ack o.tag .cancel false)).orderTaken)))) ∧
        (∀ c u, s.rpt.stationWaiting = [] → s.rpt.line = [c] → u = { v with rpt := { v.rpt with line := [] } } →
          (∀ i e r a why, c = .release i → s.ex i = some e → e.state = .retiring → e.outcome = some ⟨r, a, why⟩ →
            (a = .settled ∨ a = .notNeeded) → e.transfers = 0 →
            rest.length + (if e.role = .originator then 1 else 2) ≤ 8 →
            exec .producerWordWriteDone s = exec (.slotRelease i) u) ∧
          (∀ i e m, c = .mark i → s.ex i = some e → e.walk.marks = [m] → m.point ≤ e.doneBytes →
            (m.note = true ∨ m.pause = true) → (∀ b x, s.buffer b = some x → x.slot = i → x.state ≠ .filling) →
            rest.length + (if m.note = true ∧ m.pause = true then 2 else 1) ≤ 8 →
            exec .producerWordWriteDone s = exec (if m.note then .noteMark i else .pauseMark i) u) ∧
          (c = .inboxHead → s.headNeedsReport = true → s.txq.ctrl.length < 16 → s.txq.owed = [] →
            (s.txq.line = [] ∨ s.txq.line = [.inboxHead]) → rest.length < 8 →
            exec .producerWordWriteDone s = exec .openFrame { u with txq := { u.txq with line := [] } }) ∧
          (∀ pre d post o x y w, c = .rescan → s.xen.rescanAt = some pre.length → s.sct.station = .online →
            s.xen.deferred = pre ++ d :: post → s.xen.rescanDue = false → s.xen.rescanWaits = false →
            s.txq.ctrl.length < 16 → s.txq.owed = [] → s.txq.line = [.rescan] → rest.length < 8 →
            s.matchOffer d.peer d.dir d.key = some o → s.offer o = some x →
            (d.dir = .push ∧ x.size < d.size ∨ d.dir = .pull ∧ d.size < x.size) →
            y = { u with
              xen := { u.xen with deferred := pre ++ post, rescanAt := none }, txq := { u.txq with line := [] } } →
            w = (y.enqueued ⟨d.peer, s.sn, false, d.tag, .abort .tooLong⟩ .nobody).reported
              (.served x.orderTag d.peer d.key 0 (.failed .tooLong none)) →
            (∀ z ∈ post, w.matchOffer z.peer z.dir z.key = none) →
            exec .producerWordWriteDone s = .next w))) ∧
      (r = .station .fault .orderRead → ∃ t : State, exec .producerWordWriteDone s = .next t ∧
        t.sct.station = .fault ∧ t.sct.faultCause = .orderRead ∧ t.sct.faultPin = true ∧
        t.rpt.producer = s.rpt.producer + 1 ∧
        (s.lpt.pins.lcl = false ∨ s.takesClear = false → t.rpt.queue = rest) ∧
        (s.lpt.pins.lcl = true → s.takesClear = true → rest.length < 8 → s.rpt.stationWaiting = [] →
          t.rpt.queue = rest ++ [.station s.sct.station .laneCleared] ∧ ∀ a ∈ s.ord.acks, a.await = .clearPulse →
            ∃ x ∈ t.ord.acks, x.tag = a.tag ∧ x.kind = a.kind ∧ x.due = true))) ∧
    (∀ further, q.purpose = .statusWord → s.rpt.status = .inProgress further →
      exec .statusWordWriteDone s = .next (
        if further then State.requested
          ⟨.statusWord, s.sct.startBlock.toNat + 0x30, 4,
            [s.sct.station.code, s.sct.faultCause.code, s.sn.setWidth 8, 0]⟩
          { s.portFree with rpt := { s.rpt with status := .inProgress false } }
        else { s.portFree with rpt := { s.rpt with status := .none } }))) ∧
  ∀ (s : State) (pre post : List AckEntry) (a : AckEntry), s.runs = true → s.ord.acks = pre ++ a :: post →
    a.due = true → (∀ x ∈ pre ++ post, x.due = false) → s.reportOpen 1 →
    exec .dueAckQueued s = .next (State.reported (.ack a.tag a.kind true)
      { s with ord := { s.ord with acks := pre ++ post } })

/-- LMP_CHOOSE_TRANSFER takes the waiting request of the client of highest priority, and of one client's the earliest;
one that would run past the top of the address space fails at once, and the port chooses again. A transfer's beats touch
its words in order and enable its bytes. BUS_ERROR: a transfer for an exchange ends it with LOCAL_ERROR; an order
transfer stops the taking of orders, with STATION(FAULT, ORDER_READ); a start read, report or status write enters FAULT
with its cause, and from ONLINE or DETACHING with the fault aborts of the live slots, in order, and of the pending
entries; where a CLR's pulse is still driven, its lane clear event comes first, and nothing is left to abort. That this
event comes before FAULT is DEDUCED (log 9). How the Order Unit's fields stand after a failed order transfer is DEDUCED
(log 26). That the bytes of a beat stand on lanes by their address is the model's reading (log 6), and that an index
write waiting for a failed ring words read is dropped is log 31. That the fault aborts still have to be placed when
FAULT is entered, each by a CONTROL_FRAME_PLACED, is the model's choice (log 13), and so is that the control queue is
left empty where the station was not attached, also of a PROBE IN_SLOT (log 38). -/
def Obligations.PortChoosesAndBusErrors : Prop :=
  (∀ (s : State) (l1 l2 : List Request) (r : Request), s.up = true → s.lmp.transfer = none →
    s.lmp.waiting = l1 ++ r :: l2 → (∀ x ∈ l1, r.purpose.client < x.purpose.client) →
    (∀ x ∈ l2, r.purpose.client ≤ x.purpose.client) → r.addr + r.count ≤ 2 ^ 32 →
    exec .lmpChooseTransfer s = .next { s with lmp := ⟨l1 ++ l2, some r, ⟨false, 0⟩⟩ }) ∧
  (∀ (s : State) (r : Request) (rest : List Request) (i : SlotId) (e e' : Exchange), s.runs = true →
    s.lmp.transfer = none → s.lmp.waiting = r :: rest → (∀ x ∈ rest, r.purpose.client ≤ x.purpose.client) →
    2 ^ 32 < r.addr + r.count → s.ex i = some e → e.state ≠ .retiring →
    e' = { e with transfers := e.transfers - 1 } →
    (r.purpose = .entryRead i (s.gen i) ∨
      (∃ b v, r.purpose = .dataRead i (s.gen i) b ∧ s.buffer b = some v ∧ v.slot = i ∧ v.gen = s.gen i) ∨
      ∃ k x, r.purpose = .drainWrite i (s.gen i) k ∧ s.cell k = some x ∧ x.slot = i ∧ x.gen = s.gen i) →
    ∃ u : State, State.Ends ({ s with lmp := { s.lmp with waiting := rest } }.setEx i (some e')) u i e'
        (.failed .localError none) (some .localError) ∧
      (u.lmp.waiting = [] → exec .lmpChooseTransfer s = .next u) ∧
      ∀ q, u.lmp.waiting = [q] → q.addr + q.count ≤ 2 ^ 32 →
        exec .lmpChooseTransfer s = .next { u with lmp := ⟨[], some q, ⟨false, 0⟩⟩ }) ∧
  (∀ (r : Request) (k : Nat), 0 < r.count →
    (r.beat k = none ↔ r.addr + r.count ≤ 4 * (r.addr / 4 + k)) ∧
    ∀ b, r.beat k = some b → b.addr = 4 * (r.addr / 4 + k) ∧
      ∀ j, j < 4 →
        (b.enables.getLsbD j = true ↔ r.addr ≤ b.addr + j ∧ b.addr + j < r.addr + r.count) ∧
        (b.data[j]? = some (if r.addr ≤ b.addr + j then r.data[b.addr + j - r.addr]? else none))) ∧
  (∀ (s : State) (r : Request) (i : SlotId) (e e' : Exchange), s.ending r → s.ex i = some e → e.state ≠ .retiring →
    e' = { e with transfers := e.transfers - 1 } →
    (r.purpose = .entryRead i (s.gen i) ∨
      (∃ b v, r.purpose = .dataRead i (s.gen i) b ∧ s.buffer b = some v ∧ v.slot = i ∧ v.gen = s.gen i) ∨
      ∃ k x, r.purpose = .drainWrite i (s.gen i) k ∧ s.cell k = some x ∧ x.slot = i ∧ x.gen = s.gen i) →
    ∃ u : State, State.Ends (s.portFree.setEx i (some e')) u i e' (.failed .localError none) (some .localError) ∧
      exec .busError s = .next u) ∧
  (∀ (s t : State) (r : Request), s.ending r → s.ord.orderFault = false → s.reportOpen 1 →
    (r.purpose = .orderFetch ∨ r.purpose = .indexWrite ∨ r.purpose = .ringWords) →
    t = { s.portFree with ord := { s.ord with
      head := if r.purpose = .orderFetch then .absent else s.ord.head,
      indexWrite := if r.purpose = .orderFetch then s.ord.indexWrite else false,
      ringRead := if r.purpose ≠ .ringWords then s.ord.ringRead
        else if s.ord.ringRead = .furtherDue then .inProgress
        else .idle } } →
    exec .busError s = .next (State.reported (.station .fault .orderRead) { t with
      ord := { t.ord with orderFault := true },
      lmp := { t.lmp with waiting := s.lmp.waiting ++ t.orderDue } })) ∧
  ∀ (s : State) (r : Request) (cause : FaultCause), s.ending r →
    (r.purpose = .startRecord ∧ cause = .startRead ∨
      (r.purpose = .reportEntry ∨ r.purpose = .producerWord) ∧ cause = .reportWrite ∨
      r.purpose = .statusWord ∧ cause = .statusWrite) →
    ∃ t : State, exec .busError s = .next t ∧ t.stopped ∧ t.sct.faultCause = cause ∧
      t.sct.faultPin = true ∧ t.rpt.producer = s.rpt.producer ∧ t.xen.offers = s.xen.offers ∧
      t.rpt.status = .inProgress false ∧
      t.lmp = ⟨[⟨.statusWord, s.sct.startBlock.toNat + 0x30, 4, [0x02, cause.code, s.sn.setWidth 8, 0x00]⟩], none,
        ⟨false, 0⟩⟩ ∧
      (s.lpt.pins.lcl = true → s.sct.station = .online ∨ s.sct.station = .detaching → s.reportOpen 1 →
        t.sct.present = true ∧ t.txq.ctrl = [] ∧ t.lpt.tx = none ∧ t.sct.faultAborts = [] ∧
        t.rpt.queue = s.rpt.queue ++ [.station s.sct.station .laneCleared] ∧
        ∀ a ∈ s.ord.acks, a.await = .clearPulse → ∃ x ∈ t.ord.acks, x.tag = a.tag ∧ x.kind = a.kind ∧ x.due = true) ∧
      (s.lpt.pins.lcl = false → s.sct.station = .online ∨ s.sct.station = .detaching →
        t.rpt.queue = s.rpt.queue ∧ t.sct.present = true ∧ t.txq.ctrl = s.txq.ctrl.filter (·.inSlot) ∧
        t.sct.faultAborts =
          (List.finRange 16).filterMap (fun i =>
            match s.ex i with
            | none => none
            | some e => if e.state = .retiring then none else some ⟨e.peer, e.tag, e.role == Role.originator⟩) ++
          s.xen.deferred.map fun d => ⟨d.peer, d.tag, false⟩) ∧
      (s.lpt.pins.lcl = false → s.sct.station ≠ .online → s.sct.station ≠ .detaching →
        t.rpt.queue = s.rpt.queue ∧ t.sct.present = false ∧ t.txq.ctrl = [] ∧ t.lpt.tx = none ∧ t.sct.faultAborts = [])

/-- DETACH_COMPLETE in DETACHING with nothing live, pending, queued or due: the station leaves the lane and is OFFLINE,
and STATION(OFFLINE, DETACHED) is queued, which its DETACH's ACK awaits; where a CLR's pulse is still driven, the step
is that of the station after its LANE_CLEAR, and the CLR's ACK is due. PRESENCE_END in FAULT with every fault abort
settled: the station leaves the lane. Before that neither changes anything, and a frame still due outside the queue
holds a detach up too. That a station leaving the lane goes to the lane's idle phase from any phase, also from another
station's tenure or acknowledge slot, is the model's (log 29). That the lane clear event of a CLR's pulse comes before
the station is OFFLINE is DEDUCED (log 9). -/
def Obligations.DetachAndPresenceEnd : Prop :=
  (∀ s : State, s.up = true → s.sct.station = .detaching →
    (s.reportOpen 1 → (∀ i, s.ex i = none) → s.xen.deferred = [] → s.txq.ctrl = [] → s.txq.owed = [] →
      (∀ c ∈ s.txq.line, c = .rescan) → s.lpt.tx = none → s.lpt.inbox = [] →
      (s.lpt.pins.lcl = true → s.rpt.queue.length < 7 → ∃ u t : State,
        exec .laneClear s = .next u ∧ exec .detachComplete u = .next t ∧ exec .detachComplete s = .next t ∧
        t.rpt.queue = s.rpt.queue ++ [.station .detaching .laneCleared, .station .offline .detached] ∧
        ∀ a ∈ s.ord.acks, a.await = .clearPulse → ∃ x ∈ t.ord.acks, x.tag = a.tag ∧ x.kind = a.kind ∧ x.due = true) ∧
      (s.lpt.pins.lcl = false → exec .detachComplete s = .next { s with
        sct := { s.sct with station := .offline, faultPin := false },
        lpt := { s.lpt with phase := .idle, pins := ⟨none, false, [], none, false⟩ },
        ord := { s.ord with acks := s.ord.acks.map fun a => if a.await = .offlineReport then { a with due := true } else a },
        rpt := { s.rpt with queue := s.rpt.queue ++ [.station .offline .detached], status := s.statusAfter },
        lmp := { s.lmp with waiting := s.lmp.waiting ++ s.statusPlaced .offline } })) ∧
    ((∃ i, s.ex i ≠ none) ∨ s.xen.deferred ≠ [] ∨ s.txq.ctrl ≠ [] ∨ s.txq.owed ≠ [] ∨
        (∃ c ∈ s.txq.line, c ≠ .rescan ∧ c ≠ .inboxHead) ∨ s.lpt.tx ≠ none ∨ s.lpt.inbox ≠ [] → exec .detachComplete s = .next s)) ∧
  ∀ s : State, s.up = true → s.sct.station = .fault →
    (s.sct.present = true → s.sct.faultAborts = [] → (∀ c ∈ s.txq.ctrl, c.owner ≠ .stationControl) → s.lpt.tx = none →
      exec .presenceEnd s = .next { s with
        sct := { s.sct with present := false },
        lpt := { s.lpt with phase := .idle, pins := ⟨none, false, [], none, s.lpt.pins.lcl⟩ } }) ∧
    (s.sct.present = false ∨ s.sct.faultAborts ≠ [] ∨ (∃ c ∈ s.txq.ctrl, c.owner = .stationControl) ∨
      s.lpt.tx ≠ none → exec .presenceEnd s = .next s)

end
end

