-- ==== Sys2Proof/Laws/State.lean ====
section
/-!
SUPPORT. The small lemmas of the updates of State: which blocks an update leaves, by rfl, and what a read after a write
gives.
-/

namespace Sys2Proof.Machine.State

/-! ### Blocks an update leaves -/

@[simp] theorem setEx_sct (i : SlotId) (e : Option Exchange) (s : State) : (s.setEx i e).sct = s.sct := rfl
@[simp] theorem setEx_fbd (i : SlotId) (e : Option Exchange) (s : State) : (s.setEx i e).fbd = s.fbd := rfl
@[simp] theorem setEx_stg (i : SlotId) (e : Option Exchange) (s : State) : (s.setEx i e).stg = s.stg := rfl
@[simp] theorem setEx_txq (i : SlotId) (e : Option Exchange) (s : State) : (s.setEx i e).txq = s.txq := rfl
@[simp] theorem setEx_lpt (i : SlotId) (e : Option Exchange) (s : State) : (s.setEx i e).lpt = s.lpt := rfl
@[simp] theorem setEx_ord (i : SlotId) (e : Option Exchange) (s : State) : (s.setEx i e).ord = s.ord := rfl
@[simp] theorem setEx_rpt (i : SlotId) (e : Option Exchange) (s : State) : (s.setEx i e).rpt = s.rpt := rfl
@[simp] theorem setEx_lmp (i : SlotId) (e : Option Exchange) (s : State) : (s.setEx i e).lmp = s.lmp := rfl
@[simp] theorem setEx_pending (i : SlotId) (e : Option Exchange) (s : State) :
    (s.setEx i e).pending = s.pending := rfl

@[simp] theorem setOffer_sct (o : OfferId) (v : Option Offer) (s : State) : (s.setOffer o v).sct = s.sct := rfl
@[simp] theorem setOffer_fbd (o : OfferId) (v : Option Offer) (s : State) : (s.setOffer o v).fbd = s.fbd := rfl
@[simp] theorem setOffer_stg (o : OfferId) (v : Option Offer) (s : State) : (s.setOffer o v).stg = s.stg := rfl
@[simp] theorem setOffer_txq (o : OfferId) (v : Option Offer) (s : State) : (s.setOffer o v).txq = s.txq := rfl
@[simp] theorem setOffer_lpt (o : OfferId) (v : Option Offer) (s : State) : (s.setOffer o v).lpt = s.lpt := rfl
@[simp] theorem setOffer_ord (o : OfferId) (v : Option Offer) (s : State) : (s.setOffer o v).ord = s.ord := rfl
@[simp] theorem setOffer_rpt (o : OfferId) (v : Option Offer) (s : State) : (s.setOffer o v).rpt = s.rpt := rfl
@[simp] theorem setOffer_lmp (o : OfferId) (v : Option Offer) (s : State) : (s.setOffer o v).lmp = s.lmp := rfl
@[simp] theorem setOffer_pending (o : OfferId) (v : Option Offer) (s : State) :
    (s.setOffer o v).pending = s.pending := rfl

@[simp] theorem setBuffer_sct (b : BufId) (v : Option OutBuffer) (s : State) : (s.setBuffer b v).sct = s.sct := rfl
@[simp] theorem setBuffer_xen (b : BufId) (v : Option OutBuffer) (s : State) : (s.setBuffer b v).xen = s.xen := rfl
@[simp] theorem setBuffer_stg (b : BufId) (v : Option OutBuffer) (s : State) : (s.setBuffer b v).stg = s.stg := rfl
@[simp] theorem setBuffer_txq (b : BufId) (v : Option OutBuffer) (s : State) : (s.setBuffer b v).txq = s.txq := rfl
@[simp] theorem setBuffer_lpt (b : BufId) (v : Option OutBuffer) (s : State) : (s.setBuffer b v).lpt = s.lpt := rfl
@[simp] theorem setBuffer_ord (b : BufId) (v : Option OutBuffer) (s : State) : (s.setBuffer b v).ord = s.ord := rfl
@[simp] theorem setBuffer_rpt (b : BufId) (v : Option OutBuffer) (s : State) : (s.setBuffer b v).rpt = s.rpt := rfl
@[simp] theorem setBuffer_lmp (b : BufId) (v : Option OutBuffer) (s : State) : (s.setBuffer b v).lmp = s.lmp := rfl
@[simp] theorem setBuffer_pending (b : BufId) (v : Option OutBuffer) (s : State) :
    (s.setBuffer b v).pending = s.pending := rfl

@[simp] theorem setCell_sct (c : CellId) (v : Option Cell) (s : State) : (s.setCell c v).sct = s.sct := rfl
@[simp] theorem setCell_xen (c : CellId) (v : Option Cell) (s : State) : (s.setCell c v).xen = s.xen := rfl
@[simp] theorem setCell_fbd (c : CellId) (v : Option Cell) (s : State) : (s.setCell c v).fbd = s.fbd := rfl
@[simp] theorem setCell_txq (c : CellId) (v : Option Cell) (s : State) : (s.setCell c v).txq = s.txq := rfl
@[simp] theorem setCell_lpt (c : CellId) (v : Option Cell) (s : State) : (s.setCell c v).lpt = s.lpt := rfl
@[simp] theorem setCell_ord (c : CellId) (v : Option Cell) (s : State) : (s.setCell c v).ord = s.ord := rfl
@[simp] theorem setCell_rpt (c : CellId) (v : Option Cell) (s : State) : (s.setCell c v).rpt = s.rpt := rfl
@[simp] theorem setCell_lmp (c : CellId) (v : Option Cell) (s : State) : (s.setCell c v).lmp = s.lmp := rfl
@[simp] theorem setCell_pending (c : CellId) (v : Option Cell) (s : State) :
    (s.setCell c v).pending = s.pending := rfl

@[simp] theorem setPeer_sct (p : Station) (v : PeerState) (s : State) : (s.setPeer p v).sct = s.sct := rfl
@[simp] theorem setPeer_xen (p : Station) (v : PeerState) (s : State) : (s.setPeer p v).xen = s.xen := rfl
@[simp] theorem setPeer_fbd (p : Station) (v : PeerState) (s : State) : (s.setPeer p v).fbd = s.fbd := rfl
@[simp] theorem setPeer_stg (p : Station) (v : PeerState) (s : State) : (s.setPeer p v).stg = s.stg := rfl
@[simp] theorem setPeer_txq (p : Station) (v : PeerState) (s : State) : (s.setPeer p v).txq = s.txq := rfl
@[simp] theorem setPeer_ord (p : Station) (v : PeerState) (s : State) : (s.setPeer p v).ord = s.ord := rfl
@[simp] theorem setPeer_rpt (p : Station) (v : PeerState) (s : State) : (s.setPeer p v).rpt = s.rpt := rfl
@[simp] theorem setPeer_lmp (p : Station) (v : PeerState) (s : State) : (s.setPeer p v).lmp = s.lmp := rfl
@[simp] theorem setPeer_pending (p : Station) (v : PeerState) (s : State) :
    (s.setPeer p v).pending = s.pending := rfl

@[simp] theorem removeOffer_sct (o : OfferId) (s : State) : (s.removeOffer o).sct = s.sct := rfl
@[simp] theorem removeOffer_fbd (o : OfferId) (s : State) : (s.removeOffer o).fbd = s.fbd := rfl
@[simp] theorem removeOffer_stg (o : OfferId) (s : State) : (s.removeOffer o).stg = s.stg := rfl
@[simp] theorem removeOffer_txq (o : OfferId) (s : State) : (s.removeOffer o).txq = s.txq := rfl
@[simp] theorem removeOffer_lpt (o : OfferId) (s : State) : (s.removeOffer o).lpt = s.lpt := rfl
@[simp] theorem removeOffer_ord (o : OfferId) (s : State) : (s.removeOffer o).ord = s.ord := rfl
@[simp] theorem removeOffer_rpt (o : OfferId) (s : State) : (s.removeOffer o).rpt = s.rpt := rfl
@[simp] theorem removeOffer_lmp (o : OfferId) (s : State) : (s.removeOffer o).lmp = s.lmp := rfl
@[simp] theorem removeOffer_pending (o : OfferId) (s : State) : (s.removeOffer o).pending = s.pending := rfl

@[simp] theorem dropDeferred_sct (p : Deferred → Bool) (s : State) : (s.dropDeferred p).sct = s.sct := rfl
@[simp] theorem dropDeferred_fbd (p : Deferred → Bool) (s : State) : (s.dropDeferred p).fbd = s.fbd := rfl
@[simp] theorem dropDeferred_stg (p : Deferred → Bool) (s : State) : (s.dropDeferred p).stg = s.stg := rfl
@[simp] theorem dropDeferred_txq (p : Deferred → Bool) (s : State) : (s.dropDeferred p).txq = s.txq := rfl
@[simp] theorem dropDeferred_lpt (p : Deferred → Bool) (s : State) : (s.dropDeferred p).lpt = s.lpt := rfl
@[simp] theorem dropDeferred_ord (p : Deferred → Bool) (s : State) : (s.dropDeferred p).ord = s.ord := rfl
@[simp] theorem dropDeferred_rpt (p : Deferred → Bool) (s : State) : (s.dropDeferred p).rpt = s.rpt := rfl
@[simp] theorem dropDeferred_lmp (p : Deferred → Bool) (s : State) : (s.dropDeferred p).lmp = s.lmp := rfl
@[simp] theorem dropDeferred_pending (p : Deferred → Bool) (s : State) :
    (s.dropDeferred p).pending = s.pending := rfl

@[simp] theorem eraseDeferred_sct (k : Nat) (s : State) : (s.eraseDeferred k).sct = s.sct := rfl
@[simp] theorem eraseDeferred_fbd (k : Nat) (s : State) : (s.eraseDeferred k).fbd = s.fbd := rfl
@[simp] theorem eraseDeferred_stg (k : Nat) (s : State) : (s.eraseDeferred k).stg = s.stg := rfl
@[simp] theorem eraseDeferred_txq (k : Nat) (s : State) : (s.eraseDeferred k).txq = s.txq := rfl
@[simp] theorem eraseDeferred_lpt (k : Nat) (s : State) : (s.eraseDeferred k).lpt = s.lpt := rfl
@[simp] theorem eraseDeferred_ord (k : Nat) (s : State) : (s.eraseDeferred k).ord = s.ord := rfl
@[simp] theorem eraseDeferred_rpt (k : Nat) (s : State) : (s.eraseDeferred k).rpt = s.rpt := rfl
@[simp] theorem eraseDeferred_lmp (k : Nat) (s : State) : (s.eraseDeferred k).lmp = s.lmp := rfl
@[simp] theorem eraseDeferred_pending (k : Nat) (s : State) : (s.eraseDeferred k).pending = s.pending := rfl

@[simp] theorem freeSlotOf_sct (i : SlotId) (s : State) : (s.freeSlotOf i).sct = s.sct := rfl
@[simp] theorem freeSlotOf_fbd (i : SlotId) (s : State) : (s.freeSlotOf i).fbd = s.fbd := rfl
@[simp] theorem freeSlotOf_stg (i : SlotId) (s : State) : (s.freeSlotOf i).stg = s.stg := rfl
@[simp] theorem freeSlotOf_txq (i : SlotId) (s : State) : (s.freeSlotOf i).txq = s.txq := rfl
@[simp] theorem freeSlotOf_lpt (i : SlotId) (s : State) : (s.freeSlotOf i).lpt = s.lpt := rfl
@[simp] theorem freeSlotOf_ord (i : SlotId) (s : State) : (s.freeSlotOf i).ord = s.ord := rfl
@[simp] theorem freeSlotOf_rpt (i : SlotId) (s : State) : (s.freeSlotOf i).rpt = s.rpt := rfl
@[simp] theorem freeSlotOf_lmp (i : SlotId) (s : State) : (s.freeSlotOf i).lmp = s.lmp := rfl
@[simp] theorem freeSlotOf_pending (i : SlotId) (s : State) : (s.freeSlotOf i).pending = s.pending := rfl

@[simp] theorem place_sct (r : Request) (s : State) : (s.place r).sct = s.sct := rfl
@[simp] theorem place_xen (r : Request) (s : State) : (s.place r).xen = s.xen := rfl
@[simp] theorem place_fbd (r : Request) (s : State) : (s.place r).fbd = s.fbd := rfl
@[simp] theorem place_stg (r : Request) (s : State) : (s.place r).stg = s.stg := rfl
@[simp] theorem place_txq (r : Request) (s : State) : (s.place r).txq = s.txq := rfl
@[simp] theorem place_lpt (r : Request) (s : State) : (s.place r).lpt = s.lpt := rfl
@[simp] theorem place_ord (r : Request) (s : State) : (s.place r).ord = s.ord := rfl
@[simp] theorem place_rpt (r : Request) (s : State) : (s.place r).rpt = s.rpt := rfl
@[simp] theorem place_pending (r : Request) (s : State) : (s.place r).pending = s.pending := rfl

@[simp] theorem endRequest_sct (s : State) : (s.endRequest).sct = s.sct := rfl
@[simp] theorem endRequest_xen (s : State) : (s.endRequest).xen = s.xen := rfl
@[simp] theorem endRequest_fbd (s : State) : (s.endRequest).fbd = s.fbd := rfl
@[simp] theorem endRequest_stg (s : State) : (s.endRequest).stg = s.stg := rfl
@[simp] theorem endRequest_txq (s : State) : (s.endRequest).txq = s.txq := rfl
@[simp] theorem endRequest_lpt (s : State) : (s.endRequest).lpt = s.lpt := rfl
@[simp] theorem endRequest_ord (s : State) : (s.endRequest).ord = s.ord := rfl
@[simp] theorem endRequest_rpt (s : State) : (s.endRequest).rpt = s.rpt := rfl
@[simp] theorem endRequest_pending (s : State) : (s.endRequest).pending = s.pending := rfl

@[simp] theorem unclaimReport_sct (c : ReportClaim) (s : State) : (s.unclaimReport c).sct = s.sct := rfl
@[simp] theorem unclaimReport_xen (c : ReportClaim) (s : State) : (s.unclaimReport c).xen = s.xen := rfl
@[simp] theorem unclaimReport_fbd (c : ReportClaim) (s : State) : (s.unclaimReport c).fbd = s.fbd := rfl
@[simp] theorem unclaimReport_stg (c : ReportClaim) (s : State) : (s.unclaimReport c).stg = s.stg := rfl
@[simp] theorem unclaimReport_txq (c : ReportClaim) (s : State) : (s.unclaimReport c).txq = s.txq := rfl
@[simp] theorem unclaimReport_lpt (c : ReportClaim) (s : State) : (s.unclaimReport c).lpt = s.lpt := rfl
@[simp] theorem unclaimReport_ord (c : ReportClaim) (s : State) : (s.unclaimReport c).ord = s.ord := rfl
@[simp] theorem unclaimReport_lmp (c : ReportClaim) (s : State) : (s.unclaimReport c).lmp = s.lmp := rfl
@[simp] theorem unclaimReport_pending (c : ReportClaim) (s : State) : (s.unclaimReport c).pending = s.pending := rfl

@[simp] theorem setReportPin_sct (s : State) : (s.setReportPin).sct = s.sct := rfl
@[simp] theorem setReportPin_xen (s : State) : (s.setReportPin).xen = s.xen := rfl
@[simp] theorem setReportPin_fbd (s : State) : (s.setReportPin).fbd = s.fbd := rfl
@[simp] theorem setReportPin_stg (s : State) : (s.setReportPin).stg = s.stg := rfl
@[simp] theorem setReportPin_txq (s : State) : (s.setReportPin).txq = s.txq := rfl
@[simp] theorem setReportPin_lpt (s : State) : (s.setReportPin).lpt = s.lpt := rfl
@[simp] theorem setReportPin_ord (s : State) : (s.setReportPin).ord = s.ord := rfl
@[simp] theorem setReportPin_lmp (s : State) : (s.setReportPin).lmp = s.lmp := rfl
@[simp] theorem setReportPin_pending (s : State) : (s.setReportPin).pending = s.pending := rfl

@[simp] theorem advanceProducer_sct (s : State) : (s.advanceProducer).sct = s.sct := rfl
@[simp] theorem advanceProducer_xen (s : State) : (s.advanceProducer).xen = s.xen := rfl
@[simp] theorem advanceProducer_fbd (s : State) : (s.advanceProducer).fbd = s.fbd := rfl
@[simp] theorem advanceProducer_stg (s : State) : (s.advanceProducer).stg = s.stg := rfl
@[simp] theorem advanceProducer_txq (s : State) : (s.advanceProducer).txq = s.txq := rfl
@[simp] theorem advanceProducer_lpt (s : State) : (s.advanceProducer).lpt = s.lpt := rfl
@[simp] theorem advanceProducer_ord (s : State) : (s.advanceProducer).ord = s.ord := rfl
@[simp] theorem advanceProducer_lmp (s : State) : (s.advanceProducer).lmp = s.lmp := rfl
@[simp] theorem advanceProducer_pending (s : State) : (s.advanceProducer).pending = s.pending := rfl

@[simp] theorem ackEvent_sct (p : Await → Bool) (s : State) : (s.ackEvent p).sct = s.sct := rfl
@[simp] theorem ackEvent_xen (p : Await → Bool) (s : State) : (s.ackEvent p).xen = s.xen := rfl
@[simp] theorem ackEvent_fbd (p : Await → Bool) (s : State) : (s.ackEvent p).fbd = s.fbd := rfl
@[simp] theorem ackEvent_stg (p : Await → Bool) (s : State) : (s.ackEvent p).stg = s.stg := rfl
@[simp] theorem ackEvent_txq (p : Await → Bool) (s : State) : (s.ackEvent p).txq = s.txq := rfl
@[simp] theorem ackEvent_lpt (p : Await → Bool) (s : State) : (s.ackEvent p).lpt = s.lpt := rfl
@[simp] theorem ackEvent_rpt (p : Await → Bool) (s : State) : (s.ackEvent p).rpt = s.rpt := rfl
@[simp] theorem ackEvent_lmp (p : Await → Bool) (s : State) : (s.ackEvent p).lmp = s.lmp := rfl
@[simp] theorem ackEvent_pending (p : Await → Bool) (s : State) : (s.ackEvent p).pending = s.pending := rfl

@[simp] theorem setHead_sct (h : Head) (s : State) : (s.setHead h).sct = s.sct := rfl
@[simp] theorem setHead_xen (h : Head) (s : State) : (s.setHead h).xen = s.xen := rfl
@[simp] theorem setHead_fbd (h : Head) (s : State) : (s.setHead h).fbd = s.fbd := rfl
@[simp] theorem setHead_stg (h : Head) (s : State) : (s.setHead h).stg = s.stg := rfl
@[simp] theorem setHead_txq (h : Head) (s : State) : (s.setHead h).txq = s.txq := rfl
@[simp] theorem setHead_lpt (h : Head) (s : State) : (s.setHead h).lpt = s.lpt := rfl
@[simp] theorem setHead_rpt (h : Head) (s : State) : (s.setHead h).rpt = s.rpt := rfl
@[simp] theorem setHead_lmp (h : Head) (s : State) : (s.setHead h).lmp = s.lmp := rfl
@[simp] theorem setHead_pending (h : Head) (s : State) : (s.setHead h).pending = s.pending := rfl

@[simp] theorem countClear_sct (own : Bool) (s : State) : (s.countClear own).sct = s.sct := rfl
@[simp] theorem countClear_xen (own : Bool) (s : State) : (s.countClear own).xen = s.xen := rfl
@[simp] theorem countClear_fbd (own : Bool) (s : State) : (s.countClear own).fbd = s.fbd := rfl
@[simp] theorem countClear_stg (own : Bool) (s : State) : (s.countClear own).stg = s.stg := rfl
@[simp] theorem countClear_txq (own : Bool) (s : State) : (s.countClear own).txq = s.txq := rfl
@[simp] theorem countClear_lpt (own : Bool) (s : State) : (s.countClear own).lpt = s.lpt := rfl
@[simp] theorem countClear_rpt (own : Bool) (s : State) : (s.countClear own).rpt = s.rpt := rfl
@[simp] theorem countClear_lmp (own : Bool) (s : State) : (s.countClear own).lmp = s.lmp := rfl
@[simp] theorem countClear_pending (own : Bool) (s : State) : (s.countClear own).pending = s.pending := rfl

@[simp] theorem unclaimCtrl_sct (c : CtrlClaim) (s : State) : (s.unclaimCtrl c).sct = s.sct := rfl
@[simp] theorem unclaimCtrl_xen (c : CtrlClaim) (s : State) : (s.unclaimCtrl c).xen = s.xen := rfl
@[simp] theorem unclaimCtrl_fbd (c : CtrlClaim) (s : State) : (s.unclaimCtrl c).fbd = s.fbd := rfl
@[simp] theorem unclaimCtrl_stg (c : CtrlClaim) (s : State) : (s.unclaimCtrl c).stg = s.stg := rfl
@[simp] theorem unclaimCtrl_lpt (c : CtrlClaim) (s : State) : (s.unclaimCtrl c).lpt = s.lpt := rfl
@[simp] theorem unclaimCtrl_ord (c : CtrlClaim) (s : State) : (s.unclaimCtrl c).ord = s.ord := rfl
@[simp] theorem unclaimCtrl_rpt (c : CtrlClaim) (s : State) : (s.unclaimCtrl c).rpt = s.rpt := rfl
@[simp] theorem unclaimCtrl_lmp (c : CtrlClaim) (s : State) : (s.unclaimCtrl c).lmp = s.lmp := rfl
@[simp] theorem unclaimCtrl_pending (c : CtrlClaim) (s : State) : (s.unclaimCtrl c).pending = s.pending := rfl

@[simp] theorem raiseCredit_sct (i : SlotId) (limit : Nat) (s : State) : (s.raiseCredit i limit).sct = s.sct := rfl
@[simp] theorem raiseCredit_xen (i : SlotId) (limit : Nat) (s : State) : (s.raiseCredit i limit).xen = s.xen := rfl
@[simp] theorem raiseCredit_fbd (i : SlotId) (limit : Nat) (s : State) : (s.raiseCredit i limit).fbd = s.fbd := rfl
@[simp] theorem raiseCredit_stg (i : SlotId) (limit : Nat) (s : State) : (s.raiseCredit i limit).stg = s.stg := rfl
@[simp] theorem raiseCredit_lpt (i : SlotId) (limit : Nat) (s : State) : (s.raiseCredit i limit).lpt = s.lpt := rfl
@[simp] theorem raiseCredit_ord (i : SlotId) (limit : Nat) (s : State) : (s.raiseCredit i limit).ord = s.ord := rfl
@[simp] theorem raiseCredit_rpt (i : SlotId) (limit : Nat) (s : State) : (s.raiseCredit i limit).rpt = s.rpt := rfl
@[simp] theorem raiseCredit_lmp (i : SlotId) (limit : Nat) (s : State) : (s.raiseCredit i limit).lmp = s.lmp := rfl
@[simp] theorem raiseCredit_pending (i : SlotId) (limit : Nat) (s : State) :
    (s.raiseCredit i limit).pending = s.pending := rfl

@[simp] theorem withdraw_sct (i : SlotId) (p : FrameBody → Bool) (s : State) : (s.withdraw i p).sct = s.sct := rfl
@[simp] theorem withdraw_xen (i : SlotId) (p : FrameBody → Bool) (s : State) : (s.withdraw i p).xen = s.xen := rfl
@[simp] theorem withdraw_fbd (i : SlotId) (p : FrameBody → Bool) (s : State) : (s.withdraw i p).fbd = s.fbd := rfl
@[simp] theorem withdraw_stg (i : SlotId) (p : FrameBody → Bool) (s : State) : (s.withdraw i p).stg = s.stg := rfl
@[simp] theorem withdraw_lpt (i : SlotId) (p : FrameBody → Bool) (s : State) : (s.withdraw i p).lpt = s.lpt := rfl
@[simp] theorem withdraw_ord (i : SlotId) (p : FrameBody → Bool) (s : State) : (s.withdraw i p).ord = s.ord := rfl
@[simp] theorem withdraw_rpt (i : SlotId) (p : FrameBody → Bool) (s : State) : (s.withdraw i p).rpt = s.rpt := rfl
@[simp] theorem withdraw_lmp (i : SlotId) (p : FrameBody → Bool) (s : State) : (s.withdraw i p).lmp = s.lmp := rfl
@[simp] theorem withdraw_pending (i : SlotId) (p : FrameBody → Bool) (s : State) :
    (s.withdraw i p).pending = s.pending := rfl

@[simp] theorem purge_sct (p : Station) (s : State) : (s.purge p).sct = s.sct := rfl
@[simp] theorem purge_xen (p : Station) (s : State) : (s.purge p).xen = s.xen := rfl
@[simp] theorem purge_fbd (p : Station) (s : State) : (s.purge p).fbd = s.fbd := rfl
@[simp] theorem purge_stg (p : Station) (s : State) : (s.purge p).stg = s.stg := rfl
@[simp] theorem purge_lpt (p : Station) (s : State) : (s.purge p).lpt = s.lpt := rfl
@[simp] theorem purge_ord (p : Station) (s : State) : (s.purge p).ord = s.ord := rfl
@[simp] theorem purge_rpt (p : Station) (s : State) : (s.purge p).rpt = s.rpt := rfl
@[simp] theorem purge_lmp (p : Station) (s : State) : (s.purge p).lmp = s.lmp := rfl
@[simp] theorem purge_pending (p : Station) (s : State) : (s.purge p).pending = s.pending := rfl

@[simp] theorem freeInSlot_sct (s : State) : (s.freeInSlot).sct = s.sct := rfl
@[simp] theorem freeInSlot_xen (s : State) : (s.freeInSlot).xen = s.xen := rfl
@[simp] theorem freeInSlot_fbd (s : State) : (s.freeInSlot).fbd = s.fbd := rfl
@[simp] theorem freeInSlot_stg (s : State) : (s.freeInSlot).stg = s.stg := rfl
@[simp] theorem freeInSlot_lpt (s : State) : (s.freeInSlot).lpt = s.lpt := rfl
@[simp] theorem freeInSlot_ord (s : State) : (s.freeInSlot).ord = s.ord := rfl
@[simp] theorem freeInSlot_rpt (s : State) : (s.freeInSlot).rpt = s.rpt := rfl
@[simp] theorem freeInSlot_lmp (s : State) : (s.freeInSlot).lmp = s.lmp := rfl
@[simp] theorem freeInSlot_pending (s : State) : (s.freeInSlot).pending = s.pending := rfl

@[simp] theorem setDrain_sct (d : DrainState) (s : State) : (s.setDrain d).sct = s.sct := rfl
@[simp] theorem setDrain_xen (d : DrainState) (s : State) : (s.setDrain d).xen = s.xen := rfl
@[simp] theorem setDrain_fbd (d : DrainState) (s : State) : (s.setDrain d).fbd = s.fbd := rfl
@[simp] theorem setDrain_txq (d : DrainState) (s : State) : (s.setDrain d).txq = s.txq := rfl
@[simp] theorem setDrain_lpt (d : DrainState) (s : State) : (s.setDrain d).lpt = s.lpt := rfl
@[simp] theorem setDrain_ord (d : DrainState) (s : State) : (s.setDrain d).ord = s.ord := rfl
@[simp] theorem setDrain_rpt (d : DrainState) (s : State) : (s.setDrain d).rpt = s.rpt := rfl
@[simp] theorem setDrain_lmp (d : DrainState) (s : State) : (s.setDrain d).lmp = s.lmp := rfl
@[simp] theorem setDrain_pending (d : DrainState) (s : State) : (s.setDrain d).pending = s.pending := rfl

@[simp] theorem reserveCells_sct (i : SlotId) (e : Exchange) (n : Nat) (s : State) :
    (s.reserveCells i e n).sct = s.sct := by simp only [reserveCells]
@[simp] theorem reserveCells_xen (i : SlotId) (e : Exchange) (n : Nat) (s : State) :
    (s.reserveCells i e n).xen = s.xen := by simp only [reserveCells]
@[simp] theorem reserveCells_fbd (i : SlotId) (e : Exchange) (n : Nat) (s : State) :
    (s.reserveCells i e n).fbd = s.fbd := by simp only [reserveCells]
@[simp] theorem reserveCells_txq (i : SlotId) (e : Exchange) (n : Nat) (s : State) :
    (s.reserveCells i e n).txq = s.txq := by simp only [reserveCells]
@[simp] theorem reserveCells_lpt (i : SlotId) (e : Exchange) (n : Nat) (s : State) :
    (s.reserveCells i e n).lpt = s.lpt := by simp only [reserveCells]
@[simp] theorem reserveCells_ord (i : SlotId) (e : Exchange) (n : Nat) (s : State) :
    (s.reserveCells i e n).ord = s.ord := by simp only [reserveCells]
@[simp] theorem reserveCells_rpt (i : SlotId) (e : Exchange) (n : Nat) (s : State) :
    (s.reserveCells i e n).rpt = s.rpt := by simp only [reserveCells]
@[simp] theorem reserveCells_lmp (i : SlotId) (e : Exchange) (n : Nat) (s : State) :
    (s.reserveCells i e n).lmp = s.lmp := by simp only [reserveCells]
@[simp] theorem reserveCells_pending (i : SlotId) (e : Exchange) (n : Nat) (s : State) :
    (s.reserveCells i e n).pending = s.pending := by simp only [reserveCells]

@[simp] theorem reclaimCells_sct (i : SlotId) (s : State) :
    (s.reclaimCells i).sct = s.sct := by simp only [reclaimCells]
@[simp] theorem reclaimCells_xen (i : SlotId) (s : State) :
    (s.reclaimCells i).xen = s.xen := by simp only [reclaimCells]
@[simp] theorem reclaimCells_fbd (i : SlotId) (s : State) :
    (s.reclaimCells i).fbd = s.fbd := by simp only [reclaimCells]
@[simp] theorem reclaimCells_txq (i : SlotId) (s : State) :
    (s.reclaimCells i).txq = s.txq := by simp only [reclaimCells]
@[simp] theorem reclaimCells_lpt (i : SlotId) (s : State) :
    (s.reclaimCells i).lpt = s.lpt := by simp only [reclaimCells]
@[simp] theorem reclaimCells_ord (i : SlotId) (s : State) :
    (s.reclaimCells i).ord = s.ord := by simp only [reclaimCells]
@[simp] theorem reclaimCells_rpt (i : SlotId) (s : State) :
    (s.reclaimCells i).rpt = s.rpt := by simp only [reclaimCells]
@[simp] theorem reclaimCells_lmp (i : SlotId) (s : State) :
    (s.reclaimCells i).lmp = s.lmp := by simp only [reclaimCells]
@[simp] theorem reclaimCells_pending (i : SlotId) (s : State) :
    (s.reclaimCells i).pending = s.pending := by simp only [reclaimCells]

@[simp] theorem giveUpBuffers_sct (i : SlotId) (s : State) : (s.giveUpBuffers i).sct = s.sct := rfl
@[simp] theorem giveUpBuffers_xen (i : SlotId) (s : State) : (s.giveUpBuffers i).xen = s.xen := rfl
@[simp] theorem giveUpBuffers_stg (i : SlotId) (s : State) : (s.giveUpBuffers i).stg = s.stg := rfl
@[simp] theorem giveUpBuffers_lpt (i : SlotId) (s : State) : (s.giveUpBuffers i).lpt = s.lpt := rfl
@[simp] theorem giveUpBuffers_ord (i : SlotId) (s : State) : (s.giveUpBuffers i).ord = s.ord := rfl
@[simp] theorem giveUpBuffers_rpt (i : SlotId) (s : State) : (s.giveUpBuffers i).rpt = s.rpt := rfl
@[simp] theorem giveUpBuffers_lmp (i : SlotId) (s : State) : (s.giveUpBuffers i).lmp = s.lmp := rfl
@[simp] theorem giveUpBuffers_pending (i : SlotId) (s : State) : (s.giveUpBuffers i).pending = s.pending := rfl

@[simp] theorem popInbox_sct (s : State) : (s.popInbox).sct = s.sct := rfl
@[simp] theorem popInbox_xen (s : State) : (s.popInbox).xen = s.xen := rfl
@[simp] theorem popInbox_fbd (s : State) : (s.popInbox).fbd = s.fbd := rfl
@[simp] theorem popInbox_stg (s : State) : (s.popInbox).stg = s.stg := rfl
@[simp] theorem popInbox_ord (s : State) : (s.popInbox).ord = s.ord := rfl
@[simp] theorem popInbox_lmp (s : State) : (s.popInbox).lmp = s.lmp := rfl
@[simp] theorem popInbox_pending (s : State) : (s.popInbox).pending = s.pending := rfl

@[simp] theorem emptyInbox_sct (s : State) : (s.emptyInbox).sct = s.sct := rfl
@[simp] theorem emptyInbox_xen (s : State) : (s.emptyInbox).xen = s.xen := rfl
@[simp] theorem emptyInbox_fbd (s : State) : (s.emptyInbox).fbd = s.fbd := rfl
@[simp] theorem emptyInbox_stg (s : State) : (s.emptyInbox).stg = s.stg := rfl
@[simp] theorem emptyInbox_ord (s : State) : (s.emptyInbox).ord = s.ord := rfl
@[simp] theorem emptyInbox_lmp (s : State) : (s.emptyInbox).lmp = s.lmp := rfl
@[simp] theorem emptyInbox_pending (s : State) : (s.emptyInbox).pending = s.pending := rfl

@[simp] theorem leaveLane_sct (s : State) : (s.leaveLane).sct = s.sct := rfl
@[simp] theorem leaveLane_xen (s : State) : (s.leaveLane).xen = s.xen := rfl
@[simp] theorem leaveLane_fbd (s : State) : (s.leaveLane).fbd = s.fbd := rfl
@[simp] theorem leaveLane_stg (s : State) : (s.leaveLane).stg = s.stg := rfl
@[simp] theorem leaveLane_txq (s : State) : (s.leaveLane).txq = s.txq := rfl
@[simp] theorem leaveLane_ord (s : State) : (s.leaveLane).ord = s.ord := rfl
@[simp] theorem leaveLane_rpt (s : State) : (s.leaveLane).rpt = s.rpt := rfl
@[simp] theorem leaveLane_lmp (s : State) : (s.leaveLane).lmp = s.lmp := rfl
@[simp] theorem leaveLane_pending (s : State) : (s.leaveLane).pending = s.pending := rfl

@[simp] theorem setPhase_sct (p : LanePhase) (a : Option Ack) (s : State) : (s.setPhase p a).sct = s.sct := rfl
@[simp] theorem setPhase_xen (p : LanePhase) (a : Option Ack) (s : State) : (s.setPhase p a).xen = s.xen := rfl
@[simp] theorem setPhase_fbd (p : LanePhase) (a : Option Ack) (s : State) : (s.setPhase p a).fbd = s.fbd := rfl
@[simp] theorem setPhase_stg (p : LanePhase) (a : Option Ack) (s : State) : (s.setPhase p a).stg = s.stg := rfl
@[simp] theorem setPhase_txq (p : LanePhase) (a : Option Ack) (s : State) : (s.setPhase p a).txq = s.txq := rfl
@[simp] theorem setPhase_ord (p : LanePhase) (a : Option Ack) (s : State) : (s.setPhase p a).ord = s.ord := rfl
@[simp] theorem setPhase_rpt (p : LanePhase) (a : Option Ack) (s : State) : (s.setPhase p a).rpt = s.rpt := rfl
@[simp] theorem setPhase_lmp (p : LanePhase) (a : Option Ack) (s : State) : (s.setPhase p a).lmp = s.lmp := rfl
@[simp] theorem setPhase_pending (p : LanePhase) (a : Option Ack) (s : State) :
    (s.setPhase p a).pending = s.pending := rfl

@[simp] theorem emptyTx_sct (s : State) : (s.emptyTx).sct = s.sct := rfl
@[simp] theorem emptyTx_xen (s : State) : (s.emptyTx).xen = s.xen := rfl
@[simp] theorem emptyTx_fbd (s : State) : (s.emptyTx).fbd = s.fbd := rfl
@[simp] theorem emptyTx_stg (s : State) : (s.emptyTx).stg = s.stg := rfl
@[simp] theorem emptyTx_txq (s : State) : (s.emptyTx).txq = s.txq := rfl
@[simp] theorem emptyTx_ord (s : State) : (s.emptyTx).ord = s.ord := rfl
@[simp] theorem emptyTx_rpt (s : State) : (s.emptyTx).rpt = s.rpt := rfl
@[simp] theorem emptyTx_lmp (s : State) : (s.emptyTx).lmp = s.lmp := rfl
@[simp] theorem emptyTx_pending (s : State) : (s.emptyTx).pending = s.pending := rfl

@[simp] theorem pulseClear_sct (s : State) : (s.pulseClear).sct = s.sct := rfl
@[simp] theorem pulseClear_xen (s : State) : (s.pulseClear).xen = s.xen := rfl
@[simp] theorem pulseClear_fbd (s : State) : (s.pulseClear).fbd = s.fbd := rfl
@[simp] theorem pulseClear_stg (s : State) : (s.pulseClear).stg = s.stg := rfl
@[simp] theorem pulseClear_txq (s : State) : (s.pulseClear).txq = s.txq := rfl
@[simp] theorem pulseClear_ord (s : State) : (s.pulseClear).ord = s.ord := rfl
@[simp] theorem pulseClear_rpt (s : State) : (s.pulseClear).rpt = s.rpt := rfl
@[simp] theorem pulseClear_lmp (s : State) : (s.pulseClear).lmp = s.lmp := rfl
@[simp] theorem pulseClear_pending (s : State) : (s.pulseClear).pending = s.pending := rfl

@[simp] theorem dropEntryRead_sct (i : SlotId) (g : Gen) (s : State) : (s.dropEntryRead i g).sct = s.sct := rfl
@[simp] theorem dropEntryRead_xen (i : SlotId) (g : Gen) (s : State) : (s.dropEntryRead i g).xen = s.xen := rfl
@[simp] theorem dropEntryRead_txq (i : SlotId) (g : Gen) (s : State) : (s.dropEntryRead i g).txq = s.txq := rfl
@[simp] theorem dropEntryRead_lpt (i : SlotId) (g : Gen) (s : State) : (s.dropEntryRead i g).lpt = s.lpt := rfl
@[simp] theorem dropEntryRead_ord (i : SlotId) (g : Gen) (s : State) : (s.dropEntryRead i g).ord = s.ord := rfl
@[simp] theorem dropEntryRead_rpt (i : SlotId) (g : Gen) (s : State) : (s.dropEntryRead i g).rpt = s.rpt := rfl
@[simp] theorem dropEntryRead_lmp (i : SlotId) (g : Gen) (s : State) : (s.dropEntryRead i g).lmp = s.lmp := rfl
@[simp] theorem dropEntryRead_pending (i : SlotId) (g : Gen) (s : State) :
    (s.dropEntryRead i g).pending = s.pending := rfl

@[simp] theorem clearLane_sct (s : State) : (s.clearLane).sct = s.sct := rfl
@[simp] theorem clearLane_stg (s : State) : (s.clearLane).stg = s.stg := rfl
@[simp] theorem clearLane_ord (s : State) : (s.clearLane).ord = s.ord := rfl
@[simp] theorem clearLane_rpt (s : State) : (s.clearLane).rpt = s.rpt := rfl
@[simp] theorem clearLane_lmp (s : State) : (s.clearLane).lmp = s.lmp := rfl
@[simp] theorem clearLane_pending (s : State) : (s.clearLane).pending = s.pending := rfl

@[simp] theorem tick_fbd (s : State) : (s.tick).fbd = s.fbd := rfl
@[simp] theorem tick_stg (s : State) : (s.tick).stg = s.stg := rfl
@[simp] theorem tick_txq (s : State) : (s.tick).txq = s.txq := rfl
@[simp] theorem tick_lpt (s : State) : (s.tick).lpt = s.lpt := rfl
@[simp] theorem tick_ord (s : State) : (s.tick).ord = s.ord := rfl
@[simp] theorem tick_rpt (s : State) : (s.tick).rpt = s.rpt := rfl
@[simp] theorem tick_lmp (s : State) : (s.tick).lmp = s.lmp := rfl
@[simp] theorem tick_pending (s : State) : (s.tick).pending = s.pending := rfl
/-! ### Reads after writes -/

@[simp] theorem ex_setEx_self (i : SlotId) (e : Option Exchange) (s : State) : (s.setEx i e).ex i = e := by
  simp [ex, setEx]

@[simp] theorem ex_setEx_of_ne {i j : SlotId} (h : j ≠ i) (e : Option Exchange) (s : State) :
    (s.setEx i e).ex j = s.ex j := by
  simp [ex, setEx, Fin.getElem_fin, Fin.val_ne_of_ne h.symm]

theorem ex_setEx (i j : SlotId) (e : Option Exchange) (s : State) :
    (s.setEx i e).ex j = if j = i then e else s.ex j := by
  by_cases h : j = i
  · subst h; simp
  · simp [h]

@[simp] theorem gen_setEx (i j : SlotId) (e : Option Exchange) (s : State) : (s.setEx i e).gen j = s.gen j := by
  by_cases h : j = i
  · subst h; simp [gen, setEx]
  · simp [gen, setEx, Fin.getElem_fin, Fin.val_ne_of_ne (Ne.symm h)]

@[simp] theorem updEx_of_some {i : SlotId} {e : Exchange} {s : State} (h : s.ex i = some e) (f : Exchange → Exchange) :
    s.updEx i f = s.setEx i (some (f e)) := by
  simp [updEx, h]

@[simp] theorem updEx_of_none {i : SlotId} {s : State} (h : s.ex i = none) (f : Exchange → Exchange) :
    s.updEx i f = s := by
  simp [updEx, h]

theorem ex_updEx (i j : SlotId) (f : Exchange → Exchange) (s : State) :
    (s.updEx i f).ex j = if j = i then (s.ex j).map f else s.ex j := by
  cases h : s.ex i with
  | none =>
    rw [updEx_of_none h]
    by_cases hj : j = i
    · subst hj; simp [h]
    · simp [hj]
  | some e =>
    rw [updEx_of_some h, ex_setEx]
    by_cases hj : j = i
    · subst hj; simp [h]
    · simp [hj]

@[simp] theorem updEx_lmp (i : SlotId) (f : Exchange → Exchange) (s : State) : (s.updEx i f).lmp = s.lmp := by
  cases h : s.ex i with
  | none => rw [updEx_of_none h]
  | some e => rw [updEx_of_some h, setEx_lmp]

@[simp] theorem gen_updEx (i j : SlotId) (f : Exchange → Exchange) (s : State) : (s.updEx i f).gen j = s.gen j := by
  cases h : s.ex i with
  | none => rw [updEx_of_none h]
  | some e => rw [updEx_of_some h, gen_setEx]

@[simp] theorem offer_setOffer_self (o : OfferId) (v : Option Offer) (s : State) : (s.setOffer o v).offer o = v := by
  simp [offer, setOffer]

@[simp] theorem buffer_setBuffer_self (b : BufId) (v : Option OutBuffer) (s : State) :
    (s.setBuffer b v).buffer b = v := by
  simp [buffer, setBuffer]

@[simp] theorem cell_setCell_self (c : CellId) (v : Option Cell) (s : State) : (s.setCell c v).cell c = v := by
  simp [cell, setCell]

theorem ex_of_xen {s t : State} (h : t.xen = s.xen) (j : SlotId) : t.ex j = s.ex j := by simp [ex, h]

end Sys2Proof.Machine.State
end

