-- ==== Sys2Proof/Laws/Quiet.lean ====
section
/-!
SUPPORT. What no operation below the station's own state changes does: it leaves the queue of commands and Station
Control alone, keeps every capacity, makes no slot an originator's and places no read of the start record. One lemma per
shared operation.
-/

namespace Sys2Proof.Machine

/-- From s to t only work inside the blocks has been done. -/
structure Quiet (s t : State) : Prop where
  pending : t.pending = s.pending
  sct : t.sct = s.sct
  caps : s.queueCaps → t.queueCaps
  marks : s.markCaps → t.markCaps
  starts : t.startReads ≤ s.startReads
  lcl : t.lpt.pins.lcl = s.lpt.pins.lcl
  pulses : t.awaitsPulse = true → s.awaitsPulse = true
  roles : ∀ j, t.isOriginator j = true → s.isOriginator j = true

namespace Quiet

variable {s t : State}

@[simp] theorem refl (s : State) : Quiet s s := ⟨rfl, rfl, id, id, Nat.le_refl _, rfl, id, fun _ => id⟩

theorem trans {u : State} (h : Quiet s t) (k : Quiet t u) : Quiet s u :=
  ⟨k.pending.trans h.pending, k.sct.trans h.sct, k.caps ∘ h.caps, k.marks ∘ h.marks,
    Nat.le_trans k.starts h.starts, k.lcl.trans h.lcl, h.pulses ∘ k.pulses, fun j hj => h.roles j (k.roles j hj)⟩

/-- An update that leaves the slots' records alone. -/
theorem of_port (hp : t.pending = s.pending) (hs : t.sct = s.sct) (hx : t.xen.slots = s.xen.slots)
    (hl : t.lpt.pins.lcl = s.lpt.pins.lcl) (ha : t.awaitsPulse = true → s.awaitsPulse = true)
    (hc : s.queueCaps → t.queueCaps) (hst : t.startReads ≤ s.startReads) : Quiet s t :=
  ⟨hp, hs, hc, fun k i e he => k i e (by simpa [State.ex, hx] using he), hst, hl, ha,
    fun j hj => by simpa [State.isOriginator, State.ex, hx] using hj⟩

/-- An update that leaves the slots' records, the Local Memory Port and the acknowledgement list alone. -/
theorem of_xen (hp : t.pending = s.pending) (hs : t.sct = s.sct) (hx : t.xen.slots = s.xen.slots)
    (hm : t.lmp = s.lmp) (hl : t.lpt.pins.lcl = s.lpt.pins.lcl) (ha : t.ord.acks = s.ord.acks)
    (hc : s.queueCaps → t.queueCaps) : Quiet s t :=
  of_port hp hs hx hl (by simp [State.awaitsPulse, ha]) hc (by simp [State.startReads, hm])

/-! ### Updates -/

theorem setEx_of_role (h : Quiet s t) (i : SlotId) (e : Option Exchange)
    (he : ∀ v, e = some v → v.role = .originator → t.isOriginator i = true)
    (hm : ∀ v, e = some v → t.markCaps → v.walk.marks.length ≤ Config.markCap) : Quiet s (t.setEx i e) := by
  refine h.trans ⟨rfl, rfl, fun c => ?_, fun k j v hj => ?_, Nat.le_refl _, rfl, id, fun j hj => ?_⟩
  · simpa [State.setEx] using c
  · rw [State.ex_setEx] at hj
    split at hj
    · exact hm v hj k
    · exact k j v hj
  · by_cases hji : j = i
    · subst hji
      cases e with
      | none => simp [State.isOriginator] at hj
      | some v => exact he v rfl (by simpa [State.isOriginator] using hj)
    · simpa [State.isOriginator, hji] using hj

@[simp] theorem updEx (h : Quiet s t) (i : SlotId) (f : Exchange → Exchange) (hf : ∀ e, (f e).role = e.role)
    (hm : ∀ e, (f e).walk.marks.length ≤ e.walk.marks.length) : Quiet s (t.updEx i f) := by
  cases he : t.ex i with
  | none => rwa [State.updEx_of_none he]
  | some e =>
    rw [State.updEx_of_some he]
    refine h.setEx_of_role i _ (fun v hv hr => ?_) fun v hv k => ?_
    · cases hv
      rw [hf] at hr
      simp [State.isOriginator, he, hr]
    · cases hv
      exact Nat.le_trans (hm e) (k i e he)

@[simp] theorem setOffer (h : Quiet s t) (o : OfferId) (v : Option Offer) : Quiet s (t.setOffer o v) :=
  h.trans (of_xen rfl rfl rfl rfl rfl rfl (by simp [State.setOffer]))

@[simp] theorem setBuffer (h : Quiet s t) (b : BufId) (v : Option OutBuffer) : Quiet s (t.setBuffer b v) :=
  h.trans (of_xen rfl rfl rfl rfl rfl rfl (by simp [State.setBuffer]))

@[simp] theorem setCell (h : Quiet s t) (c : CellId) (v : Option Cell) : Quiet s (t.setCell c v) :=
  h.trans (of_xen rfl rfl rfl rfl rfl rfl (by simp [State.setCell]))

@[simp] theorem setPeer (h : Quiet s t) (p : Station) (v : PeerState) : Quiet s (t.setPeer p v) :=
  h.trans (of_xen rfl rfl rfl rfl rfl rfl (by simp [State.setPeer]))

@[simp] theorem setDrain (h : Quiet s t) (d : DrainState) : Quiet s (t.setDrain d) :=
  h.trans (of_xen rfl rfl rfl rfl rfl rfl (by simp [State.setDrain]))

@[simp] theorem setHead (h : Quiet s t) (d : Head) : Quiet s (t.setHead d) :=
  h.trans (of_xen rfl rfl rfl rfl rfl rfl (by simp [State.setHead]))

@[simp] theorem isStart_mk (p : Purpose) (a n : Nat) (d : List Byte) :
    Request.isStart ⟨p, a, n, d⟩ = (p == .startRecord) := by simp only [Request.isStart]

@[simp] theorem place (h : Quiet s t) (r : Request) (hr : r.isStart = false) : Quiet s (t.place r) :=
  h.trans (of_port rfl rfl rfl rfl id (by simp [State.place]) (by
    simp only [State.startReads, State.place]
    rw [← List.append_assoc, List.filter_append, List.filter_cons_of_neg (by simp [hr])]
    simp))

@[simp] theorem unclaimReport (h : Quiet s t) (c : ReportClaim) : Quiet s (t.unclaimReport c) :=
  h.trans (of_xen rfl rfl rfl rfl rfl rfl (by simp [State.unclaimReport]))

@[simp] theorem claimReport (h : Quiet s t) (c : ReportClaim) : Quiet s (t.claimReport c) := by
  unfold State.claimReport
  split
  · exact h
  · exact h.trans (of_xen rfl rfl rfl rfl rfl rfl (by simp))

@[simp] theorem unclaimCtrl (h : Quiet s t) (c : CtrlClaim) : Quiet s (t.unclaimCtrl c) :=
  h.trans (of_xen rfl rfl rfl rfl rfl rfl (by simp [State.unclaimCtrl]))

@[simp] theorem claimCtrl (h : Quiet s t) (c : CtrlClaim) : Quiet s (t.claimCtrl c) := by
  unfold State.claimCtrl
  split
  · exact h
  · exact h.trans (of_xen rfl rfl rfl rfl rfl rfl (by simp))

@[simp] theorem pushReport (h : Quiet s t) (r : Report) : Quiet s (t.pushReport r) := by
  refine h.trans ?_
  unfold State.pushReport
  split
  · exact of_xen rfl rfl rfl rfl rfl rfl fun c => ⟨c.1, c.2.1, by simp; omega, c.2.2.2⟩
  · simp

@[simp] theorem pushEntry (h : Quiet s t) (c : CtrlEntry) : Quiet s (t.pushEntry c) := by
  refine h.trans ?_
  unfold State.pushEntry
  split
  · exact of_xen rfl rfl rfl rfl rfl rfl fun c => ⟨by simp; omega, c.2⟩
  · simp

@[simp] theorem pushCtrl (h : Quiet s t) (f : Frame) (o : Owner) : Quiet s (t.pushCtrl f o) := h.pushEntry _

@[simp] theorem awaitsPulse_ackEvent (t : State) (p : Await → Bool) : (t.ackEvent p).awaitsPulse = t.awaitsPulse := by
  simp only [State.awaitsPulse, State.ackEvent, List.any_map]
  congr 1
  funext a
  simp only [Function.comp]
  split <;> rfl

@[simp] theorem ackEvent (h : Quiet s t) (p : Await → Bool) : Quiet s (t.ackEvent p) :=
  h.trans (of_port rfl rfl rfl rfl (by simp) (fun c => by simpa [State.queueCaps, State.ackEvent] using c) (Nat.le_refl _))

@[simp] theorem addAck (h : Quiet s t) (a : AckEntry) (ha : (a.await == .clearPulse) = false) :
    Quiet s (t.addAck a) := by
  refine h.trans ?_
  unfold State.addAck
  split
  · exact of_port rfl rfl rfl rfl (by simp [State.awaitsPulse, ha])
      (fun c => ⟨c.1, c.2.1, c.2.2.1, c.2.2.2.1, by simp; omega⟩) (Nat.le_refl _)
  · simp

@[simp] theorem withdraw (h : Quiet s t) (i : SlotId) (p : FrameBody → Bool) : Quiet s (t.withdraw i p) :=
  h.trans (of_xen rfl rfl rfl rfl rfl rfl fun c => ⟨(List.length_filter_le _ _).trans c.1, c.2⟩)

@[simp] theorem raiseCredit (h : Quiet s t) (i : SlotId) (l : Nat) : Quiet s (t.raiseCredit i l) :=
  h.trans (of_xen rfl rfl rfl rfl rfl rfl (fun c => by simpa [State.queueCaps, State.raiseCredit] using c))

@[simp] theorem giveUpBuffers (h : Quiet s t) (i : SlotId) : Quiet s (t.giveUpBuffers i) :=
  h.trans (of_xen rfl rfl rfl rfl rfl rfl (by simp [State.giveUpBuffers]))

@[simp] theorem reclaimCells (h : Quiet s t) (i : SlotId) : Quiet s (t.reclaimCells i) :=
  h.trans (of_port (by simp) (by simp) (by simp) (by simp) (by simp [State.awaitsPulse]) (by simp [State.queueCaps])
    (by simp [State.startReads]))

@[simp] theorem reserveCells (h : Quiet s t) (i : SlotId) (e : Exchange) (n : Nat) : Quiet s (t.reserveCells i e n) :=
  h.trans (of_port (by simp) (by simp) (by simp) (by simp) (by simp [State.awaitsPulse]) (by simp [State.queueCaps])
    (by simp [State.startReads]))

@[simp] theorem dropDeferred (h : Quiet s t) (p : Deferred → Bool) : Quiet s (t.dropDeferred p) :=
  h.trans (of_xen rfl rfl rfl rfl rfl rfl fun c => ⟨c.1, c.2.1, c.2.2.1, (List.length_filter_le _ _).trans c.2.2.2.1, c.2.2.2.2⟩)

@[simp] theorem removeOffer (h : Quiet s t) (o : OfferId) : Quiet s (t.removeOffer o) :=
  h.trans (of_xen rfl rfl rfl rfl rfl rfl (by simp [State.removeOffer, State.setOffer]))

/-! ### Claims, frames and reports -/

@[simp] theorem queueStation (h : Quiet s t) (w : StationWait) : Quiet s (t.queueStation w) := by
  simp [State.queueStation, h]

@[simp] theorem stationReport (h : Quiet s t) (w : StationWait) : Quiet s (t.stationReport w) := by
  unfold State.stationReport
  split
  · simp [h]
  · exact h.trans (of_xen rfl rfl rfl rfl rfl rfl (by simp))

@[simp] theorem dueFrame (h : Quiet s t) (f : Frame) (o : Owner) : Quiet s (t.dueFrame f o) := by
  unfold State.dueFrame
  split
  · simp [h]
  · exact h.trans (of_xen rfl rfl rfl rfl rfl rfl (by simp))

@[simp] theorem dueOnce (h : Quiet s t) (i : SlotId) (p : FrameBody → Bool) (b : Exchange → FrameBody) :
    Quiet s (t.dueOnce i p b) := by
  unfold State.dueOnce
  (repeat' split) <;> simp (maxDischargeDepth := 20) [h]

@[simp] theorem dueOpen (h : Quiet s t) (i : SlotId) : Quiet s (t.dueOpen i) := h.dueOnce _ _ _

@[simp] theorem dueHold (h : Quiet s t) (i : SlotId) : Quiet s (t.dueHold i) := h.dueOnce _ _ _

@[simp] theorem dueDone (h : Quiet s t) (i : SlotId) : Quiet s (t.dueDone i) := h.dueOnce _ _ _

@[simp] theorem dueCredit (h : Quiet s t) (i : SlotId) : Quiet s (t.dueCredit i) := by
  unfold State.dueCredit
  (repeat' split) <;> simp (maxDischargeDepth := 20) [h]

@[simp] theorem replyUnknown (h : Quiet s t) (f : Frame) : Quiet s (t.replyUnknown f) := by
  unfold State.replyUnknown
  split <;> simp [h]

@[simp] theorem placeFor (h : Quiet s t) (i : SlotId) (r : Request) (hr : r.isStart = false) :
    Quiet s (t.placeFor i r) := by
  simp [State.placeFor, h, hr]

@[simp] theorem endTransfer (h : Quiet s t) (i : SlotId) (g : Gen) : Quiet s (t.endTransfer i g) := by
  unfold State.endTransfer
  split <;> simp [h]

@[simp] theorem withdrawRequests (h : Quiet s t) (i : SlotId) : Quiet s (t.withdrawRequests i) := by
  unfold State.withdrawRequests
  have k := h.updEx i (fun e =>
    { e with transfers := e.transfers - (t.lmp.waiting.filter (Request.isOf i (t.gen i))).length }) (by simp) (by simp)
  refine k.trans (of_port rfl rfl rfl rfl id (by simp) ?_)
  simp only [State.startReads, List.filter_append, List.length_append, State.updEx_lmp]
  exact Nat.add_le_add_left ((List.filter_sublist.filter _).length_le) _

/-! ### Retiring -/

@[simp] theorem setAbort_role (a : AbortState) (e : Exchange) : (e.setAbort a).role = e.role := by
  simp [Exchange.setAbort]

@[simp] theorem setAbort_walk (a : AbortState) (e : Exchange) : (e.setAbort a).walk = e.walk := by
  simp [Exchange.setAbort]

@[simp] theorem settleAbort_role (e : Exchange) : e.settleAbort.role = e.role := by
  unfold Exchange.settleAbort
  (repeat' split) <;> rfl

@[simp] theorem settleAbort_walk (e : Exchange) : e.settleAbort.walk = e.walk := by
  unfold Exchange.settleAbort
  (repeat' split) <;> rfl

@[simp] theorem enterRetiring_role (r : Result) (o : Option Reason) (e : Exchange) :
    (e.enterRetiring r o).role = e.role := by
  simp [Exchange.enterRetiring]

@[simp] theorem enterRetiring_marks (r : Result) (o : Option Reason) (e : Exchange) :
    (e.enterRetiring r o).walk.marks = [] := by
  simp [Exchange.enterRetiring, Walk.drop]

@[simp] theorem placeAbort (h : Quiet s t) (i : SlotId) : Quiet s (t.placeAbort i) := by
  unfold State.placeAbort
  (repeat' split) <;> simp (maxDischargeDepth := 20) [h]

@[simp] theorem oweAbort (h : Quiet s t) (i : SlotId) : Quiet s (t.oweAbort i) := by
  unfold State.oweAbort
  split
  · simp [h]
  · exact h.trans (of_xen rfl rfl rfl rfl rfl rfl (by simp))

@[simp] theorem retire (h : Quiet s t) (i : SlotId) (r : Result) (o : Option Reason) : Quiet s (t.retire i r o) := by
  unfold State.retire
  (repeat' split) <;> simp (maxDischargeDepth := 20) [h]

@[simp] theorem abortWith (h : Quiet s t) (i : SlotId) (r : Reason) : Quiet s (t.abortWith i r) := h.retire _ _ _

@[simp] theorem endWith (h : Quiet s t) (i : SlotId) (r : Reason) : Quiet s (t.endWith i r) := h.retire _ _ _

@[simp] theorem settle (h : Quiet s t) (i : SlotId) : Quiet s (t.settle i) := by
  unfold State.settle
  exact (h.updEx i Exchange.settleAbort (by simp) (by simp)).trans (of_xen rfl rfl rfl rfl rfl rfl (by simp))

@[simp] theorem cancel (h : Quiet s t) (i : SlotId) : Quiet s (t.cancel i) := by
  unfold State.cancel
  split <;> simp [h]

/-! ### Credit and opening -/

@[simp] theorem State.grantRecord_role (p : StartParams) (n : Nat) (e : Exchange) : (State.grantRecord p n e).role = e.role := by
  unfold State.grantRecord
  dsimp only
  split <;> rfl

@[simp] theorem State.grantRecord_walk (p : StartParams) (n : Nat) (e : Exchange) :
    (State.grantRecord p n e).walk = e.walk := by
  unfold State.grantRecord
  dsimp only
  split <;> rfl

@[simp] theorem startTimer_role (k : TimerKind) (n : Nat) (e : Exchange) : (e.startTimer k n).role = e.role := by
  simp [Exchange.startTimer]

@[simp] theorem startTimer_walk (k : TimerKind) (n : Nat) (e : Exchange) : (e.startTimer k n).walk = e.walk := by
  simp [Exchange.startTimer]

@[simp] theorem restartQuiet_role (p : StartParams) (e : Exchange) : (e.restartQuiet p).role = e.role := by
  unfold Exchange.restartQuiet
  (repeat' split) <;> rfl

@[simp] theorem restartQuiet_walk (p : StartParams) (e : Exchange) : (e.restartQuiet p).walk = e.walk := by
  unfold Exchange.restartQuiet
  (repeat' split) <;> rfl

@[simp] theorem quiet (h : Quiet s t) (i : SlotId) : Quiet s (t.quiet i) := by simp [State.quiet, h]

@[simp] theorem grant (h : Quiet s t) (i : SlotId) : Quiet s (t.grant i) := by
  unfold State.grant
  split <;> simp [h]

@[simp] theorem openReceiver (h : Quiet s t) (i : SlotId) : Quiet s (t.openReceiver i) := by
  unfold State.openReceiver Exchange.clearTimer Exchange.idleQuiet
  (repeat' split) <;> simp (maxDischargeDepth := 20) [h]

@[simp] theorem openSender (h : Quiet s t) (i : SlotId) : Quiet s (t.openSender i) := by
  simp [State.openSender, Exchange.startQuiet, Exchange.startTimer, h]

end Quiet

end Sys2Proof.Machine
end

