-- ==== Sys2Proof/Laws/QuietWork.lean ====
section
/-!
SUPPORT. The operations of a transfer, of the matcher and of the link outcomes leave the station's own state alone.
-/

namespace Sys2Proof.Machine

namespace Quiet

variable {s t : State}

/-! ### Fills, marks, arriving DATA and the drain -/

@[simp] theorem withWalk_role (w : Walk) (e : Exchange) : (e.withWalk w).role = e.role := by simp [Exchange.withWalk]

@[simp] theorem prepare_role (c : Nat) (e : Exchange) : (e.prepare c).role = e.role := by simp [Exchange.prepare]

@[simp] theorem prepare_walk (c : Nat) (e : Exchange) : (e.prepare c).walk = e.walk := by simp [Exchange.prepare]

@[simp] theorem popMark_role (e : Exchange) : e.popMark.role = e.role := by simp [Exchange.popMark]

@[simp] theorem popMark_marks (e : Exchange) : e.popMark.walk.marks = e.walk.marks.tail := by
  simp [Exchange.popMark]

@[simp] theorem pause_role (e : Exchange) : e.pause.role = e.role := by simp [Exchange.pause, Exchange.stopTimer]

@[simp] theorem pause_walk (e : Exchange) : e.pause.walk = e.walk := by simp [Exchange.pause, Exchange.stopTimer]

@[simp] theorem accepted_role (p : StartParams) (r : Nat) (e : Exchange) : (e.accepted p r).role = e.role := by
  unfold Exchange.accepted Exchange.clearTimer Exchange.stopTimer
  dsimp only
  (repeat' split) <;> simp

@[simp] theorem accepted_walk (p : StartParams) (r : Nat) (e : Exchange) : (e.accepted p r).walk = e.walk := by
  unfold Exchange.accepted Exchange.clearTimer Exchange.stopTimer
  dsimp only
  (repeat' split) <;> simp

@[simp] theorem unhold_role (p : StartParams) (e : Exchange) : (e.unhold p).role = e.role := by
  simp [Exchange.unhold]

@[simp] theorem unhold_walk (p : StartParams) (e : Exchange) : (e.unhold p).walk = e.walk := by
  simp [Exchange.unhold]

@[simp] theorem resume_role (p : StartParams) (e : Exchange) : (e.resume p).role = e.role := by
  unfold Exchange.resume Exchange.resumeTimer
  (repeat' split) <;> simp [Exchange.startQuiet]

@[simp] theorem resume_marks (p : StartParams) (e : Exchange) : (e.resume p).walk.marks = e.walk.marks := by
  unfold Exchange.resume Exchange.resumeTimer
  (repeat' split) <;> simp [Exchange.startQuiet]

/-- A walk that is asked for bytes never holds more marks than the queue has places (R75). -/
theorem ask_marks {w : Walk} (h : w.marks.length ≤ Config.markCap) (l u : Nat) :
    (w.ask l u).1.marks.length ≤ Config.markCap := by
  have hr : ∀ w' : Walk, (w'.askRead).1.marks = w'.marks := fun w' => by
    unfold Walk.askRead
    split <;> rfl
  have hc : ∀ (w' : Walk) (a b : Bool), w'.marks.length + 1 ≤ Config.markCap →
      (w'.record a b).marks.length ≤ Config.markCap := fun w' a b hw => by
    unfold Walk.record
    split
    · simpa using hw
    · omega
  have hp : ∀ d : Entry, ¬((d.note || d.pause) = true ∧ w.marks.length ≥ Config.markCap) →
      (w.pass d).marks.length ≤ Config.markCap := fun d hd => by
    by_cases hf : (d.note || d.pause) = true
    · exact hc w d.note d.pause (by have := mt (And.intro hf) hd; omega)
    · simpa [Walk.pass, Walk.record, hf] using h
  unfold Walk.ask
  split
  · exact h
  · split
    · rw [hr]; exact h
    · rename_i d _
      split
      · unfold Walk.takePiece
        dsimp only
        split
        · split
          · exact h
          · exact hc _ _ _ (by show w.marks.length + 1 ≤ _; omega)
        · exact h
      · unfold Walk.passOn
        split
        · exact h
        · rename_i hd
          have := hp d hd
          split
          · exact this
          · split
            · exact this
            · rw [hr]; exact this

/-- The walk of a slot's record goes on (R71). -/
theorem updEx_ask (h : Quiet s t) {i : SlotId} {e : Exchange} (he : t.ex i = some e) (l u : Nat) :
    Quiet s (t.updEx i (Exchange.withWalk (e.walk.ask l u).1)) := by
  rw [State.updEx_of_some he]
  refine h.setEx_of_role i _ (fun v hv hr => ?_) fun v hv k => ?_
  · cases hv
    rw [withWalk_role] at hr
    simp [State.isOriginator, he, hr]
  · cases hv
    exact ask_marks (k i e he) l u

@[simp] theorem fillGo (h : Quiet s t) (b : BufId) : Quiet s (t.fillGo b) := by
  unfold State.fillGo
  split
  · exact h
  · split
    · exact h
    · rename_i v hb _ e he
      split
      · simp [h]
      · have k := h.updEx_ask he e.length v.ceiling
        dsimp only
        split
        · simp (maxDischargeDepth := 20) [k]
        · simp (maxDischargeDepth := 20) [k]
        · split <;> simp (maxDischargeDepth := 20) [k]
        · split <;> simp (maxDischargeDepth := 20) [k]
        · simp (maxDischargeDepth := 20) [k]

@[simp] theorem resumeFill (h : Quiet s t) (i : SlotId) : Quiet s (t.resumeFill i) := by
  unfold State.resumeFill
  (repeat' split) <;> simp (maxDischargeDepth := 20) [h]

@[simp] theorem actMark (h : Quiet s t) (i : SlotId) (m : Mark) : Quiet s (t.actMark i m) := by
  unfold State.actMark
  split
  · exact h
  · dsimp only
    (repeat' split) <;> simp (maxDischargeDepth := 20) [h]

theorem actMarks (n : Nat) : ∀ {t : State}, Quiet s t → ∀ i, Quiet s (State.actMarks n i t) := by
  induction n with
  | zero => intro t h i; exact h
  | succ n ih =>
    intro t h i
    unfold State.actMarks
    (repeat' split)
    · exact h
    · exact ih (by simp [h]) i
    · simp [h]

@[simp] theorem settleMarks (h : Quiet s t) (i : SlotId) : Quiet s (t.settleMarks i) := by
  unfold State.settleMarks
  split
  · exact actMarks 16 ((actMarks 16 h i).resumeFill i) i
  · exact actMarks 16 h i

@[simp] theorem fillOn (h : Quiet s t) (b : BufId) : Quiet s (t.fillOn b) := by
  unfold State.fillOn
  split <;> simp [h]

@[simp] theorem storePayload (h : Quiet s t) (i : SlotId) (a : Nat) (p : List Byte) : Quiet s (t.storePayload i a p) := by
  unfold State.storePayload
  (repeat' split) <;> simp [h]

@[simp] theorem receiveData (h : Quiet s t) (i : SlotId) (e : Exchange) (a c : Nat) (p : List Byte) :
    Quiet s (t.receiveData i e a c p) := by
  unfold State.receiveData
  split <;> simp [h]

@[simp] theorem takeData (h : Quiet s t) (f : Frame) (a c : Nat) (p : List Byte) : Quiet s (t.takeData f a c p) := by
  unfold State.takeData
  (repeat' split) <;> simp [h]

@[simp] theorem placeDrain (h : Quiet s t) (i : SlotId) (e : Exchange) (a c : Nat) : Quiet s (t.placeDrain i e a c) := by
  unfold State.placeDrain
  (repeat' split) <;> simp [h]

@[simp] theorem drainGo (h : Quiet s t) (i : SlotId) : Quiet s (t.drainGo i) := by
  unfold State.drainGo
  split
  · simp [h]
  · rename_i e he
    have k := h.updEx_ask he e.length e.drainEnd
    dsimp only
    split <;> simp (maxDischargeDepth := 20) [k]

@[simp] theorem drainOn (h : Quiet s t) (i : SlotId) : Quiet s (t.drainOn i) := by simp [State.drainOn, h]

@[simp] theorem freeDrained (h : Quiet s t) (i : SlotId) (c : CellId) : Quiet s (t.freeDrained i c) := by
  unfold State.freeDrained
  (repeat' split) <;> simp [h]

@[simp] theorem dueDrained (h : Quiet s t) (i : SlotId) : Quiet s (t.dueDrained i) := by
  unfold State.dueDrained
  (repeat' split) <;> simp [h]

@[simp] theorem drained (h : Quiet s t) (i : SlotId) (c : CellId) (n : Nat) : Quiet s (t.drained i c n) := by
  unfold State.drained
  simp (maxDischargeDepth := 20) [h]

@[simp] theorem freeReclaimed (h : Quiet s t) (c : CellId) : Quiet s (t.freeReclaimed c) := by
  unfold State.freeReclaimed
  (repeat' split) <;> simp [h]

@[simp] theorem continueSlot (h : Quiet s t) (i : SlotId) : Quiet s (t.continueSlot i) := by
  unfold State.continueSlot
  (repeat' split) <;> simp (maxDischargeDepth := 20) [h]

/-! ### The matcher -/

theorem withRescan (h : Quiet s t) (w : Bool) (k : Option Nat) :
    Quiet s { t with xen := { t.xen with rescanWaits := w, rescanAt := k } } := h.trans (of_xen rfl rfl rfl rfl rfl rfl (fun c => c))

theorem withRescanAt (h : Quiet s t) (k : Option Nat) :
    Quiet s { t with xen := { t.xen with rescanAt := k } } := h.trans (of_xen rfl rfl rfl rfl rfl rfl (fun c => c))

theorem withRescanDue (h : Quiet s t) (b w : Bool) :
    Quiet s { t with xen := { t.xen with rescanDue := b, rescanWaits := w } } := h.trans (of_xen rfl rfl rfl rfl rfl rfl (fun c => c))

@[simp] theorem makeRescanDue (h : Quiet s t) : Quiet s t.makeRescanDue := by
  unfold State.makeRescanDue
  split
  · exact (h.withRescanDue true _).claimCtrl _
  · exact h

theorem setEx_ofOffer (h : Quiet s t) (i : SlotId) (o : OfferId) (v : Offer) (p : Station) (g : Tag) (d : Direction)
    (k : Word) (n : Nat) : Quiet s (t.setEx i (some (Exchange.ofOffer o v p g d k n))) :=
  h.setEx_of_role i _ (fun u hu hr => by cases hu; simp [Exchange.ofOffer] at hr)
    fun u hu _ => by cases hu; simp [Exchange.ofOffer, Walk.start]

@[simp] theorem openResponder (h : Quiet s t) (i : SlotId) (d : Direction) : Quiet s (t.openResponder i d) := by
  unfold State.openResponder
  split <;> simp [h]

@[simp] theorem answerBound (h : Quiet s t) (i : SlotId) (a : BitVec 24 → FrameBody) : Quiet s (t.answerBound i a) := by
  unfold State.answerBound
  (repeat' split) <;> simp [h]

@[simp] theorem bind (h : Quiet s t) (i : SlotId) (o : OfferId) (a : BitVec 24 → FrameBody) (p : Station) (g : Tag)
    (d : Direction) (k : Word) (n : Nat) : Quiet s (t.bind i o a p g d k n) := by
  unfold State.bind
  split
  · exact h
  · exact (((h.setOffer o _).setEx_ofOffer i o _ p g d k n).openResponder i d).answerBound i a

@[simp] theorem tooLong (h : Quiet s t) (o : OfferId) (p : Station) (g : Tag) (k : Word) :
    Quiet s (t.tooLong o p g k) := by
  unfold State.tooLong
  split <;> simp [h]

@[simp] theorem popInbox (h : Quiet s t) : Quiet s t.popInbox := by
  refine h.trans (of_xen rfl rfl rfl rfl rfl rfl fun c => ⟨c.1, ?_, c.2.2⟩)
  have := c.2.1
  simp [State.popInbox, State.unclaimCtrl, State.unclaimReport] at this ⊢
  omega

@[simp] theorem storeDeferred (h : Quiet s t) (d : Deferred) (r : Option Nat) : Quiet s (t.storeDeferred d r) := by
  refine h.trans ?_
  unfold State.storeDeferred
  split
  · exact of_xen rfl rfl rfl rfl rfl rfl fun c => by simpa [State.queueCaps] using c
  · split
    · exact of_xen rfl rfl rfl rfl rfl rfl fun c => ⟨c.1, c.2.1, c.2.2.1, by simp; omega, c.2.2.2.2⟩
    · simp

@[simp] theorem answerCopy (h : Quiet s t) (i : SlotId) : Quiet s (t.answerCopy i) := by
  unfold State.answerCopy
  split <;> simp [h]

@[simp] theorem handleOpen (h : Quiet s t) (f : Frame) (k : Word) (d : Direction) (n : Nat) (p : OpenPlan) :
    Quiet s (t.handleOpen f k d n p) := by
  unfold State.handleOpen State.dropStale
  split <;> simp [h]

@[simp] theorem openWaits (h : Quiet s t) (p : OpenPlan) : Quiet s (t.openWaits p) := by
  unfold State.openWaits
  dsimp only
  (repeat' split) <;> simp [h]

@[simp] theorem takeOpen (h : Quiet s t) : Quiet s t.takeOpen := by
  unfold State.takeOpen
  split
  · exact h
  · split
    · dsimp only
      split
      · exact ((h.unclaimCtrl _).handleOpen _ _ _ _ _).popInbox
      · simp [h]
    · exact h

@[simp] theorem freeOfferOf (h : Quiet s t) (e : Exchange) (r : Result) : Quiet s (t.freeOfferOf e r) := by
  unfold State.freeOfferOf
  (repeat' split) <;> simp [h]

@[simp] theorem freeSlotOf (h : Quiet s t) (i : SlotId) : Quiet s (t.freeSlotOf i) := by
  refine h.trans ⟨rfl, rfl, fun c => by simpa [State.freeSlotOf, State.queueCaps] using c, fun k j e he => ?_,
    Nat.le_refl _, rfl, id, fun j hj => ?_⟩
  · by_cases hji : j = i
    · subst hji; simp [State.ex, State.freeSlotOf] at he
    · exact k j e (by simpa [State.ex, State.freeSlotOf, Fin.val_ne_of_ne (Ne.symm hji)] using he)
  · by_cases hji : j = i
    · subst hji; simp [State.isOriginator, State.ex, State.freeSlotOf] at hj
    · simpa [State.isOriginator, State.ex, State.freeSlotOf, Fin.val_ne_of_ne (Ne.symm hji)] using hj

@[simp] theorem pushReports (h : Quiet s t) (l : List Report) : Quiet s (t.pushReports l) := by
  induction l generalizing t with
  | nil => exact h
  | cons r l ih => exact ih (h.pushReport r)

theorem withHead (h : Quiet s t) (d : Head) : Quiet s { t with ord := { t.ord with head := d } } := h.setHead d

@[simp] theorem releaseSlot (h : Quiet s t) (i : SlotId) (e : Exchange) (r : Result) : Quiet s (t.releaseSlot i e r) := by
  unfold State.releaseSlot
  exact (withHead (by simp (maxDischargeDepth := 20) [h]) _).makeRescanDue

@[simp] theorem tryRelease (h : Quiet s t) (i : SlotId) : Quiet s (t.tryRelease i) := by
  unfold State.tryRelease
  (repeat' split) <;> simp [h]

@[simp] theorem endRescan (h : Quiet s t) (b : Bool) : Quiet s (t.endRescan b) := by
  have k : Quiet s { (t.unclaimCtrl .rescan).unclaimReport .rescan with
      xen := { ((t.unclaimCtrl .rescan).unclaimReport .rescan).xen with rescanWaits := false, rescanAt := none } } :=
    withRescan (by simp [h]) _ _
  unfold State.endRescan
  dsimp only
  split
  · exact k.makeRescanDue
  · exact k

@[simp] theorem eraseDeferred (h : Quiet s t) (k : Nat) : Quiet s (t.eraseDeferred k) := by
  refine h.trans (of_xen rfl rfl rfl rfl rfl rfl fun c => ⟨c.1, c.2.1, c.2.2.1, ?_, c.2.2.2.2⟩)
  exact (List.length_eraseIdx_le _ _).trans c.2.2.2.1

theorem rescanFrom (n : Nat) : ∀ {t : State} (k : Nat), Quiet s t → Quiet s (State.rescanFrom n k t) := by
  induction n with
  | zero => intro t k h; simp [State.rescanFrom, h]
  | succ n ih =>
    intro t k h
    unfold State.rescanFrom
    (repeat' split) <;> first
      | exact ih _ h
      | exact ih _ (by simp (maxDischargeDepth := 20) [h])
      | exact (withRescanAt h _).claimReport _
      | simp [h]

@[simp] theorem serveRescan (h : Quiet s t) : Quiet s t.serveRescan := by
  unfold State.serveRescan
  (repeat' split)
  · simp [h]
  · exact rescanFrom _ _ (withRescanAt h _)
  · exact h

@[simp] theorem runRescan (h : Quiet s t) : Quiet s t.runRescan := by
  unfold State.runRescan
  (repeat' split)
  · simp [h]
  · exact rescanFrom _ _ (withRescanDue h _ _)
  · exact h

end Quiet

end Sys2Proof.Machine
end

