-- ==== Sys2Proof/Laws/Steady.lean ====
section
/-!
SUPPORT. What every operation of the station keeps: the queue of commands, the start parameters, the capacities, the
origin limit, the FAULT line at the level of the station state, and the pulse of a CLR on LCL until its event. One lemma
per shared operation.
-/

namespace Sys2Proof.Machine

/-- From s to t every law of the station that held still holds. -/
structure Steady (s t : State) : Prop where
  pending : t.pending = s.pending
  up : t.sct.inReset = s.sct.inReset
  params : t.sct.params = s.sct.params
  caps : s.withinCaps → t.withinCaps
  limit : s.withinOriginLimit → t.withinOriginLimit
  starts : t.startReads ≤ s.startReads
  line : s.sct.faultPin = faultLevel s.sct.station → t.sct.faultPin = faultLevel t.sct.station
  pulse : s.pulseLaw → t.pulseLaw

/-- Where only the elements that satisfied p, or i, can satisfy q, the count rises by one at most. -/
theorem filter_length_le_succ {α : Type} [DecidableEq α] (p q : α → Bool) (i : α) :
    ∀ l : List α, l.Nodup → (∀ j, q j = true → p j = true ∨ j = i) →
      (l.filter q).length ≤ (l.filter p).length + (if i ∈ l then 1 else 0)
  | [], _, _ => by simp
  | a :: l, hn, h => by
    have ih := filter_length_le_succ p q i l (List.nodup_cons.mp hn).2 h
    have hna := (List.nodup_cons.mp hn).1
    by_cases hai : a = i
    · subst hai
      rw [if_neg hna] at ih
      simp only [List.filter_cons, List.mem_cons_self, if_true]
      split <;> split <;> simp <;> omega
    · have hmem : (i ∈ a :: l) ↔ i ∈ l := by simp [Ne.symm hai]
      simp only [List.filter_cons, hmem]
      by_cases hq : q a = true
      · have hp : p a = true := (h a hq).resolve_right hai
        simp only [hq, hp, if_true, List.length_cons]
        omega
      · rw [if_neg hq]
        split <;> (try simp only [List.length_cons]) <;> omega

theorem filter_length_mono {α : Type} (p q : α → Bool) (h : ∀ j, q j = true → p j = true) (l : List α) :
    (l.filter q).length ≤ (l.filter p).length := by
  rw [← List.countP_eq_length_filter, ← List.countP_eq_length_filter]
  exact List.countP_mono_left fun j _ => h j

theorem Quiet.originators {s t : State} (h : Quiet s t) : t.originators ≤ s.originators :=
  filter_length_mono _ _ h.roles _

theorem Quiet.steady {s t : State} (h : Quiet s t) : Steady s t where
  pending := h.pending
  up := by rw [h.sct]
  params := by rw [h.sct]
  caps := fun k => ⟨h.caps k.1, h.marks k.2⟩
  starts := h.starts
  limit := fun k => by
    have := h.originators
    simp only [State.withinOriginLimit, State.par, h.sct] at k ⊢
    exact this.trans k
  line := fun k => by rw [h.sct]; exact k
  pulse := fun k => ⟨fun l => by simpa only [State.up, h.sct] using k.1 (h.lcl ▸ l),
    fun a => h.lcl.trans (k.2 (h.pulses a))⟩

namespace Steady

variable {s t : State}

theorem refl (s : State) : Steady s s := (Quiet.refl s).steady

theorem trans {u : State} (h : Steady s t) (k : Steady t u) : Steady s u :=
  ⟨k.pending.trans h.pending, k.up.trans h.up, k.params.trans h.params, k.caps ∘ h.caps, k.limit ∘ h.limit,
    Nat.le_trans k.starts h.starts, k.line ∘ h.line, k.pulse ∘ h.pulse⟩

/-- Work inside the blocks, after a steady beginning. -/
theorem thenQuiet {u : State} (h : Steady s t) (k : Quiet t u) : Steady s u := h.trans k.steady

/-- An update of Station Control that leaves RESET and the start parameters, with the FAULT line at its level, and with
LCL driven in ONLINE and DETACHING only. -/
theorem of_sct (c : StationControl) (hr : c.inReset = t.sct.inReset) (hp : c.params = t.sct.params)
    (hl : t.sct.faultPin = faultLevel t.sct.station → c.faultPin = faultLevel c.station)
    (hs : t.pulseLaw → t.lpt.pins.lcl = true → c.station = .online ∨ c.station = .detaching) :
    Steady t { t with sct := c } where
  pending := rfl
  up := hr
  params := hp
  caps := id
  starts := Nat.le_refl _
  limit := fun k => by
    simp only [State.withinOriginLimit, State.par, State.originators, hp] at k ⊢
    exact k
  line := hl
  pulse := fun k => ⟨fun l => ⟨by simpa only [State.up, hr] using (k.1 l).1, hs k l⟩, k.2⟩

/-! ### Station Control -/

theorem withStatus (t : State) (v : StatusWrite) : Quiet t { t with rpt := { t.rpt with status := v } } :=
  Quiet.of_xen rfl rfl rfl rfl rfl rfl id

theorem placeStatus (t : State) : Quiet t t.placeStatus := (withStatus t _).place _ rfl

theorem makeStatusDue (t : State) : Quiet t t.makeStatusDue := by
  unfold State.makeStatusDue
  split
  · exact withStatus _ _
  · exact .refl _
  · split
    · exact placeStatus _
    · exact withStatus _ _

/-- A change of station state; where LCL is driven, to ONLINE or DETACHING. -/
theorem enter (st : StationState) (t : State)
    (h : t.pulseLaw → t.lpt.pins.lcl = true → st = .online ∨ st = .detaching) : Steady t (t.enter st) :=
  (of_sct { t.sct with station := st, faultPin := faultLevel st } rfl rfl (fun _ => rfl) h).thenQuiet (makeStatusDue _)

/-- LCL is not driven in a state other than ONLINE and DETACHING. -/
theorem lcl_of_station {t : State} (h : t.pulseLaw) (h1 : t.sct.station ≠ .online) (h2 : t.sct.station ≠ .detaching) :
    t.lpt.pins.lcl = false := by
  cases hl : t.lpt.pins.lcl with
  | false => rfl
  | true => rcases (h.1 hl).2 with k | k <;> contradiction

theorem leaveLane (t : State) : Quiet t t.leaveLane := Quiet.of_xen rfl rfl rfl rfl rfl rfl id

theorem emptyInbox (t : State) : Quiet t t.emptyInbox :=
  Quiet.of_xen rfl rfl rfl rfl rfl rfl fun c => ⟨c.1, by simp [State.emptyInbox, State.unclaimCtrl, State.unclaimReport], c.2.2⟩

theorem withProbe (t : State) (b : Bool) : Steady t { t with sct := { t.sct with probe := b } } :=
  of_sct { t.sct with probe := b } rfl rfl id fun k l => (k.1 l).2

theorem placeProbe (t : State) : Steady t t.placeProbe := (withProbe t true).thenQuiet ((Quiet.refl _).pushCtrl _ _)

theorem startProbe (t : State) (h1 : t.sct.station ≠ .online) (h2 : t.sct.station ≠ .detaching) :
    Steady t t.startProbe :=
  (enter _ t fun k l => by simp [lcl_of_station k h1 h2] at l).trans (placeProbe _)

theorem numberFree (t : State) : Steady t t.numberFree := by
  have k := ((withProbe t false).trans (enter .online _ fun _ _ => .inl rfl)).thenQuiet
    ((Quiet.refl _).stationReport ⟨.online, .numberFree, 0⟩)
  unfold State.numberFree
  dsimp only
  split
  · exact k.thenQuiet (by simp)
  · exact k

theorem dropProbe (t : State) (p : CtrlEntry → Bool) :
    Quiet t { t with txq := { t.txq with ctrl := t.txq.ctrl.filter p } } :=
  Quiet.of_xen rfl rfl rfl rfl rfl rfl fun c => ⟨(List.length_filter_le _ _).trans c.1, c.2⟩

theorem numberTaken (t : State) (h : t.sct.station = .probing) : Steady t t.numberTaken := by
  have k := (withProbe t false).thenQuiet (dropProbe _ fun c => c.owner != Owner.stationControl)
  refine (((k.thenQuiet (leaveLane _)).thenQuiet (emptyInbox _)).trans (enter .conflict _ fun k l => ?_)).thenQuiet
    ((Quiet.refl _).stationReport _)
  simp [lcl_of_station k (by simp [State.emptyInbox, State.leaveLane, State.unclaimCtrl, State.unclaimReport, h])
    (by simp [State.emptyInbox, State.leaveLane, State.unclaimCtrl, State.unclaimReport, h])] at l

/-! ### Lane clear -/

theorem foldQuiet {α : Type} (f : State → α → State) (hf : ∀ t a, Quiet t (f t a)) :
    ∀ (l : List α) (t : State), Quiet t (l.foldl f t)
  | [], t => .refl t
  | a :: l, t => (hf t a).trans (foldQuiet f hf l _)

theorem clearSlot (t : State) (i : SlotId) : Quiet t (t.clearSlot i) := by
  unfold State.clearSlot
  (repeat' split) <;> simp

/-- The CLRs whose pulse an event includes await its report from then on, and no pulse (R131, R147). -/
theorem awaitsPulse_countClear_own (t : State) : (t.countClear true).awaitsPulse = false := by
  simp only [State.awaitsPulse, State.countClear, if_true, List.any_map, List.any_eq_false]
  intro a _
  simp only [Function.comp]
  cases a.await <;> simp [Await.atClear]

theorem countClear (t : State) (own : Bool) : Quiet t (t.countClear own) := by
  refine Quiet.of_port rfl rfl rfl rfl (fun k => ?_) (fun c => ⟨c.1, c.2.1, c.2.2.1, c.2.2.2.1, ?_⟩) (Nat.le_refl _)
  · cases own with
    | false => exact k
    | true => simp [awaitsPulse_countClear_own] at k
  · simp only [State.countClear]
    split
    · simpa using c.2.2.2.2
    · exact c.2.2.2.2

/-- The event is counted, and the lane, the queues and the Pending List are emptied: no CLR awaits a pulse that is not on
the line (R131, R132). -/
theorem clearBlocks (t : State) : Steady t (t.countClear t.lpt.pins.lcl).clearLane where
  pending := rfl
  up := rfl
  params := rfl
  caps := fun c => by
    have k := (countClear t t.lpt.pins.lcl).caps c.1
    exact ⟨⟨by simp [State.clearLane, TransmitQueue.cleared], by simp [State.clearLane, LanePort.cleared], k.2.2.1,
      by simp [State.clearLane], k.2.2.2.2⟩, c.2⟩
  limit := id
  starts := Nat.le_refl _
  line := id
  pulse := fun k => by
    refine ⟨fun l => absurd l (by simp [State.clearLane, LanePort.cleared, LanePins.released]), fun a => ?_⟩
    have a : (t.countClear t.lpt.pins.lcl).awaitsPulse = true := a
    cases hl : t.lpt.pins.lcl with
    | true => rw [hl, awaitsPulse_countClear_own] at a; cases a
    | false => rw [hl] at a; exact absurd (k.2 a) (by simp [hl])

/-- What a lane clear does to the slots and the lines of claimants. -/
theorem clearSlots (t : State) :
    Quiet t (((slotIds.foldl State.clearSlot t).unclaimReport .inboxHead).unclaimReport .rescan) :=
  ((foldQuiet _ clearSlot _ _).unclaimReport _).unclaimReport _

theorem takeClear (t : State) : Steady t t.takeClear := by
  have k := (clearBlocks t).thenQuiet (clearSlots _)
  unfold State.takeClear
  dsimp only
  split
  · exact (k.thenQuiet ((Quiet.refl _).stationReport _)).trans (placeProbe _)
  · exact k.thenQuiet ((Quiet.refl _).stationReport _)

/-- After a lane clear event LCL is released (R131). -/
theorem takeClear_lcl (t : State) : t.takeClear.lpt.pins.lcl = false := by
  have k := (clearSlots (t.countClear t.lpt.pins.lcl).clearLane).lcl
  have hr : ∀ (u : State) (w : StationWait), (u.stationReport w).lpt.pins.lcl = u.lpt.pins.lcl := fun u w =>
    ((Quiet.refl u).stationReport w).lcl
  have hp : ∀ u : State, u.placeProbe.lpt.pins.lcl = u.lpt.pins.lcl := fun u =>
    ((Quiet.refl { u with sct := { u.sct with probe := true } }).pushCtrl _ _).lcl
  unfold State.takeClear
  dsimp only
  split
  · rw [hp, hr, k]; rfl
  · rw [hr, k]; rfl

theorem ownClear (t : State) : Steady t t.ownClear := by
  unfold State.ownClear
  split
  · exact takeClear t
  · exact .refl t

/-- A station about to leave the states that take lane clear does not drive LCL (R149). -/
theorem ownClear_lcl (t : State) (k : t.ownClear.pulseLaw) : t.ownClear.lpt.pins.lcl = false := by
  unfold State.ownClear at k ⊢
  split
  · exact takeClear_lcl t
  · rename_i h
    rw [if_neg h] at k
    cases hl : t.lpt.pins.lcl with
    | false => rfl
    | true => exact absurd ⟨hl, by rcases k.1 hl with ⟨hu, hs | hs⟩ <;> simp [State.takesClear, hu, hs]⟩ h

/-! ### FAULT and the SILENT mark -/

theorem placeFaultStatus (t : State) : Quiet t t.placeFaultStatus := by
  unfold State.placeFaultStatus
  split
  · exact placeStatus _
  · exact .refl _

theorem lpt_atFault_inbox (l : LanePort) : l.atFault.inbox = l.inbox := by
  unfold LanePort.atFault
  split <;> rfl

theorem lpt_atFault_lcl (l : LanePort) : l.atFault.pins.lcl = l.pins.lcl := by
  unfold LanePort.atFault
  split <;> rfl

theorem markCaps_atFault {t u : State} (h : t.markCaps) (hu : u.xen.slots = t.xen.slots.map Slot.atFault) :
    u.markCaps := fun j e he => by
  simp only [State.ex, hu, Fin.getElem_fin, Vector.getElem_map, Slot.atFault] at he
  cases hx : t.xen.slots[j.val].ex with
  | none => simp [hx] at he
  | some x =>
    have hk := h j x hx
    rw [hx] at he
    simp only [Option.map_some, Option.some.injEq] at he
    split at he <;> (subst he; exact hk)

theorem slots_atFault (t : State) (j : SlotId) :
    ({ t with xen := { t.xen with slots := t.xen.slots.map Slot.atFault } } : State).isOriginator j
      = t.isOriginator j := by
  simp only [State.isOriginator, State.ex, Fin.getElem_fin, Vector.getElem_map, Slot.atFault]
  cases t.xen.slots[j.val].ex with
  | none => rfl
  | some e =>
    simp only [Option.map_some]
    split <;> rfl

theorem stopBlocks (c : FaultCause) (t : State) (h : t.pulseLaw → t.lpt.pins.lcl = false) :
    Steady t (t.stopBlocks c) := by
  refine (of_sct { t.sct with
    station := .fault, faultCause := c, probe := false, faultAborts := t.faultAbortsAtEntry,
    present := t.attached, faultPin := true } rfl rfl (fun _ => rfl) fun k l => by simp [h k] at l).thenQuiet
      ⟨rfl, rfl, fun c => ⟨?_, c.2⟩, fun k => markCaps_atFault k rfl, ?_, rfl, id, fun j hj => ?_⟩
  · simp only [State.stopBlocks, State.ctrlAtFault]
    split
    · exact (List.length_filter_le _ _).trans c.1
    · simp
  · simp only [State.startReads, State.stopBlocks, List.append_nil, List.filter_append, List.length_append]
    omega
  · have e := slots_atFault t j
    simp only [State.isOriginator, State.ex, State.stopBlocks] at e hj ⊢
    rw [← e]
    exact hj

theorem laneAtFault (t : State) : Quiet t t.laneAtFault :=
  Quiet.of_xen rfl rfl rfl rfl (lpt_atFault_lcl _) rfl fun c =>
    ⟨c.1, by simpa [State.laneAtFault, lpt_atFault_inbox] using c.2.1, c.2.2⟩

theorem stopStation (c : FaultCause) (t : State) (h : t.pulseLaw → t.lpt.pins.lcl = false) :
    Steady t (t.stopStation c) := by
  refine Steady.thenQuiet ?_ (placeFaultStatus _)
  split
  · exact (stopBlocks c t h).thenQuiet (laneAtFault _)
  · exact (stopBlocks c t h).thenQuiet (leaveLane _)

theorem enterFault (c : FaultCause) (t : State) : Steady t (t.enterFault c) := by
  unfold State.enterFault
  split
  · exact .refl _
  · exact (ownClear t).trans (stopStation c _ (ownClear_lcl t))

theorem purge (t : State) (p : Station) : Quiet t (t.purge p) :=
  Quiet.of_xen rfl rfl rfl rfl rfl rfl fun c => ⟨(List.length_filter_le _ _).trans c.1, c.2⟩

theorem silentSlot (p : Station) (t : State) (i : SlotId) : Quiet t (t.silentSlot p i) := by
  unfold State.silentSlot
  (repeat' split) <;> simp

theorem markSilent (p : Station) (t : State) : Steady t (t.markSilent p) := by
  have k : Quiet t ((t.setPeer p .silent).purge p) := ((Quiet.refl t).setPeer p .silent).trans (purge _ p)
  unfold State.markSilent
  dsimp only
  split
  · exact k.steady.trans (of_sct _ rfl rfl id fun k l => (k.1 l).2)
  · exact (k.trans (foldQuiet _ (silentSlot p) _ _)).steady.thenQuiet ((Quiet.refl _).dropDeferred _)

/-! ### The Order Unit -/

theorem allocate (t : State) (i : SlotId) (hr : t.originators < t.par.originLimit) (o : OrderRec) (d : Direction) :
    Steady t (t.allocate i o d) := by
  have hn : slotIds.Nodup := by decide
  have hm : i ∈ slotIds := by
    have : ∀ j : SlotId, j ∈ slotIds := by decide
    exact this i
  unfold State.allocate
  refine Steady.thenQuiet (t := { t.setEx i (some (Exchange.ofOrder o d (originTag i (t.gen i)))) with
    xen := { (t.setEx i (some (Exchange.ofOrder o d (originTag i (t.gen i))))).xen with
      originOrder := (t.setEx i (some (Exchange.ofOrder o d (originTag i (t.gen i))))).xen.originOrder ++ [i] } })
    ⟨rfl, rfl, rfl, fun c => ⟨by simpa [State.setEx, State.queueCaps] using c.1, fun j e he => ?_⟩, fun _ => ?_,
      Nat.le_refl _, id, id⟩ (by simp)
  · have he : (t.setEx i (some (Exchange.ofOrder o d (originTag i (t.gen i))))).ex j = some e := he
    rw [State.ex_setEx] at he
    split at he
    · cases he; simp [Exchange.ofOrder, Walk.start]
    · exact c.2 j e he
  have := filter_length_le_succ t.isOriginator
    (t.setEx i (some (Exchange.ofOrder o d (originTag i (t.gen i))))).isOriginator i slotIds hn fun j hj => by
      by_cases hji : j = i
      · exact .inr hji
      · left; simpa [State.isOriginator, hji] using hj
  rw [if_pos hm] at this
  simp only [State.withinOriginLimit, State.originators, State.par] at hr ⊢
  exact Nat.le_trans this hr

theorem taken (t : State) : Quiet t t.taken := by
  have k : Quiet t { t with ord := { t.ord with taken := t.ord.taken + 1, head := .absent, indexWrite := true } } :=
    Quiet.of_xen rfl rfl rfl rfl rfl rfl id
  unfold State.taken
  dsimp only
  split
  · exact (k.place _ rfl).unclaimReport _
  · exact k.unclaimReport _

theorem nextOrderTransfer (t : State) : Quiet t t.nextOrderTransfer := by
  unfold State.nextOrderTransfer
  (repeat' split)
  · exact (Quiet.refl t).place _ rfl
  · exact (Quiet.refl t).place _ rfl
  · exact .refl t

theorem takeWith (t : State) (o : OrderRec) (r : Report) : Quiet t (t.takeWith o r) := by
  unfold State.takeWith State.waitReport
  split
  · exact (Quiet.pushReport (.refl t) r).trans (taken _)
  · simp

theorem refuse (t : State) (o : OrderRec) (r : Reason) : Quiet t (t.refuse o r) := takeWith _ _ _

theorem takeMove (t : State) (o : OrderRec) (d : Direction) : Steady t (t.takeMove o d) := by
  unfold State.takeMove State.hold
  split
  · exact (refuse _ _ _).steady
  · split
    · exact Quiet.steady (by simp)
    · split
      · rename_i i _ hr
        have hl : t.originators < t.par.originLimit := by
          simp [State.originRoom] at hr
          exact hr.2
        exact (allocate t i hl o d).thenQuiet (taken _)
      · exact Quiet.steady (by simp)

theorem postOffer (t : State) (e : OfferId) (v : Offer) : Quiet t (t.postOffer e v) := by
  unfold State.postOffer
  refine Quiet.makeRescanDue (((Quiet.refl t).setOffer e (some v)).trans ?_)
  exact Quiet.of_xen rfl rfl rfl rfl rfl rfl id

theorem takeOffer (t : State) (o : OrderRec) : Quiet t (t.takeOffer o) := by
  unfold State.takeOffer
  split
  · exact refuse _ _ _
  · split
    · exact .refl _
    · exact (postOffer _ _ _).trans (taken _)

theorem takeWithdraw (t : State) (o : OrderRec) : Quiet t (t.takeWithdraw o) := by
  unfold State.takeWithdraw State.waitReport State.waitAck State.awaitRelease
  (repeat' split) <;> first
    | exact takeWith _ _ _
    | exact Quiet.trans (by simp (maxDischargeDepth := 20)) (taken _)
    | simp

theorem takeCancel (t : State) (o : OrderRec) : Quiet t (t.takeCancel o) := by
  unfold State.takeCancel State.waitAck State.awaitRelease
  (repeat' split) <;> first
    | exact takeWith _ _ _
    | exact Quiet.trans (by simp (maxDischargeDepth := 20)) (taken _)
    | simp

theorem takeContinue (t : State) (o : OrderRec) : Quiet t (t.takeContinue o) := by
  unfold State.takeContinue State.waitReport
  (repeat' split) <;> first
    | exact takeWith _ _ _
    | exact Quiet.trans (by simp (maxDischargeDepth := 20)) (taken _)
    | simp

theorem endPending (t : State) (d : Deferred) : Quiet t (t.endPending d) := by
  unfold State.endPending
  split <;> simp

theorem beginDetach (t : State) : Steady t t.beginDetach := by
  unfold State.beginDetach
  dsimp only
  refine Steady.thenQuiet ?_ (foldQuiet _ endPending _ _)
  exact (enter .detaching t fun _ _ => .inr rfl).thenQuiet (Quiet.withRescan (by simp) false none)

theorem takeDetach (t : State) (o : OrderRec) : Steady t (t.takeDetach o) := by
  unfold State.takeDetach State.waitAck
  (repeat' split)
  · exact ((beginDetach t).thenQuiet (Quiet.addAck (.refl _) _ rfl)).thenQuiet (taken _)
  · exact Quiet.steady (by simp)
  · exact (takeWith _ _ _).steady

theorem takeAttach (t : State) (o : OrderRec) : Steady t (t.takeAttach o) := by
  unfold State.takeAttach State.waitReport
  (repeat' split)
  · rename_i hl _
    have k := Quiet.pushReport (.refl t) (.ack o.tag .attach true)
    have hs : (t.pushReport (.ack o.tag .attach true)).sct.station = .offline ∨
        (t.pushReport (.ack o.tag .attach true)).sct.station = .conflict := by
      rw [k.sct]; simpa [State.offLane] using hl
    exact (k.steady.trans (startProbe _ (by rcases hs with h | h <;> simp [h]) (by rcases hs with h | h <;> simp [h]))).thenQuiet
      (taken _)
  · exact Quiet.steady (by simp)
  · exact (takeWith _ _ _).steady

theorem pulseClear (t : State) (h : t.up = true ∧ (t.sct.station = .online ∨ t.sct.station = .detaching)) :
    Steady t t.pulseClear :=
  ⟨rfl, rfl, rfl, id, id, Nat.le_refl _, id, fun _ => ⟨fun _ => h, fun _ => rfl⟩⟩

/-- An acknowledgement list entry made while LCL is driven. -/
theorem addAck (t : State) (a : AckEntry) (h : t.lpt.pins.lcl = true) : Steady t (t.addAck a) := by
  unfold State.addAck
  split
  · exact ⟨rfl, rfl, rfl, fun c => ⟨⟨c.1.1, c.1.2.1, c.1.2.2.1, c.1.2.2.2.1, by simp; omega⟩, c.2⟩, id, Nat.le_refl _,
      id, fun k => ⟨k.1, fun _ => h⟩⟩
  · exact .refl t

/-- Orders are taken in ONLINE, OFFLINE and CONFLICT with RESET released (R137). -/
theorem online_of_takesOrders {t : State} (h : t.takesOrders = true) (hl : t.offLane = false) :
    t.up = true ∧ t.sct.station = .online := by
  simp only [State.takesOrders, State.offLane, Bool.and_eq_true, Bool.or_eq_false_iff, beq_eq_false_iff_ne] at h hl
  refine ⟨h.1, ?_⟩
  cases hs : t.sct.station <;> simp_all

theorem takeClr (t : State) (o : OrderRec) (h : t.takesOrders = true) : Steady t (t.takeClr o) := by
  unfold State.takeClr State.waitAck
  (repeat' split)
  · exact (refuse _ _ _).steady
  · rename_i hr _
    have hl : t.offLane = false := by simpa [State.clrRefusal] using hr
    have k := online_of_takesOrders h hl
    exact ((pulseClear t ⟨k.1, .inl k.2⟩).trans (addAck _ _ rfl)).thenQuiet (taken _)
  · exact Quiet.steady (by simp)

theorem examine (t : State) (o : OrderRec) (h : t.takesOrders = true) : Steady t (t.examine o) := by
  unfold State.examine
  split
  · exact (refuse _ _ _).steady
  · exact takeMove _ _ _
  · exact takeMove _ _ _
  · exact (takeOffer _ _).steady
  · exact (takeWithdraw _ _).steady
  · exact (takeCancel _ _).steady
  · exact (takeContinue _ _).steady
  · exact takeDetach _ _
  · exact takeAttach _ _
  · exact takeClr _ _ h

/-- A head order is examined while orders are taken (R137). -/
theorem takesOrders_of_headOrder {t : State} {o : OrderRec} (h : t.headOrder = some o) : t.takesOrders = true := by
  unfold State.headOrder at h
  split at h
  · rename_i k; exact k.1
  · cases h

theorem examineHead (t : State) : Steady t t.examineHead := by
  unfold State.examineHead
  split
  · exact .refl _
  · rename_i h
    exact examine _ _ (takesOrders_of_headOrder h)

theorem refuseHead (t : State) : Quiet t t.refuseHead := by
  unfold State.refuseHead
  (repeat' split)
  · exact .refl _
  · exact refuse _ _ _
  · exact .refl _

theorem queueAck (t : State) (a : AckEntry) : Quiet t (t.queueAck a) := by
  refine (Quiet.pushReport (.refl t) _).trans (Quiet.of_port rfl rfl rfl rfl (fun k => ?_) (fun c => ?_) (Nat.le_refl _))
  · simp only [State.awaitsPulse, List.any_eq_true] at k ⊢
    obtain ⟨x, hx, he⟩ := k
    exact ⟨x, (List.eraseP_sublist).subset hx, he⟩
  · exact ⟨c.1, c.2.1, c.2.2.1, c.2.2.2.1, (List.length_eraseP_le).trans c.2.2.2.2⟩

theorem claimAcks (t : State) : Quiet t t.claimAcks := Quiet.of_xen rfl rfl rfl rfl rfl rfl id

theorem queueAcks (n : Nat) : ∀ t : State, Quiet t (State.queueAcks n t) := by
  induction n with
  | zero => intro t; exact .refl t
  | succ n ih =>
    intro t
    unfold State.queueAcks
    (repeat' split)
    · simp
    · exact (queueAck t _).trans (ih _)
    · exact claimAcks t

theorem settleAcks (t : State) : Quiet t t.settleAcks := queueAcks 17 t

theorem serveClaim (t : State) (c : ReportClaim) : Steady t (t.serveClaim c) := by
  cases c with
  | inboxHead => exact Quiet.steady (Quiet.takeOpen (.refl t))
  | mark i => exact Quiet.steady (Quiet.settleMarks (.refl t) i)
  | release i => exact Quiet.steady (Quiet.tryRelease (.refl t) i)
  | rescan => exact Quiet.steady (Quiet.serveRescan (.refl t))
  | head => exact examineHead t
  | acks => exact Quiet.steady (settleAcks t)

theorem flushStation (n : Nat) : ∀ t : State, Quiet t (State.flushStation n t) := by
  induction n with
  | zero => intro t; exact .refl t
  | succ n ih =>
    intro t
    unfold State.flushStation
    (repeat' split)
    · exact .refl t
    · refine Quiet.trans (Quiet.queueStation ?_ _) (ih _)
      exact Quiet.of_xen rfl rfl rfl rfl rfl rfl id
    · exact .refl t

theorem handOut (n : Nat) : ∀ t : State, Steady t (State.handOut n t) := by
  induction n with
  | zero => intro t; exact .refl t
  | succ n ih =>
    intro t
    unfold State.handOut
    dsimp only
    split
    · exact (flushStation 8 t).steady
    · split
      · exact (flushStation 8 t).steady.trans (serveClaim _ _)
      · exact ((flushStation 8 t).steady.trans (serveClaim _ _)).trans (ih _)

theorem giveEntries (t : State) : Steady t t.giveEntries := handOut 64 t

theorem failOrders (t : State) : Quiet t t.failOrders := by
  unfold State.failOrders
  split
  · exact .refl t
  · refine Quiet.stationReport (Quiet.unclaimReport ?_ _) _
    exact Quiet.of_xen rfl rfl rfl rfl rfl rfl id

end Steady

end Sys2Proof.Machine
end

