-- ==== Sys2Proof/Laws/SteadyWork.lean ====
section
/-!
SUPPORT. The link outcomes, the lane, the ends of transfers and the arbiters keep the station's laws.
-/

namespace Sys2Proof.Machine

namespace Steady

variable {s t : State}

/-! ### The transmit slot and the link outcomes -/

theorem emptyTx (t : State) : Quiet t t.emptyTx := Quiet.of_xen rfl rfl rfl rfl rfl rfl id

theorem freeInSlot (t : State) : Quiet t t.freeInSlot :=
  Quiet.of_xen rfl rfl rfl rfl rfl rfl fun c => ⟨(List.length_filter_le _ _).trans c.1, c.2⟩

theorem setPhase (t : State) (p : LanePhase) (a : Option Ack) : Quiet t (t.setPhase p a) :=
  Quiet.of_xen rfl rfl rfl rfl rfl rfl id

theorem markOpenHanded (t : State) (c : CtrlEntry) : Quiet t (t.markOpenHanded c) := by
  unfold State.markOpenHanded
  (repeat' split) <;> simp

theorem handOver (t : State) : Quiet t t.handOver := by
  unfold State.handOver
  (repeat' split)
  · exact .refl t
  · exact .refl t
  · refine Quiet.trans ?_ (markOpenHanded _ _)
    exact Quiet.of_xen rfl rfl rfl rfl rfl rfl fun c => by simpa [State.queueCaps] using c

theorem handBuffer (t : State) (b : BufId) : Quiet t (t.handBuffer b) := by
  unfold State.handBuffer
  (repeat' split)
  · exact .refl t
  · simp
  · exact Quiet.of_xen rfl rfl rfl rfl rfl rfl id

theorem returnBuffer (t : State) (b : BufId) (v : OutBuffer) : Quiet t (t.returnBuffer b v) := by
  unfold State.returnBuffer
  dsimp only
  split <;> exact Quiet.of_xen rfl rfl rfl rfl rfl rfl id

theorem takeBack (t : State) : Quiet t t.takeBack := by
  unfold State.takeBack
  (repeat' split) <;> first
    | exact .refl t
    | exact (returnBuffer _ _ _).trans (handOver _)

theorem chooseData (t : State) : Quiet t t.chooseData := by
  unfold State.chooseData
  (repeat' split)
  · exact .refl t
  · exact .refl t
  · refine Quiet.trans ?_ (handBuffer _ _)
    exact Quiet.of_xen rfl rfl rfl rfl rfl rfl id

theorem chooseFrame (t : State) : Quiet t t.chooseFrame := by
  unfold State.chooseFrame
  (repeat' split)
  · exact handOver t
  · exact .refl t
  · refine Quiet.trans ?_ (handBuffer _ _)
    exact Quiet.of_xen rfl rfl rfl rfl rfl rfl id
  · exact chooseData t

theorem receiveTenure (t : State) (bytes : List Byte) : Steady t (t.receiveTenure bytes) := by
  unfold State.receiveTenure
  (repeat' split)
  · rename_i h
    exact numberTaken t h.1
  · exact (setPhase _ _ _).steady
  · exact (setPhase _ _ _).steady

theorem sendTenure (t : State) (f : TxFrame) (bytes : List Byte) : Steady t (t.sendTenure f bytes) := by
  unfold State.sendTenure
  dsimp only
  split
  · rename_i h
    exact Steady.trans (Quiet.steady (Quiet.of_xen rfl rfl rfl rfl rfl rfl id)) (numberTaken _ h.2)
  · exact Quiet.steady (Quiet.of_xen rfl rfl rfl rfl rfl rfl id)

theorem slotTaken (t : State) (i : SlotId) (f : Frame) (e : Exchange) : Quiet t (t.slotTaken i f e) := by
  unfold State.slotTaken
  (repeat' split) <;> simp

theorem ctrlTaken (t : State) (c : CtrlEntry) : Steady t (t.ctrlTaken c) := by
  unfold State.ctrlTaken
  (repeat' split) <;> first
    | exact .refl t
    | exact numberTaken t (by rename_i h; exact h.2)
    | exact (slotTaken _ _ _ _).steady

theorem confirmIfDone (t : State) (i : SlotId) : Quiet t (t.confirmIfDone i) := by
  unfold State.confirmIfDone Exchange.startQuiet Exchange.startTimer
  (repeat' split) <;> simp

theorem ackData (t : State) (i : SlotId) (n : Nat) : Quiet t (t.ackData i n) := by simp [State.ackData]

theorem dataTaken (t : State) (b : BufId) : Quiet t (t.dataTaken b) := by
  unfold State.dataTaken
  split
  · exact .refl t
  · dsimp only
    (repeat' split) <;> first
      | exact (Quiet.refl t).setBuffer b none
      | refine Quiet.trans ?_ (confirmIfDone _ _)
        exact Quiet.settleMarks (((Quiet.refl t).setBuffer b none).trans (ackData _ _ _)) _

theorem requeue (t : State) (c : CtrlEntry) (n : Nat) : Quiet t (t.requeue c n) := (freeInSlot t).pushEntry _

theorem mergeCredit (t : State) (i : SlotId) (n : Nat) : Quiet t (t.mergeCredit i n) := by
  unfold State.mergeCredit
  refine (freeInSlot t).trans ?_
  exact Quiet.of_xen rfl rfl rfl rfl rfl rfl fun c => by simpa [State.queueCaps] using c

theorem slotBusy (t : State) (i : SlotId) (c : CtrlEntry) (e : Exchange) (n : Nat) : Quiet t (t.slotBusy i c e n) := by
  unfold State.slotBusy
  (repeat' split) <;> first
    | exact freeInSlot t
    | exact (freeInSlot t).settle i
    | exact (freeInSlot t).endWith i _
    | exact mergeCredit _ _ _
    | exact requeue _ _ _

theorem ctrlBusy (t : State) (c : CtrlEntry) : Quiet t (t.ctrlBusy c) := by
  unfold State.ctrlBusy
  (repeat' split) <;> first
    | exact freeInSlot t
    | exact requeue _ _ _
    | exact slotBusy _ _ _ _ _

theorem linkTaken (t : State) (f : TxFrame) : Steady t (t.linkTaken f) := by
  unfold State.linkTaken
  (repeat' split)
  · exact ((emptyTx t).trans (dataTaken _ _)).steady
  · exact (emptyTx t).steady
  · exact ((emptyTx t).trans (freeInSlot _)).steady.trans (ctrlTaken _ _)

theorem linkBusy (t : State) (f : TxFrame) : Quiet t (t.linkBusy f) := by
  unfold State.linkBusy
  (repeat' split)
  · exact (emptyTx t).setBuffer _ _
  · exact emptyTx t
  · exact (emptyTx t).trans (ctrlBusy _ _)

theorem linkExhausted (t : State) (f : TxFrame) : Steady t (t.linkExhausted f) := by
  have k := (emptyTx t).trans (freeInSlot _)
  unfold State.linkExhausted
  (repeat' split)
  · exact ((emptyTx t).setBuffer _ _).steady.trans (markSilent _ _)
  · exact k.steady.trans (numberFree _)
  · exact k.steady
  · exact k.steady.trans (markSilent _ _)

theorem removeInFault (t : State) (f : TxFrame) (a : Option Ack) : Steady t (t.removeInFault f a) := by
  unfold State.removeInFault
  split
  · exact (emptyTx t).steady.trans (markSilent _ _)
  · exact (emptyTx t).steady

theorem readSlot (t : State) (f : TxFrame) (a : Option Ack) : Steady t (t.readSlot f a) := by
  unfold State.readSlot
  (repeat' split)
  · exact removeInFault _ _ _
  · exact linkTaken _ _
  · exact (linkBusy _ _).steady
  · exact .refl t
  · exact linkExhausted _ _

theorem heard (t : State) (p : Station) : Quiet t (t.heard p) := by
  unfold State.heard
  split <;> simp

theorem pushInbox (t : State) (f : Frame) : Quiet t (t.pushInbox f) := by
  unfold State.pushInbox
  split
  · exact Quiet.of_xen rfl rfl rfl rfl rfl rfl fun c => ⟨c.1, by simp; omega, c.2.2⟩
  · exact .refl t

theorem dispatchFrame (t : State) (f : Frame) : Quiet t (t.dispatchFrame f) := by
  unfold State.dispatchFrame
  split
  · simp
  · exact pushInbox _ _

theorem dispatch (t : State) (a : Ack) (w : Received) : Quiet t (t.dispatch a w) := by
  unfold State.dispatch
  (repeat' split) <;> first
    | exact .refl t
    | exact heard _ _
    | exact (heard _ _).trans (dispatchFrame _ _)

/-! ### The lane's steps -/

/-- Where lane clear is not taken, no CLR awaits its pulse and LCL is not driven. -/
theorem ignoreClear (t : State) (h : t.takesClear = false) : Steady t t.ignoreClear := by
  have hp : t.pulseLaw → t.awaitsPulse = true → False := fun k a => by
    rcases k.1 (k.2 a) with ⟨hu, hs | hs⟩ <;> simp [State.takesClear, hu, hs] at h
  unfold State.ignoreClear
  split <;> exact ⟨rfl, rfl, rfl, id, id, Nat.le_refl _, id, fun k => ⟨fun l => (nomatch l), fun a => (hp k a).elim⟩⟩

theorem window (t : State) (bids : List Bid) (w : Bool) : Quiet t (t.window bids w) := by
  have hw : ∀ l : LanePort, l.won.inbox = l.inbox := fun _ => rfl
  have he : ∀ (l : LanePort) (b : Bool), (l.emptyWindow b).inbox = l.inbox := fun l b => by
    unfold LanePort.emptyWindow
    split <;> rfl
  have hl : ∀ (l : LanePort) (b : Bool), (l.emptyWindow b).pins.lcl = l.pins.lcl := fun l b => by
    unfold LanePort.emptyWindow
    split <;> rfl
  unfold State.window
  dsimp only
  (repeat' split) <;>
    exact Quiet.of_xen rfl rfl rfl rfl (by first | rfl | exact hl _ _) rfl fun c => ⟨c.1, by simpa [hw, he] using c.2.1, c.2.2⟩

theorem tenure (t : State) (bytes : List Byte) : Steady t (t.tenure bytes) := by
  unfold State.tenure
  (repeat' split) <;> first
    | exact .refl t
    | exact (setPhase _ _ _).steady
    | exact sendTenure _ _ _
    | exact receiveTenure _ _

theorem ackSlot (t : State) (a b : Bool) : Steady t (t.ackSlot a b) := by
  unfold State.ackSlot
  split
  · split
    · exact (setPhase _ _ _).steady
    · exact (setPhase _ _ _).steady.trans (readSlot _ _ _)
  · exact ((setPhase _ _ _).trans (dispatch _ _ _)).steady
  · exact (setPhase _ _ _).steady
  · exact .refl t
  · exact .refl t
  · exact .refl t

theorem placeFaultAbort (t : State) : Steady t t.placeFaultAbort := by
  unfold State.placeFaultAbort
  (repeat' split)
  · exact .refl t
  · exact .refl t
  · rename_i rest _ _
    exact (of_sct { t.sct with faultAborts := rest } rfl rfl id fun k l => (k.1 l).2).thenQuiet ((Quiet.refl _).pushCtrl _ _)

theorem serveCtrl (t : State) (c : CtrlClaim) : Quiet t (t.serveCtrl c) := by
  unfold State.serveCtrl
  split
  · refine Quiet.pushCtrl ?_ _ _
    exact Quiet.of_xen rfl rfl rfl rfl rfl rfl id
  · split
    · exact (Quiet.refl t).unclaimCtrl _
    · split
      · exact ((Quiet.refl t).unclaimCtrl _).raiseCredit _ _
      · exact ((Quiet.refl t).unclaimCtrl _).pushCtrl _ _
  · exact (((Quiet.refl t).unclaimCtrl _).pushCtrl _ _).dropDeferred _
  · simp
  · simp

theorem giveCtrl (t : State) : Quiet t t.giveCtrl := by
  unfold State.giveCtrl
  (repeat' split)
  · exact .refl t
  · refine Quiet.placeAbort ?_ _
    exact Quiet.of_xen rfl rfl rfl rfl rfl rfl id
  · exact .refl t
  · exact serveCtrl _ _

theorem completeDetach (t : State) : Steady t t.completeDetach :=
  (((ownClear t).thenQuiet ((leaveLane _).trans (emptyInbox _))).trans (enter .offline _ fun k l =>
    absurd l (by simpa [State.emptyInbox, State.leaveLane] using ownClear_lcl t ⟨k.1, k.2⟩))).thenQuiet
      ((Quiet.refl _).stationReport _)

theorem endPresence (t : State) : Steady t t.endPresence :=
  (of_sct { t.sct with present := false } rfl rfl id fun k l => (k.1 l).2).thenQuiet (leaveLane _)

/-! ### The inbox -/

theorem firstOfReceiver (t : State) (i : SlotId) : Quiet t (t.firstOfReceiver i) := by
  unfold State.firstOfReceiver
  (repeat' split) <;> simp

@[simp] theorem opened_role (n : Nat) (e : Exchange) : (e.opened n).role = e.role := by
  unfold Exchange.opened
  split <;> simp

@[simp] theorem opened_walk (n : Nat) (e : Exchange) : (e.opened n).walk = e.walk := by
  unfold Exchange.opened
  split <;> simp

theorem openExchange (t : State) (i : SlotId) (n : Nat) (d : Direction) : Quiet t (t.openExchange i n d) := by
  unfold State.openExchange
  dsimp only
  split
  · exact (((Quiet.refl t).withdraw i _).updEx i _ (by simp) (by simp)).openSender i
  · exact ((((Quiet.refl t).withdraw i _).updEx i _ (by simp) (by simp)).openReceiver i).trans (firstOfReceiver _ _)

theorem answered (t : State) (i : SlotId) (n : Nat) : Quiet t (t.answered i n) := by
  unfold State.answered
  (repeat' split) <;> first
    | exact openExchange _ _ _ _
    | simp

theorem deferredHeld (t : State) (i : SlotId) : Quiet t (t.deferredHeld i) := by
  unfold State.deferredHeld Exchange.startTimer
  (repeat' split) <;> simp

theorem deferredFull (t : State) (i : SlotId) : Quiet t (t.deferredFull i) := by
  unfold State.deferredFull Exchange.startTimer
  (repeat' split) <;> simp

theorem credited (t : State) (i : SlotId) (n : Nat) : Quiet t (t.credited i n) := by
  unfold State.credited
  (repeat' split) <;> simp

theorem held (t : State) (i : SlotId) : Quiet t (t.held i) := by
  unfold State.held
  (repeat' split) <;> simp

theorem doneAt (t : State) (i : SlotId) (n : Nat) : Quiet t (t.doneAt i n) := by
  unfold State.doneAt
  (repeat' split) <;> simp

theorem abortFrom (t : State) (f : Frame) (r : Reason) : Quiet t (t.abortFrom f r) := by
  unfold State.abortFrom State.abortedAt
  (repeat' split) <;> simp

theorem atSlot (t : State) (f : Frame) (b : Bool) (act : SlotId → State → State) (h : ∀ i, Quiet t (act i t)) :
    Quiet t (t.atSlot f b act) := by
  unfold State.atSlot
  (repeat' split)
  · exact h _
  · simp
  · exact .refl t

/-! ### The expiries -/

theorem answerExpired (t : State) (i : SlotId) (e : Exchange) : Quiet t (t.answerExpired i e) := by
  unfold State.answerExpired Exchange.clearTimer
  split <;> simp

theorem backoffExpired (t : State) (i : SlotId) : Quiet t (t.backoffExpired i) := by
  unfold State.backoffExpired Exchange.clearTimer
  simp

/-! ### The ends of transfers -/

theorem endRequest (t : State) : Quiet t t.endRequest :=
  Quiet.of_port rfl rfl rfl rfl id id (by simp [State.startReads, State.endRequest])

theorem busTick (t : State) : Quiet t t.busTick := by
  unfold State.busTick
  (repeat' split) <;> exact Quiet.of_port rfl rfl rfl rfl id id (Nat.le_refl _)

theorem advanceProducer (t : State) : Quiet t t.advanceProducer :=
  Quiet.of_xen rfl rfl rfl rfl rfl rfl fun c => ⟨c.1, c.2.1, by
    have := c.2.2.1
    simp [State.advanceProducer] at this ⊢
    omega, c.2.2.2⟩

theorem setReportPin (t : State) : Quiet t t.setReportPin := Quiet.of_xen rfl rfl rfl rfl rfl rfl id

theorem withWriter (t : State) (v : Writer) : Quiet t { t with rpt := { t.rpt with writer := v } } :=
  Quiet.of_xen rfl rfl rfl rfl rfl rfl id

theorem endInFault (t : State) (b : Bool) (r : Request) : Quiet t (t.endInFault b r) := by
  unfold State.endInFault
  dsimp only
  split
  · split
    · exact ((endRequest t).trans (withStatus _ _)).trans (placeFaultStatus _)
    · exact (endRequest t).trans (placeFaultStatus _)
    · exact (endRequest t).trans (placeFaultStatus _)
  · split
    · exact ((endRequest t).trans (advanceProducer _)).trans (placeFaultStatus _)
    · exact ((endRequest t).trans (withWriter _ _)).trans (placeFaultStatus _)
  · exact ((endRequest t).trans (withWriter _ _)).trans (placeFaultStatus _)
  all_goals exact (endRequest t).trans (placeFaultStatus _)

theorem acceptRelease (t : State) (w : BitVec 16) : Quiet t (t.acceptRelease w) := by
  unfold State.acceptRelease
  split
  · refine Quiet.trans ?_ (setReportPin _)
    exact Quiet.of_xen rfl rfl rfl rfl rfl rfl id
  · exact .refl t

theorem acceptProducer (t : State) (w : BitVec 16) : Quiet t (t.acceptProducer w) := by
  unfold State.acceptProducer
  split
  · exact Quiet.of_xen rfl rfl rfl rfl rfl rfl id
  · exact .refl t

theorem nextRingRead (t : State) : Quiet t t.nextRingRead := by
  unfold State.nextRingRead
  refine Quiet.trans ?_ (nextOrderTransfer _)
  exact Quiet.of_xen rfl rfl rfl rfl rfl rfl id

theorem dropEntryRead (t : State) (i : SlotId) (g : Gen) : Quiet t (t.dropEntryRead i g) :=
  Quiet.of_xen rfl rfl rfl rfl rfl rfl id

theorem fillWaiting (t : State) (i : SlotId) : Quiet t (t.fillWaiting i) := by
  unfold State.fillWaiting
  split <;> simp

theorem walkOn (t : State) (i : SlotId) : Quiet t (t.walkOn i) := by
  unfold State.walkOn
  (repeat' split) <;> first
    | exact fillWaiting _ _
    | simp

theorem useEntry (t : State) (i : SlotId) (r : EntryRead) : Quiet t (t.useEntry i r) := by
  unfold State.useEntry
  split
  · simp
  · exact (Quiet.updEx (.refl t) i _ (by simp) (by simp [Walk.follow])).trans (walkOn _ _)
  · exact (Quiet.updEx (.refl t) i _ (by simp) (by simp [Walk.cache])).trans (walkOn _ _)

theorem entryDone (t : State) (i : SlotId) (g : Gen) (bytes : List Byte) : Quiet t (t.entryDone i g bytes) := by
  unfold State.entryDone
  dsimp only
  (repeat' split)
  · exact (endRequest t).endTransfer _ _
  · exact (endRequest t).endTransfer _ _
  · exact ((endRequest t).endTransfer _ _).trans (dropEntryRead _ _ _)
  · exact ((endRequest t).endTransfer _ _).trans (useEntry _ _ _)

theorem dataDone (t : State) (i : SlotId) (g : Gen) (b : BufId) (bytes : List Byte) : Quiet t (t.dataDone i g b bytes) := by
  unfold State.dataDone
  dsimp only
  (repeat' split)
  · exact (endRequest t).endTransfer _ _
  · exact ((endRequest t).endTransfer _ _).setBuffer _ _
  · exact (((endRequest t).endTransfer _ _).setBuffer _ _).fillOn _
  · exact (endRequest t).endTransfer _ _
  · exact (endRequest t).endTransfer _ _

theorem drainDone (t : State) (i : SlotId) (g : Gen) (c : CellId) (n : Nat) : Quiet t (t.drainDone i g c n) := by
  have k := ((endRequest t).endTransfer i g).setDrain .idle
  unfold State.drainDone
  dsimp only
  generalize ((t.endRequest.endTransfer i g).setDrain .idle) = u at k ⊢
  split
  · exact k.freeReclaimed _
  · cases u.ex i with
    | none => exact k
    | some e =>
      dsimp only
      cases e.state <;> first
        | exact k.drained _ _ _
        | exact k.freeReclaimed _

theorem localError (t : State) (i : SlotId) (g : Gen) : Quiet t (t.localError i g) := by
  unfold State.localError
  dsimp only
  split <;> simp

theorem dataFailed (t : State) (i : SlotId) (g : Gen) (b : BufId) : Quiet t (t.dataFailed i g b) := by
  unfold State.dataFailed
  dsimp only
  (repeat' split)
  · exact localError _ _ _
  · exact (localError _ _ _).setBuffer _ _
  · exact localError _ _ _

theorem withIndexWrite (t : State) : Quiet t { t with ord := { t.ord with indexWrite := false } } :=
  Quiet.of_xen rfl rfl rfl rfl rfl rfl id

theorem failed (t : State) (r : Request) : Steady t (t.failed r) := by
  unfold State.failed
  (repeat' split)
  · exact (endInFault _ _ _).steady
  · exact ((localError _ _ _).trans (dropEntryRead _ _ _)).steady
  · exact (dataFailed _ _ _ _).steady
  · exact (((Quiet.setDrain (.refl t) _).trans (localError _ _ _)).freeReclaimed _).steady
  · exact (((withIndexWrite t).trans (nextRingRead _)).trans (failOrders _)).steady
  · exact (((Quiet.setHead (.refl t) _).trans (nextOrderTransfer _)).trans (failOrders _)).steady
  · exact (((withIndexWrite t).trans (nextOrderTransfer _)).trans (failOrders _)).steady
  all_goals exact enterFault _ _

/-- The request the port chooses is one that waits (R161). -/
theorem mem_of_nextRequest {t : State} {r : Request} (h : t.nextRequest = some r) : r ∈ t.lmp.waiting := by
  have key : ∀ (l : List Request) (b : Option Request), l.foldl State.earlier b = some r → r ∈ l ∨ b = some r := by
    intro l
    induction l with
    | nil => exact fun b h => .inr h
    | cons a l ih =>
      intro b h
      rcases ih _ h with h | h
      · exact .inl (List.mem_cons_of_mem _ h)
      · unfold State.earlier at h
        split at h
        · exact .inl (by simp_all)
        · split at h
          · exact .inl (by simp_all)
          · exact .inr h
  simpa using key _ _ h

/-- A request that has left the waiting list, and is in progress or gone. -/
theorem withTransfer {t : State} {r : Request} (hr : r ∈ t.lmp.waiting) (q : Option Request) (g : BusProgress)
    (hq : q = t.lmp.transfer ∨ q = some r) :
    Quiet t { t with lmp := { waiting := t.lmp.waiting.erase r, transfer := q, progress := g } } := by
  refine Quiet.of_port rfl rfl rfl rfl id id ?_
  simp only [State.startReads, List.filter_append, List.length_append]
  rcases hq with rfl | rfl
  · exact Nat.add_le_add_left ((List.erase_sublist.filter _).length_le) _
  · have := ((List.perm_cons_erase hr).filter Request.isStart).length_eq
    rw [this, List.filter_cons]
    simp only [Option.toList_some, List.filter_cons, List.filter_nil]
    split <;> simp
    omega

theorem chooseTransfer (n : Nat) : ∀ t : State, Steady t (State.chooseTransfer n t) := by
  induction n with
  | zero => intro t; exact .refl t
  | succ n ih =>
    intro t
    unfold State.chooseTransfer
    split
    · exact .refl t
    · rename_i r hr
      have hm := mem_of_nextRequest hr
      dsimp only
      split
      · exact ((withTransfer hm _ _ (.inl rfl)).steady.trans (failed _ _)).trans (ih _)
      · exact (withTransfer hm _ _ (.inr rfl)).steady

theorem entryWritten (t : State) : Quiet t t.entryWritten := by
  unfold State.entryWritten
  exact ((endRequest t).trans (withWriter _ _)).place _ rfl

theorem indexWritten (t : State) : Steady t t.indexWritten := by
  have k := ((endRequest t).trans (advanceProducer _)).trans (setReportPin _)
  unfold State.indexWritten
  dsimp only
  split
  · exact k.steady.trans (enterFault _ _)
  · exact k.steady.trans (giveEntries _)

theorem statusWritten (t : State) : Quiet t t.statusWritten := by
  unfold State.statusWritten
  split
  · exact (endRequest t).trans (placeStatus _)
  all_goals exact (endRequest t).trans (withStatus _ _)

/-! ### The arbiters -/

theorem startFill (t : State) (i : SlotId) (b : BufId) : Quiet t (t.startFill i b) := by
  unfold State.startFill
  split
  · exact .refl t
  · refine Quiet.fillOn ?_ b
    exact Quiet.of_xen rfl rfl rfl rfl rfl rfl id

theorem chooseFill (t : State) : Quiet t t.chooseFill := by
  unfold State.chooseFill
  (repeat' split)
  · exact .refl t
  · exact .refl t
  · exact startFill _ _ _

theorem chooseGrant (t : State) : Quiet t t.chooseGrant := by
  unfold State.chooseGrant
  (repeat' split)
  · exact .refl t
  · exact .refl t
  · rename_i i _
    refine Quiet.dueCredit (((Quiet.refl t).grant i).trans ?_) _
    exact Quiet.of_xen rfl rfl rfl rfl rfl rfl id

theorem chooseDrain (t : State) : Quiet t t.chooseDrain := by
  unfold State.chooseDrain
  (repeat' split) <;> first
    | exact .refl t
    | refine Quiet.drainOn ?_ _
      exact Quiet.of_xen rfl rfl rfl rfl rfl rfl id

theorem startWrite (t : State) : Quiet t t.startWrite := by
  unfold State.startWrite State.startEntry
  (repeat' split) <;> first
    | exact .refl t
    | exact placeStatus t
    | exact (withWriter t _).place _ rfl

end Steady

end Sys2Proof.Machine
end

