-- ==== Sys2Proof/Laws/Retire.lean ====
section
/-!
SUPPORT. What entry to RETIRING does (R18), once: the operation retire, cited instead of unfolded.
-/

namespace Sys2Proof.Machine.State

theorem mapAll_get {α : Type} {n : Nat} (f : Fin n → α → α) (v : Vector α n) (i : Fin n) :
    (mapAll f v)[i] = f i v[i] := by
  simp [mapAll]

theorem withdraw_ctrl (s : State) (i : SlotId) : (s.withdraw i fun _ => true).txq.ctrl = s.ctrlWithout i := by
  simp [withdraw, ctrlWithout, CtrlEntry.isOf, bne]

theorem buffer_giveUp (s : State) (i : SlotId) (b : BufId) :
    (s.giveUpBuffers i).buffer b = s.giveUpBuffer i b (s.buffer b) := mapAll_get _ _ _

theorem cell_reclaim (s : State) (i : SlotId) (c : CellId) :
    (s.reclaimCells i).cell c = s.reclaimCell i c (s.cell c) := mapAll_get _ _ _

/-- The state at entry to RETIRING before an owed ABORT is placed. -/
def stripped (i : SlotId) (r : Result) (owes : Option Reason) (s : State) : State :=
  s |>.withdraw i (fun _ => true) |>.giveUpBuffers i |>.reclaimCells i |>.withdrawRequests i
    |>.unclaimReport (.mark i) |>.updEx i (Exchange.enterRetiring r owes)

theorem retire_eq {s : State} {i : SlotId} {e : Exchange} (h : s.ex i = some e) (hs : e.state ≠ .retiring) (r : Result)
    (owes : Option Reason) :
    s.retire i r owes = if owes.isSome then (s.stripped i r owes).oweAbort i else s.stripped i r owes := by
  unfold retire stripped
  rw [h]
  dsimp only
  split <;> first
    | exact absurd ‹_› hs
    | rfl


theorem withdrawRequests_of_some {s : State} {i : SlotId} {e : Exchange} (h : s.ex i = some e) :
    s.withdrawRequests i =
      { s.setEx i (some { e with transfers := e.transfers - (s.lmp.waiting.filter (Request.isOf i (s.gen i))).length }) with
        lmp := { s.lmp with waiting := s.lmp.waiting.filter fun q => !q.isOf i (s.gen i) } } := by
  simp [withdrawRequests, updEx_of_some h]

/-- The state before the record enters RETIRING. -/
def cutOff (i : SlotId) (s : State) : State :=
  s |>.withdraw i (fun _ => true) |>.giveUpBuffers i |>.reclaimCells i

theorem cutOff_ex (i j : SlotId) (s : State) : (s.cutOff i).ex j = s.ex j := rfl
theorem cutOff_gen (i j : SlotId) (s : State) : (s.cutOff i).gen j = s.gen j := rfl
theorem cutOff_lmp (i : SlotId) (s : State) : (s.cutOff i).lmp = s.lmp := rfl
theorem cutOff_ctrl (i : SlotId) (s : State) : (s.cutOff i).txq.ctrl = s.ctrlWithout i := withdraw_ctrl s i
theorem inProgress_congr {s t : State} (hl : t.lmp = s.lmp) (p : Purpose) : t.inProgress p = s.inProgress p := by
  simp only [inProgress, hl]

theorem giveUpBuffer_congr {s t : State} (i : SlotId) (hg : t.gen i = s.gen i) (hl : t.lmp = s.lmp) (b : BufId)
    (v : Option OutBuffer) : t.giveUpBuffer i b v = s.giveUpBuffer i b v := by
  cases v with
  | none => rfl
  | some v => simp only [giveUpBuffer, inProgress_congr hl, hg]

theorem reclaimCell_congr {s t : State} (i : SlotId) (hg : t.gen i = s.gen i) (hl : t.lmp = s.lmp) (c : CellId)
    (v : Option Cell) : t.reclaimCell i c v = s.reclaimCell i c v := by
  cases v with
  | none => rfl
  | some v => simp only [reclaimCell, inProgress_congr hl, hg]

theorem buffer_of_fbd {s t : State} (h : t.fbd = s.fbd) (b : BufId) : t.buffer b = s.buffer b := by simp [buffer, h]
theorem cell_of_stg {s t : State} (h : t.stg = s.stg) (c : CellId) : t.cell c = s.cell c := by simp [cell, h]

theorem cutOff_buffer (i : SlotId) (s : State) (b : BufId) : (s.cutOff i).buffer b = s.giveUpBuffer i b (s.buffer b) := by
  have h1 : (s.cutOff i).fbd = ((s.withdraw i fun _ => true).giveUpBuffers i).fbd := rfl
  have h2 : (s.withdraw i fun _ => true).fbd = s.fbd := rfl
  rw [buffer_of_fbd h1, buffer_giveUp, buffer_of_fbd h2]
  exact giveUpBuffer_congr i rfl rfl b _

theorem cutOff_cell (i : SlotId) (s : State) (c : CellId) : (s.cutOff i).cell c = s.reclaimCell i c (s.cell c) := by
  have h2 : ((s.withdraw i fun _ => true).giveUpBuffers i).stg = s.stg := rfl
  unfold cutOff
  rw [cell_reclaim, cell_of_stg h2]
  exact reclaimCell_congr i rfl rfl c _

theorem updEx_updEx (i : SlotId) (f g : Exchange → Exchange) (s : State) :
    (s.updEx i f).updEx i g = s.updEx i fun e => g (f e) := by
  cases h : s.ex i with
  | none => simp [updEx_of_none h]
  | some e =>
    rw [updEx_of_some h, updEx_of_some h, updEx_of_some (ex_setEx_self _ _ _)]
    simp [setEx]

/-- The stripping with its record written out. -/
theorem stripped_eq {s : State} {i : SlotId} {e : Exchange} (h : s.ex i = some e) (r : Result) (owes : Option Reason) :
    s.stripped i r owes =
      { (s.cutOff i).setEx i (some (Exchange.enterRetiring r owes
          { e with transfers := e.transfers - (s.lmp.waiting.filter (Request.isOf i (s.gen i))).length })) with
        lmp := { s.lmp with waiting := s.lmp.waiting.filter fun q => !q.isOf i (s.gen i) },
        rpt := { s.rpt with line := s.rpt.line.filter (· != .mark i) } } := by
  have h2 : (s.cutOff i).ex i = some e := h
  have h3 : ∀ (t : State) (x : Option Exchange) (l : MemoryPort) (q : ReportUnit),
      ({ t.setEx i x with lmp := l, rpt := q } : State).ex i = x := fun t x l q => ex_setEx_self i x t
  show ((((s.cutOff i).withdrawRequests i).unclaimReport (.mark i)).updEx i (Exchange.enterRetiring r owes)) = _
  rw [withdrawRequests_of_some h2]
  unfold unclaimReport
  rw [updEx_of_some (h3 _ _ _ _)]
  simp only [setEx, Vector.set_set, Fin.getElem_fin, Vector.getElem_set_self]
  rfl

/-- What the stripping leaves, field by field; the ABORT has not been placed. -/
theorem stripped_facts {s : State} {i : SlotId} {e : Exchange} (h : s.ex i = some e) (r : Result) (owes : Option Reason) :
    (s.stripped i r owes).ex i = some (Exchange.enterRetiring r owes
      { e with transfers := e.transfers - (s.lmp.waiting.filter (Request.isOf i (s.gen i))).length }) ∧
    (∀ j, j ≠ i → (s.stripped i r owes).ex j = s.ex j) ∧ (∀ j, (s.stripped i r owes).gen j = s.gen j) ∧
    (s.stripped i r owes).txq.ctrl = s.ctrlWithout i ∧ (s.stripped i r owes).txq.owed = s.txq.owed ∧
    (s.stripped i r owes).lmp.waiting = s.lmp.waiting.filter (fun q => !q.isOf i (s.gen i)) ∧
    (s.stripped i r owes).lmp.transfer = s.lmp.transfer ∧
    (∀ b, (s.stripped i r owes).buffer b = s.giveUpBuffer i b (s.buffer b)) ∧
    (∀ c, (s.stripped i r owes).cell c = s.reclaimCell i c (s.cell c)) ∧
    (s.stripped i r owes).xen.offers = s.xen.offers ∧ (s.stripped i r owes).xen.postOrder = s.xen.postOrder ∧
    (s.stripped i r owes).xen.deferred = s.xen.deferred ∧ (s.stripped i r owes).rpt.queue = s.rpt.queue ∧
    (s.stripped i r owes).sct = s.sct ∧ (s.stripped i r owes).ord = s.ord ∧ (s.stripped i r owes).lpt = s.lpt := by
  rw [stripped_eq h]
  refine ⟨ex_setEx_self _ _ _, fun j hj => ex_setEx_of_ne hj _ _, fun j => gen_setEx _ _ _ _, cutOff_ctrl i s, rfl, rfl, rfl,
    cutOff_buffer i s, cutOff_cell i s, rfl, rfl, rfl, rfl, rfl, rfl, rfl⟩

theorem updEx_with_txq {t : State} {i : SlotId} {e : Exchange} (h : t.ex i = some e) (q : TransmitQueue) (w : Bool)
    (f : Exchange → Exchange) :
    ({ t with txq := q, xen := { t.xen with rescanWaits := w } } : State).updEx i f =
      ({ t with txq := q, xen := { t.xen with rescanWaits := w } } : State).setEx i (some (f e)) :=
  updEx_of_some (s := { t with txq := q, xen := { t.xen with rescanWaits := w } }) h f

/-- A buffer given up is not READY (R84). -/
theorem giveUpBuffer_not_ready {s : State} {i : SlotId} {b : BufId} {o : Option OutBuffer} {v : OutBuffer}
    (h : s.giveUpBuffer i b o = some v) : ¬(v.slot = i ∧ v.gen = s.gen i ∧ v.state = .ready) := by
  cases o with
  | none => simp [giveUpBuffer] at h
  | some u =>
    rintro ⟨h1, h2, h3⟩
    unfold giveUpBuffer at h
    dsimp only at h
    split at h
    · split at h
      · simp at h
      · split at h
        · injection h with h; subst h; simp at h3
        · split at h
          · injection h with h; subst h; simp_all
          · simp at h
      · injection h with h; subst h; simp_all
      · injection h with h; subst h; simp_all
    · injection h with h; subst h; rename_i hn; exact absurd ⟨h1, h2⟩ hn

theorem giveUpBuffer_other {s : State} {i : SlotId} (b : BufId) {v : OutBuffer} (h : ¬(v.slot = i ∧ v.gen = s.gen i)) :
    s.giveUpBuffer i b (some v) = some v := by
  simp only [giveUpBuffer, if_neg h]

/-- A cell of the slot that is left after its reclaiming is RECLAIMING (R104). -/
theorem reclaimCell_own {s : State} {i : SlotId} {c : CellId} {o : Option Cell} {v : Cell}
    (h : s.reclaimCell i c o = some v) (h1 : v.slot = i) (h2 : v.gen = s.gen i) : v.state = .reclaiming := by
  cases o with
  | none => simp [reclaimCell] at h
  | some u =>
    unfold reclaimCell at h
    dsimp only at h
    split at h
    · split at h
      · simp at h
      · split at h
        · injection h with h; subst h; rfl
        · simp at h
      · injection h with h; subst h; assumption
    · injection h with h; subst h; rename_i hn; exact absurd ⟨h1, h2⟩ hn

theorem reclaimCell_other {s : State} {i : SlotId} (c : CellId) {v : Cell} (h : ¬(v.slot = i ∧ v.gen = s.gen i)) :
    s.reclaimCell i c (some v) = some v := by
  simp only [reclaimCell, if_neg h]

/-- Entry to RETIRING does what R18 lists, and nothing to the other slots (Ends). -/
theorem retire_ends {s : State} {i : SlotId} {e : Exchange} (h : s.ex i = some e) (hs : e.state ≠ .retiring) (r : Result)
    (owes : Option Reason) : s.Ends (s.retire i r owes) i e r owes := by
  rw [retire_eq h hs]
  obtain ⟨f1, f2, f3, f4, f5, f6, f7, f8, f9, f10, f11, f12, f13, f14, f15, f16⟩ := stripped_facts h r owes
  generalize s.stripped i r owes = t at *
  have hbuf : ∀ b v, t.buffer b = some v → ¬(v.slot = i ∧ v.gen = s.gen i ∧ v.state = .ready) := fun b v hv =>
    giveUpBuffer_not_ready ((f8 b).symm.trans hv)
  have hbuf2 : ∀ b v, s.buffer b = some v → ¬(v.slot = i ∧ v.gen = s.gen i) → t.buffer b = some v := fun b v hv hn => by
    rw [f8, hv, giveUpBuffer_other b hn]
  have hc : ∀ c v, t.cell c = some v → v.slot = i → v.gen = s.gen i → v.state = .reclaiming := fun c v hv h1 h2 =>
    reclaimCell_own ((f9 c).symm.trans hv) h1 h2
  have hc2 : ∀ c v, s.cell c = some v → ¬(v.slot = i ∧ v.gen = s.gen i) → t.cell c = some v := fun c v hv hn => by
    rw [f9, hv, reclaimCell_other c hn]
  cases owes with
  | none => exact ⟨f1, f2, f3, by simpa [abortPlaced] using f4, f5, f6, f7, hbuf, hbuf2, hc, hc2, ⟨f10, f11, f12⟩, f13, ⟨f14, f15, f16⟩⟩
  | some a =>
    simp only [Option.isSome_some, if_true]
    by_cases hr : s.abortRoom i = true
    · have hr2 : t.ctrlFull = false ∧ t.txq.owed = [] := by
        rw [ctrlFull, f4, f5]; simpa [abortRoom, Config.ctrlCap] using hr
      have hl : t.txq.ctrl.length < Config.ctrlCap := by simpa [ctrlFull] using hr2.1
      unfold oweAbort
      rw [if_pos hr2]
      unfold placeAbort pushCtrl pushEntry
      rw [f1]
      simp only [Exchange.enterRetiring, if_pos hl]
      rw [updEx_with_txq f1]
      have hsn : t.sn = s.sn := by simp only [sn, f14]
      refine ⟨?_, fun j hj => ?_, fun j => ?_, ?_, ?_, f6, f7, hbuf, hbuf2, hc, hc2, ⟨f10, f11, f12⟩, f13, ⟨f14, f15, f16⟩⟩
      · rw [ex_setEx_self]
        simp [Exchange.setAbort, Exchange.enterRetiring, ended, abortAtEntry, hr, Timer.cleared, Walk.drop]
      · rw [ex_setEx_of_ne hj]; exact f2 j hj
      · rw [gen_setEx]; exact f3 j
      · rw [setEx_txq]; simp [abortPlaced, hr, f4, hsn, f3, Exchange.frame]
      · rw [setEx_txq]; simp [owedAfter, hr, f5]
    · have hr2 : ¬(t.ctrlFull = false ∧ t.txq.owed = []) := by
        rw [ctrlFull, f4, f5]; simpa [abortRoom, Config.ctrlCap] using hr
      unfold oweAbort
      rw [if_neg hr2]
      refine ⟨?_, f2, f3, ?_, ?_, f6, f7, hbuf, hbuf2, hc, hc2, ⟨f10, f11, f12⟩, f13, ⟨f14, f15, f16⟩⟩
      · refine (show State.ex _ i = _ from f1).trans ?_
        simp [Exchange.enterRetiring, ended, abortAtEntry, hr, Timer.cleared, Walk.drop]
      · simp [abortPlaced, hr, f4]
      · simp [owedAfter, hr, f5]

/-- The causes that owe an ABORT with their own reason (R18). -/
theorem abortWith_ends {s : State} {i : SlotId} {e : Exchange} (h : s.ex i = some e) (hs : e.state ≠ .retiring)
    (r : Reason) : s.Ends (s.abortWith i r) i e (.failed r none) (some r) := retire_ends h hs _ _

/-- The causes that owe no ABORT (R18). -/
theorem endWith_ends {s : State} {i : SlotId} {e : Exchange} (h : s.ex i = some e) (hs : e.state ≠ .retiring)
    (r : Reason) : s.Ends (s.endWith i r) i e (.failed r none) none := retire_ends h hs _ _

end Sys2Proof.Machine.State
end

