-- ==== Sys2Proof/Laws/Queues.lean ====
section
/-!
SUPPORT. What the shared operations do when the queues they use are free: reports, control frames, orders, frames at the
inbox head, and changes of station state.
-/

namespace Sys2Proof.Machine.State

/-- A station whose blocks act is released from RESET and is not in FAULT. -/
theorem runs_up {s : State} (h : s.runs = true) : s.up = true ∧ s.sct.station ≠ .fault := by simpa [runs] using h

/-- With free entries and nobody waiting, a claimant of the report queue is served (R152). -/
theorem reportTurn_of_open {s : State} {k : Nat} (h : s.reportOpen k) (c : ReportClaim) : s.reportTurn c k = true := by
  obtain ⟨h1, h2, h3⟩ := h
  simp [reportTurn, reportRoom, reportAhead, h2, h3, h1]

/-- With a free entry a report joins the queue (R152). -/
theorem pushReport_of_open {s : State} {k : Nat} (h : s.reportOpen (k+1)) (r : Report) :
    s.pushReport r = s.reported r := by
  have := h.1
  simp [pushReport, reported]; omega

/-- Where nobody waits for the report queue, giving up a claim changes nothing. -/
theorem unclaimReport_of_nil {s : State} (h : s.rpt.line = []) (c : ReportClaim) : s.unclaimReport c = s := by
  simp [unclaimReport, h]
  rw [← h]

/-- Where nobody waits for the control queue, giving up a claim changes nothing. -/
theorem unclaimCtrl_of_nil {s : State} (h : s.txq.line = []) (c : CtrlClaim) : s.unclaimCtrl c = s := by
  simp [unclaimCtrl, h]
  rw [← h]

/-- A STATION report with a free entry is queued, and the ACKs that await it are due (R147, R152). -/
theorem stationReport_of_room {s : State} (h : s.rpt.queue.length < 8) (h2 : s.rpt.stationWaiting = [])
    (w : StationWait) :
    s.stationReport w = { s with
      ord := { s.ord with acks := s.ord.acks.map fun a => if w.serves a.await then { a with due := true } else a },
      rpt := { s.rpt with queue := s.rpt.queue ++ [.station w.state w.cause] } } := by
  have h3 : s.reportRoom 1 = true := by simp [reportRoom]; omega
  unfold stationReport
  rw [h2, h3]
  simp only [queueStation, pushReport, if_pos h]
  rfl

/-- With a free entry a control frame joins the queue (R105). -/
theorem pushCtrl_of_room {s : State} (h : s.txq.ctrl.length < 16) (f : Frame) (o : Owner) :
    s.pushCtrl f o = s.enqueued f o := by
  simp [pushCtrl, pushEntry, enqueued, h]

/-- When a free entry is for who comes behind the given claimants (R106). -/
theorem ctrlBehind_iff {s : State} {ahead : List CtrlClaim} : s.ctrlBehind ahead = true ↔
    s.txq.ctrl.length < 16 ∧ s.txq.owed = [] ∧ ∀ c ∈ ahead, s.claimAble c = false := by
  simp [ctrlBehind, ctrlFull, Config.ctrlCap, and_assoc]

/-- A full control queue has no entry for anybody (R106). -/
theorem ctrlBehind_of_full {s : State} (h : 16 ≤ s.txq.ctrl.length) (ahead : List CtrlClaim) :
    s.ctrlBehind ahead = false := by
  simp [ctrlBehind, ctrlFull, Config.ctrlCap, h]

/-- With a free entry and nobody waiting, a frame that becomes due is placed (R106). -/
theorem ctrlRoom_of_open {s : State} (h : s.ctrlOpen) : s.ctrlRoom = true :=
  ctrlBehind_iff.2 ⟨h.1, h.2.1, by rw [h.2.2]; simp⟩

/-- With a free entry and nobody waiting, it is any claimant's turn (R106). -/
theorem ctrlTurn_of_open {s : State} (h : s.ctrlOpen) (c : CtrlClaim) : s.ctrlTurn c = true :=
  ctrlBehind_iff.2 ⟨h.1, h.2.1, by rw [h.2.2]; simp⟩

/-- The claimant at the front of the line has the turn where an entry is free and no owed ABORT waits (R106). -/
theorem ctrlTurn_of_front {s : State} {c : CtrlClaim} {rest : List CtrlClaim} (h : s.txq.ctrl.length < 16)
    (ho : s.txq.owed = []) (hl : s.txq.line = c :: rest) : s.ctrlTurn c = true :=
  ctrlBehind_iff.2 ⟨h, ho, by rw [hl]; simp⟩

/-- A frame that becomes due with a free queue is placed (R106). -/
theorem dueFrame_of_open {t : State} (h : t.ctrlOpen) (f : Frame) (o : Owner) : t.dueFrame f o = t.enqueued f o := by
  rw [dueFrame, if_pos (ctrlRoom_of_open h), pushCtrl_of_room h.1]

/-- A frame that becomes due with a full control queue waits in the line (R106). -/
theorem dueFrame_of_full {t : State} (h : 16 ≤ t.txq.ctrl.length) (f : Frame) (o : Owner) :
    t.dueFrame f o = { t with txq := { t.txq with line := t.txq.line ++ [.frame f o] } } := by
  rw [dueFrame, if_neg (by simp [ctrlRoom, ctrlBehind_of_full h])]

/-- The reply to an unknown frame is placed where an entry is free (R17). -/
theorem replyUnknown_of_room {t : State} (h : t.txq.ctrl.length < 16) (f : Frame) :
    t.replyUnknown f = t.enqueued ⟨f.src, t.sn, !f.fromOrig, f.tag, .abort .unknown⟩ .nobody := by
  rw [replyUnknown, if_neg (by simp [ctrlFull, Config.ctrlCap]; omega), pushCtrl_of_room h]

/-- No reply to an unknown frame is made where no entry is free (R17). -/
theorem replyUnknown_of_full {t : State} (h : 16 ≤ t.txq.ctrl.length) (f : Frame) : t.replyUnknown f = t := by
  rw [replyUnknown, if_pos (by simp [ctrlFull, Config.ctrlCap, h])]

/-- The reply to an unknown frame never waits (R106). -/
@[simp] theorem replyUnknown_line (t : State) (f : Frame) : (t.replyUnknown f).txq.line = t.txq.line := by
  unfold replyUnknown pushCtrl pushEntry
  (repeat' split) <;> rfl

/-- A HOLD that becomes due with a free queue is placed (R97, R106). -/
theorem dueHold_of_open {t : State} {i : SlotId} {e : Exchange} (he : t.ex i = some e) (hc : t.ctrlOpen)
    (hq : ∀ y ∈ t.txq.ctrl, y.owner = .slot i (t.gen i) → y.frame.body ≠ .hold) :
    t.dueHold i = t.enqueued ⟨e.peer, t.sn, e.role == Role.originator, e.tag, .hold⟩ (.slot i (t.gen i)) := by
  unfold dueHold dueOnce
  rw [he]
  have : t.hasFrame i FrameBody.isHold = false := by
    simp only [hasFrame, hc.2.2, List.any_nil, Bool.or_false, List.any_eq_false]
    intro x hx
    have := hq x hx
    simp [CtrlEntry.isOf]
    intro ho; have := this ho
    cases hb : x.frame.body <;> simp_all [FrameBody.isHold]
  dsimp only
  rw [if_neg (by simp [this])]
  rw [dueFrame_of_open hc]; rfl

/-- What isCredit says. -/
theorem isCredit_elim {b : FrameBody} (h : b.isCredit = true) : ∃ l, b = .credit l := by
  cases b <;> simp [FrameBody.isCredit] at h; exact ⟨_, rfl⟩

/-- An entry that is not the slot's CREDIT is not its WAITING CREDIT. -/
theorem isWaitingCredit_eq_false {t : State} {i : SlotId} {y : CtrlEntry}
    (h : y.inSlot = false → y.owner = .slot i (t.gen i) → ∀ l, y.frame.body ≠ .credit l) :
    t.isWaitingCredit i y = false := by
  rw [← Bool.not_eq_true]; intro hc
  simp [isWaitingCredit, CtrlEntry.isOf] at hc
  obtain ⟨l, hl⟩ := isCredit_elim hc.2.2
  exact h hc.1 hc.2.1 l hl

/-- A CREDIT that becomes due with a free queue is placed with the limit granted (R90, R106). -/
theorem dueCredit_of_open {t : State} {i : SlotId} {e : Exchange} (he : t.ex i = some e) (hc : t.ctrlOpen)
    (hn : ∀ y ∈ t.txq.ctrl, y.inSlot = false → y.owner = .slot i (t.gen i) → ∀ l, y.frame.body ≠ .credit l) :
    t.dueCredit i = t.enqueued ⟨e.peer, t.sn, e.role == Role.originator, e.tag, .credit (BitVec.ofNat 24 e.granted)⟩
       (.slot i (t.gen i)) := by
  unfold dueCredit
  rw [he]; dsimp only
  have : t.txq.ctrl.any (t.isWaitingCredit i) = false := by
    rw [List.any_eq_false]; intro y hy; rw [isWaitingCredit_eq_false (hn y hy)]; simp
  rw [if_neg (by simp [this]), hc.2.2, if_neg (by simp), if_pos (ctrlRoom_of_open hc), pushCtrl_of_room hc.1]; rfl

/-- Withdrawing a slot's OPEN (R27, R107). -/
theorem withdraw_isOpen (s : State) (i : SlotId) : s.withdraw i FrameBody.isOpen = s.openDropped i := by
  have h1 : (fun c : CtrlEntry => c.inSlot || !CtrlEntry.isOf i (s.gen i) FrameBody.isOpen c) =
      fun c => c.inSlot || !s.isOpenOf i c.frame c.owner := by
    funext c; simp [CtrlEntry.isOf, isOpenOf]; cases c.frame.body <;> rfl
  have h2 : (fun c => !CtrlClaim.isOf i (s.gen i) FrameBody.isOpen c) = fun c =>
          match c with
          | .frame f o => !s.isOpenOf i f o
          | _ => true := by
    funext c; cases c <;> simp [CtrlClaim.isOf, isOpenOf, FrameBody.isOpen]
    rename_i f o; cases f.body <;> simp
  unfold withdraw openDropped
  rw [h1, h2]
  all_goals rfl

/-- A restart event of the QUIET timer (R12). -/
theorem restartQuiet_eq (s : State) (e : Exchange) : e.restartQuiet s.par = s.quietAgain e := by
  unfold Exchange.restartQuiet quietAgain Exchange.quietRuns
  cases hp : e.localPause <;> cases hs : e.state <;>
    simp [hp, hs, Exchange.startQuiet, Exchange.startTimer, quietStarted, Exchange.quietMs,
          StartParams.parkMs, Exchange.creditOwed]

/-- A restart event at a slot (R12). -/
theorem quiet_of_some (s : State) (i : SlotId) (e : Exchange) (he : s.ex i = some e) :
    s.quiet i = s.setEx i (some (s.quietAgain e)) := by
  unfold State.quiet
  rw [updEx_of_some he]
  congr 2
  unfold Exchange.restartQuiet quietAgain Exchange.quietRuns
  cases hp : e.localPause <;> cases hs : e.state <;>
    simp [hp, hs, Exchange.startQuiet, Exchange.startTimer, quietStarted, Exchange.quietMs,
          StartParams.parkMs, Exchange.creditOwed]

/-- The frame at the inbox head has been handled (R126). -/
theorem popInbox_eq (s : State) : s.popInbox = s.inboxTaken := rfl

/-- The frame at the inbox head (R126). -/
theorem inboxHead_of_first {s : State} {f : Frame} (h : s.inboxFirst f) : s.inboxHead = some f := by
  simp [State.inboxHead, h.1, h.2]

/-- ACCEPT and RECALL act on the record their lookup finds (R35). -/
theorem exec_answer {c : Instr} {s : State} {f : Frame} {n : BitVec 24} {i : SlotId}
    (hc : c = .acceptFrame ∧ f.body = .accept n ∨ c = .recallFrame ∧ f.body = .recall n) (hf : s.inboxFirst f)
    (hl : s.lookup f = some i) : exec c s = .next (s.answered i n.toNat).inboxTaken := by
  have hh := inboxHead_of_first hf
  obtain ⟨d, sr, o, t, b⟩ := f
  rcases hc with ⟨rfl, hb⟩ | ⟨rfl, hb⟩ <;> (simp only at hb; subst hb)
  · simp [exec, execAcceptFrame, hh, atSlot, hl, popInbox_eq]
  · simp [exec, execRecallFrame, hh, atSlot, hl, popInbox_eq]

/-- OPEN is handled at the inbox head when its entries are free (R52). -/
theorem exec_openFrame {s : State} {f : Frame} {key dir size} (hf : s.inboxFirst f)
    (hb : f.body = .openReq key dir size) :
    exec .openFrame s = .next (
      if s.openReady (s.openPlan f key dir size.toNat) then
        ((s.unclaimCtrl .inboxHead).handleOpen f key dir size.toNat (s.openPlan f key dir size.toNat)).popInbox
      else s.openWaits (s.openPlan f key dir size.toNat)) := by
  obtain ⟨h1, h2⟩ := hf
  cases hi : s.lpt.inbox with
  | nil => simp [hi] at h2
  | cons a l =>
    rw [hi] at h2; simp at h2; subst h2
    simp [exec, execOpenFrame, h1, takeOpen, hi, hb]

/-- The head order that is due for examination (R138). -/
theorem headOrder_of_atHead {s : State} {o : OrderRec} (h : s.atHead o) : s.headOrder = some o := by
  unfold headOrder; rw [if_pos ⟨h.1, h.2.1⟩, h.2.2]

/-- The head order of a kind (R138). -/
theorem headOfKind_of_atHead {s : State} {o : OrderRec} {k : OrderKind} (h : s.atHead o) (hk : o.kindOf = some k) :
    s.headOfKind k = some o := by
  unfold headOfKind; rw [headOrder_of_atHead h]; simp [Option.filter, hk]

/-- The head order that the command of a kind R139 may refuse examines: one of that kind, or one of none (R139; log 15). -/
theorem headToRefuse_of_headOrder {s : State} {o : OrderRec} {k : OrderKind} (h : s.headOrder = some o)
    (hk : o.kindOf = some k ∨ o.kindOf = none) : s.headToRefuse k = some o := by
  unfold headToRefuse; rw [h]; rcases hk with hk | hk <;> simp [Option.filter, hk]

/-- A head order that waits for a report queue entry may be examined in its turn (R138, R152). -/
theorem headOrder_of_turn {s : State} {o : OrderRec} (ht : s.takesOrders = true) (hf : s.ord.orderFault = false)
    (h : s.ord.head = .record o .report) (hr : s.reportTurn .head 1 = true) : s.headOrder = some o := by
  unfold headOrder; rw [if_pos ⟨ht, hf⟩, h]; exact if_pos hr

/-- The head order is taken (R138). -/
theorem taken_eq (s : State) : s.taken = s.orderTaken := by
  unfold taken orderTaken
  by_cases h : s.ord.ringRead = .idle
  · simp only [h, if_true]; rfl
  · simp only [h, if_false, List.append_nil]; rfl

/-- An order that is taken with one report, with a free report queue (R138, R152). -/
theorem takeWith_of_open {s : State} {o : OrderRec} {r : Report} (h : s.reportOpen 1) :
    s.takeWith o r = (s.reported r).orderTaken := by
  unfold takeWith
  rw [reportTurn_of_open h, if_pos rfl, pushReport_of_open h, taken_eq]

/-- An acknowledgement list entry is made (R147). -/
theorem addAck_of_room {s : State} (h : s.ord.acks.length < 16) (a : AckEntry) :
    s.addAck a = { s with ord := { s.ord with acks := s.ord.acks ++ [a] } } := by
  unfold addAck; rw [if_pos (by exact h)]

/-- CANCEL ends an exchange that is not RETIRING (R42). -/
theorem cancel_ends {s : State} {i : SlotId} {x : Exchange} (hx : s.ex i = some x) (hs : x.state ≠ .retiring) :
    s.Ends (s.cancel i) i x (.failed .cancelled none)
       (if x.state = .backoff ∨ x.state = .opening ∧ x.openHanded = false then none else some .cancelled) := by
  have : s.cancel i = s.retire i (.failed .cancelled none)
      (if x.state = .backoff ∨ x.state = .opening ∧ x.openHanded = false then none else some .cancelled) := by
    unfold State.cancel; rw [hx]; dsimp only
    congr 1
    unfold Exchange.cancelOwes
    cases h : x.state <;> simp
    cases x.openHanded <;> simp
  rw [this]; exact retire_ends hx hs _ _

/-- CANCEL leaves a RETIRING slot as it is (R19). -/
theorem cancel_of_retiring {s : State} {i : SlotId} {x : Exchange} (hx : s.ex i = some x) (hs : x.state = .retiring) :
    s.cancel i = s := by
  unfold State.cancel; rw [hx]; unfold retire; dsimp only; rw [hx]; dsimp only; rw [hs]

/-- A change of station state (R158, R175). -/
theorem enter_eq (t : State) (st : StationState) :
    t.enter st = { t with
      sct := { t.sct with station := st, faultPin := faultLevel st },
      rpt := { t.rpt with status := t.statusAfter },
      lmp := { t.lmp with waiting := t.lmp.waiting ++ t.statusPlaced st } } := by
  unfold enter makeStatusDue statusAfter statusPlaced
  dsimp only
  cases hs : t.rpt.status <;> simp
  · by_cases hw : t.rpt.writer = .idle
    · simp [hw, placeStatus, place, statusRequest, statusWordBytes, sn]
    · simp [hw]
  · rw [← hs]

/-- The end of a pending entry at a detach, with a free queue (R60). -/
theorem endPending_of_open {d : Deferred} {t : State} (h : t.txq.ctrl.length < 16) (ho : t.txq.owed = [])
    (hl : t.txq.line = []) (hat : t.xen.rescanAt = none) :
    t.endPending d = { t with
      txq := { t.txq with ctrl := t.txq.ctrl ++
        [⟨⟨d.peer, t.sn, false, d.tag, .abort .detaching⟩, .nobody, 0, false⟩] },
      xen := { t.xen with
        deferred := t.xen.deferred.filter fun x => !(Deferred.isOf d.peer d.tag x),
        rescanWaits := t.rescanWaitsAt (t.txq.ctrl.length + 1) } } := by
  unfold endPending
  rw [if_pos (ctrlRoom_of_open ⟨h, ho, hl⟩), pushCtrl_of_room h]
  unfold dropDeferred enqueued
  simp [hat, replyFrame]

end Sys2Proof.Machine.State
end

