-- ==== Sys2Proof/Laws/Transfers.lean ====
section
/-!
SUPPORT. What the shared operations of a transfer do: the walk, fills, the drain, grants and binding, and a fold over
the slots.
-/

namespace Sys2Proof.Machine.State

/-- Nothing is taken back where no DATA frame is in the transmit slot (R110). -/
theorem takeBack_of_ctrl {s : State} (h : ∀ t, s.lpt.tx = some t → t.src = .ctrl) : s.takeBack = s := by
  unfold takeBack; split
  · rfl
  · rename_i t ht; simp [h t ht]

/-- The end of a transfer made for a live slot (R21). -/
theorem endTransfer_of_some {s : State} {i : SlotId} {e : Exchange} (he : s.ex i = some e) :
    s.endRequest.endTransfer i (s.gen i) = s.portFree.setEx i (some { e with transfers := e.transfers - 1 }) := by
  have : s.endRequest.live i (s.gen i) = true := by
    have : s.live i (s.gen i) = true := by simp [live, he]
    exact this
  unfold endTransfer
  rw [if_pos this]
  exact updEx_of_some (by exact he) _

/-- A notice of the slot's own generation finds it live (R5). -/
theorem live_of_some {t : State} {i : SlotId} {e : Exchange} (he : t.ex i = some e) {g : Gen} (hg : t.gen i = g) :
    t.live i g = true := by simp [live, he, hg]

/-- A request placed for a slot (R21, R159). -/
theorem placeFor_of_some {t : State} {i : SlotId} {e : Exchange} (he : t.ex i = some e) (r : Request) :
    t.placeFor i r = (t.setEx i (some { e with transfers := e.transfers + 1 })).requested r := by
  unfold placeFor; rw [updEx_of_some he]; rfl

/-- The last of two settings of a record stands. -/
theorem setEx_setEx (s : State) (i : SlotId) (a b : Option Exchange) : (s.setEx i a).setEx i b = s.setEx i b := by
  simp [setEx]

/-- Setting a record to what it is changes nothing. -/
theorem setEx_same {s : State} {i : SlotId} {e : Exchange} (h : s.ex i = some e) : s.setEx i (some e) = s := by
  have hset : s.xen.slots.set i { s.xen.slots[i] with ex := some e } = s.xen.slots := by
    rw [← h]; exact Vector.set_getElem_self ..
  unfold setEx
  rw [hset]

/-- An empty mark queue has no head mark. -/
theorem headMark_of_nil {t : State} {i : SlotId} {e : Exchange} (h : t.ex i = some e) (h2 : e.walk.marks = []) :
    t.headMark i = none := by
  simp [headMark, h, h2]

/-- A mark queue without a head mark whose point is reached is left alone (R76). -/
theorem actMarks_of_none {t : State} {i : SlotId} (h : t.headMark i = none) (n : Nat) : actMarks n i t = t := by
  cases n with
  | zero => rfl
  | succ n => unfold actMarks; rw [h]

/-- So is the mark queue examined (R76). -/
theorem settleMarks_of_none {t : State} {i : SlotId} (h : t.headMark i = none) : t.settleMarks i = t := by
  simp [settleMarks, headActs, h, actMarks_of_none h]

/-- An empty mark queue does nothing (R76). -/
theorem settleMarks_of_nil {t : State} {i : SlotId} {e : Exchange} (h : t.ex i = some e) (h2 : e.walk.marks = []) :
    t.settleMarks i = t := settleMarks_of_none (headMark_of_nil h h2)

/-- A head mark whose point has not been reached is not the one that acts next. -/
theorem headMark_of_unreached {t : State} {i : SlotId} {e : Exchange} (h : t.ex i = some e)
    (h2 : ∀ m rest, e.walk.marks = m :: rest → e.doneBytes < m.point) : t.headMark i = none := by
  unfold headMark; rw [h]; dsimp only
  cases hm : e.walk.marks with
  | nil => rfl
  | cons m l => exact if_neg (Nat.not_le.2 (h2 m l hm))

/-- A mark queue whose head mark's point has not been reached waits (R76). -/
theorem settleMarks_of_unreached {t : State} {i : SlotId} {e : Exchange} (h : t.ex i = some e)
    (h2 : ∀ m rest, e.walk.marks = m :: rest → e.doneBytes < m.point) : t.settleMarks i = t :=
  settleMarks_of_none (headMark_of_unreached h h2)

/-- As settleMarks_of_nil, behind a request and a change of the Staging Buffer. -/
theorem settleMarks_requested_stg (u : State) (i : SlotId) (e : Exchange) (r : Request) (g : StagingBuffer)
    (h : e.walk.marks = []) :
    settleMarks i (requested r { u.setEx i (some e) with stg := g }) =
        requested r { u.setEx i (some e) with stg := g } :=
  settleMarks_of_nil (e := e) (by exact ex_setEx_self i (some e) u) h

/-- As settleMarks_of_nil, behind a request. -/
theorem settleMarks_requested (u : State) (i : SlotId) (e : Exchange) (r : Request) (h : e.walk.marks = []) :
    settleMarks i (requested r (u.setEx i (some e))) = requested r (u.setEx i (some e)) :=
  settleMarks_of_nil (e := e) (by exact ex_setEx_self i (some e) u) h

/-- No fill of the slot goes on where none is in progress (R75). -/
theorem resumeFill_of_none {t : State} {i : SlotId}
    (h : ∀ b v, t.buffer b = some v → v.slot = i → v.gen = t.gen i → v.state ≠ .filling) : t.resumeFill i = t := by
  unfold resumeFill
  split
  · rfl
  · have : bufIds.find? (t.bufferIn i .filling) = none := by
      rw [List.find?_eq_none]; intro b hb
      unfold bufferIn; split
      · rename_i v hv; have := h b v hv; simp; tauto
      · simp
    rw [this]

/-- A fill goes on behind a mark only at a slot in SENDING that has no transfer (R75, R81). -/
theorem resumeFill_of_busy {t : State} {i : SlotId} {e : Exchange} (he : t.ex i = some e)
    (h : e.state ≠ .sending ∨ e.transfers ≠ 0) : t.resumeFill i = t := by
  unfold resumeFill
  rw [he]
  dsimp only
  split
  · rfl
  · rw [if_neg (by tauto)]

/-- Where the head mark acts, every reached mark acts, then a fill goes on, and marks it has recorded act (R75, R76). -/
theorem settleMarks_of_acts {s t : State} {i : SlotId} (h : s.headActs i = true) (ht : actMarks 16 i s = t) :
    s.settleMarks i = actMarks 16 i (t.resumeFill i) := by
  unfold settleMarks; rw [if_pos h, ht]

/-- The head mark acts, and with it the queue is empty (R76). -/
theorem settleMarks_of_last {s t : State} {i : SlotId} {e e' : Exchange} {m : Mark} (he : s.ex i = some e)
    (hm : e.walk.marks = [m]) (hpt : m.point ≤ e.doneBytes) (ho : s.reportOpen m.need) (ht : s.actMark i m = t)
    (hr : t.resumeFill i = t) (hte : t.ex i = some e') (hm' : e'.walk.marks = []) : s.settleMarks i = t := by
  have hh : s.headMark i = some m := by simp [headMark, he, hm, hpt]
  have hturn : s.reportTurn (.mark i) m.need = true := reportTurn_of_open ho _
  have hnone : t.headMark i = none := headMark_of_nil hte hm'
  have hact : actMarks 16 i s = t := by
    show actMarks (15+1) i s = t
    unfold actMarks
    rw [hh]
    dsimp only
    rw [hturn, if_pos rfl, ht, actMarks_of_none hnone]
  rw [settleMarks_of_acts (by simp [headActs, hh, hturn]) hact, hr, actMarks_of_none hnone]

/-- A mark queue of one mark whose point is reached (R76). -/
theorem settleMarks_one {s : State} {i : SlotId} {e : Exchange} {m : Mark} (he : s.ex i = some e)
    (hm : e.walk.marks = [m])
    (hpt : m.point ≤ e.doneBytes) (hb : (∀ b v, s.buffer b = some v → v.slot = i → v.state ≠ .filling))
    (ho : s.reportOpen m.need) (t : State) (e' : Exchange)
    (ht : s.actMark i m = t) (hte : t.ex i = some e') (hm' : e'.walk.marks = []) (hbuf : t.fbd = s.fbd) :
       s.settleMarks i = t := by
  exact settleMarks_of_last he hm hpt ho ht
    (resumeFill_of_none fun b v hbv hi _ => hb b v (by rw [← hbv]; simp [buffer, hbuf]) hi) hte hm'

/-- The bytes that are done, by role and direction (R2, R76). -/
theorem doneBytes_eq (e : Exchange) :
    e.doneBytes = (if e.role = .originator ∧ e.dir = .push ∨ e.role = .responder ∧ e.dir = .pull then e.acknowledged
      else e.drained) := by
  unfold Exchange.doneBytes Exchange.side
  cases e.role <;> cases e.dir <;> simp

/-- A walk with no cached entry asks for the entry at its index (R71, R72). -/
theorem ask_read {w : Walk} (hg : w.gate = none) (hc : w.cached = none) (hv : w.visited < 4096) (l u : Nat) :
    w.ask l u = ({ w with visited := w.visited + 1 }, .read (w.base.toNat + 16 * w.index)) := by
  unfold Walk.ask Walk.askRead
  have : ¬ (w.visited ≥ Config.visitCap) := by show ¬ (4096 ≤ _); omega
  simp [hg, hc, this]

/-- A walk hands out a piece of its cached entry (R71). -/
theorem ask_piece {w : Walk} {d : Entry} (hg : w.gate = none) (hc : w.cached = some d) (hl : w.inEntry < d.len)
    (hn : d.note = false) (l u : Nat) :
    w.ask l u = ({ w with
        inEntry := w.inEntry + min (u - w.offset) (d.len - w.inEntry),
        offset := w.offset + min (u - w.offset) (d.len - w.inEntry) },
      .piece (d.addr.toNat + w.inEntry) (min (u - w.offset) (d.len - w.inEntry))) := by
  unfold Walk.ask
  simp [hg, hc, hl, hn, Walk.takePiece, Walk.pieceCount]

/-- A walk asks for a piece of its cached entry: it waits with a full mark queue where the piece would record a mark,
and otherwise hands the piece out with the mark it records (R71, R72, R75). -/
theorem ask_take {w : Walk} {d : Entry} (hg : w.gate = none) (hc : w.cached = some d) (hl : w.inEntry < d.len)
    (l u c : Nat) (hk : c = min (u - w.offset) (d.len - w.inEntry)) (ms : List Mark)
    (hm : ms = if w.offset + c = l ∧ d.note = true then [⟨w.base, w.index, w.offset + c, true, false⟩] else []) :
    (ms ≠ [] → 8 ≤ w.marks.length → w.ask l u = (w, .wait)) ∧
    (ms = [] ∨ w.marks.length < 8 →
      w.ask l u = ({ w with inEntry := w.inEntry + c, offset := w.offset + c, marks := w.marks ++ ms },
        .piece (d.addr.toNat + w.inEntry) c)) := by
  have hask : w.ask l u = w.takePiece d l u := by simp [Walk.ask, hg, hc, hl]
  have hpc : w.pieceCount d u = c := by simp [Walk.pieceCount, hg, hk]
  rw [hask]
  unfold Walk.takePiece
  simp only [hpc]
  by_cases hn : w.offset + c = l ∧ d.note = true
  · rw [if_pos hn] at hm
    rw [if_pos hn, hm]
    refine ⟨fun _ h8 => if_pos h8, fun h => ?_⟩
    rw [if_neg (by have : w.marks.length < 8 := h.resolve_left (by simp); exact Nat.not_le.2 this)]
    simp [Walk.record]
  · rw [if_neg hn] at hm
    rw [if_neg hn, hm]
    exact ⟨fun h => absurd rfl h, fun _ => by simp⟩

/-- A walk passes its cached entry: a flagged entry waits while the mark queue is full; else its mark is recorded, END is
LIST_SHORT, PAUSE closes the gate, and otherwise the next entry is asked for (R72, R73, R75, R77). -/
theorem ask_pass {w : Walk} {d : Entry} (hg : w.gate = none) (hc : w.cached = some d) (hl : d.len ≤ w.inEntry)
    (l u : Nat) (ms : List Mark)
    (hm : ms = if d.note = true ∨ d.pause = true then [⟨w.base, w.index, w.offset, d.note, d.pause⟩] else [])
    (w2 : Walk) (hw : w2 = { w with
      index := w.index + 1, inEntry := 0, cached := none, marks := w.marks ++ ms,
      gate := if d.pause then some w.offset else none }) :
    (ms ≠ [] → 8 ≤ w.marks.length → w.ask l u = (w, .wait)) ∧
    (ms = [] ∨ w.marks.length < 8 →
      w.ask l u = if d.fin then (w2, .error .listShort) else if d.pause then (w2, .gate) else w2.askRead) := by
  have hask : w.ask l u = w.passOn d := by simp [Walk.ask, hg, hc, Nat.not_lt.2 hl]
  have hpass : w.pass d = w2 := by
    rw [hw, hm]
    unfold Walk.pass Walk.record
    cases d.note <;> cases d.pause <;> simp [hg]
  have hgate : w2.gate = some w.offset ↔ d.pause = true := by rw [hw]; cases d.pause <;> simp
  have hms : ms = [] ↔ ¬((d.note || d.pause) = true) := by rw [hm]; cases d.note <;> cases d.pause <;> simp
  rw [hask]
  unfold Walk.passOn
  refine ⟨fun hne h8 => if_pos ⟨by by_contra hf; exact hne (hms.2 hf), h8⟩, fun h => ?_⟩
  rw [if_neg (by
    rintro ⟨hf, h8⟩
    rcases h with h | h
    · exact hms.1 h hf
    · exact absurd h8 (Nat.not_le.2 h)), hpass]
  simp only [hgate]

/-- The drain that waits for an entry read goes on (R95). -/
theorem walkOn_of_choosing {t : State} {i : SlotId} {g : Gen} (h : t.stg.drain = .choosing i g) :
    t.walkOn i = t.drainOn i := by
  unfold walkOn; rw [h]; simp

/-- The cell of a slot depends on the cells and the generation only. -/
theorem findCell_congr {s t : State} {i : SlotId} (h : t.stg.cells = s.stg.cells) (hg : t.gen i = s.gen i) (k : Nat) :
    t.findCell i k = s.findCell i k := by
  unfold findCell; rw [hg]; simp [cell, h]

/-- A change of a record keeps the cell of a slot. -/
theorem findCell_setEx (s : State) (i j : SlotId) (v : Option Exchange) (k : Nat) :
    (s.setEx i v).findCell j k = s.findCell j k :=
  findCell_congr (s := s) (t := s.setEx i v) rfl (gen_setEx ..) k

/-- The drain reads an entry first (R95). -/
theorem drainGo_read {t : State} {i : SlotId} {e : Exchange} {w : Walk} {a : Nat} (he : t.ex i = some e)
    (hask : e.walk.ask e.length e.drainEnd = (w, .read a)) :
    t.drainGo i = State.requested ⟨.entryRead i (t.gen i), a, 16, []⟩
       { t.setEx i (some { e with walk := w, transfers := e.transfers + 1 }) with
            stg := { t.stg with drain := .choosing i (t.gen i) } } := by
  unfold drainGo
  rw [he]
  simp only [hask]
  rw [updEx_of_some he, placeFor_of_some (e := Exchange.withWalk w e) (ex_setEx_self ..), setEx_setEx]
  simp [setDrain, requested, Exchange.withWalk, setEx]

/-- The drain places its write (R95). -/
theorem drainGo_piece {t : State} {i : SlotId} {e : Exchange} {w : Walk} {a c : Nat} {k : CellId} {x : Cell}
    (he : t.ex i = some e)
    (hask : e.walk.ask e.length e.drainEnd = (w, .piece a c)) (hf : t.findCell i (e.drained / 256) = some k)
    (hx : t.cell k = some x) :
    t.drainGo i = State.requested ⟨.drainWrite i (t.gen i) k, a, c, (x.bytes.drop (e.drained % 256)).take c⟩
       { t.setEx i (some { e with walk := w, transfers := e.transfers + 1 }) with
            stg := { t.stg with drain := .writing i (t.gen i) k } } := by
  unfold drainGo
  rw [he]
  simp only [hask]
  rw [updEx_of_some he]
  unfold placeDrain
  have hf' : (t.setEx i (some (Exchange.withWalk w e))).findCell i (e.drained / 256) =
      some k := (findCell_setEx ..).trans hf
  rw [hf']
  have : (t.setEx i (some (Exchange.withWalk w e))).cell k = some x := hx
  simp only [this]
  rw [placeFor_of_some (e := Exchange.withWalk w e) (ex_setEx_self ..), setEx_setEx]
  simp [setDrain, requested, Exchange.withWalk, setEx, gen]

/-- The drain's choice lapses where the walk cannot go on (R95). -/
theorem drainGo_stop {t : State} {i : SlotId} {e : Exchange} {w : Walk} (he : t.ex i = some e)
    (hask : e.walk.ask e.length e.drainEnd = (w, .gate) ∨ e.walk.ask e.length e.drainEnd = (w, .wait)) :
    t.drainGo i = (t.setEx i (some { e with walk := w })).setDrain .idle := by
  unfold drainGo
  rw [he]
  rcases hask with h | h <;> simp only [h] <;> rw [updEx_of_some he] <;> rfl

/-- A drain whose walk meets an error ends the exchange (R73, R95). -/
theorem drainGo_error {t : State} {i : SlotId} {e : Exchange} {w : Walk} {r : Reason} (he : t.ex i = some e)
    (hask : e.walk.ask e.length e.drainEnd = (w, .error r)) :
    t.drainGo i = ((t.setEx i (some { e with walk := w })).setDrain .idle).abortWith i r := by
  unfold drainGo
  rw [he]
  simp only [hask]
  rw [updEx_of_some he]
  rfl

/-- A fill places its next read (R81). -/
theorem fillGo_ask {t : State} {b : BufId} {v : OutBuffer} {e : Exchange} {w : Walk} {i : SlotId} {g : Gen}
    (hb : t.buffer b = some v) (hi : v.slot = i) (hg : v.gen = g) (he : t.ex i = some e)
    (hc : e.prepared < v.ceiling) :
    (∀ a, e.walk.ask e.length v.ceiling = (w, .read a) →
       t.fillGo b = (t.setEx i (some { e with walk := w, transfers := e.transfers + 1 })).requested
           ⟨.entryRead i g, a, 16, []⟩) ∧
    (∀ a c, e.walk.ask e.length v.ceiling = (w, .piece a c) →
       t.fillGo b = (t.setEx i (some { e with
           walk := w, prepared := e.prepared + c, transfers := e.transfers + 1 })).requested
             ⟨.dataRead i g b, a, c, []⟩) := by
  subst hi hg
  refine ⟨fun a ha => ?_, fun a c ha => ?_⟩
  · unfold fillGo
    rw [hb]; dsimp only; rw [he]; dsimp only
    rw [if_neg (by omega)]
    simp only [ha]
    rw [updEx_of_some he, placeFor_of_some (ex_setEx_self ..), setEx_setEx]
    rfl
  · unfold fillGo
    rw [hb]; dsimp only; rw [he]; dsimp only
    rw [if_neg (by omega)]
    simp only [ha]
    rw [updEx_of_some he, updEx_of_some (ex_setEx_self ..), setEx_setEx, placeFor_of_some (ex_setEx_self ..),
        setEx_setEx]
    rfl

/-- The lowest buffer with a property. -/
theorem find_lowest_buffer {p : BufId → Bool} {b : BufId} (h1 : p b = true) (h2 : ∀ b', b' < b → p b' = false) :
    bufIds.find? p = some b := by
  have key : ∀ b : BufId, ∃ as bs, bufIds = as ++ b :: bs ∧ ∀ a ∈ as, a < b := by
    intro b
    refine ⟨bufIds.take b.val, bufIds.drop (b.val+1), ?_⟩
    revert b; decide
  obtain ⟨as, bs, he, ha⟩ := key b
  rw [he, List.find?_append]
  have : as.find? p = none := by
    rw [List.find?_eq_none]; intro a hm; simp [h2 a (ha a hm)]
  simp [this, h1]

/-- The slot whose turn it is (R80, R88, R95). -/
theorem find_inTurn {p : SlotId → Bool} {last i : SlotId} (h1 : p i = true)
    (h2 : ∀ k : SlotId, k < i - last - 1 → p (last + 1 + k) = false) :
    (afterSlot last).find? p = some i := by
  have key : ∀ last i : SlotId, ∃ as bs, afterSlot last = as ++ i :: bs ∧ ∀ a ∈ as, ∃ k : SlotId, k < i - last - 1 ∧
      a = last + 1 + k := by
    intro last i
    refine ⟨(afterSlot last).take (i - last - 1).val, (afterSlot last).drop ((i - last - 1).val + 1), ?_⟩
    revert last i
    decide
  obtain ⟨as, bs, he, ha⟩ := key last i
  rw [he, List.find?_append]
  have : as.find? p = none := by
    rw [List.find?_eq_none]; intro a hm; obtain ⟨k, hk, rfl⟩ := ha a hm; simp [h2 k hk]
  simp [this, h1]

/-- The FREE cells. -/
theorem freeCells_eq (s : State) : s.freeCells = s.emptyCells := rfl

/-- A grant's cells become RESERVED (R88). -/
theorem reserveCells_reserves {s : State} {i : SlotId} {e : Exchange} (k : Nat) :
    ∃ cells : Vector (Option Cell) 64, s.Reserves cells i ((e.granted + 255) / 256) k ∧ s.reserveCells i e k =
       { s with stg := { s.stg with cells := cells } } := by
  refine ⟨(s.reserveCells i e k).stg.cells, fun x => ?_, rfl⟩
  unfold reserveCells
  dsimp only
  rw [mapAll_get, freeCells_eq]
  simp only [List.contains_iff_mem]
  split
  · rename_i hx
    have : List.idxOf x (List.take k s.emptyCells) = List.idxOf x s.emptyCells := by
      conv_rhs => rw [← List.take_append_drop k s.emptyCells]
      rw [List.idxOf_append_of_mem hx]
    rw [this]; simp [cellsOf]
  · rfl

/-- One service of the credit allocator (R88). -/
theorem grant_of_some {s : State} {i : SlotId} {e : Exchange} {k limit : Nat} (he : s.ex i = some e)
    (hk : k = s.cellsGiven i ((e.length + 255) / 256 - (e.granted + 255) / 256))
    (hl : limit = min (e.granted + 256 * k) e.length) :
    ∃ cells : Vector (Option Cell) 64, s.Reserves cells i ((e.granted + 255) / 256) k ∧
     s.grant i = { s.setEx i (some (
            if e.granted ≤ e.received ∧ e.received < limit then s.quietStarted { e with granted := limit }
            else { e with granted := limit })) with
          stg := { s.stg with cells := cells } } := by
  have hg : s.grantSize i e = k := by rw [hk]; rfl
  obtain ⟨cells, h1, h2⟩ := reserveCells_reserves (s := s) (i := i) (e := e) k
  refine ⟨cells, h1, ?_⟩
  unfold grant
  rw [he]; dsimp only
  rw [hg, h2]
  refine (updEx_of_some (e := e) (by exact he) _).trans ?_
  have : grantRecord s.par k e = (if e.granted ≤ e.received ∧
      e.received < limit then s.quietStarted { e with granted := limit }
            else { e with granted := limit }) := by
    unfold grantRecord
    rw [hl]; dsimp only
    split <;> rfl
  rw [this]; rfl

/-- A change of an offer and a record keeps the FREE cells. -/
theorem emptyCells_setOffer (s : State) (o : OfferId) (v : Option Offer) (i : SlotId) (e : Option Exchange) :
    ((s.setOffer o v).setEx i e).emptyCells = s.emptyCells := rfl

/-- A change of an offer keeps the generations. -/
theorem gen_setOffer (s : State) (o : OfferId) (v : Option Offer) (j : SlotId) : (s.setOffer o v).gen j = s.gen j :=
    rfl

/-- A change of an offer and a record keeps the outstanding counts. -/
theorem outstanding_setOffer (s : State) (o : OfferId) (v : Option Offer) (i : SlotId) (e : Option Exchange)
    (j : SlotId) : ((s.setOffer o v).setEx i e).outstanding j = s.outstanding j := by
  unfold outstanding cellIsOf
  rw [gen_setEx, gen_setOffer]; rfl

/-- Where no frame is the slot's, none is its DONE. -/
theorem any_isDone_eq_false {s : State} {i : SlotId} {l : List CtrlEntry} (h : ∀ x ∈ l, x.owner ≠ .slot i (s.gen i)) :
    l.any (CtrlEntry.isOf i (s.gen i) FrameBody.isDone) = false := by
  rw [List.any_eq_false]; intro x hx; simp [CtrlEntry.isOf]; intro ho; exact absurd ho (h x hx)

/-- The answer to a bound request (R54). -/
theorem answerBound_of_not_finishing {T : State} {E : Exchange} {i : SlotId} {answer : BitVec 24 → FrameBody}
    (he : T.ex i = some E) (hs : E.state ≠ .finishing) (hlen : T.txq.ctrl.length < 16) :
    T.answerBound i answer = T.enqueued
      ⟨E.peer, T.sn, E.role == .originator, E.tag, answer (BitVec.ofNat 24 E.answerField)⟩ (.slot i (T.gen i)) := by
  unfold answerBound
  rw [he]; dsimp only
  rw [pushCtrl_of_room hlen]
  split
  · rename_i h; exact absurd h hs
  · rfl

/-- The answer to a bound request of length 0, with DONE(0) behind it (R54, R103). -/
theorem answerBound_of_finishing {T : State} {E : Exchange} {i : SlotId} {answer : BitVec 24 → FrameBody}
    (he : T.ex i = some E) (hs : E.state = .finishing) (hlen : T.txq.ctrl.length < 15)
    (hz : E.length = 0) (ho : T.txq.owed = []) (hline : ∀ c ∈ T.txq.line, c = .rescan ∧ T.xen.rescanDue = false)
    (hown : ∀ x ∈ T.txq.ctrl, x.owner ≠ .slot i (T.gen i)) (hans : ∀ n, (answer n).isDone = false) :
    T.answerBound i answer = (T.enqueued
        ⟨E.peer, T.sn, E.role == .originator, E.tag, answer (BitVec.ofNat 24 E.answerField)⟩ (.slot i (T.gen i))).enqueued
      ⟨E.peer, T.sn, E.role == .originator, E.tag, .done 0⟩ (.slot i (T.gen i)) := by
  unfold answerBound
  rw [he]; dsimp only
  rw [pushCtrl_of_room (by omega), hs]; dsimp only
  obtain ⟨U, hU⟩ : ∃ U : State, U = T.enqueued (E.frame T.sn (answer (to24 E.answerField))) (.slot i (T.gen i)) :=
      ⟨_, rfl⟩
  rw [← hU]
  have hUe : U.ex i = some E := by rw [hU]; exact he
  have hUg : U.gen i = T.gen i := by rw [hU]; rfl
  have hUl : U.txq.line = T.txq.line := by rw [hU]; rfl
  have hUc : U.txq.ctrl = T.txq.ctrl ++ [⟨E.frame T.sn (answer (to24 E.answerField)), .slot i (T.gen i), 0, false⟩] :=
      by rw [hU]; rfl
  have hUo : U.txq.owed = [] := by rw [hU]; exact ho
  unfold dueDone dueOnce
  rw [hUe]; dsimp only
  have hline2 : U.txq.line.any (CtrlClaim.isOf i (U.gen i) FrameBody.isDone) = false := by
    rw [List.any_eq_false, hUl]; intro c hc; rw [(hline c hc).1]; simp [CtrlClaim.isOf]
  have hf : U.hasFrame i FrameBody.isDone = false := by
    unfold hasFrame
    rw [hline2, hUc, List.any_append, hUg, any_isDone_eq_false hown]
    simp [CtrlEntry.isOf, Exchange.frame, hans]
  rw [if_neg (by simp [hf])]
  have hr : U.ctrlRoom = true := by
    refine ctrlBehind_iff.2 ⟨by rw [hUc]; simp; omega, hUo, fun c hc => ?_⟩
    rw [hUl] at hc
    rw [(hline c hc).1]
    have : U.xen.rescanDue = false := by rw [hU]; exact (hline c hc).2
    simp [claimAble, this]
  unfold dueFrame
  rw [hr, if_pos rfl, pushCtrl_of_room (by rw [hUc]; simp; omega)]
  rw [hUg, hU]
  simp only [Exchange.frame, to24, hz]
  rfl

/-- Binding a request to an offer (R54). -/
theorem bind_binds {s : State} {i : SlotId} {o : OfferId} {v : Offer} {d : Deferred} {answer : BitVec 24 → FrameBody}
    (hv : s.offer o = some v) (hlen : s.txq.ctrl.length < 16)
    (ho : s.txq.owed = []) (hline : ∀ c ∈ s.txq.line, c = .rescan ∧ s.xen.rescanDue = false)
    (hd : d.dir = .push → d.size = 0 → s.txq.ctrl.length < 15)
    (hown : ∀ x ∈ s.txq.ctrl, x.owner ≠ .slot i (s.gen i)) (hans : ∀ n, (answer n).isDone = false) :
    s.Binds (s.bind i o answer d.peer d.tag d.dir d.key d.size) i o v d answer := by
  obtain ⟨p, tg, dir, key, size⟩ := d
  unfold State.bind
  rw [hv]; dsimp only
  obtain ⟨A, hA⟩ : ∃ A : State, A = (s.setOffer o (some { v with state := .bound i })).setEx i
      (some (Exchange.ofOffer o v p tg dir key size)) := ⟨_, rfl⟩
  rw [← hA]
  have hAe : A.ex i = some (Exchange.ofOffer o v p tg dir key size) := by rw [hA]; exact ex_setEx_self ..
  have hAg : A.gen i = s.gen i := by rw [hA]; exact gen_setEx ..
  have hAp : A.par = s.par := by rw [hA]; rfl
  have hset : ∀ e, A.setEx i e = (s.setOffer o (some { v with state := .bound i })).setEx i e := by
      intro e; rw [hA, setEx_setEx]
  cases dir with
  | pull =>
    refine ⟨s.stg.cells, fun x => by simp [boundCells]; rfl, ?_⟩
    rintro _ rfl
    rw [if_neg (by simp)]
    unfold openResponder openSender
    dsimp only
    rw [updEx_of_some hAe, hset, answerBound_of_not_finishing (ex_setEx_self ..)]
    · rw [gen_setEx, gen_setOffer]
      have : ({ Exchange.startQuiet A.par (Exchange.ofOffer o v p tg .pull key size) with state
          := if (Exchange.ofOffer o v p tg .pull key size).length = 0 then .confirming else .sending } :
              Exchange) = s.boundRecord i o v ⟨p, tg, .pull, key, size⟩ := by
        rw [hAp]
        simp [boundRecord, Exchange.ofOffer, Exchange.startQuiet, Exchange.startTimer, Exchange.quietMs,
            Deferred.boundLength, boundLimit, boundCells, Walk.start]
        rfl
      rw [this]
      rfl
    · dsimp only; split <;> simp
    · exact hlen
  | push =>
    by_cases hz : size = 0
    · subst hz
      refine ⟨s.stg.cells, fun x => by simp [boundCells, Deferred.boundLength, cellsGiven]; rfl, ?_⟩
      rintro _ rfl
      rw [if_pos ⟨rfl, rfl⟩]
      unfold openResponder openReceiver
      dsimp only
      rw [hAe]; dsimp only
      have h0 : (Exchange.ofOffer o v p tg .push key 0).length = 0 := rfl
      rw [if_pos h0, updEx_of_some hAe, hset]
      obtain ⟨E, hE⟩ : ∃ E : Exchange, E =
          { (Exchange.ofOffer o v p tg .push key 0).clearTimer with state := .finishing } := ⟨_, rfl⟩
      rw [← hE]
      refine (answerBound_of_finishing (T := (s.setOffer o (some { v with state := .bound i })).setEx i (some E))
          (E := E) (by exact ex_setEx_self ..) (by rw [hE]) (hd rfl rfl) (by rw [hE]; rfl) ho hline
              (by rw [gen_setEx, gen_setOffer]; exact hown) hans).trans ?_
      rw [gen_setEx, gen_setOffer]
      subst hE
      simp [boundRecord, setEx, setOffer, Exchange.answerField, Deferred.boundLength, sn, Exchange.clearTimer,
          Exchange.ofOffer, Timer.cleared, Walk.start, boundLimit, boundCells, cellsGiven]
      rfl
    · have hl : (Exchange.ofOffer o v p tg .push key size).length = size := rfl
      unfold openResponder openReceiver
      dsimp only
      rw [hAe]; dsimp only
      rw [if_neg (by rw [hl]; exact hz), updEx_of_some hAe, hset]
      obtain ⟨E, hE⟩ : ∃ E : Exchange, E =
          { Exchange.idleQuiet A.par (Exchange.ofOffer o v p tg .push key size) with state := .receiving } := ⟨_, rfl⟩
      rw [← hE]
      obtain ⟨B, hB⟩ : ∃ B : State, B = (s.setOffer o (some { v with state := .bound i })).setEx i (some E) :=
          ⟨_, rfl⟩
      rw [← hB]
      have hBe : B.ex i = some E := by rw [hB]; exact ex_setEx_self ..
      have hk : s.boundCells i v ⟨p, tg, .push, key, size⟩ =
          B.cellsGiven i ((E.length + 255) / 256 - (E.granted + 255) / 256) := by
        have h1 : E.length = size := by rw [hE]; rfl
        have h2 : E.granted = 0 := by rw [hE]; rfl
        unfold boundCells; dsimp only
        rw [h1, h2]
        unfold cellsGiven
        rw [hB, emptyCells_setOffer, outstanding_setOffer]; rfl
      have hg0 : E.granted = 0 := by rw [hE]; rfl
      have hr0 : E.received = 0 := by rw [hE]; rfl
      have hlE : E.length = size := by rw [hE]; rfl
      have hlim : s.boundLimit i v ⟨p, tg, .push, key, size⟩ =
          min (E.granted + 256 * s.boundCells i v ⟨p, tg, .push, key, size⟩) E.length := by
        rw [hg0, Nat.zero_add, hlE]; rfl
      obtain ⟨cells, hc, hg⟩ := grant_of_some hBe hk hlim
      rw [hg]
      refine ⟨cells, fun x => ?_, ?_⟩
      · have := hc x
        rw [hg0] at this
        rw [this]
        have h1 : B.emptyCells = s.emptyCells := by rw [hB]; rfl
        have h2 : B.gen i = s.gen i := by rw [hB]; exact gen_setEx ..
        have h3 : B.cell x = s.cell x := by rw [hB]; rfl
        rw [h1, h2, h3]
      · have hrec : (if E.granted ≤ E.received ∧ E.received < s.boundLimit i v ⟨p, tg, .push, key,
            size⟩ then B.quietStarted { E with granted := s.boundLimit i v ⟨p, tg, .push, key, size⟩ }
            else { E with granted := s.boundLimit i v ⟨p, tg, .push, key, size⟩ }) =
                s.boundRecord i o v ⟨p, tg, .push, key, size⟩ := by
          have hBp : B.par = s.par := by rw [hB]; rfl
          rw [hg0, hr0]
          unfold quietStarted
          rw [hBp]
          subst hE
          rw [hAp]
          by_cases hpos : 0 < s.boundLimit i v ⟨p, tg, .push, key, size⟩
          · rw [if_pos ⟨Nat.le_refl 0, hpos⟩]
            simp [boundRecord, Exchange.ofOffer, Exchange.idleQuiet, Deferred.boundLength, Walk.start, hz, hpos]
          · rw [if_neg (by tauto)]
            simp [boundRecord, Exchange.ofOffer, Exchange.idleQuiet, Deferred.boundLength, Walk.start, hz, hpos]
        rintro _ rfl
        rw [hrec]
        refine (answerBound_of_not_finishing (E := s.boundRecord i o v ⟨p, tg, .push, key, size⟩)
            (by exact ex_setEx_self i _ B) (by simp [boundRecord, Deferred.boundLength, hz])
                (by rw [hB]; exact hlen)).trans ?_
        have h2 : B.gen i = s.gen i := by rw [hB]; exact gen_setEx ..
        have h3 : B.txq = s.txq := by rw [hB]; rfl
        have h5 : ∀ e, B.setEx i e = (s.setOffer o (some { v with state := .bound i })).setEx i e := by
            intro e; rw [hB, setEx_setEx]
        rw [h5]
        have hgg : ∀ e (g : StagingBuffer), State.gen
            { (s.setOffer o (some { v with state := .bound i })).setEx i e with stg := g } i = s.gen i :=
                fun e g => (gen_setEx i i e _).trans rfl
        have hbst : B.stg = s.stg := by rw [hB]; rfl
        rw [hgg, hbst, if_neg (by simp [Deferred.boundLength, hz])]
        rfl

/-- What the fold of a lane clear or a SILENT mark over the slots keeps of the rest of the state. -/
structure Keep (s u : State) : Prop where
  lpt : u.lpt = s.lpt
  sct : u.sct = s.sct
  ord : u.ord = s.ord
  offers : u.xen.offers = s.xen.offers
  post : u.xen.postOrder = s.xen.postOrder
  rd : u.xen.rescanDue = s.xen.rescanDue ∧ u.xen.rescanWaits = s.xen.rescanWaits ∧ u.xen.rescanAt = s.xen.rescanAt
  deferred : u.xen.deferred = s.xen.deferred
  queue : u.rpt.queue = s.rpt.queue
  ctrl : ∀ c ∈ u.txq.ctrl, c ∈ s.txq.ctrl
  gens : ∀ j, u.gen j = s.gen j
  transfer : u.lmp.transfer = s.lmp.transfer
  owed : ∀ c ∈ u.txq.owed, c ∈ s.txq.owed
  last : u.txq.lastTx = s.txq.lastTx
  lines : ∀ c ∈ u.rpt.line, c ∈ s.rpt.line
  sw : u.rpt.stationWaiting = s.rpt.stationWaiting
  bufs : ∀ b v, u.buffer b = some v → v.state = .sending ∨ v.state = .ready → s.buffer b = some v

theorem Keep.refl (s : State) : Keep s s :=
    ⟨rfl, rfl, rfl, rfl, rfl, ⟨rfl, rfl, rfl⟩, rfl, rfl, fun _ h => h, fun _ => rfl, rfl, fun _ h => h, rfl,
        fun _ h => h, rfl, fun _ _ h _ => h⟩

theorem Keep.trans {s t u : State} (h : Keep s t) (k : Keep t u) : Keep s u :=
  ⟨k.lpt.trans h.lpt, k.sct.trans h.sct, k.ord.trans h.ord, k.offers.trans h.offers, k.post.trans h.post,
      ⟨k.rd.1.trans h.rd.1, k.rd.2.1.trans h.rd.2.1, k.rd.2.2.trans h.rd.2.2⟩, k.deferred.trans h.deferred, k.queue.trans h.queue,
   fun c hc => h.ctrl c (k.ctrl c hc), fun j => (k.gens j).trans (h.gens j), k.transfer.trans h.transfer,
       fun c hc => h.owed c (k.owed c hc), k.last.trans h.last, fun c hc => h.lines c
           (k.lines c hc), k.sw.trans h.sw, fun b v hv hs => h.bufs b v (k.bufs b v hv hs) hs⟩

/-- Entry to RETIRING keeps the rescan as it stands. -/
theorem retire_rescan (i : SlotId) (e : Exchange) (s : State) (r : Result) (h : s.ex i = some e)
    (hs : e.state ≠ .retiring) : (s.retire i r none).xen.rescanDue = s.xen.rescanDue ∧
      (s.retire i r none).xen.rescanWaits = s.xen.rescanWaits ∧ (s.retire i r none).xen.rescanAt = s.xen.rescanAt := by
  rw [retire_eq h hs]; simp
  rw [stripped_eq h]; exact ⟨rfl, rfl, rfl⟩

/-- What entry to RETIRING without an ABORT keeps. -/
theorem retire_keeps (i : SlotId) (e : Exchange) (s : State) (r : Result) (h : s.ex i = some e)
    (hs : e.state ≠ .retiring) : (s.retire i r none).txq.lastTx = s.txq.lastTx
    ∧ (∀ c ∈ (s.retire i r none).rpt.line, c ∈ s.rpt.line) ∧ (s.retire i r none).rpt.stationWaiting =
       s.rpt.stationWaiting ∧ ∀ b v, (s.retire i r none).buffer b = some v → v.state = .sending ∨ v.state = .ready →
         s.buffer b = some v := by
  rw [retire_eq h hs]; simp only [Option.isSome_none, Bool.false_eq_true, if_false]
  rw [stripped_eq h]
  refine ⟨rfl, fun c hc => (List.mem_filter.1 hc).1, rfl, fun b v hv hss => ?_⟩
  have : (s.cutOff i).buffer b = some v := hv
  rw [cutOff_buffer] at this
  cases hb : s.buffer b with
  | none => rw [hb] at this; simp [giveUpBuffer] at this
  | some w =>
    rw [hb] at this; unfold giveUpBuffer at this; dsimp only at this
    split at this
    · cases hw : w.state <;> rw [hw] at this <;> dsimp only at this
      · split at this
        · simp at this; rw [← this] at hss; simp at hss
        · split at this
          · simpa using this
          · simp at this
      · simp at this
      · exact this
      · exact this
    · exact this

/-- An entry to RETIRING without an ABORT keeps the rest of the state (R18). -/
theorem endWith_keep {s : State} {i : SlotId} {e : Exchange} (h : s.ex i = some e) (hs : e.state ≠ .retiring)
    (r : Reason) :
    Keep s (s.endWith i r) := by
  have E := endWith_ends h hs r
  refine ⟨E.rest.2.2, E.rest.1, E.rest.2.1, E.offers.1, E.offers.2.1, retire_rescan i e s _ h hs, E.offers.2.2,
      E.reports, fun c hc => ?_, E.gens, ?_, ?_, ?_, ?_, ?_, ?_⟩
  · rw [E.ctrl] at hc; simp [abortPlaced, ctrlWithout] at hc; exact hc.1
  · exact E.transfer
  · rw [E.owed]; exact fun _ h => h
  · exact (retire_keeps i e s _ h hs).1
  · exact (retire_keeps i e s _ h hs).2.1
  · exact (retire_keeps i e s _ h hs).2.2.1
  · exact (retire_keeps i e s _ h hs).2.2.2

/-- The settling of an ABORT keeps the rest of the state (R20). -/
theorem settle_keep (s : State) (i : SlotId) : Keep s (s.settle i) := by
  unfold settle updEx
  cases h : s.ex i with
  | none => exact ⟨rfl, rfl, rfl, rfl, rfl, ⟨rfl, rfl, rfl⟩, rfl, rfl, fun _ h => h, fun _ => rfl, rfl,
        fun _ h => (List.mem_filter.1 h).1, rfl, fun _ h => h, rfl, fun _ _ h _ => h⟩
  | some e => refine ⟨rfl, rfl, rfl, rfl, rfl, ⟨rfl, rfl, rfl⟩, rfl, rfl, fun _ h => h, fun j => gen_setEx .., rfl,
        fun _ h => (List.mem_filter.1 h).1, rfl, fun _ h => h, rfl, fun _ _ h _ => h⟩

/-- The settling of an ABORT keeps the other records. -/
theorem settle_ex_of_ne (s : State) (i j : SlotId) (h : j ≠ i) : (s.settle i).ex j = s.ex j := by
  unfold settle updEx
  cases he : s.ex i with
  | none => rfl
  | some e => exact ex_setEx_of_ne h ..

/-- A lane clear at one slot keeps the rest of the state (R23). -/
theorem clearSlot_keep (s : State) (i : SlotId) : Keep s (clearSlot s i) := by
  unfold clearSlot
  split
  · exact Keep.refl s
  · rename_i e he
    split
    · exact settle_keep s i
    · exact endWith_keep he (by assumption) _

/-- A lane clear at one slot keeps the other records. -/
theorem clearSlot_ex_of_ne (s : State) (i j : SlotId) (h : j ≠ i) : (clearSlot s i).ex j = s.ex j := by
  unfold clearSlot
  split
  · rfl
  · rename_i e he
    split
    · exact settle_ex_of_ne s i j h
    · exact (endWith_ends he (by assumption) _).others j h

/-- A fold over slots of steps that each act on one slot. -/
theorem foldl_keep (f : State → SlotId → State) (hk : ∀ s i, Keep s (f s i))
    (ho : ∀ s i j, j ≠ i → (f s i).ex j = s.ex j) :
    ∀ (l : List SlotId) (s : State), l.Nodup → Keep s (l.foldl f s) ∧ (∀ j, j ∉ l → (l.foldl f s).ex j = s.ex j) ∧
     ∀ j, j ∈ l → ∃ u : State, Keep s u ∧ u.ex j = s.ex j ∧ (l.foldl f s).ex j = (f u j).ex j := by
  intro l
  induction l with
  | nil => intro s _; exact ⟨Keep.refl s, fun _ _ => rfl, fun j hj => by simp at hj⟩
  | cons a l ih =>
    intro s hn
    rw [List.nodup_cons] at hn
    obtain ⟨h1, h2, h3⟩ := ih (f s a) hn.2
    refine ⟨(hk s a).trans h1, fun j hj => ?_, fun j hj => ?_⟩
    · simp at hj
      exact (h2 j hj.2).trans (ho _ _ _ hj.1)
    · rw [List.mem_cons] at hj
      by_cases hja : j = a
      · subst hja
        exact ⟨s, Keep.refl s, rfl, h2 j hn.1⟩
      · obtain ⟨u, k1, k2, k3⟩ := h3 j (by tauto)
        exact ⟨u, (hk s a).trans k1, k2.trans (ho _ _ _ hja), k3⟩

/-- No slot is listed twice. -/
theorem slotIds_nodup : slotIds.Nodup := by decide

/-- Every slot is listed. -/
theorem mem_slotIds (i : SlotId) : i ∈ slotIds := by revert i; decide

end Sys2Proof.Machine.State
end

