-- ==== Sys2Proof/Laws/Clear.lean ====
section
/-!
SUPPORT. What a lane clear leaves of the slots, the line of due frames, the Report Unit and the cells: one slot, then
all of them in order, then the whole event.
-/

namespace Sys2Proof.Machine.State

/-- What a lane clear at the slots of a list leaves in the line, the Report Unit and the cells (R23, R104, R114). -/
structure Clears (l : List SlotId) (s u : State) : Prop where
  line : (∀ c ∈ s.txq.line, c = .rescan) → u.txq.line = s.txq.line
  back : s.txq.takenBack = none → u.txq.takenBack = none
  rpt : { u.rpt with line := [] } = { s.rpt with line := [] }
  cells : ∀ k, u.cell k =
    match s.cell k with
    | none => none
    | some x =>
      if x.slot ∈ l ∧ (s.ex x.slot).any (·.state != .retiring) = true then s.reclaimCell x.slot k (some x) else some x

/-- Where nothing of the line, the Report Unit and the cells has changed. -/
theorem Clears.of_eq {i : SlotId} {s u : State} (hq : u.txq.line = s.txq.line) (hb : u.txq.takenBack = s.txq.takenBack)
    (hr : u.rpt = s.rpt) (hc : u.stg = s.stg) (he : (s.ex i).any (·.state != .retiring) = false) : Clears [i] s u := by
  refine ⟨fun _ => hq, fun h => hb.trans h, by rw [hr], fun k => ?_⟩
  rw [cell_of_stg hc]
  cases s.cell k with
  | none => rfl
  | some x =>
    dsimp only
    rw [if_neg]
    rintro ⟨h1, h2⟩
    rw [List.mem_singleton.mp h1, he] at h2
    cases h2

/-- A lane clear at one slot (R23, R104). -/
theorem clears_clearSlot (s : State) (i : SlotId) : Clears [i] s (s.clearSlot i) := by
  unfold clearSlot
  cases he : s.ex i with
  | none => exact .of_eq rfl rfl rfl rfl (by rw [he]; rfl)
  | some e =>
    dsimp only
    by_cases hr : e.state = .retiring
    · rw [if_pos hr]
      unfold settle
      rw [updEx_of_some he]
      exact .of_eq rfl rfl rfl rfl (by rw [he]; simp [hr])
    · rw [if_neg hr]
      unfold endWith
      rw [retire_eq he hr]
      simp only [Option.isSome_none, Bool.false_eq_true, if_false]
      rw [stripped_eq he]
      refine ⟨fun h => ?_, fun h => ?_, rfl, fun k => ?_⟩
      · refine List.filter_eq_self.mpr fun c hc => ?_
        rw [h c hc]
        rfl
      · show (s.txq.takenBack.filter _) = none
        rw [h]
        rfl
      · refine (cutOff_cell i s k).trans ?_
        cases hk : s.cell k with
        | none => rfl
        | some x =>
          dsimp only
          by_cases hx : x.slot = i
          · rw [hx, if_pos ⟨List.mem_singleton.mpr rfl, by rw [he]; simpa using hr⟩]
          · rw [if_neg fun h => hx (List.mem_singleton.mp h.1), reclaimCell_other k fun h => hx h.1]

/-- A reclaimed cell keeps its slot. -/
theorem reclaimCell_slot {s : State} {i : SlotId} {k : CellId} {x y : Cell} (h : s.reclaimCell i k (some x) = some y) :
    y.slot = x.slot := by
  unfold reclaimCell at h
  dsimp only at h
  (repeat' split at h) <;> simp at h <;> subst h <;> rfl

/-- Reclaiming reads the generations and the transfer in progress only. -/
theorem reclaimCell_of_transfer {s t : State} (i : SlotId) (hg : t.gen i = s.gen i)
    (hl : t.lmp.transfer = s.lmp.transfer) (k : CellId) (v : Option Cell) :
    t.reclaimCell i k v = s.reclaimCell i k v := by
  have hp : ∀ p, t.inProgress p = s.inProgress p := fun p => by simp only [inProgress, hl]
  cases v with
  | none => rfl
  | some x => simp only [reclaimCell, hp, hg]

/-- A lane clear at the slots of a list, in order (R23, R104, R114). -/
theorem clears_foldl : ∀ (l : List SlotId) (s : State), l.Nodup → Clears l s (l.foldl clearSlot s)
  | [], s, _ => ⟨fun _ => rfl, id, rfl, fun k => by cases h : s.cell k <;> simp [h]⟩
  | i :: l, s, hn => by
    rw [List.nodup_cons] at hn
    have A := clears_clearSlot s i
    have K := clearSlot_keep s i
    have B := clears_foldl l (s.clearSlot i) hn.2
    refine ⟨fun h => ?_, fun h => B.back (A.back h), B.rpt.trans A.rpt, fun k => ?_⟩
    · have h1 := A.line h
      exact (B.line (by rw [h1]; exact h)).trans h1
    · refine (B.cells k).trans ?_
      rw [A.cells k]
      cases s.cell k with
      | none => rfl
      | some x =>
        dsimp only
        by_cases hx : x.slot = i
        · have hm : ∀ y : Cell, y.slot = x.slot →
              ¬(y.slot ∈ l ∧ ((s.clearSlot i).ex y.slot).any (·.state != .retiring) = true) := fun y hy h =>
            hn.1 (by rw [← hx, ← hy]; exact h.1)
          by_cases hr : (s.ex x.slot).any (·.state != .retiring) = true
          · rw [if_pos ⟨List.mem_singleton.mpr hx, hr⟩, if_pos ⟨List.mem_cons.mpr (.inl hx), hr⟩]
            cases hy : s.reclaimCell x.slot k (some x) with
            | none => rfl
            | some y => exact if_neg (hm y (reclaimCell_slot hy))
          · rw [if_neg fun h => hr h.2, if_neg fun h => hr h.2]
            exact if_neg (hm x rfl)
        · rw [if_neg (fun h => hx (List.mem_singleton.mp h.1))]
          dsimp only
          rw [clearSlot_ex_of_ne s i x.slot hx, reclaimCell_of_transfer x.slot (K.gens _) K.transfer]
          simp only [List.mem_cons, hx, false_or]

/-- From s to t a lane clear event has been taken with a report queue entry free (R114, R132, R133, R147); in PROBING a
new PROBE is placed (R170). -/
structure Cleared (s t : State) : Prop where
  sct : s.sct.station ≠ .probing → t.sct = s.sct
  ctrl : s.sct.station ≠ .probing → t.txq.ctrl = []
  lpt : t.lpt = s.lpt.cleared
  owed : t.txq.owed = []
  line : t.txq.line = s.txq.line.filter fun c => c == .rescan && s.xen.rescanDue
  freeSlots : ∀ i, s.ex i = none → t.ex i = none
  slots : ∀ i e, t.ex i = some e → e.state = .retiring
  deferred : t.xen.deferred = []
  offers : t.xen.offers = s.xen.offers
  transfer : t.lmp.transfer = s.lmp.transfer
  acks : t.ord.acks = (s.countClear s.lpt.pins.lcl).ord.acks.map fun a =>
    if StationWait.serves ⟨s.sct.station, .laneCleared, s.ord.clears + 1⟩ a.await then { a with due := true } else a
  rpt : { t.rpt with line := [] } =
    { s.rpt with queue := s.rpt.queue ++ [.station s.sct.station .laneCleared], line := [] }
  claims : ∀ c ∈ t.rpt.line, c ∈ s.rpt.line

/-- The slots after a lane clear at all of them: no slot holds an exchange that is not RETIRING (R23). -/
theorem clearSlots_retiring (s : State) (i : SlotId) :
    (s.ex i = none → (slotIds.foldl clearSlot s).ex i = none) ∧
      ∀ e, (slotIds.foldl clearSlot s).ex i = some e → e.state = .retiring := by
  obtain ⟨-, -, k⟩ := foldl_keep clearSlot clearSlot_keep clearSlot_ex_of_ne slotIds s slotIds_nodup
  obtain ⟨u, -, h1, h2⟩ := k i (mem_slotIds i)
  rw [h2]
  unfold clearSlot
  cases he : u.ex i with
  | none => exact ⟨fun _ => he, fun e h => by simp [he] at h⟩
  | some e =>
    refine ⟨fun h => by simp [← h1, he] at h, fun x hx => ?_⟩
    dsimp only at hx
    by_cases hr : e.state = .retiring
    · rw [if_pos hr] at hx
      unfold settle at hx
      rw [updEx_of_some he] at hx
      have hx : (u.setEx i (some e.settleAbort)).ex i = some x := hx
      rw [ex_setEx_self] at hx
      cases hx
      unfold Exchange.settleAbort
      (repeat' split) <;> simp [Exchange.setAbort, hr]
    · rw [if_neg hr, (endWith_ends he hr _).record] at hx
      cases hx
      rfl

/-- The event before the PROBE of a station in PROBING. -/
theorem cleared_report (s A : State) (hA : A = slotIds.foldl clearSlot (s.countClear s.lpt.pins.lcl).clearLane)
    (ho : s.rpt.queue.length < 8) (hw : s.rpt.stationWaiting = []) :
    Cleared s (((A.unclaimReport .inboxHead).unclaimReport .rescan).stationReport
        ⟨A.sct.station, .laneCleared, A.ord.clears⟩) ∧
      (((A.unclaimReport .inboxHead).unclaimReport .rescan).stationReport
        ⟨A.sct.station, .laneCleared, A.ord.clears⟩).sct = s.sct := by
  obtain ⟨K, -, -⟩ := foldl_keep clearSlot clearSlot_keep clearSlot_ex_of_ne slotIds
    (s.countClear s.lpt.pins.lcl).clearLane slotIds_nodup
  have C := clears_foldl slotIds (s.countClear s.lpt.pins.lcl).clearLane slotIds_nodup
  have R := clearSlots_retiring (s.countClear s.lpt.pins.lcl).clearLane
  rw [← hA] at K C
  simp only [← hA] at R
  have hs : A.sct = s.sct := K.sct
  have hq : A.rpt.queue = s.rpt.queue := K.queue
  have hn : A.ord.clears = s.ord.clears + 1 := by rw [K.ord]; rfl
  rw [stationReport_of_room (s := (A.unclaimReport .inboxHead).unclaimReport .rescan)
    (by show A.rpt.queue.length + 1 ≤ 8; rw [hq]; omega) (by show A.rpt.stationWaiting = []; rw [K.sw]; exact hw)
    ⟨A.sct.station, .laneCleared, A.ord.clears⟩]
  have nil : ∀ {α : Type} {l : List α}, (∀ c ∈ l, c ∈ ([] : List α)) → l = [] := fun h =>
    List.eq_nil_iff_forall_not_mem.mpr fun c hc => by simpa using h c hc
  exact ⟨
    { sct := fun _ => hs
      ctrl := fun _ => nil K.ctrl
      lpt := K.lpt
      owed := nil K.owed
      line := C.line fun c hc => by simp [clearLane, TransmitQueue.cleared] at hc; exact hc.2.1
      freeSlots := fun i h => (R i).1 h
      slots := fun i => (R i).2
      deferred := K.deferred
      offers := K.offers
      transfer := K.transfer
      acks := by
        show A.ord.acks.map _ = _
        rw [hs, hn, K.ord]
        rfl
      rpt := by
        have h := congrArg (fun r : ReportUnit =>
          { r with queue := r.queue ++ [Report.station s.sct.station .laneCleared] }) C.rpt
        simp only at h
        show { A.rpt with queue := A.rpt.queue ++ [Report.station A.sct.station .laneCleared], line := [] } = _
        rw [hs]
        exact h
      claims := fun c hc => K.lines c (List.mem_filter.mp (List.mem_filter.mp hc).1).1 }, hs⟩

/-- A PROBE placed leaves what a lane clear event gives outside Station Control and the control queue (R170). -/
theorem Cleared.placeProbe {s t : State} (h : Cleared s t) (hp : s.sct.station = .probing) :
    Cleared s t.placeProbe := by
  have hk : ∃ c q w, t.placeProbe = { t with
      sct := c, txq := { t.txq with ctrl := q }, xen := { t.xen with rescanWaits := w } } := by
    unfold State.placeProbe pushCtrl pushEntry
    split
    · exact ⟨_, _, _, rfl⟩
    · exact ⟨_, t.txq.ctrl, t.xen.rescanWaits, rfl⟩
  obtain ⟨c, q, w, hk⟩ := hk
  rw [hk]
  exact ⟨fun k => absurd hp k, fun k => absurd hp k, h.lpt, h.owed, h.line, h.freeSlots, h.slots, h.deferred, h.offers,
    h.transfer, h.acks, h.rpt, h.claims⟩

/-- A lane clear event with a report queue entry free (R114, R132, R133, R147, R170). -/
theorem takeClear_cleared (s : State) (ho : s.rpt.queue.length < 8) (hw : s.rpt.stationWaiting = []) :
    Cleared s s.takeClear := by
  obtain ⟨C, hc⟩ := cleared_report s _ rfl ho hw
  unfold takeClear
  dsimp only
  generalize slotIds.foldl clearSlot (s.countClear s.lpt.pins.lcl).clearLane = A at C hc ⊢
  generalize hT : ((A.unclaimReport .inboxHead).unclaimReport .rescan).stationReport
    ⟨A.sct.station, .laneCleared, A.ord.clears⟩ = T at C hc
  show Cleared s (if (((A.unclaimReport .inboxHead).unclaimReport .rescan).stationReport
    ⟨A.sct.station, .laneCleared, A.ord.clears⟩).sct.station = .probing then _ else _)
  rw [hT]
  split
  · rename_i hp
    rw [hc] at hp
    have := C.placeProbe hp
    rw [← hT] at this
    exact this
  · rw [← hT] at C
    exact C

/-- A CLR whose pulse the event includes has its ACK due (R131, R147, R149). -/
theorem Cleared.ack_due {s t : State} (h : Cleared s t) (hl : s.lpt.pins.lcl = true) {a : AckEntry}
    (ha : a ∈ s.ord.acks) (hw : a.await = .clearPulse) :
    ∃ x ∈ t.ord.acks, x.tag = a.tag ∧ x.kind = a.kind ∧ x.due = true := by
  refine ⟨{ a with await := .clearReport (s.ord.clears + 1), due := true }, ?_, rfl, rfl, rfl⟩
  rw [h.acks]
  refine List.mem_map.mpr ⟨{ a with await := .clearReport (s.ord.clears + 1) }, ?_, by simp [StationWait.serves]⟩
  simp only [countClear, hl, if_true]
  exact List.mem_map.mpr ⟨a, ha, by rw [hw]; rfl⟩

end Sys2Proof.Machine.State
end

