-- ==== Sys2Proof/Laws/Frames.lean ====
section
/-!
SUPPORT. What a walk, a fill and the transmit choice do with the frames they are offered.
-/

namespace Sys2Proof.Machine.State

/-- The end of an entry read of a live exchange that is not RETIRING (R69, R72). -/
theorem exec_entryRead {s : State} {i : SlotId} {e : Exchange} {addr n : Nat} {old bytes : List Byte}
   (h : s.ending ⟨.entryRead i (s.gen i), addr, n, old⟩) (he : s.ex i = some e) (hs : e.state ≠ .retiring)
       (hl : bytes.length = 16) :
   exec (.entryReadDone bytes) s = .next
       ((s.portFree.setEx i (some { e with transfers := e.transfers - 1 })).useEntry i (EntryRead.parse bytes)) := by
  have h1 := runs_up h.1
  simp only [exec, execEntryReadDone, hl, h1.1, and_self, if_true, h.2]
  rw [if_neg h1.2]
  unfold entryDone
  rw [endTransfer_of_some he]
  dsimp only
  have hlive := live_of_some (t := s.portFree.setEx i (some { e with transfers := e.transfers - 1 })) (g := s.gen i)
      (ex_setEx_self ..) (gen_setEx ..)
  simp only [hlive, ex_setEx_self, Bool.true_eq_false, if_false, hs]

/-- The lowest FILLING buffer of a slot is the one whose fill goes on (R81). -/
theorem find_filling {t : State} {i : SlotId} {b : BufId} {v : OutBuffer}
    (hb : t.buffer b = some v) (hvi : v.slot = i) (hvg : v.gen = t.gen i) (hvs : v.state = .filling)
    (hlow : ∀ b' v', b' < b → t.buffer b' = some v' → ¬(v'.slot = i ∧ v'.gen = t.gen i ∧ v'.state = .filling)) :
    bufIds.find? (t.bufferIn i .filling) = some b := by
  apply find_lowest_buffer
  · simp [bufferIn, hb, hvi, hvg, hvs]
  · intro b' hb'
    unfold bufferIn
    cases h : t.buffer b' with
    | none => rfl
    | some v' =>
      have := hlow b' v' hb' h
      rw [← Bool.not_eq_true]; simpa using fun a b => fun c => this ⟨a, b, c⟩

/-- A fill that waited for room in the mark queue goes on behind the marks (R75). -/
theorem resumeFill_of_fills {t : State} {i : SlotId} {e : Exchange} {b : BufId} {v : OutBuffer} (he : t.ex i = some e)
    (hf : t.fills i e b v) (hs : e.state = .sending) (ht : e.transfers = 0) : t.resumeFill i = t.fillGo b := by
  obtain ⟨hb, hvi, hvg, hvs, -, hlow⟩ := hf
  unfold resumeFill
  rw [he]; dsimp only
  rw [find_filling hb hvi hvg hvs hlow]; dsimp only
  rw [if_pos ⟨hs, ht⟩]

/-- The end of an entry read goes on with the slot's fill, where the drain does not wait for it (R74, R81). -/
theorem walkOn_of_filling {t : State} {i : SlotId} {b : BufId} {v : OutBuffer}
    (hdr : ∀ g, t.stg.drain ≠ .choosing i g)
    (hb : t.buffer b = some v) (hvi : v.slot = i) (hvg : v.gen = t.gen i) (hvs : v.state = .filling)
    (hlow : ∀ b' v', b' < b → t.buffer b' = some v' → ¬(v'.slot = i ∧ v'.gen = t.gen i ∧ v'.state = .filling)) :
    t.walkOn i = (t.fillGo b).settleMarks i := by
  have hf : t.fillWaiting i = (t.fillGo b).settleMarks i := by
    unfold fillWaiting
    rw [find_filling hb hvi hvg hvs hlow]; dsimp only
    unfold fillOn
    rw [hb]; dsimp only; rw [hvi]
  unfold walkOn
  split
  · rename_i j g h
    rw [if_neg (by rintro rfl; exact hdr g h), hf]
  · exact hf
  · exact hf

/-- A DATA entry as it is read (R69). -/
theorem parse_data {bytes : List Byte} (hk : byteAt bytes 8 = 0x01) : EntryRead.parse bytes = .data
    ⟨le32 bytes 0, (le24 bytes 4).toNat, (byteAt bytes 9).getLsbD 0, (byteAt bytes 9).getLsbD 1,
          (byteAt bytes 9).getLsbD 2⟩ := by
  unfold EntryRead.parse; rw [if_pos hk]

/-- A fill whose walk meets an error ends the exchange (R73). -/
theorem fillGo_error {t : State} {b : BufId} {v : OutBuffer} {e : Exchange} {w : Walk} {r : Reason} {i : SlotId}
    (hb : t.buffer b = some v) (hi : v.slot = i) (he : t.ex i = some e) (hc : e.prepared < v.ceiling)
    (ha : e.walk.ask e.length v.ceiling = (w, .error r)) :
    t.fillGo b = (t.setEx i (some { e with walk := w })).abortWith i r := by
  subst hi
  unfold fillGo
  rw [hb]; dsimp only; rw [he]; dsimp only
  rw [if_neg (by omega)]
  simp only [ha]
  rw [updEx_of_some he]; rfl

/-- A fill whose walk stands at the gate ends its frame, or gives an empty frame up (R81). -/
theorem fillGo_gate {t : State} {b : BufId} {v : OutBuffer} {e : Exchange} {w : Walk} {i : SlotId}
    (hb : t.buffer b = some v) (hi : v.slot = i) (he : t.ex i = some e) (hc : e.prepared < v.ceiling)
    (ha : e.walk.ask e.length v.ceiling = (w, .gate)) :
    t.fillGo b = (t.setEx i (some { e with walk := w })).setBuffer b
      (if e.prepared = v.offset then none else some { v with state := .ready }) := by
  subst hi
  unfold fillGo
  rw [hb]; dsimp only; rw [he]; dsimp only
  rw [if_neg (by omega)]
  simp only [ha]
  rw [updEx_of_some he]
  split <;> rfl

/-- A fill waits for room in the mark queue, or its frame ends before the flagged entry (R75; log 34). -/
theorem fillGo_wait {t : State} {b : BufId} {v : OutBuffer} {e : Exchange} {w : Walk} {i : SlotId} {m : Mark}
    {rest : List Mark} (hb : t.buffer b = some v) (hi : v.slot = i) (he : t.ex i = some e)
    (hc : e.prepared < v.ceiling) (hm : e.walk.marks = m :: rest) (ha : e.walk.ask e.length v.ceiling = (w, .wait)) :
    (m.point ≤ v.offset → t.fillGo b = t.setEx i (some { e with walk := w })) ∧
    (v.offset < m.point →
      t.fillGo b = (t.setEx i (some { e with walk := w })).setBuffer b (some { v with state := .ready })) := by
  subst hi
  have h : t.fillGo b = if e.walk.waitEnds v.offset then t.setEx v.slot (some { e with walk := w })
      else (t.setEx v.slot (some { e with walk := w })).setBuffer b (some { v with state := .ready }) := by
    unfold fillGo
    rw [hb]; dsimp only; rw [he]; dsimp only
    rw [if_neg (by omega)]
    simp only [ha]
    rw [updEx_of_some he]
    rfl
  rw [h]
  simp only [Walk.waitEnds, hm, decide_eq_true_eq]
  exact ⟨fun hp => if_pos hp, fun hp => if_neg (Nat.not_le.2 hp)⟩

/-- An exchange that has ended has no mark left. -/
theorem settleMarks_of_ended {t : State} {i : SlotId} {e : Exchange} (he : t.ex i = some e) (hs : e.state ≠ .retiring)
    (r : Reason) : (t.abortWith i r).settleMarks i = t.abortWith i r := by
  have E := abortWith_ends he hs r
  exact settleMarks_of_nil E.record rfl

/-- A lone mark whose point has not been reached waits (R76). -/
theorem settleMarks_of_late {t : State} {i : SlotId} {e : Exchange} (he : t.ex i = some e)
    (h : ∀ m, e.walk.marks = [m] → e.doneBytes < m.point) (h2 : e.walk.marks.length ≤ 1) : t.settleMarks i = t := by
  refine settleMarks_of_unreached he fun m l hm => h m ?_
  rw [hm] at h2 ⊢
  have : l = [] := by simpa using h2
  rw [this]

/-- The oldest WAITING entry of a queue. -/
theorem findIdx_waiting {pre post : List CtrlEntry} {c : CtrlEntry} (hc : c.inSlot = false)
    (hp : ∀ x ∈ pre, x.inSlot = true) :
    (pre ++ c :: post).findIdx? (fun c => !c.inSlot) = some pre.length := by
  rw [List.findIdx?_eq_some_iff_getElem]
  refine ⟨by simp, by simp [hc], fun j hj => ?_⟩
  rw [List.getElem_append_left hj]
  simp [hp _ (List.getElem_mem hj)]

/-- The oldest WAITING control frame is handed over (R109). -/
theorem handOver_eq {s : State} {pre post : List CtrlEntry} {c : CtrlEntry} (h : s.txq.ctrl = pre ++ c :: post)
    (hc : c.inSlot = false) (hp : ∀ x ∈ pre, x.inSlot = true) :
   s.handOver = State.markOpenHanded c { s with
        txq := { s.txq with ctrl := pre ++ { c with inSlot := true } :: post },
        lpt := { s.lpt with tx := some ⟨.ctrl, c.frame, 0, false⟩ } } := by
  unfold handOver
  rw [h, findIdx_waiting hc hp]
  simp

/-- A queue with a WAITING entry. -/
theorem anyWaiting_of_mem {s : State} {pre post : List CtrlEntry} {c : CtrlEntry} (h : s.txq.ctrl = pre ++ c :: post)
    (hc : c.inSlot = false) : s.anyWaiting = true := by
  simp [anyWaiting, h, hc]

/-- Of a slot's READY buffers the one with the lowest offset is offered (R82, R109). -/
theorem offeredBuffer_of_lowest {s : State} {b : BufId} {v : OutBuffer} (hb : s.buffer b = some v)
    (hs : v.state = .ready) (hg : v.gen = s.gen v.slot)
  (ho : ∀ b' v', s.buffer b' = some v' → v'.state = .ready → v'.slot = v.slot → v'.gen = v.gen → b' ≠ b → v.offset <
      v'.offset) :
   s.offeredBuffer v.slot = some b := by
  have hself : s.readyOffset v.slot b = some v.offset := by simp [readyOffset, hb, hs, hg]
  have hoth : ∀ b', b' ≠ b → ∀ x, s.readyOffset v.slot b' = some x → v.offset < x := by
    intro b' hne x hx
    unfold readyOffset at hx
    split at hx
    · rename_i v' hv'
      split at hx
      · rename_i hc; simp at hx; subst hx; exact ho b' v' hv' hc.2.2 hc.1 (hc.2.1.trans hg.symm) hne
      · simp at hx
    · simp at hx
  have step : ∀ (l : List BufId) (best : Option BufId), (best = some b ∨ b ∈ l) →
     (l.foldl (s.lowerReady v.slot) best) = some b := by
    intro l
    induction l with
    | nil => intro best h; simpa using h
    | cons a l ih =>
      intro best h
      simp only [List.foldl_cons]
      apply ih
      by_cases hab : a = b
      · subst hab
        left
        unfold lowerReady
        rw [hself]
        cases best with
        | none => rfl
        | some c =>
          dsimp only
          cases hc : s.readyOffset v.slot c with
          | none => rfl
          | some y =>
            dsimp only
            by_cases hca : c = a
            · subst hca; split <;> rfl
            · rw [if_pos (hoth c hca y hc)]
      · rcases h with rfl | h
        · left
          unfold lowerReady
          cases ha : s.readyOffset v.slot a with
          | none => rfl
          | some x =>
            simp only [hself]
            rw [if_neg]; have := hoth a hab x ha; omega
        · right
          rcases List.mem_cons.1 h with h | h
          · exact absurd h.symm hab
          · exact h
  apply step
  right
  exact (by decide : ∀ b : BufId, b ∈ bufIds) b

/-- A buffer of a live exchange is handed over (R109). -/
theorem handBuffer_eq {s : State} {b : BufId} {v : OutBuffer} {e : Exchange} (hb : s.buffer b = some v)
    (he : s.ex v.slot = some e) (hs : e.state ≠ .retiring) (hg : v.gen = s.gen v.slot) :
   s.handBuffer b = { s.setBuffer b (some { v with state := .sending }) with
        lpt := { s.lpt with tx := some ⟨.data b, ⟨e.peer, s.sn, e.role == .originator, e.tag,
          .data (BitVec.ofNat 24 v.offset) (BitVec.ofNat 16 v.payload.length) v.payload⟩, 0, false⟩ } } := by
  unfold handBuffer
  have hbo : s.bufferOwner v = some e := by simp [bufferOwner, he, hg, hs, Option.filter]
  rw [hb]; dsimp only; rw [hbo]; rfl

/-- A buffer whose exchange has ended has no owner (R84). -/
theorem bufferOwner_of_ended {s : State} {v : OutBuffer}
    (h : ∀ e, s.ex v.slot = some e → v.gen = s.gen v.slot → e.state = .retiring) : s.bufferOwner v = none := by
  unfold bufferOwner
  cases he : s.ex v.slot with
  | none => rfl
  | some e =>
    simp [Option.filter]
    intro hg
    exact h e he hg.symm

end Sys2Proof.Machine.State
end

