-- ==== Sys2Proof/Laws/Handing.lean ====
section
/-!
SUPPORT. What the hand-out of freed report queue entries does (R152): STATION reports first, then the oldest claimant,
which is served or keeps everybody behind it waiting.
-/

namespace Sys2Proof.Machine.State

/-! ### STATION reports -/

/-- Without a waiting STATION report none is queued. -/
theorem flushStation_of_nil {t : State} (h : t.rpt.stationWaiting = []) (n : Nat) : flushStation n t = t := by
  cases n with
  | zero => rfl
  | succ n => unfold flushStation; rw [h]

/-- With one entry free, the first waiting STATION report takes it (R152). -/
theorem flushStation_of_one {t : State} {w : StationWait} {more : List StationWait}
    (h : t.rpt.stationWaiting = w :: more) (hq : t.rpt.queue.length = 7) (n : Nat) :
    flushStation (n + 2) t = { t with rpt := { t.rpt with stationWaiting := more } }.queueStation w := by
  have hroom : t.reportRoom 1 = true := by simp [reportRoom, hq]
  show flushStation ((n + 1) + 1) t = _
  unfold flushStation
  rw [h]
  dsimp only
  rw [hroom, if_pos rfl]
  generalize hu : { t with rpt := { t.rpt with stationWaiting := more } }.queueStation w = u
  have hfull : u.reportRoom 1 = false := by
    rw [← hu]
    simp [queueStation, ackEvent, pushReport, reportRoom, hq]
  unfold flushStation
  split
  · rfl
  · rw [hfull]; rfl

/-! ### The line of claimants -/

/-- One round of the hand-out (R152). -/
theorem handOut_succ (n : Nat) (t : State) : handOut (n + 1) t =
    match (flushStation 8 t).rpt.line.find? fun c => !(flushStation 8 t).passedOver c with
    | none => flushStation 8 t
    | some c =>
      if ((flushStation 8 t).serveClaim c).rpt.line = (flushStation 8 t).rpt.line then (flushStation 8 t).serveClaim c
      else handOut n ((flushStation 8 t).serveClaim c) := rfl

/-- Nobody waits: the entries stay free. -/
theorem handOut_of_nil {t : State} (h : t.rpt.stationWaiting = []) (hl : t.rpt.line = []) (n : Nat) :
    handOut n t = t := by
  cases n with
  | zero => rfl
  | succ n => rw [handOut_succ]; simp only [flushStation_of_nil h]; rw [hl]; rfl

/-- The oldest claimant is served, and the hand-out goes on behind it (R152). -/
theorem handOut_of_served {t u : State} {c : ReportClaim} {rest : List ReportClaim}
    (h : t.rpt.stationWaiting = []) (hl : t.rpt.line = c :: rest) (hp : t.passedOver c = false)
    (hu : t.serveClaim c = u) (hne : u.rpt.line ≠ t.rpt.line) (n : Nat) : handOut (n + 1) t = handOut n u := by
  rw [handOut_succ]
  simp only [flushStation_of_nil h]
  rw [hl]
  simp only [List.find?_cons, hp, Bool.not_false]
  rw [hu, ← hl, if_neg hne]

/-- The oldest claimant cannot be served, and nobody is served ahead of it (R152). -/
theorem handOut_of_kept {t u : State} {c : ReportClaim} {rest : List ReportClaim} (hf : flushStation 8 t = u)
    (hl : u.rpt.line = c :: rest) (hp : u.passedOver c = false) (hu : u.serveClaim c = u) (n : Nat) :
    handOut (n + 1) t = u := by
  rw [handOut_succ]
  simp only [hf]
  rw [hl]
  simp only [List.find?_cons, hp, Bool.not_false]
  rw [hu, ← hl, if_pos rfl]

/-- Where only STATION reports wait, they take the entries (R152). -/
theorem handOut_of_flushed {t u : State} (hf : flushStation 8 t = u) (hl : u.rpt.line = []) (n : Nat) :
    handOut (n + 1) t = u := by
  rw [handOut_succ]
  simp only [hf]
  rw [hl]
  rfl

/-- A claimant of the line keeps its place. -/
theorem claimReport_of_mem {t : State} {c : ReportClaim} (h : c ∈ t.rpt.line) : t.claimReport c = t := by
  unfold claimReport
  rw [if_pos (List.contains_iff_mem.mpr h)]

/-- No claimant has its turn while a STATION report waits or the queue lacks the entries (R152). -/
theorem reportTurn_eq_false {t : State} {c : ReportClaim} {k : Nat}
    (h : t.rpt.stationWaiting ≠ [] ∨ 8 < t.rpt.queue.length + k) : t.reportTurn c k = false := by
  have hc : Config.reportCap = 8 := rfl
  unfold reportTurn reportRoom
  rcases h with h | h
  · simp [h]
  · have : ¬ t.rpt.queue.length + k ≤ Config.reportCap := by omega
    simp [this]

/-- A release makes one report at least (R22). -/
theorem releaseReports_pos (s : State) (e : Exchange) (r : Result) : 1 ≤ (s.releaseReports e r).length := by
  unfold releaseReports
  split
  · split <;> simp
  · simp

/-- A mark needs one entry at least (R76). -/
theorem Mark.need_pos (m : Mark) : 1 ≤ m.need := by unfold Mark.need; split <;> omega

/-- A release whose reports do not fit keeps its place (R22, R152). -/
theorem tryRelease_of_kept {t : State} {i : SlotId} (hm : .release i ∈ t.rpt.line)
    (h : ∀ e r, t.ex i = some e → e.settled = some r →
      t.reportTurn (.release i) (t.releaseReports e r).length = false) : t.tryRelease i = t := by
  unfold tryRelease
  split
  · rfl
  · rename_i e he
    split
    · rfl
    · rename_i r hr
      rw [h e r he hr]
      exact claimReport_of_mem hm

/-- A reached head mark whose reports do not fit waits for their entries (R76, R152). -/
theorem settleMarks_of_noTurn {t : State} {i : SlotId} {m : Mark} (hh : t.headMark i = some m)
    (h : t.reportTurn (.mark i) m.need = false) : t.settleMarks i = t.claimReport (.mark i) := by
  have hacts : t.headActs i = false := by simp [headActs, hh, h]
  unfold settleMarks
  rw [if_neg (by simp [hacts])]
  show actMarks (15 + 1) i t = _
  unfold actMarks
  rw [hh]
  dsimp only
  rw [h, if_neg (by simp)]

/-- A mark whose reports do not fit keeps its place (R76, R152). -/
theorem settleMarks_of_kept {t : State} {i : SlotId} (hm : .mark i ∈ t.rpt.line)
    (h : ∀ m, t.headMark i = some m → t.reportTurn (.mark i) m.need = false) : t.settleMarks i = t := by
  cases hh : t.headMark i with
  | none => exact settleMarks_of_none hh
  | some m => rw [settleMarks_of_noTurn hh (h m hh), claimReport_of_mem hm]

/-- A head mark acts where the queues are free (R76, R77). -/
theorem actMark_of_open {s : State} {i : SlotId} {e : Exchange} {m : Mark} (he : s.ex i = some e)
    (ho : s.reportOpen m.need)
    (hc : m.pause = true → s.ctrlOpen ∧ ∀ y ∈ s.txq.ctrl, y.owner = .slot i (s.gen i) → y.frame.body ≠ .hold) :
    s.actMark i m = s.marked i e m := by
  unfold actMark
  rw [he]
  dsimp only
  rw [updEx_of_some he, unclaimReport_of_nil (by exact ho.2.2)]
  generalize hv : s.setEx i (some e.popMark) = v
  have hve : v.ex i = some e.popMark := by rw [← hv]; exact ex_setEx_self ..
  have hnote : (if m.note = true then v.pushReport (.note e.orderTag m.base m.index) else v) =
      { v with rpt := { s.rpt with
        queue := s.rpt.queue ++ if m.note then [.note e.orderTag m.base m.index] else [] } } := by
    split
    · rw [pushReport_of_open (k := 0) (by
        have := Mark.need_pos m; have := ho.1; subst hv; exact ⟨by show s.rpt.queue.length + 1 ≤ 8; omega, ho.2⟩)]
      subst hv
      rfl
    · subst hv
      simp
      rfl
  rw [hnote]
  unfold marked
  by_cases hp : m.pause = true
  · obtain ⟨hco, hq⟩ := hc hp
    rw [if_pos hp, if_pos hp]
    generalize hw : ({ v with rpt := { s.rpt with
      queue := s.rpt.queue ++ if m.note then [.note e.orderTag m.base m.index] else [] } } : State) = w
    have hwe : w.ex i = some e.popMark := by subst hw; exact hve
    have hlen : s.rpt.queue.length + (if m.note = true then 2 else 1) ≤ 8 := by
      have := ho.1; simpa [Mark.need, hp] using this
    rw [updEx_of_some hwe]
    rw [pushReport_of_open (k := 0) (by
      subst hw hv
      refine ⟨?_, ho.2⟩
      show (s.rpt.queue ++ _).length + 1 ≤ 8
      rw [List.length_append]
      cases hn : m.note <;> rw [hn] at hlen <;> simp at hlen ⊢ <;> omega)]
    refine (dueHold_of_open (e := e.popMark.pause) (by exact ex_setEx_self i _ w) (by subst hw hv; exact hco) ?_).trans ?_
    · subst hw hv
      intro y hy hown
      refine hq y hy (hown.trans ?_)
      congr 1
      exact (gen_setEx ..).trans (gen_setEx ..)
    · subst hw hv
      simp [setEx, enqueued, reported, sn, gen, Exchange.pause, Exchange.stopTimer, Exchange.popMark]
  · rw [if_neg hp, if_neg hp]
    subst hv
    rfl

/-- Reached NOTE marks act one after another, up to the first mark whose point is not reached (R76). -/
theorem actMarks_of_notes {i : SlotId} {rest : List Mark} : ∀ (ms : List Mark) (n : Nat) {s : State} {e : Exchange},
    s.ex i = some e → e.walk.marks = ms ++ rest → s.notesReached ms rest e.doneBytes → ms.length ≤ n →
    actMarks n i s = s.noted i e ms rest
  | [], n, s, e, he, hm, hr, _ => by
    rw [actMarks_of_none (headMark_of_unreached he fun m l h => hr.2.2 m l (hm.symm.trans h))]
    have h1 : s.setEx i (some { e with walk := { e.walk with marks := rest } }) = s := by
      have : { e with walk := { e.walk with marks := rest } } = e := by rw [← hm.trans (List.nil_append _)]
      rw [this]; exact setEx_same he
    simp [noted, h1]
  | m :: ms, 0, _, _, _, _, _, hn => by simp at hn
  | m :: ms, n + 1, s, e, he, hm, hr, hn => by
    obtain ⟨hall, ho, hrest⟩ := hr
    obtain ⟨hmn, hmp, hpt⟩ := hall m (by simp)
    have hneed : m.need = 1 := by simp [Mark.need, hmp]
    have hlen := ho.1
    rw [List.length_cons] at hlen hn
    have ho1 : s.reportOpen m.need := ⟨by omega, ho.2⟩
    have hh : s.headMark i = some m := by simp [headMark, he, hm, hpt]
    have hact : s.actMark i m = s.noted i e [m] (ms ++ rest) := by
      rw [actMark_of_open he ho1 (by simp [hmp])]
      simp [marked, noted, hmp, hmn, hm]
    unfold actMarks
    rw [hh]
    dsimp only
    rw [reportTurn_of_open ho1, if_pos rfl, hact]
    have hreached : (s.noted i e [m] (ms ++ rest)).notesReached ms rest e.doneBytes :=
      ⟨fun x hx => hall x (by simp [hx]), ⟨by simp [noted]; omega, ho.2⟩, hrest⟩
    rw [actMarks_of_notes ms n (s := s.noted i e [m] (ms ++ rest)) (ex_setEx_self i _ s) rfl hreached (by omega)]
    simp [noted, setEx]

/-- Where reached NOTE marks stand at the head, all of them act before a fill of the slot goes on (R75, R76). -/
theorem settleMarks_of_notes {s t : State} {i : SlotId} {e : Exchange} {ms rest : List Mark} (he : s.ex i = some e)
    (hm : e.walk.marks = ms ++ rest) (hne : ms ≠ []) (hr : s.notesReached ms rest e.doneBytes)
    (ht : (s.noted i e ms rest).resumeFill i = t) (hq : t.headMark i = none) : s.settleMarks i = t := by
  cases ms with
  | nil => exact absurd rfl hne
  | cons m l =>
    have hlen := hr.2.1.1
    have hh : s.headMark i = some m := by simp [headMark, he, hm, (hr.1 m (by simp)).2.2]
    have hneed : m.need ≤ (m :: l).length := by
      simp [Mark.need, (hr.1 m (by simp)).2.1]
    have hturn : s.reportTurn (.mark i) m.need = true := reportTurn_of_open ⟨by omega, hr.2.1.2⟩ _
    rw [settleMarks_of_acts (by simp [headActs, hh, hturn]) (actMarks_of_notes _ 16 he hm hr (by omega)), ht,
      actMarks_of_none hq]

/-- A mark, a release or the head order that waits for a report keeps its place where no entry is free for it, or where
a STATION report still waits (R152). -/
theorem serveClaim_of_kept {t : State} {c : ReportClaim} (hm : c ∈ t.rpt.line) (hw : t.keepsPlace c)
    (h : t.rpt.stationWaiting ≠ [] ∨ 8 ≤ t.rpt.queue.length) : t.passedOver c = false ∧ t.serveClaim c = t := by
  have hturn : ∀ (c : ReportClaim) k, 1 ≤ k → t.reportTurn c k = false := fun c k hk =>
    reportTurn_eq_false (h.imp_right fun h => by omega)
  cases c with
  | mark i => exact ⟨rfl, settleMarks_of_kept hm fun m _ => hturn _ _ (Mark.need_pos m)⟩
  | release i => exact ⟨rfl, tryRelease_of_kept hm fun e r _ _ => hturn _ _ (releaseReports_pos t e r)⟩
  | head =>
    refine ⟨rfl, ?_⟩
    obtain ⟨o, ho⟩ := hw
    show t.examineHead = t
    unfold examineHead
    have : t.headOrder = none := by
      unfold headOrder
      split
      · rw [ho]
        dsimp only
        rw [hturn _ 1 (Nat.le_refl 1)]
        rfl
      · rfl
    rw [this]
  | inboxHead => exact hw.elim
  | rescan => exact hw.elim
  | acks => exact hw.elim

/-! ### The claimants' own steps do not depend on their places -/

/-- A release gives the same state wherever the slot stands in the line, its place apart (R22). -/
theorem releaseSlot_of_line {t : State} {i : SlotId} (e : Exchange) (r : Result) {l : List ReportClaim}
    (hl : t.rpt.line.filter (· != .release i) = l.filter (· != .release i)) :
    t.releaseSlot i e r = { t with rpt := { t.rpt with line := l } }.releaseSlot i e r := by
  have hrep : { t with rpt := { t.rpt with line := l } }.releaseReports e r = t.releaseReports e r := rfl
  have push : ∀ (q : List Report) (x : State), State.pushReports q { x with rpt := { x.rpt with line := l } } =
      { x.pushReports q with rpt := { (x.pushReports q).rpt with line := l } } ∧
        (x.pushReports q).rpt.line = x.rpt.line := by
    intro q
    induction q with
    | nil => intro x; exact ⟨rfl, rfl⟩
    | cons a q ih =>
      intro x
      have h1 : State.pushReport a { x with rpt := { x.rpt with line := l } } =
          { x.pushReport a with rpt := { (x.pushReport a).rpt with line := l } } := by
        unfold pushReport
        by_cases h : x.rpt.queue.length < Config.reportCap
        · rw [if_pos h, if_pos h]
        · rw [if_neg h, if_neg h]
      have h2 : (x.pushReport a).rpt.line = x.rpt.line := by unfold pushReport; split <;> rfl
      obtain ⟨i1, i2⟩ := ih (x.pushReport a)
      refine ⟨?_, i2.trans h2⟩
      show State.pushReports q (State.pushReport a _) = _
      rw [h1, i1]
      rfl
  have offer : ∀ x : State, State.freeOfferOf e r { x with rpt := { x.rpt with line := l } } =
      { x.freeOfferOf e r with rpt := { (x.freeOfferOf e r).rpt with line := l } } ∧
        (x.freeOfferOf e r).rpt = x.rpt := by
    intro x
    unfold freeOfferOf
    cases e.offer with
    | none => exact ⟨rfl, rfl⟩
    | some o =>
      dsimp only
      rw [show State.offer { x with rpt := { x.rpt with line := l } } o = x.offer o from rfl]
      cases x.offer o with
      | none => exact ⟨rfl, rfl⟩
      | some v => dsimp only; cases v.closes r <;> exact ⟨rfl, rfl⟩
  have due : ∀ x y : State, x = y → x.makeRescanDue = y.makeRescanDue := fun _ _ h => h ▸ rfl
  unfold releaseSlot
  dsimp only
  rw [hrep, (push _ t).1, (offer _).1]
  generalize hx : (t.pushReports (t.releaseReports e r)).freeOfferOf e r = x
  have hline : x.rpt.line = t.rpt.line := by rw [← hx, (offer _).2, (push _ t).2]
  refine due _ _ ?_
  have : (x.freeSlotOf i).unclaimReport (.release i) =
      (State.freeSlotOf i { x with rpt := { x.rpt with line := l } }).unclaimReport (.release i) := by
    unfold unclaimReport freeSlotOf
    simp only [hline, hl]
    rfl
  rw [this]
  rfl

/-- A release leaves the line but for its own place, and the STATION reports that wait (R22). -/
theorem releaseSlot_line (t : State) (i : SlotId) (e : Exchange) (r : Result) :
    (t.releaseSlot i e r).rpt.line = t.rpt.line.filter (· != .release i) ∧
      (t.releaseSlot i e r).rpt.stationWaiting = t.rpt.stationWaiting := by
  have push : ∀ (q : List Report) (x : State), (x.pushReports q).rpt.line = x.rpt.line ∧
      (x.pushReports q).rpt.stationWaiting = x.rpt.stationWaiting := by
    intro q
    induction q with
    | nil => intro x; exact ⟨rfl, rfl⟩
    | cons a q ih =>
      intro x
      have h : (x.pushReport a).rpt.line = x.rpt.line ∧
          (x.pushReport a).rpt.stationWaiting = x.rpt.stationWaiting := by
        unfold pushReport; split <;> exact ⟨rfl, rfl⟩
      exact ⟨(ih _).1.trans h.1, (ih _).2.trans h.2⟩
  have offer : ∀ x : State, (x.freeOfferOf e r).rpt = x.rpt := by
    intro x; unfold freeOfferOf; (repeat' split) <;> rfl
  have due : ∀ x : State, x.makeRescanDue.rpt = x.rpt := by
    intro x; unfold makeRescanDue claimCtrl; (repeat' split) <;> rfl
  unfold releaseSlot
  dsimp only
  rw [due]
  show List.filter _ (State.freeOfferOf e r _).rpt.line = _ ∧ (State.freeOfferOf e r _).rpt.stationWaiting = _
  rw [offer, (push _ t).1, (push _ t).2]
  exact ⟨rfl, rfl⟩

/-- HOLD due or placed changes nothing of the Report Unit. -/
theorem dueHold_rpt (i : SlotId) (t : State) : (t.dueHold i).rpt = t.rpt := by
  unfold dueHold dueOnce dueFrame pushCtrl pushEntry
  (repeat' split) <;> rfl

/-- A mark that acts leaves the line but for its own place, and the STATION reports that wait (R76, R77). -/
theorem actMark_line (t : State) (i : SlotId) (m : Mark) {e : Exchange} (he : t.ex i = some e) :
    (t.actMark i m).rpt.line = t.rpt.line.filter (· != .mark i) ∧
      (t.actMark i m).rpt.stationWaiting = t.rpt.stationWaiting := by
  have push : ∀ (r : Report) (x : State), (x.pushReport r).rpt.line = x.rpt.line ∧
      (x.pushReport r).rpt.stationWaiting = x.rpt.stationWaiting := by
    intro r x; unfold pushReport; split <;> exact ⟨rfl, rfl⟩
  have upd : ∀ (f : Exchange → Exchange) (x : State), (x.updEx i f).rpt = x.rpt := by
    intro f x; unfold updEx; split <;> rfl
  unfold actMark
  rw [he]
  dsimp only
  cases m.note <;> cases m.pause <;>
    simp only [Bool.false_eq_true, if_false, if_true, dueHold_rpt, (push _ _).1, (push _ _).2, unclaimReport, upd,
      and_self]

/-- A lone mark that acts leaves an empty mark queue, and the buffers as they are (R76, R77). -/
theorem actMark_ex {t : State} {i : SlotId} {e : Exchange} {m : Mark} (he : t.ex i = some e)
    (hm : e.walk.marks = [m]) :
    ∃ e', (t.actMark i m).ex i = some e' ∧ e'.walk.marks = [] ∧ (t.actMark i m).fbd = t.fbd := by
  have push : ∀ (r : Report) (x : State), (x.pushReport r).xen = x.xen ∧ (x.pushReport r).fbd = x.fbd := by
    intro r x; unfold pushReport; split <;> exact ⟨rfl, rfl⟩
  have hold : ∀ x : State, (x.dueHold i).xen.slots = x.xen.slots ∧ (x.dueHold i).fbd = x.fbd := by
    intro x
    unfold dueHold dueOnce dueFrame pushCtrl pushEntry
    (repeat' split) <;> exact ⟨rfl, rfl⟩
  have exOf : ∀ x y : State, x.xen.slots = y.xen.slots → x.ex i = y.ex i := fun x y h => by simp only [ex, h]
  obtain ⟨p, hp⟩ : ∃ p, p = Exchange.popMark e := ⟨_, rfl⟩
  have hpm : p.walk.marks = [] := by rw [hp]; show e.walk.marks.tail = []; rw [hm]; rfl
  unfold actMark
  rw [he]
  dsimp only
  rw [updEx_of_some he, ← hp]
  obtain ⟨x, hx⟩ : ∃ x, x = if m.note = true then
      ((t.setEx i (some p)).unclaimReport (.mark i)).pushReport (.note e.orderTag m.base m.index)
    else (t.setEx i (some p)).unclaimReport (.mark i) := ⟨_, rfl⟩
  have hxx : x.ex i = some p ∧ x.fbd = t.fbd := by
    rw [hx]
    split
    · exact ⟨(exOf _ (t.setEx i (some p)) (by rw [(push _ _).1]; rfl)).trans (ex_setEx_self ..),
        by rw [(push _ _).2]; rfl⟩
    · exact ⟨(exOf _ (t.setEx i (some p)) rfl).trans (ex_setEx_self ..), rfl⟩
  rw [← hx]
  split
  · rw [updEx_of_some hxx.1]
    refine ⟨p.pause, (exOf _ (x.setEx i (some p.pause)) (by rw [(hold _).1, (push _ _).1])).trans (ex_setEx_self ..),
      hpm, by rw [(hold _).2, (push _ _).2]; exact hxx.2⟩
  · exact ⟨p, hxx.1, hpm, hxx.2⟩

/-- A mark that acts gives the same state wherever it stands in the line, its place apart (R76). -/
theorem actMark_of_line {t : State} {i : SlotId} (m : Mark) {l : List ReportClaim}
    (hl : t.rpt.line.filter (· != .mark i) = l.filter (· != .mark i)) :
    (∃ e, t.ex i = some e) → t.actMark i m = { t with rpt := { t.rpt with line := l } }.actMark i m := by
  rintro ⟨e, he⟩
  have he' : State.ex { t with rpt := { t.rpt with line := l } } i = some e := he
  unfold actMark
  rw [he, he']
  dsimp only
  have : (t.updEx i Exchange.popMark).unclaimReport (.mark i) =
      (State.updEx i Exchange.popMark { t with rpt := { t.rpt with line := l } }).unclaimReport (.mark i) := by
    rw [updEx_of_some he, updEx_of_some he']
    unfold unclaimReport setEx
    simp only [hl]
  rw [this]

/-- The mark queue acts alike wherever the slot stands in the line, where its head mark has its turn (R76). -/
theorem settleMarks_of_line {t : State} {i : SlotId} {m : Mark} {l : List ReportClaim}
    (hl : t.rpt.line.filter (· != .mark i) = l.filter (· != .mark i)) (hm : t.headMark i = some m)
    (h1 : t.reportTurn (.mark i) m.need = true)
    (h2 : State.reportTurn { t with rpt := { t.rpt with line := l } } (.mark i) m.need = true) :
    t.settleMarks i = { t with rpt := { t.rpt with line := l } }.settleMarks i := by
  have hex : ∃ e, t.ex i = some e := by
    unfold headMark at hm
    cases he : t.ex i with
    | none => rw [he] at hm; cases hm
    | some e => exact ⟨e, rfl⟩
  have hm' : State.headMark { t with rpt := { t.rpt with line := l } } i = some m := hm
  have hact : actMarks 16 i t = actMarks 16 i { t with rpt := { t.rpt with line := l } } := by
    show actMarks (15 + 1) i t = actMarks (15 + 1) i _
    unfold actMarks
    rw [hm, hm']
    dsimp only
    rw [h1, h2, actMark_of_line m hl hex, if_pos rfl, if_pos rfl]
  rw [settleMarks_of_acts (by simp [headActs, hm, h1]) hact, settleMarks_of_acts (by simp [headActs, hm', h2]) rfl]

/-- A capacity failure of an OPEN gives the same state wherever the inbox head stands in the two lines, its places apart. -/
theorem tooLong_of_lines {t : State} (o : OfferId) (src : Station) (tag : Tag) (key : Word) {l : List ReportClaim}
    {k : List CtrlClaim} (hl : t.rpt.line.filter (· != .inboxHead) = l.filter (· != .inboxHead))
    (hk : t.txq.line.filter (· != .inboxHead) = k.filter (· != .inboxHead)) :
    ((t.dropStale src tag).tooLong o src tag key).popInbox =
      ((State.dropStale src tag
        { t with rpt := { t.rpt with line := l }, txq := { t.txq with line := k } }).tooLong o src tag key).popInbox := by
  unfold dropStale dropDeferred tooLong
  have ho : ∀ x : ExchangeEngine, State.offer
      { t with rpt := { t.rpt with line := l }, txq := { t.txq with line := k }, xen := x } o =
        State.offer { t with xen := x } o := fun _ => rfl
  dsimp only at ho ⊢
  rw [ho]
  generalize State.offer _ o = v
  cases v with
  | none => simp only [popInbox, unclaimCtrl, unclaimReport, hl, hk]
  | some v =>
    dsimp only
    unfold pushCtrl pushEntry
    by_cases hc : t.txq.ctrl.length < Config.ctrlCap
    · simp only [hc, if_true]
      unfold pushReport
      by_cases hq : t.rpt.queue.length < Config.reportCap
      · simp only [hq, if_true, popInbox, unclaimCtrl, unclaimReport, hl, hk]; rfl
      · simp only [hq, if_false, popInbox, unclaimCtrl, unclaimReport, hl, hk]; rfl
    · simp only [hc, if_false]
      unfold pushReport
      by_cases hq : t.rpt.queue.length < Config.reportCap
      · simp only [hq, if_true, popInbox, unclaimCtrl, unclaimReport, hl, hk]
      · simp only [hq, if_false, popInbox, unclaimCtrl, unclaimReport, hl, hk]

/-- An OPEN at the inbox head that its chosen offer is too small for, with what it needs free (R51, R52). -/
theorem takeOpen_of_tooLong {t : State} {f : Frame} {rest : List Frame} {key : Word} {dir : Direction}
    {size : BitVec 24} {o : OfferId} (hi : t.lpt.inbox = f :: rest) (hb : f.body = .openReq key dir size)
    (hp : t.openPlan f key dir size.toNat = .tooLong o) (hr : t.openReady (.tooLong o) = true) :
    t.takeOpen = ((t.dropStale f.src f.tag).tooLong o f.src f.tag key).popInbox := by
  unfold takeOpen
  rw [hi]
  dsimp only
  rw [hb]
  dsimp only
  rw [hp, hr, if_pos rfl]
  exact (tooLong_of_lines (k := t.txq.line.filter (· != .inboxHead)) o f.src f.tag key rfl (by simp)).symm

/-- Such an OPEN leaves the line but for its own place, and the STATION reports that wait (R51, R52). -/
theorem tooLong_line (t : State) (o : OfferId) (src : Station) (tag : Tag) (key : Word) :
    ((t.dropStale src tag).tooLong o src tag key).popInbox.rpt.line = t.rpt.line.filter (· != .inboxHead) ∧
      ((t.dropStale src tag).tooLong o src tag key).popInbox.rpt.stationWaiting = t.rpt.stationWaiting := by
  have h : ((t.dropStale src tag).tooLong o src tag key).rpt.line = t.rpt.line ∧
      ((t.dropStale src tag).tooLong o src tag key).rpt.stationWaiting = t.rpt.stationWaiting := by
    unfold dropStale dropDeferred tooLong
    split
    · exact ⟨rfl, rfl⟩
    · unfold pushCtrl pushEntry pushReport
      (repeat' split) <;> exact ⟨rfl, rfl⟩
  exact ⟨congrArg (List.filter (· != ReportClaim.inboxHead)) h.1, h.2⟩

end Sys2Proof.Machine.State
end

