-- ==== Sys2Proof/Laws/Matching.lean ====
section
/-!
SUPPORT. What binding, a rescan and the handling of an OPEN do: they leave the Lane Port alone, and a rescan walks the
Pending List from the oldest entry on.
-/

namespace Sys2Proof.Machine.State

@[simp] theorem updEx_lpt (i : SlotId) (f : Exchange → Exchange) (s : State) : (s.updEx i f).lpt = s.lpt := by
  unfold updEx; split <;> rfl

@[simp] theorem pushCtrl_lpt (f : Frame) (o : Owner) (s : State) : (s.pushCtrl f o).lpt = s.lpt := by
  unfold pushCtrl pushEntry; split <;> rfl

@[simp] theorem pushReport_lpt (r : Report) (s : State) : (s.pushReport r).lpt = s.lpt := by
  unfold pushReport; split <;> rfl

@[simp] theorem claimCtrl_lpt (c : CtrlClaim) (s : State) : (s.claimCtrl c).lpt = s.lpt := by
  unfold claimCtrl; split <;> rfl

@[simp] theorem claimReport_lpt (c : ReportClaim) (s : State) : (s.claimReport c).lpt = s.lpt := by
  unfold claimReport; split <;> rfl

@[simp] theorem dueFrame_lpt (f : Frame) (o : Owner) (s : State) : (s.dueFrame f o).lpt = s.lpt := by
  unfold dueFrame; split
  · exact pushCtrl_lpt ..
  · rfl

@[simp] theorem dueDone_lpt (i : SlotId) (s : State) : (s.dueDone i).lpt = s.lpt := by
  unfold dueDone dueOnce; split
  · rfl
  · split
    · rfl
    · exact dueFrame_lpt ..

@[simp] theorem grant_lpt (i : SlotId) (s : State) : (s.grant i).lpt = s.lpt := by
  unfold grant; split
  · rfl
  · rw [updEx_lpt, reserveCells_lpt]

@[simp] theorem openResponder_lpt (i : SlotId) (d : Direction) (s : State) : (s.openResponder i d).lpt = s.lpt := by
  unfold openResponder; split
  · unfold openReceiver; split
    · rfl
    · split
      · exact updEx_lpt ..
      · rw [grant_lpt, updEx_lpt]
  · exact updEx_lpt ..

@[simp] theorem answerBound_lpt (i : SlotId) (a : BitVec 24 → FrameBody) (s : State) : (s.answerBound i a).lpt =
    s.lpt := by
  unfold answerBound; split
  · rfl
  · dsimp only; split
    · rw [dueDone_lpt, pushCtrl_lpt]
    · rw [pushCtrl_lpt]

@[simp] theorem bind_lpt (i : SlotId) (o : OfferId) (a : BitVec 24 → FrameBody) (p : Station) (t : Tag)
    (d : Direction) (k : Word)
    (n : Nat) (s : State) : (s.bind i o a p t d k n).lpt = s.lpt := by
  unfold State.bind; split
  · rfl
  · simp

@[simp] theorem tooLong_lpt (o : OfferId) (p : Station) (t : Tag) (k : Word) (s : State) : (s.tooLong o p t k).lpt =
    s.lpt := by
  unfold tooLong; split
  · rfl
  · simp

@[simp] theorem makeRescanDue_lpt (s : State) : s.makeRescanDue.lpt = s.lpt := by
  unfold makeRescanDue; split
  · simp
  · rfl

@[simp] theorem endRescan_lpt (b : Bool) (s : State) : (s.endRescan b).lpt = s.lpt := by
  unfold endRescan; dsimp only; split <;> simp

@[simp] theorem rescanFrom_lpt (n : Nat) : ∀ (k : Nat) (s : State), (rescanFrom n k s).lpt = s.lpt := by
  induction n with
  | zero => intro k s; simp [rescanFrom]
  | succ n ih =>
    intro k s
    unfold rescanFrom
    repeat' split
    all_goals simp [ih]

@[simp] theorem runRescan_lpt (s : State) : s.runRescan.lpt = s.lpt := by
  unfold runRescan serveRescan
  repeat' split
  all_goals simp

/-- Handling an OPEN leaves the Lane Port alone. -/
theorem handleOpen_lpt (f : Frame) (k : Word) (d : Direction) (n : Nat) (p : OpenPlan) (s : State) :
    (s.handleOpen f k d n p).lpt = s.lpt := by
  cases p with
  | copy i =>
    simp only [handleOpen, answerCopy]
    split
    · rfl
    · simp [quiet]
  | store r =>
    simp only [handleOpen, pushCtrl_lpt, storeDeferred]
    split
    · rfl
    · split <;> rfl
  | copySilent i => simp [handleOpen, quiet]
  | discard => rfl
  | bind i o => simp [handleOpen, dropStale]
  | tooLong o => simp [handleOpen, dropStale]
  | detaching => simp [handleOpen]
  | held => simp [handleOpen]
  | full => simp [handleOpen]

/-- An OPEN taken from the inbox head leaves the transmit slot alone. -/
theorem takeOpen_tx (s : State) : s.takeOpen.lpt.tx = s.lpt.tx := by
  unfold takeOpen
  split
  · rfl
  · split
    · dsimp only
      split
      · show (State.handleOpen ..).lpt.tx = _
        rw [handleOpen_lpt]; rfl
      · unfold openWaits
        dsimp only
        split <;> split <;> simp
    · rfl

/-- One entry of a rescan (R62 to R64). -/
theorem rescanFrom_succ (n k : Nat) (s : State) : rescanFrom (n+1) k s = (match s.xen.deferred[k]? with
    | none => s.endRescan false
    | some d =>
      match s.matchOffer d.peer d.dir d.key with
      | none => rescanFrom n (k + 1) s
      | some o =>
        if s.offerHolds o d.dir d.size then
          match s.freeSlot with
          | none => s.endRescan true
          | some i =>
            if s.ctrlTurn .rescan then
              rescanFrom n k ((s.eraseDeferred k).bind i o .recall d.peer d.tag d.dir d.key d.size)
            else s.endRescan true
        else if s.ctrlTurn .rescan then
          if s.reportTurn .rescan 1 then
            rescanFrom n k (((s.eraseDeferred k).tooLong o d.peer d.tag d.key).unclaimReport .rescan)
          else { s with xen := { s.xen with rescanAt := some k } }.claimReport .rescan
        else s.endRescan true) := rfl

/-- A rescan that has walked the whole list ends (R62). -/
theorem endRescan_false {t : State} (hd : t.xen.rescanDue = false) (hw : t.xen.rescanWaits = false)
    (ha : t.xen.rescanAt = none) (hl : t.txq.line = [.rescan]) : t.endRescan false =
    { t with
      txq := { t.txq with line := [] },
      rpt := { t.rpt with line := t.rpt.line.filter (· != ReportClaim.rescan) } } := by
  unfold endRescan
  simp only [unclaimCtrl, unclaimReport, hl, hd]
  simp
  calc _ = ({ t.xen with rescanDue := t.xen.rescanDue, rescanWaits := t.xen.rescanWaits, rescanAt := t.xen.rescanAt } :
          ExchangeEngine) := by rw [hd, hw, ha]
    _ = t.xen := rfl

/-- A rescan that stops is due again, and waits for an entry where the control queue is full (R62, R61). -/
theorem endRescan_true {t : State} (hd : t.xen.rescanDue = false) (ha : t.xen.rescanAt = none)
    (hl : t.txq.line = [.rescan]) (hr : t.rpt.line = []) (hs : t.sct.station = .online) :
    t.endRescan true =
      { t with xen := { t.xen with rescanDue := true, rescanWaits := decide (16 ≤ t.txq.ctrl.length) } } := by
  unfold endRescan makeRescanDue
  simp only [unclaimCtrl, unclaimReport, hl, hd, hs, claimCtrl, hr]
  simp
  exact ⟨ha.symm, by rw [← hl], by rw [← hr]⟩

/-- A due rescan begins at the oldest entry (R61, R62). -/
theorem runRescan_of_due {s : State} (hdue : s.xen.rescanDue = true) (hat : s.xen.rescanAt = none)
    (hst : s.sct.station = .online) (hf : s.freeSlot ≠ none) (hlen : s.txq.ctrl.length < 16) (how : s.txq.owed = [])
    (hline : s.txq.line = [.rescan]) :
   s.runRescan = rescanFrom (s.xen.deferred.length + 1) 0
       { s with xen := { s.xen with rescanDue := false, rescanWaits := false } } := by
  unfold runRescan
  split
  · rename_i h; rw [hat] at h; simp at h
  · have hturn : s.ctrlTurn .rescan = true := ctrlTurn_of_front hlen how hline
    have hsome : s.freeSlot.isSome = true := by simpa [Option.isSome_iff_ne_none] using hf
    rw [if_pos ⟨hdue, hst, hsome, hturn⟩]

/-- Entries that no offer fits are passed (R62). -/
theorem rescanFrom_skip {s : State} {pre rest : List Deferred} {k0 : Nat} {front : List Deferred}
    (hd : s.xen.deferred = front ++ pre ++ rest) (hk : front.length = k0)
    (h : ∀ d ∈ pre, s.matchOffer d.peer d.dir d.key = none) (n : Nat) : rescanFrom (n + pre.length) k0 s = rescanFrom
    n (k0 + pre.length) s := by
  induction pre generalizing k0 front with
  | nil => rfl
  | cons a pre ih =>
    show rescanFrom ((n + pre.length) + 1) k0 s = _
    rw [rescanFrom_succ]
    have : s.xen.deferred[k0]? = some a := by rw [hd, ← hk]; simp
    rw [this]; dsimp only
    rw [h a (by simp)]
    dsimp only
    rw [ih (front := front ++ [a]) (k0 := k0+1) (by simpa using hd) (by simp [hk]) (fun d hd => h d (by simp [hd]))]
    congr 1; simp; omega

/-- Where no entry is left that an offer fits, the rescan ends (R62). -/
theorem rescanFrom_none {s : State} {front rest : List Deferred} (hd : s.xen.deferred = front ++ rest)
    (h : ∀ d ∈ rest, s.matchOffer d.peer d.dir d.key = none) {n : Nat} (hn : rest.length < n) : rescanFrom n
    front.length s = s.endRescan false := by
  obtain ⟨m, rfl⟩ : ∃ m, n = (m + 1) + rest.length := ⟨n - rest.length - 1, by omega⟩
  rw [rescanFrom_skip (rest := []) (by simpa using hd) rfl h, rescanFrom_succ]
  have : s.xen.deferred[front.length + rest.length]? = none := by rw [hd]; simp
  rw [this]

/-- At an entry that a chosen offer holds, with no slot FREE or the control queue full, the rescan stops (R62). -/
theorem rescanFrom_stop {s : State} {front mid post : List Deferred} {d : Deferred} {o : OfferId} {v : Offer}
    (hd : s.xen.deferred = front ++ (mid ++ d :: post)) (h : ∀ x ∈ mid, s.matchOffer x.peer x.dir x.key = none)
    (hm : s.matchOffer d.peer d.dir d.key = some o) (hv : s.offer o = some v)
   (hfit : d.dir = .push ∧ d.size ≤ v.size ∨ d.dir = .pull ∧ v.size ≤ d.size)
       (hfull : s.freeSlot = none ∨ 16 ≤ s.txq.ctrl.length) {n : Nat} (hn : mid.length < n) : rescanFrom n
       front.length s = s.endRescan true := by
  obtain ⟨m, rfl⟩ : ∃ m, n = (m + 1) + mid.length := ⟨n - mid.length - 1, by omega⟩
  rw [rescanFrom_skip (rest := d :: post) (by simpa using hd) rfl h, rescanFrom_succ]
  have : s.xen.deferred[front.length + mid.length]? = some d := by rw [hd]; simp
  rw [this]; dsimp only; rw [hm]; dsimp only
  have hh : s.offerHolds o d.dir d.size = true := by
    unfold offerHolds; rw [hv]
    rcases hfit with ⟨h1, h2⟩ | ⟨h1, h2⟩ <;> simp [Offer.holds, h1, h2]
  rw [hh, if_pos rfl]
  cases hf : s.freeSlot with
  | none => rfl
  | some i =>
    have : 16 ≤ s.txq.ctrl.length := by rcases hfull with h | h; · simp [hf] at h
                                        · exact h
    dsimp only
    rw [if_neg (by simp [ctrlTurn, ctrlBehind_of_full this])]

end Sys2Proof.Machine.State
end

