-- ==== Sys2Proof/Laws/Port.lean ====
section
/-!
SUPPORT. What the Local Memory Port and the ends of its transfers do: the choice, the transfer of the Order Unit that
waited, a failed transfer of an exchange, and the status word of FAULT.
-/

namespace Sys2Proof.Machine.State

/-- At the end of a transfer of the Order Unit the one that waited for it is placed (R160). -/
theorem nextOrderTransfer_eq (t : State) :
    t.nextOrderTransfer = { t with lmp := { t.lmp with waiting := t.lmp.waiting ++ t.orderDue } } := by
  unfold nextOrderTransfer orderDue
  by_cases h : t.ord.ringRead = .idle
  · by_cases h2 : t.ord.indexWrite = true
    · simp [h, h2, place, indexRequest, countWord, toLe16]
    · simp [h, h2]
  · simp [h, place, ringRequest]

/-- The port chooses the client of highest priority, and of one client the earliest request (R161). -/
theorem nextRequest_of_first {s : State} {l1 l2 : List Request} {r : Request} (hw : s.lmp.waiting = l1 ++ r :: l2)
    (h1 : ∀ x ∈ l1, r.purpose.client < x.purpose.client)
   (h2 : ∀ x ∈ l2, r.purpose.client ≤ x.purpose.client) : s.nextRequest = some r := by
  have step1 : ∀ (l : List Request) (b : Option Request), (∀ x ∈ l, r.purpose.client < x.purpose.client) →
      (∀ x, b = some x → r.purpose.client < x.purpose.client) →
      ∀ y, l.foldl earlier b = some y → r.purpose.client < y.purpose.client := by
    intro l
    induction l with
    | nil => intro b _ hb y hy; exact hb y hy
    | cons a l ih =>
      intro b hl hb y hy
      refine ih (earlier b a) (fun x hx => hl x (by simp [hx])) ?_ y hy
      intro x hx
      unfold earlier at hx
      cases b with
      | none => simp at hx; subst hx; exact hl _ (by simp)
      | some b =>
        dsimp only at hx
        split at hx
        · simp at hx; subst hx; exact hl _ (by simp)
        · simp at hx; subst hx; exact hb _ rfl
  have step2 : ∀ (l : List Request), (∀ x ∈ l, r.purpose.client ≤ x.purpose.client) → l.foldl earlier (some r) = some
      r := by
    intro l
    induction l with
    | nil => intro _; rfl
    | cons a l ih =>
      intro hl
      simp only [List.foldl_cons]
      have : earlier (some r) a = some r := by
        unfold earlier; dsimp only; rw [if_neg]; have := hl a (by simp); omega
      rw [this]; exact ih (fun x hx => hl x (by simp [hx]))
  unfold nextRequest
  rw [hw, List.foldl_append, List.foldl_cons]
  have : earlier (l1.foldl earlier none) r = some r := by
    have hq := step1 l1 none h1 (by simp)
    generalize l1.foldl earlier none = q at hq
    cases q with
    | none => rfl
    | some b =>
      show (if r.purpose.client < b.purpose.client then some r else some b) = some r
      rw [if_pos (hq b rfl)]
  rw [this]; exact step2 l2 h2

/-- One choice of the port (R161, R162). -/
theorem chooseTransfer_succ (n : Nat) (t : State) : chooseTransfer (n+1) t = (match t.nextRequest with
    | none => t
    | some r =>
      let t := { t with lmp := { t.lmp with waiting := t.lmp.waiting.erase r } }
      if wraps r then chooseTransfer n (t.failed r)
      else { t with lmp := { t.lmp with transfer := some r, progress := .start } }) := rfl

/-- A request wraps where its last byte lies above the top of the address space (R162). -/
theorem wraps_eq {r : Request} : wraps r = decide (2^32 - 1 < r.addr + r.count - 1) := rfl

/-- What an end of an exchange says of its last state depends on the parts that it names only. -/
theorem ends_congr {s0 t u : State} {i : SlotId} {e : Exchange} {r : Result} {o : Option Reason}
    (h : s0.Ends t i e r o) (hx : u.xen = t.xen) (hq : u.txq = t.txq) (hl : u.lmp = t.lmp)
   (hb1 : ∀ b v, u.buffer b = some v → t.buffer b = some v)
       (hb2 : ∀ b v, t.buffer b = some v → s0.buffer b = some v → ¬(v.slot = i ∧ v.gen = s0.gen i) → u.buffer b = some
       v)
   (hc1 : ∀ c v, u.cell c = some v → t.cell c = some v)
       (hc2 : ∀ c v, t.cell c = some v → s0.cell c = some v → ¬(v.slot = i ∧ v.gen = s0.gen i) → u.cell c = some v)
   (hr : u.rpt = t.rpt) (h3 : u.sct = t.sct ∧ u.ord = t.ord ∧ u.lpt = t.lpt) : s0.Ends u i e r o := by
  obtain ⟨a1, a2, a3, a4, a5, a6, a7, a8, a9, a10, a11, a12, a13, a14⟩ := h
  refine ⟨?_, ?_, ?_, ?_, ?_, ?_, ?_, ?_, ?_, ?_, ?_, ?_, ?_, ?_⟩
  · rw [ex_of_xen hx]; exact a1
  · intro j hj; rw [ex_of_xen hx]; exact a2 j hj
  · intro j; rw [← a3 j]; simp [gen, hx]
  · rw [hq]; exact a4
  · rw [hq]; exact a5
  · rw [hl]; exact a6
  · rw [hl]; exact a7
  · intro b v h; exact a8 b v (hb1 b v h)
  · intro b v h hn; exact hb2 b v (a9 b v h hn) h hn
  · intro c v h; exact a10 c v (hc1 c v h)
  · intro c v h hn; exact hc2 c v (a11 c v h hn) h hn
  · rw [hx]; exact a12
  · rw [hr]; exact a13
  · rw [h3.1, h3.2.1, h3.2.2]; exact a14

/-- The end of a transfer at a live slot (R21). -/
theorem endTransfer_of_ex {s : State} {i : SlotId} {e : Exchange} (he : s.ex i = some e) :
    s.endTransfer i (s.gen i) = s.setEx i (some { e with transfers := e.transfers - 1 }) := by
  have : s.live i (s.gen i) = true := by simp [live, he]
  unfold endTransfer
  rw [if_pos this]
  exact updEx_of_some (by exact he) _

/-- A failed transfer of a live exchange ends it with LOCAL_ERROR (R164). -/
theorem failed_ends {S : State} {r : Request} {i : SlotId} {e e' : Exchange} (hst : S.sct.station ≠ .fault)
    (he : S.ex i = some e) (hs : e.state ≠ .retiring)
   (he' : e' = { e with transfers := e.transfers - 1 })
   (hp : r.purpose = .entryRead i (S.gen i) ∨
      (∃ b v, r.purpose = .dataRead i (S.gen i) b ∧ S.buffer b = some v ∧ v.slot = i ∧ v.gen = S.gen i) ∨
      ∃ k x, r.purpose = .drainWrite i (S.gen i) k ∧ S.cell k = some x ∧ x.slot = i ∧ x.gen = S.gen i) :
   State.Ends (S.setEx i (some e')) (S.failed r) i e' (.failed .localError none) (some .localError) := by
  obtain ⟨T, hT⟩ : ∃ T : State, T = S.setEx i (some e') := ⟨_, rfl⟩
  have hTe : T.ex i = some e' := by rw [hT]; exact ex_setEx_self ..
  have hTg : T.gen i = S.gen i := by rw [hT]; exact gen_setEx ..
  have hE := abortWith_ends (s := T) hTe (by subst he'; exact hs) .localError
  have hTl : T.live i (S.gen i) = true := live_of_some hTe hTg
  unfold failed
  rw [if_neg (by exact hst)]
  have hle : S.localError i (S.gen i) = T.abortWith i .localError := by
    unfold localError
    rw [endTransfer_of_ex he, ← he', ← hT]; dsimp only; rw [hTl, if_pos rfl]
  rcases hp with hp | ⟨b, v, hp, hb, hvs, hvg⟩ | ⟨k, x, hp, hx, hxs, hxg⟩
  · rw [hp]; dsimp only
    rw [hle]
    refine ends_congr (t := T.abortWith i .localError) (by rw [← hT]; exact hE) rfl rfl rfl ?_ ?_ (fun _ _ h => h)
        (fun _ _ h _ _ => h) rfl ⟨rfl, rfl, rfl⟩
    · intro b v hb
      simp [dropEntryRead, State.buffer, freeFilling] at hb
      exact hb.1
    · intro b v hb hb2 hn
      simp [dropEntryRead, State.buffer, freeFilling]
      refine ⟨hb, ?_⟩
      by_contra hcc
      push Not at hcc
      exact absurd ⟨hcc.1.1, by rw [hcc.1.2]; exact (gen_setEx ..).symm⟩ hn
  · rw [hp]; dsimp only
    unfold dataFailed
    dsimp only
    rw [hle]
    split
    · rw [← hT]; exact hE
    · rename_i v' hv'
      split
      · rename_i hd
        refine ends_congr (t := T.abortWith i .localError) (by rw [← hT]; exact hE) rfl rfl rfl ?_ ?_ (fun _ _ h => h)
            (fun _ _ h _ _ => h) rfl ⟨rfl, rfl, rfl⟩
        · intro b' v'' hb'
          by_cases hbb : b' = b
          · subst hbb; simp at hb'
          · simp [State.buffer, setBuffer, Fin.getElem_fin, Fin.val_ne_of_ne (Ne.symm hbb)] at hb' ⊢; exact hb'
        · intro b' v'' hb' hb2 hn
          by_cases hbb : b' = b
          · subst hbb
            have : S.buffer b' = some v'' := hb2
            rw [hb] at this; simp at this; subst this
            exact absurd ⟨hvs, by rw [hvg]; exact (gen_setEx ..).symm⟩ hn
          · simp [State.buffer, setBuffer, Fin.getElem_fin, Fin.val_ne_of_ne (Ne.symm hbb)] at hb' ⊢; exact hb'
      · rw [← hT]; exact hE
  · rw [hp]; dsimp only
    obtain ⟨T2, hT2⟩ : ∃ T2 : State, T2 = T.setDrain .idle := ⟨_, rfl⟩
    have hT2e : T2.ex i = some e' := by rw [hT2]; exact hTe
    have hle2 : (S.setDrain .idle).localError i (S.gen i) = T2.abortWith i .localError := by
      have : (S.setDrain .idle).endTransfer i (S.gen i) = T2 := by
        rw [hT2, hT, he', ← endTransfer_of_ex he]
        unfold endTransfer
        have hl : S.live i (S.gen i) = true := live_of_some he rfl
        have hl2 : (S.setDrain .idle).live i (S.gen i) = true := live_of_some he rfl
        rw [if_pos hl, if_pos hl2, updEx_of_some (by exact he), updEx_of_some (by exact he)]
        rfl
      unfold localError
      rw [this]; dsimp only; rw [live_of_some hT2e (by rw [hT2]; exact hTg), if_pos rfl]
    rw [hle2]
    have hE2 := abortWith_ends (s := T2) hT2e (by subst he'; exact hs) .localError
    have hE3 : (S.setEx i (some e')).Ends (T2.abortWith i .localError) i e' (.failed .localError none)
        (some .localError) := by
      rw [← hT]
      obtain ⟨a1, a2, a3, a4, a5, a6, a7, a8, a9, a10, a11, a12, a13, a14⟩ := hE2
      subst hT2
      exact ⟨a1, a2, a3, a4, a5, a6, a7, a8, a9, a10, a11, a12, a13, a14⟩
    unfold freeReclaimed
    split
    · rename_i v' hv'
      split
      · refine ends_congr (t := T2.abortWith i .localError) hE3 rfl rfl rfl (fun _ _ h => h) (fun _ _ h _ _ => h) ?_
          ?_ rfl ⟨rfl, rfl, rfl⟩
        · intro c v'' hb'
          by_cases hbb : c = k
          · subst hbb; simp at hb'
          · simp [State.cell, setCell, Fin.getElem_fin, Fin.val_ne_of_ne (Ne.symm hbb)] at hb' ⊢; exact hb'
        · intro c v'' hb' hb2 hn
          by_cases hbb : c = k
          · subst hbb
            have : S.cell c = some v'' := hb2
            rw [hx] at this; simp at this; subst this
            exact absurd ⟨hxs, by rw [hxg]; exact (gen_setEx ..).symm⟩ hn
          · simp [State.cell, setCell, Fin.getElem_fin, Fin.val_ne_of_ne (Ne.symm hbb)] at hb' ⊢; exact hb'
      · exact hE3
    · exact hE3

/-- The one status word write of FAULT, with no transfer in progress (R158, R165). -/
theorem placeFaultStatus_of_due {s U : State} {c : FaultCause} (h1 : U.rpt.status = .due)
    (h2 : U.lmp = ⟨[], none, ⟨false,0⟩⟩) (h3 : U.sct.station = .fault) (h4 : U.sct.faultCause = c)
    (h9 : U.sct.startBlock = s.sct.startBlock) (h10 : U.sct.stationNumber = s.sct.stationNumber) :
   U.placeFaultStatus = { U with rpt := { U.rpt with status := .inProgress false }, lmp :=
       ⟨[⟨.statusWord, s.sct.startBlock.toNat + 0x30, 4, [0x02, c.code, s.sn.setWidth 8, 0x00]⟩], none, ⟨false,0⟩⟩
       } := by
  have : U.placeFaultStatus = U.placeStatus := by
    unfold placeFaultStatus; rw [h1, h2]
  rw [this]
  unfold placeStatus place statusRequest statusWordBytes sn
  simp [h2, h3, h4, h9, h10, StationState.code]

end Sys2Proof.Machine.State
end

