-- ==== Sys2Proof/Laws/Settling.lean ====
section
/-!
SUPPORT. What the examination of a mark queue, a fill and the drain do, each said once in full: the walk's answers, the
marks that act one after another, and the fill that goes on behind them (R71 to R77, R81, R82, R95).
-/

namespace Sys2Proof.Machine

/-! ### The walk's answers -/

/-- The walk with its cached entry passed. -/
theorem Walk.pass_eq (w : Walk) (d : Entry) : w.pass d = w.passed d := by
  unfold Walk.pass Walk.record Walk.passed
  cases d.note <;> cases d.pause <;> simp

/-- The bytes of the next piece. -/
theorem Walk.pieceCount_eq (w : Walk) (d : Entry) (u : Nat) : w.pieceCount d u =
    match w.gate with
    | none => min (u - w.offset) (d.len - w.inEntry)
    | some g => min (min (u - w.offset) (d.len - w.inEntry)) (g - w.offset) := rfl

/-- A walk gives some answer to every request, the one its rules give (R71 to R73, R75, R77). -/
theorem Walk.answers_ask (w : Walk) (l u : Nat) : w.Answers l u (w.ask l u).1 (w.ask l u).2 := by
  have cap : Config.markCap = 8 := rfl
  have visits : Config.visitCap = 4096 := rfl
  unfold Walk.ask
  split
  · exact .gate (by assumption)
  · rename_i hg
    split
    · rename_i hc
      unfold Walk.askRead
      split
      · exact .loop hg hc (by omega)
      · exact .entry hg hc (by omega)
    · rename_i d hc
      split
      · rename_i hl
        unfold Walk.takePiece
        dsimp only
        split
        · rename_i hn
          split
          · exact .pieceWaits d _ hg hc hl (w.pieceCount_eq d u) hn.1 hn.2 (by omega)
          · have := Answers.piece (w := w) (length := l) (upto := u) d _ _ hg hc hl (w.pieceCount_eq d u) rfl
              (.inr (by omega))
            simpa [hn, Walk.record] using this
        · rename_i hn
          have := Answers.piece (w := w) (length := l) (upto := u) d _ _ hg hc hl (w.pieceCount_eq d u) rfl
            (.inl (if_neg hn))
          simpa [hn] using this
      · rename_i hl
        replace hl := Nat.le_of_not_lt hl
        unfold Walk.passOn
        simp only [Walk.pass_eq]
        split
        · rename_i hf
          exact .flagWaits d hg hc hl (by simpa using hf.1) (by omega)
        · rename_i hf
          have hroom : d.note = false ∧ d.pause = false ∨ w.marks.length < 8 := by
            cases hn : d.note <;> cases hp : d.pause <;> simp_all
          split
          · exact .short d hg hc hl hroom (by assumption)
          · rename_i hfin
            replace hfin : d.fin = false := by simpa using hfin
            cases hp : d.pause with
            | true =>
              rw [if_pos (by simp [Walk.passed, hp])]
              exact .closes d hg hc hl (by simpa [hp] using hroom) hfin hp
            | false =>
              rw [if_neg (by simp [Walk.passed, hp, hg])]
              have hroom' : d.note = false ∨ w.marks.length < 8 := by simpa [hp] using hroom
              unfold Walk.askRead
              have hv : (w.passed d).visited = w.visited := rfl
              split
              · exact .nextLoop d hg hc hl hroom' hfin hp (by omega)
              · exact .next d hg hc hl hroom' hfin hp (by omega)

/-- The rules give a walk one answer (R71 to R73, R75, R77). -/
theorem Walk.ask_of_answers {w x : Walk} {l u : Nat} {a : WalkAnswer} (h : w.Answers l u x a) : w.ask l u = (x, a) := by
  have cap : Config.markCap = 8 := rfl
  have visits : Config.visitCap = 4096 := rfl
  have pass : ∀ d, w.gate ≠ some w.offset → w.cached = some d → d.len ≤ w.inEntry →
      (d.note = false ∧ d.pause = false ∨ w.marks.length < 8) → w.ask l u =
        if d.fin then (w.passed d, .error .listShort)
        else if (w.passed d).gate = some w.offset then (w.passed d, .gate)
        else (w.passed d).askRead := by
    intro d hg hc hl hroom
    unfold Walk.ask
    rw [if_neg hg, hc]
    dsimp only
    rw [if_neg (by omega)]
    unfold Walk.passOn
    have hno : ¬((d.note || d.pause) = true ∧ w.marks.length ≥ Config.markCap) := by
      rintro ⟨hf, h8⟩
      rcases hroom with ⟨hn, hp⟩ | h
      · simp [hn, hp] at hf
      · omega
    rw [if_neg hno, Walk.pass_eq]
  cases h with
  | gate hg => simp [Walk.ask, hg]
  | entry hg hc hv => simp [Walk.ask, hg, hc, Walk.askRead, Nat.not_le.2 hv]
  | loop hg hc hv => simp [Walk.ask, hg, hc, Walk.askRead, hv]
  | piece d c ms hg hc hl hk hms hroom =>
    replace hk : c = w.pieceCount d u := hk
    subst hk hms
    simp only [Walk.ask, if_neg hg, hc, if_pos hl, Walk.takePiece]
    split
    · rename_i hn
      rw [if_pos hn] at hroom
      rw [if_neg (by have := hroom.resolve_left (by simp); omega)]
      simp [Walk.record]
    · simp
  | pieceWaits d c hg hc hl hk hlen hn h8 =>
    replace hk : c = w.pieceCount d u := hk
    subst hk
    simp only [Walk.ask, if_neg hg, hc, if_pos hl, Walk.takePiece]
    rw [if_pos ⟨hlen, hn⟩, if_pos (by omega)]
  | flagWaits d hg hc hl hf h8 =>
    simp only [Walk.ask, if_neg hg, hc, if_neg (Nat.not_lt.2 hl), Walk.passOn]
    rw [if_pos ⟨by simpa using hf, by omega⟩]
  | short d hg hc hl hroom hfin => rw [pass d hg hc hl hroom, if_pos hfin]
  | closes d hg hc hl h8 hfin hp =>
    rw [pass d hg hc hl (.inr h8), if_neg (by simp [hfin]), if_pos (by simp [Walk.passed, hp])]
  | next d hg hc hl hroom hfin hp hv =>
    rw [pass d hg hc hl (by simpa [hp] using hroom), if_neg (by simp [hfin]), if_neg (by simpa [Walk.passed, hp] using hg)]
    have hv' : ¬ (w.passed d).visited ≥ Config.visitCap := by show ¬ w.visited ≥ _; omega
    unfold Walk.askRead
    rw [if_neg hv']
    rfl
  | nextLoop d hg hc hl hroom hfin hp hv =>
    rw [pass d hg hc hl (by simpa [hp] using hroom), if_neg (by simp [hfin]), if_neg (by simpa [Walk.passed, hp] using hg)]
    have hv' : (w.passed d).visited ≥ Config.visitCap := by show w.visited ≥ _; omega
    unfold Walk.askRead
    rw [if_pos hv']

/-- What a walk answers is what its rules give (R71 to R73, R75, R77). -/
theorem Walk.answers_iff {w x : Walk} {l u : Nat} {a : WalkAnswer} : w.Answers l u x a ↔ w.ask l u = (x, a) :=
  ⟨Walk.ask_of_answers, fun h => by have := Walk.answers_ask w l u; rwa [h] at this⟩

namespace State

/-! ### The marks -/

/-- The queue entries a mark needs. -/
theorem Mark.need_eq (m : Mark) : m.need = if m.note = true ∧ m.pause = true then 2 else 1 := by
  unfold Mark.need; cases m.note <;> cases m.pause <;> rfl

/-- The record, the buffers and the Staging Buffer behind a mark that has acted (R76, R77). -/
theorem marked_keeps (s : State) (i : SlotId) (e : Exchange) (m : Mark) :
    (∃ e', (s.marked i e m).ex i = some e' ∧ e'.walk = { e.walk with marks := e.walk.marks.tail } ∧
      e'.state = e.state ∧ e'.transfers = e.transfers ∧ e'.role = e.role ∧ e'.dir = e.dir ∧ e'.peer = e.peer ∧
      e'.tag = e.tag ∧ e'.length = e.length ∧ e'.acknowledged = e.acknowledged ∧ e'.drained = e.drained) ∧
    (s.marked i e m).fbd = s.fbd ∧ (s.marked i e m).stg = s.stg ∧ (∀ j, (s.marked i e m).gen j = s.gen j) ∧
    (s.marked i e m).sct = s.sct := by
  unfold marked
  split
  · exact ⟨⟨_, ex_setEx_self i _ s, by refine ⟨?_, ?_, ?_, ?_, ?_, ?_, ?_, ?_, ?_, ?_⟩ <;> rfl⟩, rfl, rfl,
      fun j => gen_setEx .., rfl⟩
  · exact ⟨⟨_, ex_setEx_self i _ s, by refine ⟨?_, ?_, ?_, ?_, ?_, ?_, ?_, ?_, ?_, ?_⟩ <;> rfl⟩, rfl, rfl,
      fun j => gen_setEx .., rfl⟩

/-- What marks that act leave of the record, the buffers, the Staging Buffer and the generations (R76, R77). -/
structure MarksKeep (s t : State) (i : SlotId) (e e' : Exchange) : Prop where
  record : t.ex i = some e'
  state : e'.state = e.state
  transfers : e'.transfers = e.transfers
  role : e'.role = e.role
  dir : e'.dir = e.dir
  peer : e'.peer = e.peer
  tag : e'.tag = e.tag
  length : e'.length = e.length
  acknowledged : e'.acknowledged = e.acknowledged
  drained : e'.drained = e.drained
  fbd : t.fbd = s.fbd
  stg : t.stg = s.stg
  gens : ∀ j, t.gen j = s.gen j
  sct : t.sct = s.sct

/-- Marks that keep the record's role, direction and counts keep the bytes done. -/
theorem MarksKeep.doneBytes {s t : State} {i : SlotId} {e e' : Exchange} (k : MarksKeep s t i e e') :
    e'.doneBytes = e.doneBytes := by
  rw [doneBytes_eq, doneBytes_eq, k.role, k.dir, k.acknowledged, k.drained]

/-- Nothing has acted. -/
theorem MarksKeep.refl {s : State} {i : SlotId} {e : Exchange} (h : s.ex i = some e) : MarksKeep s s i e e :=
  ⟨h, rfl, rfl, rfl, rfl, rfl, rfl, rfl, rfl, rfl, rfl, rfl, fun _ => rfl, rfl⟩

/-- Marks that act one after another. -/
theorem MarksKeep.trans {s t u : State} {i : SlotId} {a b c : Exchange} (h : MarksKeep s t i a b)
    (k : MarksKeep t u i b c) : MarksKeep s u i a c :=
  ⟨k.record, k.state.trans h.state, k.transfers.trans h.transfers, k.role.trans h.role, k.dir.trans h.dir,
    k.peer.trans h.peer, k.tag.trans h.tag, k.length.trans h.length, k.acknowledged.trans h.acknowledged,
    k.drained.trans h.drained, k.fbd.trans h.fbd, k.stg.trans h.stg, fun j => (k.gens j).trans (h.gens j),
    k.sct.trans h.sct⟩

/-- A mark that acts where the queues are free. -/
theorem marked_marksKeep (s : State) (i : SlotId) (e : Exchange) (m : Mark) : ∃ e', MarksKeep s (s.marked i e m) i e e' := by
  obtain ⟨⟨e', h1, -, h2, h3, h4, h5, h6, h7, h8, h9, h10⟩, h11, h12, h13, h14⟩ := marked_keeps s i e m
  exact ⟨e', h1, h2, h3, h4, h5, h6, h7, h8, h9, h10, h11, h12, h13, h14⟩

/-- Where marks act, the slot holds an exchange, and all else that MarksKeep names stands. -/
theorem MarksAct.keeps {i : SlotId} {done n : Nat} {s t : State} (h : MarksAct i done n s t) :
    ∃ e e', s.ex i = some e ∧ MarksKeep s t i e e' := by
  induction h with
  | rests he _ => exact ⟨_, _, he, .refl he⟩
  | waits he _ _ _ _ => exact ⟨_, _, he, he, rfl, rfl, rfl, rfl, rfl, rfl, rfl, rfl, rfl, rfl, rfl, fun _ => rfl, rfl⟩
  | @acts n s t e m l he _ _ _ _ _ _ ih =>
    obtain ⟨x, e', hx, k⟩ := ih
    obtain ⟨y, ky⟩ := marked_marksKeep s i e m
    rw [ky.record] at hx
    injection hx with hx
    subst hx
    exact ⟨e, e', he, ky.trans k⟩

/-- The report queue bounds the marks that act (R152). -/
theorem MarksAct.bound {i : SlotId} {done n : Nat} {s t : State} (h : MarksAct i done n s t) :
    n = 0 ∨ n + s.rpt.queue.length ≤ 8 := by
  induction h with
  | rests _ _ => exact .inl rfl
  | waits _ _ _ _ _ => exact .inl rfl
  | @acts n s t e m l he hm hpt hf ho hc _ ih =>
    refine .inr ?_
    have hlen : (s.marked i e m).rpt.queue.length = s.rpt.queue.length + if m.note = true ∧ m.pause = true then 2 else 1 := by
      unfold marked enqueued
      cases hn : m.note <;> cases hp : m.pause <;> simp_all
    have hpos : 1 ≤ if m.note = true ∧ m.pause = true then 2 else 1 := by split <;> omega
    have := ho.1
    rw [hlen] at ih
    rcases ih with rfl | h <;> omega

/-- A mark queue whose head rests stays as it is. -/
theorem actMarks_of_rests {s : State} {i : SlotId} {e : Exchange} (he : s.ex i = some e)
    (hr : s.headMarkRests i e e.doneBytes) (k : Nat) : actMarks k i s = s ∧ s.headActs i = false := by
  cases hh : s.headMark i with
  | none => exact ⟨actMarks_of_none hh k, by simp [headActs, hh]⟩
  | some m =>
    have hm : ∃ l, e.walk.marks = m :: l ∧ m.point ≤ e.doneBytes := by
      unfold headMark at hh
      rw [he] at hh
      dsimp only at hh
      split at hh
      · cases hh
      · split at hh
        · injection hh with hh; subst hh; exact ⟨_, by assumption, by assumption⟩
        · cases hh
    obtain ⟨l, hm, hpt⟩ := hm
    rcases hr m l hm with h | ⟨hl, hq⟩
    · omega
    · have hturn : s.reportTurn (.mark i) m.need = false := reportTurn_eq_false (.inr (by rw [Mark.need_eq]; exact hq))
      refine ⟨?_, by simp [headActs, hh, hturn]⟩
      cases k with
      | zero => rfl
      | succ k =>
        unfold actMarks
        rw [hh]
        dsimp only
        rw [hturn, if_neg (by simp), claimReport_of_mem hl]

/-- A reached head mark whose reports do not fit begins to wait, and stays so (R76, R152). -/
theorem actMarks_of_waits {s : State} {i : SlotId} {e : Exchange} {m : Mark} {l : List Mark} (he : s.ex i = some e)
    (hm : e.walk.marks = m :: l) (hpt : m.point ≤ e.doneBytes) (hl : ReportClaim.mark i ∉ s.rpt.line)
    (hq : s.rpt.stationWaiting ≠ [] ∨ 8 < s.rpt.queue.length + if m.note = true ∧ m.pause = true then 2 else 1)
    (k : Nat) :
    actMarks (k + 1) i s = { s with rpt := { s.rpt with line := s.rpt.line ++ [.mark i] } } ∧ s.headActs i = false ∧
      ∀ j, actMarks j i { s with rpt := { s.rpt with line := s.rpt.line ++ [.mark i] } } =
        { s with rpt := { s.rpt with line := s.rpt.line ++ [.mark i] } } := by
  have hh : s.headMark i = some m := by simp [headMark, he, hm, hpt]
  have hq' : s.rpt.stationWaiting ≠ [] ∨ 8 < s.rpt.queue.length + m.need := by rw [Mark.need_eq]; exact hq
  have hturn : s.reportTurn (.mark i) m.need = false := reportTurn_eq_false hq'
  refine ⟨?_, by simp [headActs, hh, hturn], fun j => ?_⟩
  · unfold actMarks
    rw [hh]
    dsimp only
    rw [hturn, if_neg (by simp)]
    unfold claimReport
    rw [if_neg (by simpa using hl)]
  · cases j with
    | zero => rfl
    | succ j =>
      unfold actMarks
      have hh' : State.headMark { s with rpt := { s.rpt with line := s.rpt.line ++ [.mark i] } } i = some m := hh
      have hturn' : State.reportTurn { s with rpt := { s.rpt with line := s.rpt.line ++ [.mark i] } } (.mark i) m.need =
          false := reportTurn_eq_false hq'
      rw [hh']
      dsimp only
      rw [hturn', if_neg (by simp), claimReport_of_mem (by simp)]

/-- The reached marks act one after another, and then the mark queue is at rest (R76, R77). -/
theorem MarksAct.actMarks {i : SlotId} {done n : Nat} {s t : State} (h : MarksAct i done n s t) :
    ∀ {e : Exchange}, s.ex i = some e → e.doneBytes = done → ∀ k, n < k →
      State.actMarks k i s = t ∧ (∀ j, State.actMarks j i t = t) ∧ (n = 0 ↔ s.headActs i = false) := by
  induction h with
  | rests he hr =>
    intro e he' hd k _
    rw [he] at he'; injection he' with he'; subst he' hd
    exact ⟨(actMarks_of_rests he hr k).1, fun j => (actMarks_of_rests he hr j).1,
      by simp [(actMarks_of_rests he hr 0).2]⟩
  | waits he hm hpt hl hq =>
    intro e he' hd k hk
    rw [he] at he'; injection he' with he'; subst he' hd
    obtain ⟨k, rfl⟩ : ∃ m, k = m + 1 := ⟨k - 1, by omega⟩
    obtain ⟨h1, h2, h3⟩ := actMarks_of_waits he hm hpt hl hq k
    exact ⟨h1, h3, by simp [h2]⟩
  | @acts n s t e m l he hm hpt hf ho hc _ ih =>
    intro e' he' hd k hk
    rw [he] at he'; injection he' with he'; subst he' hd
    obtain ⟨k, rfl⟩ : ∃ m, k = m + 1 := ⟨k - 1, by omega⟩
    rw [← Mark.need_eq] at ho
    have hh : s.headMark i = some m := by simp [headMark, he, hm, hpt]
    have hturn := reportTurn_of_open ho (.mark i)
    obtain ⟨x, kx⟩ := marked_marksKeep s i e m
    obtain ⟨h1, h2, -⟩ := ih kx.record kx.doneBytes k (by omega)
    refine ⟨?_, h2, by simp [headActs, hh, hturn]⟩
    conv_lhs => unfold State.actMarks
    rw [hh]
    dsimp only
    rw [hturn, if_pos rfl, actMark_of_open he ho hc, h1]

/-! ### Fills and the examination of the mark queue -/

/-- One step of a fill, as its walk answers (R73, R75, R81, R82). -/
theorem fillGo_step {t : State} {i : SlotId} {b : BufId} {v : OutBuffer} {e : Exchange} {w : Walk} {a : WalkAnswer}
    {settled : State → Exchange → Prop} {o : Host.Outcome State Fault Refusal} (hb : t.buffer b = some v)
    (hi : v.slot = i) (he : t.ex i = some e) (hs : e.state ≠ .retiring) (hc : e.prepared < v.ceiling)
    (ha : e.walk.Answers e.length v.ceiling w a) (hset : ∀ e', (t.fillGo b).ex i = some e' → settled (t.fillGo b) e')
    (hend : ∀ u : State, t.fillGo b = u → (∀ e', u.ex i = some e' → e'.walk.marks = []) → o = .next u) :
    t.FillStep i b v e w settled o a := by
  have hask := Walk.ask_of_answers ha
  cases a with
  | piece addr c =>
    rintro e' rfl
    rw [(fillGo_ask hb hi rfl he hc).2 addr c hask] at hset
    exact hset _ (by exact ex_setEx_self ..)
  | read addr =>
    rintro e' rfl
    rw [(fillGo_ask hb hi rfl he hc).1 addr hask] at hset
    exact hset _ (by exact ex_setEx_self ..)
  | gate =>
    rw [fillGo_gate hb hi he hc hask] at hset
    exact hset _ (by exact ex_setEx_self ..)
  | wait =>
    have hw : w = e.walk := by cases ha <;> rfl
    subst hw
    intro m l hm
    have hgo := fillGo_wait hb hi he hc hm hask
    rw [show t.setEx i (some { e with walk := e.walk }) = t from setEx_same he] at hgo
    exact ⟨fun h => by rw [hgo.1 h] at hset; exact hset e he, fun h => by rw [hgo.2 h] at hset; exact hset e he⟩
  | error r =>
    have E := abortWith_ends (s := t.setEx i (some { e with walk := w })) (ex_setEx_self ..) hs r
    exact ⟨_, E, hend _ (fillGo_error hb hi he hc hask)
      fun e' he' => by rw [E.record] at he'; injection he' with he'; subst he'; rfl⟩

/-- One step of a fill keeps the slot's exchange, with its bytes done (R81). -/
theorem fillGo_doneBytes {t : State} {i : SlotId} {b : BufId} {v : OutBuffer} {e : Exchange} (hb : t.buffer b = some v)
    (hi : v.slot = i) (he : t.ex i = some e) (hs : e.state ≠ .retiring) :
    ∃ e', (t.fillGo b).ex i = some e' ∧ e'.doneBytes = e.doneBytes := by
  by_cases hc : v.ceiling ≤ e.prepared
  · refine ⟨e, ?_, rfl⟩
    subst hi
    unfold fillGo
    rw [hb]; dsimp only; rw [he]; dsimp only
    rw [if_pos hc]
    exact he
  · replace hc : e.prepared < v.ceiling := by omega
    have ha := Walk.answers_ask e.walk e.length v.ceiling
    have hask := Walk.ask_of_answers ha
    generalize (e.walk.ask e.length v.ceiling).1 = w at ha hask
    generalize (e.walk.ask e.length v.ceiling).2 = a at ha hask
    cases a with
    | piece addr c =>
      rw [(fillGo_ask hb hi rfl he hc).2 addr c hask]
      exact ⟨_, ex_setEx_self i _ t, rfl⟩
    | read addr =>
      rw [(fillGo_ask hb hi rfl he hc).1 addr hask]
      exact ⟨_, ex_setEx_self i _ t, rfl⟩
    | gate =>
      rw [fillGo_gate hb hi he hc hask]
      exact ⟨_, ex_setEx_self i _ t, rfl⟩
    | wait =>
      have h8 : 8 ≤ e.walk.marks.length := by cases ha <;> assumption
      obtain ⟨m, l, hm⟩ := List.exists_cons_of_length_pos (show 0 < e.walk.marks.length by omega)
      obtain ⟨h1, h2⟩ := fillGo_wait hb hi he hc hm hask
      rcases Nat.lt_or_ge v.offset m.point with h | h
      · rw [h2 h]
        exact ⟨_, ex_setEx_self i _ t, rfl⟩
      · rw [h1 h]
        exact ⟨_, ex_setEx_self i _ t, rfl⟩
    | error r =>
      rw [fillGo_error hb hi he hc hask]
      exact ⟨_, (abortWith_ends (s := t.setEx i (some { e with walk := w })) (ex_setEx_self ..) hs r).record, rfl⟩

/-- The examination of a mark queue (R75, R76, R77). -/
theorem settleMarks_settled {s : State} {i : SlotId} {e : Exchange} (he : s.ex i = some e) :
    s.MarksSettled i e e.doneBytes (.next (s.settleMarks i)) := by
  intro n t h
  obtain ⟨e0, e1, he0, k⟩ := h.keeps
  rw [he] at he0; injection he0 with he0; subst he0
  have hn : n < 16 := by have := h.bound; omega
  obtain ⟨h1, h2, h3⟩ := h.actMarks he rfl 16 hn
  have hsettle : s.settleMarks i = if n = 0 then t else actMarks 16 i (t.resumeFill i) := by
    by_cases h0 : n = 0
    · rw [if_pos h0]; unfold settleMarks; rw [if_neg (by simp [h3.1 h0]), h1]
    · rw [if_neg h0]; exact settleMarks_of_acts (by by_contra hf; exact h0 (h3.2 (by simpa using hf))) h1
  refine ⟨fun hr => ?_, fun e' b v w a h0 he' hf hs ht ha => ?_⟩
  · rw [hsettle]
    split
    · rfl
    · rename_i h0
      have hrest : t.resumeFill i = t := by
        rcases hr with h | h | h | h
        · exact absurd h h0
        · exact resumeFill_of_busy k.record (.inl (k.state ▸ h))
        · exact resumeFill_of_busy k.record (.inr (k.transfers ▸ h))
        · exact resumeFill_of_none fun b v hb hi hg =>
            h b v (by rw [← hb]; simp [buffer, k.fbd]) hi (hg.trans (k.gens i))
      rw [hrest, h2]
  · rw [k.record] at he'; injection he' with he'; subst he'
    rw [hsettle, if_neg h0, resumeFill_of_fills k.record hf hs ht]
    obtain ⟨x, hx, hxd⟩ := fillGo_doneBytes hf.1 hf.2.1 k.record (by simp [hs])
    refine fillGo_step hf.1 hf.2.1 k.record (by simp [hs]) hf.2.2.2.2.1 ha (fun e' he' j y hy => ?_) fun u hu hnil => ?_
    · have hj : j < 16 := by have := hy.bound; omega
      exact congrArg _ (hy.actMarks hx (hxd.trans k.doneBytes) 16 hj).1
    · subst hu
      exact congrArg _ (actMarks_of_none (headMark_of_nil hx (hnil x hx)) 16)

/-- A fill of slot i into buffer b goes on, and the mark queue is examined (R75, R76, R81). -/
theorem fillOn_step {t : State} {i : SlotId} {b : BufId} {v : OutBuffer} {e : Exchange} {w : Walk} {a : WalkAnswer}
    (hb : t.buffer b = some v) (hi : v.slot = i) (he : t.ex i = some e) (hs : e.state ≠ .retiring)
    (hc : e.prepared < v.ceiling) (ha : e.walk.Answers e.length v.ceiling w a) :
    t.FillStep i b v e w (fun x e' => x.MarksSettled i e' e.doneBytes (.next (t.fillOn b))) (.next (t.fillOn b)) a := by
  have hon : t.fillOn b = (t.fillGo b).settleMarks i := by unfold fillOn; rw [hb, ← hi]
  rw [hon]
  obtain ⟨x, hx, hxd⟩ := fillGo_doneBytes hb hi he hs
  refine fillGo_step hb hi he hs hc ha (fun e' he' => ?_) fun u hu hnil => ?_
  · rw [hx] at he'; injection he' with he'; subst he'
    rw [← hxd]
    exact settleMarks_settled hx
  · subst hu
    exact congrArg _ (settleMarks_of_nil hx (hnil x hx))

/-- The drain goes on with the chosen exchange, and the mark queue is examined (R76, R95). -/
theorem drainOn_step {t : State} {i : SlotId} {e : Exchange} {w : Walk} {a : WalkAnswer} (he : t.ex i = some e)
    (hs : e.state ≠ .retiring) (ha : e.walk.Answers e.length (min e.received ((e.drained / 256 + 1) * 256)) w a) :
    t.DrainStep i e w e.doneBytes (.next (t.drainOn i)) a := by
  have hask : e.walk.ask e.length e.drainEnd = (w, a) := Walk.ask_of_answers ha
  unfold drainOn
  cases a with
  | piece addr c =>
    rintro k x e' hk hx rfl
    rw [drainGo_piece he hask hk hx]
    exact settleMarks_settled (by exact ex_setEx_self ..)
  | read addr =>
    rintro e' rfl
    rw [drainGo_read he hask]
    exact settleMarks_settled (by exact ex_setEx_self ..)
  | gate =>
    rw [drainGo_stop he (.inl hask)]
    exact settleMarks_settled (e := { e with walk := w }) (by exact ex_setEx_self ..)
  | wait =>
    rw [drainGo_stop he (.inr hask)]
    exact settleMarks_settled (e := { e with walk := w }) (by exact ex_setEx_self ..)
  | error r =>
    rw [drainGo_error he hask]
    have E := abortWith_ends (s := (t.setEx i (some { e with walk := w })).setDrain .idle) (i := i)
      (e := { e with walk := w }) (by exact ex_setEx_self ..) hs r
    exact ⟨_, E, congrArg _ (settleMarks_of_nil E.record rfl)⟩

/-! ### What the examination leaves as it is -/

/-- Steps of the report and the control queue keep what MarksKeep names. -/
theorem MarksKeep.of_eq {s t u : State} {i : SlotId} {e e' : Exchange} (k : MarksKeep s t i e e')
    (hs : u.xen.slots = t.xen.slots) (hf : u.fbd = t.fbd) (hg : u.stg = t.stg) (hc : u.sct = t.sct) :
    MarksKeep s u i e e' :=
  ⟨by rw [← k.record]; simp [ex, hs], k.state, k.transfers, k.role, k.dir, k.peer, k.tag, k.length, k.acknowledged,
    k.drained, hf.trans k.fbd, hg.trans k.stg, fun j => by rw [← k.gens j]; simp [gen, hs], hc.trans k.sct⟩

/-- A mark that acts, wherever its reports and its HOLD go (R76, R77). -/
theorem actMark_marksKeep {s : State} {i : SlotId} {e : Exchange} (he : s.ex i = some e) (m : Mark) :
    ∃ e', MarksKeep s (s.actMark i m) i e e' := by
  have push : ∀ (r : Report) (x : State), (x.pushReport r).xen = x.xen ∧ (x.pushReport r).fbd = x.fbd ∧
      (x.pushReport r).stg = x.stg ∧ (x.pushReport r).sct = x.sct := by
    intro r x; unfold pushReport; split <;> exact ⟨rfl, rfl, rfl, rfl⟩
  have hold : ∀ x : State, (x.dueHold i).xen.slots = x.xen.slots ∧ (x.dueHold i).fbd = x.fbd ∧
      (x.dueHold i).stg = x.stg ∧ (x.dueHold i).sct = x.sct := by
    intro x
    unfold dueHold dueOnce dueFrame pushCtrl pushEntry
    (repeat' split) <;> exact ⟨rfl, rfl, rfl, rfl⟩
  have set : ∀ {x : State} {a b : Exchange}, MarksKeep s x i e a → b.state = a.state → b.transfers = a.transfers →
      b.role = a.role → b.dir = a.dir → b.peer = a.peer → b.tag = a.tag → b.length = a.length →
      b.acknowledged = a.acknowledged → b.drained = a.drained → MarksKeep s (x.setEx i (some b)) i e b :=
    fun k h1 h2 h3 h4 h5 h6 h7 h8 h9 => k.trans ⟨ex_setEx_self .., h1, h2, h3, h4, h5, h6, h7, h8, h9, rfl, rfl,
      fun j => gen_setEx .., rfl⟩
  obtain ⟨x, hx⟩ : ∃ x, x = if m.note = true then
      ((s.setEx i (some e.popMark)).unclaimReport (.mark i)).pushReport (.note e.orderTag m.base m.index)
    else (s.setEx i (some e.popMark)).unclaimReport (.mark i) := ⟨_, rfl⟩
  have hk : MarksKeep s x i e e.popMark := by
    have h0 := set (.refl he) (b := e.popMark) rfl rfl rfl rfl rfl rfl rfl rfl rfl
    rw [hx]
    split
    · exact h0.of_eq (by rw [(push _ _).1]; rfl) (by rw [(push _ _).2.1]; rfl) (by rw [(push _ _).2.2.1]; rfl)
        (by rw [(push _ _).2.2.2]; rfl)
    · exact h0.of_eq rfl rfl rfl rfl
  unfold actMark
  rw [he]
  dsimp only
  rw [updEx_of_some he, ← hx]
  split
  · rw [updEx_of_some hk.record]
    exact ⟨_, (set hk (b := e.popMark.pause) rfl rfl rfl rfl rfl rfl rfl rfl rfl).of_eq
      (by rw [(hold _).1, (push _ _).1]) (by rw [(hold _).2.1, (push _ _).2.1]) (by rw [(hold _).2.2.1, (push _ _).2.2.1])
      (by rw [(hold _).2.2.2, (push _ _).2.2.2])⟩
  · exact ⟨_, hk⟩

/-- The marks that act, and one that begins to wait (R76, R77). -/
theorem actMarks_marksKeep (i : SlotId) : ∀ (n : Nat) {s : State} {e : Exchange}, s.ex i = some e →
    ∃ e', MarksKeep s (actMarks n i s) i e e' := by
  intro n
  induction n with
  | zero => exact fun he => ⟨_, .refl he⟩
  | succ n ih =>
    intro s e he
    unfold actMarks
    split
    · exact ⟨_, .refl he⟩
    · split
      · obtain ⟨e1, k1⟩ := actMark_marksKeep he _
        obtain ⟨e2, k2⟩ := ih k1.record
        exact ⟨e2, k1.trans k2⟩
      · refine ⟨_, (MarksKeep.refl he).of_eq ?_ ?_ ?_ ?_⟩ <;> unfold claimReport <;> split <;> rfl

/-- The examination of a mark queue outside SENDING, where no fill goes on behind a mark (R75, R76, R77). -/
theorem settleMarks_marksKeep {s : State} {i : SlotId} {e : Exchange} (he : s.ex i = some e) (hs : e.state ≠ .sending) :
    ∃ e', MarksKeep s (s.settleMarks i) i e e' := by
  obtain ⟨e1, k1⟩ := actMarks_marksKeep i 16 he
  unfold settleMarks
  split
  · rw [resumeFill_of_busy k1.record (.inl (k1.state ▸ hs))]
    obtain ⟨e2, k2⟩ := actMarks_marksKeep i 16 k1.record
    exact ⟨e2, k1.trans k2⟩
  · exact ⟨e1, k1⟩

end State

end Sys2Proof.Machine
end

