-- ==== Sys2Proof/Laws/Silent.lean ====
section
/-!
SUPPORT. What the SILENT mark of a peer leaves of the slots, the Transmit Queue and the buffers: one slot, then all of
them in order.
-/

namespace Sys2Proof.Machine.State

/-- What the SILENT mark of peer p at the slots of a list leaves in the Transmit Queue and the buffers (R18, R20,
R113). -/
structure Silenced (p : Station) (l : List SlotId) (s u : State) : Prop where
  ctrl : u.txq.ctrl = s.txq.ctrl.filter fun c => c.inSlot || !l.any fun i =>
    c.owner == .slot i (s.gen i) && (s.ex i).any fun e => e.peer == p && e.state != .retiring
  line : (∀ c ∈ s.txq.line, ∀ j, c = .credit j → ∀ e, s.ex j = some e → e.peer ≠ p) →
    u.txq.line = s.txq.line.filter fun c => !l.any fun i =>
      (match c with
        | .frame _ o => o == .slot i (s.gen i)
        | _ => false) && (s.ex i).any fun e => e.peer == p && e.state != .retiring
  owed : u.txq.owed = s.txq.owed.filter fun j => !l.any fun i => i == j && (s.ex i).any fun e => e.peer == p &&
      e.state == .retiring
  ready : ∀ b v, u.buffer b = some v → v.state = .ready → s.buffer b = some v ∧
    ∀ i ∈ l, ∀ e, s.ex i = some e → v.slot = i → v.gen = s.gen i → e.peer = p → e.state = .retiring

/-- Entry to RETIRING with no ABORT owed removes the due frames of the slot from the line (R18). -/
theorem retire_line {s : State} {i : SlotId} {e : Exchange} (h : s.ex i = some e) (hs : e.state ≠ .retiring)
    (r : Result) :
    (s.retire i r none).txq.line = s.txq.line.filter fun c => !c.isOf i (s.gen i) fun _ => true := by
  rw [retire_eq h hs]; simp only [Option.isSome_none, Bool.false_eq_true, if_false]
  rw [stripped_eq h]; rfl

/-- What the SILENT mark at one slot keeps. -/
theorem silentSlot_keep (p : Station) (s : State) (i : SlotId) : Keep s (silentSlot p s i) := by
  unfold silentSlot
  split
  · exact Keep.refl s
  · rename_i e he
    split
    · split
      · exact settle_keep s i
      · exact endWith_keep he (by assumption) _
    · exact Keep.refl s

/-- The SILENT mark at one slot leaves the other records alone. -/
theorem silentSlot_ex_of_ne (p : Station) (s : State) (i j : SlotId) (h : j ≠ i) : (silentSlot p s i).ex j = s.ex j :=
    by
  unfold silentSlot
  split
  · rfl
  · rename_i e he
    split
    · split
      · exact settle_ex_of_ne s i j h
      · exact (endWith_ends he (by assumption) _).others j h
    · rfl

/-- The SILENT mark at one slot (R18, R20, R113). -/
theorem silenced_silentSlot (p : Station) (s : State) (i : SlotId) : Silenced p [i] s (s.silentSlot p i) := by
  unfold silentSlot
  cases he : s.ex i with
  | none => 
    refine ⟨?_, fun _ => ?_, ?_, fun b v h1 h2 => ⟨h1, fun j hj e he2 => ?_⟩⟩ <;> simp_all
  | some e =>
    dsimp only
    by_cases hp : e.peer = p
    · rw [if_pos hp]
      have hp' : (e.peer == p) = true := by simpa using hp
      by_cases hr : e.state = .retiring
      · rw [if_pos hr]
        have hr' : (e.state == ExState.retiring) = true := by simpa using hr
        unfold settle; rw [updEx_of_some he]
        refine ⟨?_, fun _ => ?_, ?_, fun b v h1 h2 => ⟨h1, fun j hj e' he2 => ?_⟩⟩
        · simp [he, hr', bne]
        · simp [he, hr', bne]
        · simp only [he, List.any_cons, List.any_nil, Option.any_some, hr', hp', Bool.and_true, Bool.or_false]
          apply List.filter_congr; intro a _
          simp only [bne]; congr 1; exact Bool.beq_comm
        · simp_all
      · rw [if_neg hr]
        have hr' : (e.state == ExState.retiring) = false := by simpa using hr
        have E := endWith_ends he hr .peerSilent
        have K := retire_keeps i e s (.failed .peerSilent none) he hr
        refine ⟨?_, fun hl => ?_, ?_, fun b v h1 h2 => ⟨K.2.2.2 b v h1 (Or.inr h2), fun j hj e' he2 h3 h4 h5 => ?_⟩⟩
        · rw [E.ctrl]; simp [abortPlaced, ctrlWithout, he, hr', hp', bne]
        · unfold endWith; rw [retire_line he hr]; apply List.filter_congr
          intro c hc
          cases c with
          | credit j => 
            simp [CtrlClaim.isOf]; intro h
            exact hl _ hc j rfl e (by rw [h]; exact he) hp
          | _ => simp [CtrlClaim.isOf, he, hp', hr', bne]
        · rw [E.owed]; simp [owedAfter, he, hr']
        · simp at hj; subst hj
          exact absurd ⟨h3, h4, h2⟩ (E.buffers b v h1)
    · rw [if_neg hp]
      have hp' : (e.peer == p) = false := by simpa using hp
      refine ⟨?_, fun _ => ?_, ?_, fun b v h1 h2 => ⟨h1, fun j hj e he2 => ?_⟩⟩
      · simp [he, hp']
      · simp [he, hp']
      · simp [he, hp']
      · simp_all

/-- The SILENT mark at the slots of a list, in order (R18, R20, R113). -/
theorem silenced_foldl (p : Station) : ∀ (l : List SlotId) (s : State), l.Nodup →
    Silenced p l s (l.foldl (silentSlot p) s) := by
  intro l
  induction l with
  | nil => intro s _; exact ⟨by simp, fun _ => by simp, by simp, fun b v h1 h2 => ⟨h1, fun i hi => by simp at hi⟩⟩
  | cons a l ih =>
    intro s hn
    rw [List.nodup_cons] at hn
    have A := silenced_silentSlot p s a
    have B := ih (s.silentSlot p a) hn.2
    have hg : ∀ j, (s.silentSlot p a).gen j = s.gen j := (silentSlot_keep p s a).gens
    have he : ∀ j ∈ l, (s.silentSlot p a).ex j = s.ex j := fun j hj => silentSlot_ex_of_ne p s a j
        (fun h => hn.1 (h ▸ hj))
    have hany : ∀ q : SlotId → Option Exchange → Gen → Bool, l.any
        (fun i => q i ((s.silentSlot p a).ex i) ((s.silentSlot p a).gen i)) = l.any
        (fun i => q i (s.ex i) (s.gen i)) := by
      intro q
      rw [Bool.eq_iff_iff]; simp only [List.any_eq_true]
      constructor <;> rintro ⟨i, hi, hq⟩ <;> refine ⟨i, hi, ?_⟩
      · rw [he i hi, hg] at hq; exact hq
      · rw [he i hi, hg]; exact hq
    rw [List.foldl_cons]
    refine ⟨?_, fun hl => ?_, ?_, fun b v h1 h2 => ?_⟩
    · rw [B.ctrl, A.ctrl, List.filter_filter]; apply List.filter_congr; intro c _
      rw [hany fun i x g => c.owner == .slot i g && x.any fun e => e.peer == p && e.state != .retiring]
      simp only [List.any_cons, List.any_nil, Bool.or_false]
      cases c.inSlot <;> simp [Bool.and_comm]
    · rw [B.line ?_, A.line hl, List.filter_filter]
      · apply List.filter_congr; intro c _
        cases c with
        | frame f o =>
          dsimp only
          rw [hany fun i x g => o == .slot i g && x.any fun e => e.peer == p && e.state != .retiring]
          simp only [List.any_cons, List.any_nil, Bool.or_false, Bool.not_or, Bool.and_comm]
        | _ => simp
      · intro c hc j hj e hej
        rw [A.line hl] at hc
        replace hc := (List.mem_filter.1 hc).1
        by_cases haj : j = a
        · subst haj
          intro hp
          have hsame : s.silentSlot p j = s := by
            unfold silentSlot
            cases hs : s.ex j with
            | none => rfl
            | some e0 => dsimp only; rw [if_neg (hl c hc j hj e0 hs)]
          rw [hsame] at hej
          exact hl c hc j hj e hej hp
        · rw [silentSlot_ex_of_ne p s a j haj] at hej
          exact hl c hc j hj e hej
    · rw [B.owed, A.owed, List.filter_filter]; apply List.filter_congr; intro c _
      rw [hany fun i x g => i == c && x.any fun e => e.peer == p && e.state == .retiring]
      simp only [List.any_cons, List.any_nil, Bool.or_false, Bool.not_or, Bool.and_comm]
    · obtain ⟨h3, h4⟩ := B.ready b v h1 h2
      obtain ⟨h5, h6⟩ := A.ready b v h3 h2
      refine ⟨h5, fun i hi e he2 g1 g2 g3 => ?_⟩
      rw [List.mem_cons] at hi
      rcases hi with hi | hi
      · subst hi; exact h6 i (by simp) e he2 g1 g2 g3
      · exact h4 i hi e (by rw [he i hi]; exact he2) g1 (by rw [hg]; exact g2) g3

end Sys2Proof.Machine.State
end

