-- ==== Sys2Proof/Laws/Windows.lean ====
section
/-!
SUPPORT. What an arbitration window leaves on the lines ARB5-ARB0 (R118).
-/

namespace Sys2Proof.Machine

/-- A number above line k is the number above the next line, and its bit at k. -/
theorem div_two_pow_succ (x k : Nat) : x / 2 ^ k = 2 * (x / 2 ^ (k + 1)) + if x.testBit k then 1 else 0 := by
  have h1 : x / 2 ^ (k + 1) = x / 2 ^ k / 2 := by rw [Nat.pow_succ, Nat.div_div_eq_div_mul]
  have h2 : x.testBit k = decide (x / 2 ^ k % 2 = 1) := Nat.testBit_eq_decide_div_mod_eq
  rw [h1, h2]
  by_cases h : x / 2 ^ k % 2 = 1 <;> simp [h] <;> omega

/-- A number that is greater above a line is greater above every lower one. -/
theorem div_lt_of_div_lt {x y j k : Nat} (h : j ≤ k) (hlt : x / 2 ^ k < y / 2 ^ k) : x / 2 ^ j < y / 2 ^ j := by
  by_contra hge
  have := Nat.div_le_div_right (c := 2 ^ (k - j)) (Nat.not_lt.1 hge)
  rw [Nat.div_div_eq_div_mul, Nat.div_div_eq_div_mul, ← Nat.pow_add, Nat.add_sub_cancel' h] at this
  omega

/-- What a bidding station still drives: a bit of its bid, down to the line at which a higher bid stands (R118). -/
theorem getLsbD_driven (b : Bid) : ∀ (k : Nat) (L : List Bid), k ≤ 6 → b ∈ L →
    (∀ x ∈ L, x.toNat / 2 ^ k = b.toNat / 2 ^ k) → ∀ j, (driven b (List.range k).reverse L).getLsbD j =
      (decide (j < k) && b.getLsbD j && decide (∀ x ∈ L, x.toNat / 2 ^ j ≤ b.toNat / 2 ^ j))
  | 0, L, _, _, _, j => by simp [driven]
  | k + 1, L, hk, hb, hag, j => by
    have hr : (List.range (k + 1)).reverse = k :: (List.range k).reverse := by simp [List.range_succ]
    have hbit : ∀ x ∈ L, x.toNat / 2 ^ k = 2 * (b.toNat / 2 ^ (k + 1)) + if x.getLsbD k then 1 else 0 := fun x hx => by
      rw [div_two_pow_succ, hag x hx]; rfl
    rw [hr]
    unfold driven
    split
    · rename_i h
      obtain ⟨h0, h1⟩ := h
      obtain ⟨x, hx, hx1⟩ := List.any_eq_true.1 h1
      have hlt : b.toNat / 2 ^ k < x.toNat / 2 ^ k := by rw [hbit x hx, hbit b hb, h0, hx1]; simp
      by_cases hj : j < k + 1
      · have := div_lt_of_div_lt (Nat.lt_succ_iff.1 hj) hlt
        have hn : ¬∀ x ∈ L, x.toNat / 2 ^ j ≤ b.toNat / 2 ^ j := fun h => absurd (h x hx) (by omega)
        simp [hn]
      · simp [hj]
    · rename_i h
      have hsame : ∀ x ∈ resolveLine L k, x ∈ L ∧ x.getLsbD k = b.getLsbD k := by
        intro x hx
        unfold resolveLine at hx
        split at hx
        · rename_i hany
          have : b.getLsbD k = true := by
            by_contra hc; exact h ⟨by simpa using hc, hany⟩
          simp at hx
          exact ⟨hx.1, hx.2.trans this.symm⟩
        · rename_i hany
          have hz : ∀ y ∈ L, y.getLsbD k = false := by simpa using hany
          exact ⟨hx, (hz x hx).trans (hz b hb).symm⟩
      have hbin : b ∈ resolveLine L k := by
        unfold resolveLine
        split
        · rename_i hany
          have : b.getLsbD k = true := by
            by_contra hc; exact h ⟨by simpa using hc, hany⟩
          simp [hb, this]
        · exact hb
      have hdrop : ∀ x ∈ L, x ∉ resolveLine L k → x.toNat / 2 ^ k < b.toNat / 2 ^ k := by
        intro x hx hn
        unfold resolveLine at hn
        split at hn
        · rename_i hany
          have hbk : b.getLsbD k = true := by
            by_contra hc; exact h ⟨by simpa using hc, hany⟩
          have hxk : x.getLsbD k = false := by simpa [hx] using hn
          rw [hbit x hx, hbit b hb, hbk, hxk]; simp
        · exact absurd hx hn
      have ih := getLsbD_driven b k (resolveLine L k) (by omega) hbin (fun x hx => by
        rw [hbit x (hsame x hx).1, hbit b hb, (hsame x hx).2]) j
      rw [BitVec.getLsbD_or, ih, BitVec.getLsbD_and]
      have hall : j ≤ k → ((∀ x ∈ resolveLine L k, x.toNat / 2 ^ j ≤ b.toNat / 2 ^ j) ↔
          ∀ x ∈ L, x.toNat / 2 ^ j ≤ b.toNat / 2 ^ j) := fun hj => ⟨fun h x hx => by
        by_cases hin : x ∈ resolveLine L k
        · exact h x hin
        · exact (div_lt_of_div_lt hj (hdrop x hx hin)).le, fun h x hx => h x (hsame x hx).1⟩
      rcases Nat.lt_trichotomy j k with hj | hj | hj
      · have htp : (BitVec.twoPow 6 k).getLsbD j = false := by simp [BitVec.getLsbD_twoPow]; omega
        simp only [htp, Bool.and_false, Bool.false_or, decide_eq_decide.2 (hall hj.le), hj, Nat.lt_succ_of_lt hj]
      · subst hj
        have h1 : ∀ x ∈ L, x.toNat / 2 ^ j ≤ b.toNat / 2 ^ j := (hall (Nat.le_refl _)).1 fun x hx => by
          rw [hbit x (hsame x hx).1, hbit b hb, (hsame x hx).2]
        have htp : (BitVec.twoPow 6 j).getLsbD j = true := by simp [BitVec.getLsbD_twoPow]; omega
        simp [htp]; exact fun _ => h1
      · have htp : (BitVec.twoPow 6 k).getLsbD j = false := by simp [BitVec.getLsbD_twoPow]; omega
        have : ¬ j < k + 1 := by omega
        simp [htp, this, Nat.not_lt.2 hj.le]
/-- What a bidding station drives at the end of a window: each bit of its bid, unless another bid is greater above that
line (R118). -/
theorem getLsbD_driven_arbLines {b : Bid} {L : List Bid} (hb : b ∈ L) (j : Nat) : (driven b arbLines L).getLsbD j =
    (b.getLsbD j && decide (∀ x ∈ L, x.toNat / 2 ^ j ≤ b.toNat / 2 ^ j)) := by
  have h64 : ∀ x : Bid, x.toNat / 2 ^ 6 = 0 := fun x => Nat.div_eq_of_lt x.isLt
  rw [show arbLines = (List.range 6).reverse from rfl,
    getLsbD_driven b 6 L (Nat.le_refl _) hb (fun x _ => by rw [h64, h64])]
  by_cases hj : j < 6
  · simp [hj]
  · simp [hj, BitVec.getLsbD_of_ge b j (by omega)]

/-- The highest bid stays on the lines whole (R118). -/
theorem driven_of_highest {b : Bid} {L : List Bid} (hb : b ∈ L) (h : ∀ x ∈ L, x.toNat ≤ b.toNat) :
    driven b arbLines L = b := by
  refine BitVec.eq_of_getLsbD_eq fun j _ => ?_
  rw [getLsbD_driven_arbLines hb, decide_eq_true fun x hx => Nat.div_le_div_right (h x hx), Bool.and_true]

end Sys2Proof.Machine
end

