-- ==== Sys2Proof/Tests/Slice0.lean ====
section
/-!
SUPPORT. Tests: ill-formed commands, small steps on small states, and for every statement with hypotheses a concrete
state and operands that meet them, clause by clause.
-/

namespace Sys2Proof.Tests

open Sys2Proof.Machine

set_option Elab.async false

/-! ### Ill-formed commands, one for each check -/

theorem test_illformed_bids : (Instr.arbitrationWindow (List.replicate 32 1#6) false).wf = false := by decide

theorem test_illformed_ring_words : (Instr.ringWordsReadDone [1, 2, 3]).wf = false := by decide

theorem test_illformed_order : (Instr.orderFetchDone (List.replicate 31 0)).wf = false := by decide

theorem test_illformed_start_record : (Instr.startRecordReadDone (List.replicate 33 0)).wf = false := by decide

theorem test_illformed_entry : (Instr.entryReadDone []).wf = false := by decide

theorem test_illformed_data : (Instr.dataReadDone []).wf = false := by decide

theorem test_wellformed_data : (Instr.dataReadDone [7]).wf = true := by decide

/-- No word spells a command (log 4). -/
theorem test_no_word : decodeTableWord 0 0 = none ∧ State.reset.withFetchWord 0 0 = State.reset := by
  exact ⟨rfl, rfl⟩

/-! ### Small states -/

/-- Start parameters: rings of 8 at 1000h and 2000h, origin limit 4, link retry 2, open retry 3, window 4, Q = 100,
P = 10, B = 5, divisor 1. -/
def par0 : StartParams := ⟨0x1000, 8, 0x2000, 8, 4, 2, 3, 4, 100, 10, 5, 1⟩

/-- A station with number 3 in a station state, every block else at its reset value. -/
def up (st : StationState) : State :=
  { State.reset with
    sct := { State.reset.sct with inReset := false, stationNumber := 3, station := st, params := some par0 } }

/-- The station ONLINE. -/
def on : State := up .online

/-- A record with peer 5, tag 02h, length 1000 and its fragment list at 3000h. -/
def rec0 (st : ExState) (r : Role) (d : Direction) : Exchange where
  state := st
  role := r
  dir := d
  peer := 5
  tag := ⟨0, 2⟩
  key := 7
  length := 1000
  orderTag := 5
  offer := none
  walk := ⟨0x3000, 0, 0, none, 0, 0, [], none⟩
  prepared := 0
  acknowledged := 0
  creditReceived := 0
  received := 0
  drained := 0
  granted := 0
  openAttempts := 0
  backoffs := 0
  localPause := false
  peerHold := false
  timer := ⟨.none, 0, .stopped⟩
  outcome := none
  transfers := 0
  openHanded := false

/-- The station ONLINE with one record, in slot 2. -/
def with2 (e : Exchange) : State := on.setEx 2 (some e)

/-- A sending record: 512 bytes of credit. -/
def sender : Exchange := { rec0 .sending .originator .push with creditReceived := 512 }

/-- A receiving record: 512 bytes granted. -/
def receiver : Exchange := { rec0 .receiving .responder .push with granted := 512 }

/-- A record that has ended. -/
def ended (r : Result) (a : AbortState) : Exchange :=
  { rec0 .retiring .originator .push with outcome := some ⟨r, a, .quiet⟩ }

/-- A frame from station 5 with tag 02h. -/
def from5 (orig : Bool) (b : FrameBody) : Frame := ⟨3, 5, orig, ⟨0, 2⟩, b⟩

/-- A frame at the inbox head. -/
def boxed (f : Frame) (s : State) : State := { s with lpt := { s.lpt with inbox := [f] } }

/-- A control queue entry of slot 2. -/
def own2 (b : FrameBody) (inSlot : Bool) : CtrlEntry := ⟨⟨5, 3, true, ⟨0, 2⟩, b⟩, .slot 2 0, 0, inSlot⟩

/-- The control queue set. -/
def queued (l : List CtrlEntry) (s : State) : State := { s with txq := { s.txq with ctrl := l } }

/-- The lane's phase and the transmit slot set. -/
def lane (p : LanePhase) (t : Option TxFrame) (s : State) : State := { s with lpt := { s.lpt with phase := p, tx := t } }

/-- An order record of a kind, with tag 11h and target tag 5. -/
def order (k : Byte) : OrderRec := ⟨k, 0x01, 0x11, 5, 0, 5, 7, 1000, 0x3000, 0⟩

/-- An order at the ring head. -/
def head (o : OrderRec) (s : State) : State := { s with ord := { s.ord with head := .record o .examine } }

/-- A transfer in progress. -/
def moving (p : Purpose) (n : Nat) (s : State) : State := { s with lmp := ⟨[], some ⟨p, 0x3000, n, []⟩, BusProgress.start⟩ }

/-- An offer of type RECEIVE with capacity 2000 for any peer and key. -/
def offer0 (st : OfferState) : Offer := ⟨st, .receive, none, 0, 0, false, 0x3000, 2000, 5⟩

/-- An offer posted in entry 4. -/
def offering (v : Offer) (s : State) : State :=
  { s with xen := { s.xen with offers := s.xen.offers.set 4 (some v), postOrder := [4] } }

/-- The next state of a command. -/
def after (c : Instr) (s : State) : State :=
  match exec c s with
  | .next t => t
  | .fault _ => s
  | .refused _ => s

/-! ### One step of each command -/

theorem test_reset_assert : after .resetAssert (with2 sender) = State.reset := by decide +kernel

theorem test_reset_release :
    (after (.resetRelease 9 1) State.reset).lmp.waiting =
      [⟨.statusWord, 0x00100030, 4, [0x01, 0, 9, 0]⟩, ⟨.startRecord, 0x00100000, 32, []⟩] := by decide +kernel

theorem test_post : (after .post on).lmp.waiting = [⟨.ringWords, 0x420, 8, []⟩] := by decide +kernel

theorem test_post_again : (after .post (after .post on)).ord.ringRead = .furtherDue := by decide +kernel

theorem test_lane_clear :
    let t := after .laneClear (with2 sender)
    t.rpt.queue = [.station .online .laneCleared] ∧
      (t.ex 2).map (fun e => (e.state, e.outcome)) =
        some (.retiring, some ⟨.failed .laneCleared none, .notNeeded, .unknown⟩) := by decide +kernel

theorem test_window_lost :
    (after (.arbitrationWindow [36#6] false) (lane .idle (some ⟨.ctrl, from5 true .hold, 0, false⟩) on)).lpt.phase =
      .other := by decide +kernel

/-- The loser of a window still drives the lines above the one it lost at: bid 35 against 36 is lost at ARB2. -/
theorem test_window_lost_lines :
    let s := lane .idle (some ⟨.ctrl, from5 true .hold, 0, false⟩) on
    (after (.arbitrationWindow [36#6] false) s).lpt.pins.arb = some 32 ∧
      (after (.arbitrationWindow [34#6, 3#6] false) s).lpt.pins.arb = some 35 := by decide +kernel

theorem test_window_wait :
    let s := lane .idle (some ⟨.data 0, from5 true .hold, 0, false⟩) { on with lpt := { on.lpt with spent := true } }
    let t := after (.arbitrationWindow [] false) s
    t.lpt.pins.wait = true ∧ t.lpt.pins.arb = none ∧ t.lpt.spent = false := by decide +kernel

theorem test_tenure_own :
    let f : Frame := ⟨5, 3, true, ⟨0, 2⟩, .hold⟩
    let t := after (.tenure f.encode) (lane .won (some ⟨.ctrl, f, 0, false⟩) on)
    t.lpt.phase = .sent false ∧ t.lpt.pins.data = f.encode := by decide +kernel

theorem test_tenure_other :
    (after (.tenure (from5 true .hold).encode) (lane .other none on)).lpt.phase =
      .answered .taken (.frame (from5 true .hold)) := by decide +kernel

theorem test_ack_slot_silent :
    let s := queued [own2 .hold true] (lane (.sent false) (some ⟨.ctrl, ⟨5, 3, true, ⟨0, 2⟩, .hold⟩, 3, true⟩)
      (with2 sender))
    let t := after (.acknowledgeSlot false false) s
    t.peer 5 = .silent ∧ t.txq.ctrl = [] ∧ (t.ex 2).map (·.state) = some .retiring := by decide +kernel

theorem test_ack_slot_inbox :
    (after (.acknowledgeSlot true false) (lane (.answered .taken (.frame (from5 true .hold))) none on)).lpt.inbox =
      [from5 true .hold] := by decide +kernel

theorem test_open_held :
    (after .openFrame (boxed (from5 true (.openReq 7 .push 1000)) on)).txq.ctrl.map (·.frame.body) =
      [.defer .held] := by decide +kernel

theorem test_open_bound :
    let t := after .openFrame (boxed (from5 true (.openReq 7 .push 1000)) (offering (offer0 .openState) on))
    t.txq.ctrl.map (·.frame.body) = [.accept 1000] ∧ (t.ex 0).map (·.state) = some .receiving ∧
      t.outstanding 0 = 4 := by decide +kernel

theorem test_accept :
    let t := after .acceptFrame (boxed (from5 false (.accept 512)) (with2 (rec0 .opening .originator .push)))
    (t.ex 2).map (fun e => (e.state, e.creditReceived, e.timer)) =
      some (.sending, 512, ⟨.quiet, 100, .running⟩) := by decide +kernel

theorem test_recall :
    let t := after .recallFrame (boxed (from5 false (.recall 600)) (with2 (rec0 .parked .originator .pull)))
    (t.ex 2).map (fun e => (e.state, e.length, e.granted)) = some (.receiving, 600, 600) := by decide +kernel

theorem test_defer_held :
    let t := after .deferHeld (boxed (from5 false (.defer .held)) (with2 (rec0 .opening .originator .push)))
    (t.ex 2).map (fun e => (e.state, e.timer)) = some (.parked, ⟨.park, 100, .running⟩) := by decide +kernel

theorem test_defer_full :
    let t := after .deferFull (boxed (from5 false (.defer .full))
      (with2 { rec0 .opening .originator .push with backoffs := 1 }))
    (t.ex 2).map (fun e => (e.state, e.timer)) = some (.backoff, ⟨.backoff, 10, .running⟩) := by decide +kernel

theorem test_credit :
    let t := after .creditFrame (boxed (from5 false (.credit 768)) (with2 sender))
    (t.ex 2).map (·.creditReceived) = some 768 := by decide +kernel

theorem test_hold :
    let t := after .holdFrame (boxed (from5 false .hold) (with2 sender))
    (t.ex 2).map (fun e => (e.peerHold, e.timer)) = some (true, ⟨.quiet, 100, .running⟩) := by decide +kernel

theorem test_done :
    let t := after .doneFrame (boxed (from5 false (.done 1000)) (with2 (rec0 .confirming .originator .push)))
    (t.ex 2).map (fun e => e.outcome.map (·.result)) = some (some .completed) := by decide +kernel

theorem test_abort :
    let t := after .abortFrame (boxed (from5 false (.abort .quiet)) (with2 sender))
    (t.ex 2).map (fun e => e.outcome.map (·.result)) = some (some (.failed .peerAbort (some .quiet))) := by
  decide +kernel

theorem test_answer_expiry :
    let e := { rec0 .opening .originator .push with timer := ⟨.answer, 0, .expired⟩ }
    (after (.answerExpiry 2) (with2 e)).txq.ctrl.map (·.frame.body) = [.openReq 7 .push 1000] := by decide +kernel

theorem test_backoff_expiry :
    let e := { rec0 .backoff .originator .push with timer := ⟨.backoff, 0, .expired⟩ }
    ((after (.backoffExpiry 2) (with2 e)).ex 2).map (·.state) = some .opening := by decide +kernel

theorem test_park_expiry :
    let e := { rec0 .parked .originator .push with timer := ⟨.park, 0, .expired⟩ }
    (after (.parkExpiry 2) (with2 e)).txq.ctrl.map (·.frame.body) = [.abort .parkExpired] := by decide +kernel

theorem test_quiet_expiry :
    (after (.quietExpiry 2) (with2 { sender with timer := ⟨.quiet, 0, .expired⟩ })).txq.ctrl.map (·.frame.body) =
      [.abort .quiet] := by decide +kernel

theorem test_send :
    let t := after .sendOrder (head (order 0x01) on)
    t.ord.taken = 1 ∧ (t.ex 0).map (·.state) = some .opening ∧
      t.lmp.waiting = [⟨.indexWrite, 0x428, 4, [1, 0, 0, 0]⟩] := by decide +kernel

theorem test_fetch :
    (after .fetchOrder (head (order 0x02) on)).txq.ctrl.map (·.frame.body) = [.openReq 7 .pull 1000] := by
  decide +kernel

theorem test_offer :
    let t := after .offerOrder (head (order 0x03) on)
    t.xen.postOrder = [0] ∧ (t.offer 0).map (fun v => (v.state, v.size)) = some (.openState, 1000) ∧
      t.xen.rescanDue = true := by decide +kernel

theorem test_withdraw :
    (after .withdrawOrder (head (order 0x04) (offering (offer0 .openState) on))).rpt.queue =
      [.closed 5 .withdrawn] := by decide +kernel

theorem test_cancel :
    let s := with2 { sender with openHanded := true }
    let t := after .cancelOrder (head (order 0x05) { s with xen := { s.xen with originOrder := [2] } })
    t.txq.ctrl.map (·.frame.body) = [.abort .cancelled] ∧ t.ord.acks.map (·.kind) = [.cancel] := by decide +kernel

theorem test_continue :
    (after .continueOrder (head (order 0x06) on)).rpt.queue = [.ack 0x11 .continue false] := by decide +kernel

theorem test_detach :
    let t := after .detachOrder (head (order 0x07) on)
    t.sct.station = .detaching ∧ t.ord.acks = [⟨0x11, .detach, .offlineReport, false⟩] := by decide +kernel

theorem test_attach :
    let t := after .attachOrder (head (order 0x08) (up .offline))
    t.sct.station = .probing ∧ t.txq.ctrl.map (·.frame.body) = [.probe 0] := by decide +kernel

theorem test_clr : (after .clrOrder (head (order 0x09) on)).lpt.pins.lcl = true := by decide +kernel

theorem test_ring_words :
    let t := after (.ringWordsReadDone [2, 0, 0, 0, 0, 0, 0, 0]) (moving .ringWords 8 on)
    t.ord.producer = 2 ∧ t.lmp.transfer = none := by decide +kernel

theorem test_order_fetch :
    (after .orderFetch { on with ord := { on.ord with producer := 10, taken := 9 } }).lmp.waiting =
      [⟨.orderFetch, 0x1020, 32, []⟩] := by decide +kernel

theorem test_order_fetch_done :
    (after (.orderFetchDone ([0x0A] ++ List.replicate 31 0)) (moving .orderFetch 32 on)).rpt.queue =
      [.failed 0 .badOrder none 0] := by decide +kernel

theorem test_index_write_done :
    (after .indexWriteDone (moving .indexWrite 4 { on with ord := { on.ord with indexWrite := true } })).ord.indexWrite =
      false := by decide +kernel

theorem test_start_record :
    let bytes : List Byte := [0x16, 0x32, 0x53, 0x4D, 0, 0x10, 0, 0, 8, 0, 8, 0, 0, 0x20, 0, 0, 4, 2, 3, 4, 100, 0, 10, 0,
      5, 0, 1, 0, 0, 0, 0, 0]
    let t := after (.startRecordReadDone bytes) (moving .startRecord 32 (up .starting))
    t.sct.params = some par0 ∧ t.sct.station = .probing := by decide +kernel

theorem test_start_record_invalid :
    let t := after (.startRecordReadDone (List.replicate 32 0)) (moving .startRecord 32 (up .starting))
    t.sct.station = .fault ∧ t.sct.faultCause = .startInvalid := by decide +kernel

theorem test_entry_read :
    let bytes : List Byte := [0, 0x50, 0, 0, 0, 1, 0, 0, 1, 0, 0, 0, 0, 0, 0, 0]
    let s := (with2 { sender with transfers := 1 }).setBuffer 0 (some ⟨.filling, 2, 0, 0, 256, []⟩)
    (after (.entryReadDone bytes) (moving (.entryRead 2 0) 16 s)).lmp.waiting =
      [⟨.dataRead 2 0 0, 0x5000, 256, []⟩] := by decide +kernel

theorem test_data_read :
    let s := (with2 { sender with transfers := 1, prepared := 2 }).setBuffer 0 (some ⟨.filling, 2, 0, 0, 2, []⟩)
    ((after (.dataReadDone [8, 9]) (moving (.dataRead 2 0 0) 2 s)).buffer 0).map (fun b => (b.state, b.payload)) =
      some (.ready, [8, 9]) := by decide +kernel

theorem test_drain_write :
    let s := (with2 { receiver with transfers := 1, received := 256 }).setCell 7 (some ⟨.filled, 2, 0, 0, [1]⟩)
    let t := after .drainWriteDone (moving (.drainWrite 2 0 7) 256 s)
    (t.ex 2).map (·.drained) = some 256 ∧ t.cell 7 = none := by decide +kernel

theorem test_report_entry_write :
    (after .reportEntryWriteDone (moving .reportEntry 16 on)).lmp.waiting =
      [⟨.producerWord, 0x42C, 4, [1, 0, 0, 0]⟩] := by decide +kernel

theorem test_producer_word_write :
    let s := { on with rpt := { on.rpt with queue := [.note 1 2 3], writer := .index } }
    let t := after .producerWordWriteDone (moving .producerWord 4 s)
    t.rpt.queue = [] ∧ t.rpt.producer = 1 ∧ t.rpt.reportPin = true := by decide +kernel

theorem test_status_word_write :
    let s := { on with rpt := { on.rpt with status := .inProgress true } }
    (after .statusWordWriteDone (moving .statusWord 4 s)).lmp.waiting =
      [⟨.statusWord, 0x430, 4, [5, 0, 3, 0]⟩] := by decide +kernel

theorem test_bus_error :
    let t := after .busError (moving .ringWords 8 on)
    t.ord.orderFault = true ∧ t.rpt.queue = [.station .fault .orderRead] := by decide +kernel

theorem test_bus_error_start :
    (after .busError (moving .startRecord 32 (up .starting))).sct.faultCause = .startRead := by decide +kernel

theorem test_choose_transfer :
    let s := { on with lmp := ⟨[⟨.ringWords, 0x420, 8, []⟩, ⟨.statusWord, 0x430, 4, []⟩], none, BusProgress.start⟩ }
    (after .lmpChooseTransfer s).lmp = ⟨[⟨.ringWords, 0x420, 8, []⟩], some ⟨.statusWord, 0x430, 4, []⟩, ⟨false, 0⟩⟩ := by
  decide +kernel

/-- R162's example: 256 bytes from 2 above a word boundary touch 65 words. -/
theorem test_beats :
    let s := { on with lmp := ⟨[], some ⟨.dataRead 2 0 0, 0x3002, 256, []⟩, ⟨true, 64⟩⟩ }
    s.lreq = true ∧ s.busWords.length = 65 ∧ s.busWords.head? = some 0x3000 := by decide +kernel

theorem test_fill_start :
    (after .fillStart (with2 sender)).lmp.waiting = [⟨.entryRead 2 0, 0x3000, 16, []⟩] := by decide +kernel

theorem test_credit_grant :
    let t := after .creditGrant (with2 receiver)
    (t.ex 2).map (·.granted) = some 1000 ∧ t.txq.ctrl.map (·.frame.body) = [.credit 1000] := by decide +kernel

theorem test_drain_choose :
    let t := after .drainChoose (with2 { receiver with received := 256 })
    t.stg.drain = .choosing 2 0 ∧ t.lmp.waiting = [⟨.entryRead 2 0, 0x3000, 16, []⟩] := by decide +kernel

theorem test_transmit_choice :
    let t := after .transmitChoice (queued [own2 .hold false] on)
    t.txq.ctrl = [own2 .hold true] ∧ (t.lpt.tx).map (·.src) = some .ctrl := by decide +kernel

theorem test_control_frame_placed :
    let s := { with2 (ended .completed .owed) with txq := { on.txq with owed := [2] } }
    (after .controlFramePlaced s).txq.ctrl.map (·.frame.body) = [.abort .quiet] := by decide +kernel

theorem test_rescan :
    let s := offering (offer0 .openState) on
    let t := after .rescan { s with
      xen := { s.xen with deferred := [⟨5, ⟨0, 2⟩, .push, 7, 1000⟩], rescanDue := true },
      txq := { s.txq with line := [.rescan] } }
    t.xen.deferred = [] ∧ t.txq.ctrl.map (·.frame.body) = [.recall 1000] := by decide +kernel

theorem test_slot_release :
    let t := after (.slotRelease 2) (with2 (ended .completed .notNeeded))
    t.ex 2 = none ∧ t.gen 2 = 1 ∧ t.rpt.queue = [.finished 5 1000] := by decide +kernel

theorem test_note_mark :
    let e := { sender with walk := { sender.walk with marks := [⟨0x3000, 4, 0, true, false⟩] } }
    (after (.noteMark 2) (with2 e)).rpt.queue = [.note 5 0x3000 4] := by decide +kernel

theorem test_pause_mark :
    let e := { sender with walk := { sender.walk with marks := [⟨0x3000, 4, 0, false, true⟩] } }
    let t := after (.pauseMark 2) (with2 e)
    t.rpt.queue = [.paused 5 0] ∧ t.txq.ctrl.map (·.frame.body) = [.hold] := by decide +kernel

theorem test_due_ack :
    (after .dueAckQueued { on with ord := { on.ord with acks := [⟨9, .clr, .offlineReport, true⟩] } }).rpt.queue =
      [.ack 9 .clr true] := by decide +kernel

theorem test_report_write_start :
    (after .reportWriteStart { on with rpt := { on.rpt with queue := [.paused 5 6] } }).lmp.waiting =
      [⟨.reportEntry, 0x2000, 16, [7, 0, 0, 0, 5, 0, 0, 0, 6, 0, 0, 0, 0, 0, 0, 0]⟩] := by decide +kernel

theorem test_detach_complete :
    let t := after .detachComplete (up .detaching)
    t.sct.station = .offline ∧ t.rpt.queue = [.station .offline .detached] := by decide +kernel

theorem test_presence_end :
    let s := up .fault
    (after .presenceEnd { s with sct := { s.sct with present := true } }).sct.present = false := by decide +kernel

theorem test_timer_tick :
    ((after .timerTick (with2 { sender with timer := ⟨.quiet, 1, .running⟩ })).ex 2).map (·.timer) =
      some ⟨.quiet, 0, .expired⟩ := by decide +kernel

/-! ### The hypotheses of the statements are met, clause by clause -/

/-- Where every entry is empty, a property of the entries that are not holds. -/
theorem forall_of_none {ι α : Type} {f : ι → Option α} (h : ∀ b, f b = none) {P : ι → α → Prop} :
    ∀ b v, f b = some v → P b v := fun b v hv => absurd hv (by rw [h b]; simp)

theorem test_meets_StepRunsFrontCommand :
    ({ on with pending := [.post, .laneClear] }).pending = .post :: [.laneClear] ∧ on.pending = [] := by decide

theorem test_meets_ResetReleaseSamplesStraps :
    State.reset.lineLaw ∧ State.reset.sct.inReset = true ∧
      (0x00000400#32 = if (0 : BitVec 2) = 0 then 0x00000400#32 else 0) ∧
      (0x7FFFF000#32 = if (3 : BitVec 2) = 0 then 0x00000400#32 else if (3 : BitVec 2) = 1 then 0x00100000#32
        else if (3 : BitVec 2) = 2 then 0x40000000#32 else 0x7FFFF000#32) ∧ on.sct.inReset = false :=
  ⟨⟨rfl, by decide, fun _ => rfl⟩, rfl, rfl, rfl, rfl⟩

theorem test_meets_StepKeepsCapacities :
    let s := { on with pending := [.post] }
    s.withinCaps ∧ step s = .next (after .post on) := ⟨by decide, rfl⟩

theorem test_meets_StepKeepsOriginLimit :
    let s := { on with pending := [.post] }
    s.originLaw ∧ step s = .next (after .post on) ∧ (after .post on).sct.inReset = false ∧ s.sct.params ≠ none :=
  ⟨by decide +kernel, rfl, rfl, by decide⟩

theorem test_meets_StepKeepsLineLaw :
    let s := { on with pending := [.post] }
    s.lineLaw ∧ step s = .next (after .post on) := ⟨⟨rfl, by decide, fun h => (by cases h)⟩, rfl⟩

theorem test_meets_FaultHoldsStill :
    let s := { up .fault with pending := [.timerTick] }
    s.stopped ∧ step s = .next (up .fault) :=
  ⟨⟨rfl, rfl, fun _ h => absurd h List.not_mem_nil, fun _ h => (by cases h)⟩, rfl⟩

theorem test_meets_TimerTickCountsDown :
    on.runs = true ∧ on.ex 2 = none ∧
      (∃ e, (with2 { sender with timer := ⟨.quiet, 2, .running⟩ }).ex 2 = some e ∧ e.timer.run = .running ∧
        2 ≤ e.timer.remaining) ∧
      (∃ e, (with2 { sender with timer := ⟨.quiet, 1, .running⟩ }).ex 2 = some e ∧ e.timer.run = .running ∧
        e.timer.remaining < 2) ∧
      (∃ e, (with2 sender).ex 2 = some e ∧ e.timer.run ≠ .running) ∧
      State.reset.runs = false ∧ (up .fault).runs = false :=
  ⟨rfl, rfl, ⟨_, rfl, by decide⟩, ⟨_, rfl, by decide⟩, ⟨_, rfl, by decide⟩, rfl, rfl⟩

theorem test_meets_PostAndRingWords :
    on.runs = true ∧ on.sct.station ≠ .starting ∧ on.ord.ringRead = .idle ∧ (after .post on).ord.ringRead ≠ .idle ∧
      (up .starting).runs = true ∧ (up .starting).sct.station = .starting ∧
      (moving .ringWords 8 on).ending ⟨.ringWords, 0x3000, 8, []⟩ ∧ (0x0102#16 = 0x01#8 ++ 0x02#8) := by decide

theorem test_meets_StartRecordDecides :
    (moving .startRecord 32 (up .starting)).ending ⟨.startRecord, 0x3000, 32, []⟩ ∧
      startRecord ([0x16, 0x32, 0x53, 0x4D, 0, 0x10, 0, 0, 8, 0, 8, 0, 0, 0x20, 0, 0, 4, 2, 3, 4, 100, 0, 10, 0, 5, 0, 1,
        0] ++ List.replicate 4 0) = some par0 ∧
      startRecord (List.replicate 32 0) = none ∧ (up .starting).txq.ctrl = [] ∧
      (up .starting).sct.station = .starting ∧ on.runs = true ∧ on.sct.station ≠ .starting := by decide +kernel

/-- A DATA frame of two bytes in the transmit slot. -/
def dataTx : TxFrame := ⟨.data 0, ⟨5, 3, true, ⟨0, 2⟩, .data 0 2 [8, 9]⟩, 0, false⟩

/-- A control frame in the transmit slot. -/
def ctrlTx (b : FrameBody) (n : Nat) : TxFrame := ⟨.ctrl, ⟨5, 3, true, ⟨0, 2⟩, b⟩, n, true⟩

theorem test_meets_HighestBidWins :
    on.observes = true ∧ on.lpt.phase = .idle ∧ on.onLane = true ∧
      ((ctrlTx .hold 0).src = .ctrl ∧ (35#6 : Bid) = BitVec.ofNat 6 (32 + on.sn.toNat)) ∧
      (dataTx.isData = true ∧ on.lpt.spent = false ∧ (3#6 : Bid) = BitVec.ofNat 6 on.sn.toNat) ∧
      (let s := lane .idle (some dataTx) { on with lpt := { on.lpt with spent := true } };
        s.onLane = true ∧ s.lpt.spent = true ∧ s.lpt.tx = some dataTx) ∧
      ((up .offline).observes = true ∧ (up .offline).onLane = false) ∧ on.lpt.tx = none := by decide

theorem test_meets_TenureSendsTheFrame :
    let s := lane .won (some dataTx) on
    s.observes = true ∧ s.lpt.phase = .won ∧ s.lpt.tx = some dataTx ∧
      dataTx.frame.encode.take dataTx.frame.encode.length = dataTx.frame.encode ∧
      (0 < dataTx.frame.encode.length ∧ ([0] : List Byte).take 0 = dataTx.frame.encode.take 0 ∧
        ([0] : List Byte)[0]? ≠ dataTx.frame.encode[0]? ∧ s.sct.station ≠ .probing) ∧
      (([0] : List Byte).take dataTx.frame.encode.length ≠ dataTx.frame.encode ∧
        (lane .won (some dataTx) (up .probing)).sct.station = .probing) ∧ s.reportOpen 1 := by decide +kernel

theorem test_meets_ReceiverAnswers :
    let own : List Byte := (⟨3, 3, true, ⟨0, 0⟩, .probe 7⟩ : Frame).encode
    (lane .other none on).observes = true ∧ (lane .other none on).lpt.phase = .other ∧
      ((lane .other none (up .probing)).observes = true ∧ crcPasses own = true ∧
        own[1]? = some ((up .probing).sn.setWidth 8)) ∧
      (crcPasses [1, 2] = false ∧ (from5 true .hold).encode[1]? = some 5 ∧ (5#8).setWidth 5 ≠ (up .probing).sn) ∧
      on.sct.station ≠ .probing := by decide +kernel

theorem test_meets_UnansweredFrameEnds :
    (lane (.sent true) (some (ctrlTx .hold 1)) on).observes = true ∧ on.sct.station ≠ .fault ∧
      (ctrlTx .hold 2).attempts < 1 + on.par.linkRetry ∧ 1 + on.par.linkRetry ≤ (ctrlTx .hold 3).attempts ∧
      (∀ m, (ctrlTx .hold 3).frame.body ≠ .probe m) ∧
      (∃ m, (ctrlTx (.probe 7) 3).frame.body = .probe m) ∧ (up .probing).sct.station = .probing ∧
      (up .probing).reportOpen 1 :=
  ⟨by decide, by decide, by decide, by decide, fun _ h => (by cases h), ⟨7, rfl⟩, rfl, by decide⟩

theorem test_meets_LinkOutcomesReachTheSlot :
    let s := fun b e => queued [own2 b true] (lane (.sent false) (some (ctrlTx b 1)) (with2 e))
    let o : FrameBody := .openReq 7 .push 1000
    (s o (rec0 .opening .originator .push)).observes = true ∧
      (s o (rec0 .opening .originator .push)).lpt.phase = .sent false ∧
      (s o (rec0 .opening .originator .push)).ex 2 = some (rec0 .opening .originator .push) ∧
      (s o (rec0 .opening .originator .push)).txq.ctrl = [] ++ own2 o true :: [] ∧
      (own2 o true).owner = .slot 2 ((s o (rec0 .opening .originator .push)).gen 2) ∧
      (s (.done 1000) (rec0 .finishing .responder .push)).ex 2 = some (rec0 .finishing .responder .push) ∧
      (rec0 .finishing .responder .push).state = .finishing ∧ (own2 o true).busy + 1 < 64 ∧
      64 ≤ ({ own2 o true with busy := 63 }).busy + 1 ∧
      (let t := (with2 sender).setBuffer 0 (some ⟨.sending, 2, 0, 0, 2, [8, 9]⟩);
        t.buffer 0 = some ⟨.sending, 2, 0, 0, 2, [8, 9]⟩ ∧ dataTx.src = .data 0 ∧ sender.walk.marks = []) := by
  decide +kernel

theorem test_meets_FrameDispatched :
    let s := fun a w => lane (.answered a w) none on
    (s .taken .probe).observes = true ∧ (s .taken .probe).sct.station ≠ .fault ∧
      (s .taken .malformed).lpt.phase = .answered .taken .malformed ∧
      (s .busy (.frame (from5 true .hold))).lpt.phase = .answered .busy (.frame (from5 true .hold)) ∧
      (s .taken (.frame (from5 true .hold))).lpt.phase = .answered .taken (.frame (from5 true .hold)) ∧
      (from5 true .hold).src ≠ on.sn ∧ (∀ a n p, (from5 true .hold).body ≠ .data a n p) ∧ on.lpt.inbox.length < 8 :=
  ⟨rfl, by decide, rfl, rfl, rfl, by decide, fun _ _ _ h => (by cases h), by decide⟩

theorem test_meets_DataActsByChecks :
    let f := from5 true (.data 0 256 (List.replicate 256 1))
    let e := { receiver with received := 256 }
    let s := (lane (.answered .taken (.frame f)) none (with2 e)).setCell 7 (some ⟨.reserved, 2, 0, 1, []⟩)
    s.observes = true ∧ s.sct.station ≠ .fault ∧ s.lpt.phase = .answered .taken (.frame f) ∧ f.src ≠ s.sn ∧
      s.lookup f = some 2 ∧ s.ex 2 = some e ∧ e.state = .receiving ∧
      (0#16).toNat = 0 ∧ 256 < (257#16).toNat ∧ (255#24).toNat / 256 ≠ ((255#24).toNat + (2#16).toNat - 1) / 256 ∧
      (0#24).toNat < e.received ∧ e.received < (512#24).toNat ∧
      ((256#24).toNat = e.received ∧ ({ e with granted := 256 }).granted < (256#24).toNat + (1#16).toNat) ∧
      ((256#24).toNat = e.received ∧ (256#24).toNat + (256#16).toNat ≤ e.granted ∧
        s.findCell 2 ((256#24).toNat / 256) = some 7 ∧ s.cell 7 = some ⟨.reserved, 2, 0, 1, []⟩) := by decide +kernel

theorem test_meets_LaneClearClearsStation :
    (with2 sender).takesClear = true ∧ (with2 sender).reportOpen 1 ∧ (up .probing).takesClear = true ∧
      (with2 sender).ex 2 = some sender ∧ (with2 (ended .completed .queued)).ex 2 = some (ended .completed .queued) ∧
      (ended .completed .queued).outcome = some ⟨.completed, .queued, .quiet⟩ ∧ (up .offline).takesClear = false := by
  decide +kernel

theorem test_meets_FrameRoundTrip :
    let f : Frame := ⟨3, 5, true, ⟨9, 2⟩, .data 256 2 [8, 9]⟩
    f.src ≠ 3 ∧ f.body.origFits f.fromOrig = true ∧ (∀ r, f.body = .abort r → r.inFrame = true) ∧
      (∀ a n p, f.body = .data a n p → p.length = n.toNat ∧ n.toNat ≤ 256) ∧ Reason.quiet.inFrame = true :=
  ⟨by decide, rfl, fun _ h => (by cases h), fun _ _ _ h => (by cases h; decide), rfl⟩

theorem test_meets_LookupFindsTheExchange :
    (from5 true .hold).fromOrig = true ∧ (with2 receiver).lookup (from5 true .hold) = some 2 ∧
      on.lookup (from5 true .hold) = none ∧ (from5 false .hold).fromOrig = false ∧
      (with2 sender).lookup (from5 false .hold) = some 2 := by decide +kernel

theorem test_meets_AnswerOpensPush :
    let f := from5 false (.accept 1000)
    let e := rec0 .backoff .originator .push
    f.body = .accept 1000 ∧ (boxed f (with2 e)).inboxFirst f ∧ (boxed f (with2 e)).lookup f = some 2 ∧
      (boxed f (with2 e)).ex 2 = some e ∧ e.state = .backoff ∧ e.dir = .push ∧ (1000#24).toNat ≤ e.length ∧
      ((768#24).toNat % 256 = 0 ∧ (1000#24).toNat = e.length) ∧
      (from5 false (.recall 768)).body = .recall 768 := by decide +kernel

theorem test_meets_AnswerOpensPull :
    let f := from5 false (.accept 1000)
    let e := rec0 .opening .originator .pull
    let s := boxed f (with2 e)
    s.inboxFirst f ∧ s.lookup f = some 2 ∧ s.ex 2 = some e ∧ e.dir = .pull ∧ (1000#24).toNat ≤ e.length ∧
      s.ctrlOpen ∧ s.txq.ctrl = [] ∧ (0#24).toNat = 0 ∧ 0 < (1#24).toNat ∧
      s.cellsGiven 2 ((1000 + 255) / 256 - (e.granted + 255) / 256) = 4 ∧ min (e.granted + 256 * 4) 1000 = 1000 := by
  decide +kernel

theorem test_meets_BadAnswerFieldEndsExchange :
    let f := from5 false (.accept 1001)
    let e := rec0 .parked .originator .push
    (boxed f (with2 e)).inboxFirst f ∧ (boxed f (with2 e)).lookup f = some 2 ∧ (boxed f (with2 e)).ex 2 = some e ∧
      e.state = .parked ∧ ¬((1001#24).toNat ≤ e.length) ∧ ¬((999#24).toNat % 256 = 0 ∨ (999#24).toNat = e.length) ∧
      (rec0 .parked .originator .pull).length < (1001#24).toNat := by decide +kernel

theorem test_meets_LateAnswerOnlyRestartsQuiet :
    let f := from5 false (.recall 5)
    let s := fun st d => boxed f (with2 (rec0 st .originator d))
    (s .sending .push).inboxFirst f ∧ (s .sending .push).lookup f = some 2 ∧
      (s .sending .push).ex 2 = some (rec0 .sending .originator .push) ∧
      (s .receiving .pull).lookup f = some 2 ∧ (s .confirming .push).lookup f = some 2 ∧
      (s .finishing .pull).lookup f = some 2 ∧ (s .retiring .push).lookup f = some 2 := by decide +kernel

theorem test_meets_DeferHeldParks :
    let f := fun r => from5 false (.defer r)
    let s := fun r st => boxed (f r) (with2 (rec0 st .originator .push))
    (s .held .opening).inboxFirst (f .held) ∧ (s .held .opening).lookup (f .held) = some 2 ∧
      (s .held .opening).ex 2 = some (rec0 .opening .originator .push) ∧
      (s .held .backoff).lookup (f .held) = some 2 ∧ (s .held .parked).lookup (f .held) = some 2 ∧
      (s .full .parked).inboxFirst (f .full) ∧ (s .full .sending).lookup (f .full) = some 2 ∧
      (s .held .finishing).lookup (f .held) = some 2 := by decide +kernel

theorem test_meets_DeferFullBacksOff :
    let f := from5 false (.defer .full)
    let e := rec0 .opening .originator .push
    (boxed f (with2 e)).inboxFirst f ∧ (boxed f (with2 e)).lookup f = some 2 ∧ (boxed f (with2 e)).ex 2 = some e ∧
      ({ e with backoffs := 2 }).backoffs < (with2 e).par.openRetry ∧
      (with2 e).par.openRetry ≤ ({ e with backoffs := 3 }).backoffs ∧
      (boxed f (with2 (rec0 .backoff .originator .push))).lookup f = some 2 := by decide +kernel

theorem test_meets_CreditActsByState :
    let f := from5 false (.credit 768)
    let s := fun st => boxed f (with2 (rec0 st .originator .push))
    (s .sending).inboxFirst f ∧ (s .sending).lookup f = some 2 ∧
      (s .sending).ex 2 = some (rec0 .sending .originator .push) ∧ ¬((1001#24).toNat ≤ (sender).length) ∧
      (768#24).toNat ≤ sender.length ∧ (768#24).toNat % 256 = 0 ∧ (s .opening).lookup f = some 2 ∧
      (s .confirming).lookup f = some 2 ∧ (s .retiring).lookup f = some 2 := by decide +kernel

theorem test_meets_HoldActsByState :
    let f := from5 false .hold
    let s := fun st d => boxed f (with2 (rec0 st .originator d))
    (s .sending .push).inboxFirst f ∧ (s .sending .push).lookup f = some 2 ∧
      (s .sending .push).ex 2 = some (rec0 .sending .originator .push) ∧ (s .receiving .pull).lookup f = some 2 ∧
      (s .finishing .pull).lookup f = some 2 ∧ (s .confirming .push).lookup f = some 2 ∧
      (s .opening .push).lookup f = some 2 := by decide +kernel

theorem test_meets_DoneActsByState :
    let f := from5 false (.done 1000)
    let s := fun e => boxed f (with2 e)
    (s (rec0 .confirming .originator .push)).inboxFirst f ∧
      (s (rec0 .confirming .originator .push)).lookup f = some 2 ∧
      (s (rec0 .confirming .originator .push)).ex 2 = some (rec0 .confirming .originator .push) ∧
      (1000#24).toNat = (rec0 .confirming .originator .push).length ∧
      ({ sender with prepared := 1000 }).prepared = sender.length ∧ sender.prepared ≠ sender.length ∧
      (999#24).toNat ≠ sender.length ∧
      (let z := { rec0 .opening .originator .push with length := 0 };
        z.dir = .push ∧ z.length = 0 ∧ (0#24).toNat = 0) ∧
      ¬((1000#24).toNat = 0) ∧ (s (rec0 .receiving .originator .pull)).lookup f = some 2 ∧
      (s (rec0 .finishing .originator .pull)).lookup f = some 2 := by decide +kernel

theorem test_meets_AbortEndsExchange :
    let f := from5 true (.abort .quiet)
    (boxed f (with2 receiver)).inboxFirst f ∧ (boxed f (with2 receiver)).lookup f = some 2 ∧
      (boxed f (with2 receiver)).ex 2 = some receiver ∧ receiver.state ≠ .retiring ∧
      (boxed f (with2 (rec0 .retiring .responder .push))).lookup f = some 2 ∧ (boxed f on).lookup f = none ∧
      f.fromOrig = true ∧ (boxed f on).xen.rescanAt = none ∧
      (boxed (from5 false (.abort .unknown)) on).lookup (from5 false (.abort .unknown)) = none := by decide +kernel

theorem test_meets_UnknownFrameReply :
    let f := from5 false (.accept 5)
    (boxed f on).inboxFirst f ∧ (boxed f on).lookup f = none ∧
      (boxed f (queued (List.replicate 15 (own2 .hold false)) on)).txq.ctrl.length < 16 ∧
      16 ≤ (boxed f (queued (List.replicate 16 (own2 .hold false)) on)).txq.ctrl.length ∧
      (boxed (from5 true .hold) on).lookup (from5 true .hold) = none := by decide +kernel

theorem test_meets_OpenBinds :
    let f := from5 true (.openReq 7 .push 2000)
    let s := boxed f (offering (offer0 .openState) on)
    s.inboxFirst f ∧ s.sct.station = .online ∧ s.findResponder f.src f.tag = none ∧ s.xen.deferred = [] ∧
      s.matchOffer f.src .push 7 = some 4 ∧ s.offer 4 = some (offer0 .openState) ∧
      (2000#24).toNat ≤ (offer0 .openState).size ∧ s.freeSlot = some 0 ∧ s.ctrlOpen ∧ s.txq.ctrl.length < 15 := by
  decide +kernel

theorem test_meets_OpenAnsweredOnce :
    let f := from5 true (.openReq 7 .push 2001)
    let d : Deferred := ⟨5, ⟨0, 2⟩, .push, 7, 2001⟩
    let s := boxed f on
    (boxed f (up .detaching)).inboxFirst f ∧ (boxed f (up .detaching)).ctrlOpen ∧ s.inboxFirst f ∧
      s.findResponder f.src f.tag = none ∧ (∀ x ∈ [d], x.peer = f.src ∧ x.tag = f.tag) ∧
      s.matchOffer f.src .push 7 = none ∧ s.xen.deferred.length < 8 ∧
      8 ≤ (List.replicate 8 { d with peer := 6 }).length ∧
      (∀ x ∈ List.replicate 8 { d with peer := 6 }, ¬(x.peer = f.src ∧ x.tag.idx = f.tag.idx)) ∧
      ((offering (offer0 .openState) s).matchOffer f.src .push 7 = some 4 ∧
        (offer0 .openState).size < (2001#24).toNat ∧ (offering (offer0 .openState) s).reportOpen 1) := by
  decide +kernel

theorem test_meets_AnswerExpirySendsOpenAgain :
    let e := { rec0 .opening .originator .push with timer := ⟨.answer, 0, .expired⟩ }
    let full := queued (List.replicate 16 (own2 .hold false)) (with2 e)
    (with2 e).runs = true ∧ (with2 e).ex 2 = some e ∧ e.state = .opening ∧ e.timer.kind = .answer ∧
      e.timer.run = .expired ∧ ({ e with openAttempts := 2 }).openAttempts < (with2 e).par.openRetry ∧
      (with2 e).ctrlOpen ∧ (with2 e).txq.ctrl = [] ∧ 16 ≤ full.txq.ctrl.length ∧ full.txq.line = [] ∧
      (∀ x ∈ full.txq.ctrl, full.isOpenOf 2 x.frame x.owner = false) ∧
      (with2 e).par.openRetry ≤ ({ e with openAttempts := 3 }).openAttempts := by decide +kernel

theorem test_meets_BackoffExpiryReturnsToOpening :
    let e := { rec0 .backoff .originator .push with timer := ⟨.backoff, 0, .expired⟩ }
    let full := queued (List.replicate 16 (own2 .hold false)) (with2 e)
    (with2 e).runs = true ∧ (with2 e).ex 2 = some e ∧ e.state = .backoff ∧ e.timer.kind = .backoff ∧
      e.timer.run = .expired ∧ (with2 e).ctrlOpen ∧ (with2 e).txq.ctrl = [] ∧ 16 ≤ full.txq.ctrl.length ∧
      full.txq.line = [] ∧ (∀ x ∈ full.txq.ctrl, full.isOpenOf 2 x.frame x.owner = false) := by decide +kernel

theorem test_meets_ParkAndQuietExpiryEnd :
    let p := { rec0 .parked .originator .push with timer := ⟨.park, 0, .expired⟩ }
    let q := { sender with timer := ⟨.quiet, 0, .expired⟩ }
    (with2 p).runs = true ∧ (with2 p).ex 2 = some p ∧ p.timer.run = .expired ∧ p.timer.kind = .park ∧
      p.state = .parked ∧ (with2 q).ex 2 = some q ∧ q.timer.run = .expired ∧ q.timer.kind = .quiet ∧
      q.state = .sending ∧ (with2 sender).ex 2 = some sender ∧ sender.timer.run ≠ .expired := by decide +kernel

theorem test_meets_SendFetchTakenOrHeld :
    let o := order 0x01
    let s := head o on
    o.kind = 0x01 ∧ (order 0x02).kind = 0x02 ∧ s.atHead o ∧ o.peer.toNat < 32 ∧ o.size.toNat ≤ 16777215 ∧
      o.base.toNat % 16 = 0 ∧ o.peerNo ≠ s.sn ∧ s.sct.station = .online ∧ s.peer o.peerNo ≠ .silent ∧
      s.freeSlot = some 0 ∧ s.originators < s.par.originLimit ∧ s.ctrlOpen ∧
      (let full := { s with xen := { s.xen with
          slots := Vector.replicate 16 ⟨0, some (rec0 .sending .originator .push)⟩ } };
        full.freeSlot = none ∧ full.par.originLimit ≤ full.originators) := by decide +kernel

theorem test_meets_OrderRefused :
    let o := { order 0x01 with peer := 32 }
    let f := { order 0x03 with type := 0x03 }
    let full := { on with rpt := { on.rpt with queue := List.replicate 8 (.note 1 2 3) } }
    (head o on).atHead o ∧ o.kind = 0x01 ∧ (head o on).reasonToRefuse o = some .badOrder ∧
      (head f on).atHead f ∧ (head f on).reasonToRefuse f = some .badOrder ∧
      (head (order 0x02) (up .offline)).atHead (order 0x02) ∧
      (head (order 0x02) (up .offline)).reasonToRefuse (order 0x02) = some .offline ∧
      (head (order 0x09) (up .conflict)).atHead (order 0x09) ∧
      (head (order 0x09) (up .conflict)).reasonToRefuse (order 0x09) = some .offline ∧
      (head (order 0x00) on).reasonToRefuse (order 0x00) = some .badOrder ∧ 9 < (order 0x0A).kind.toNat ∧
      (head o on).reportOpen 1 ∧ 8 ≤ full.rpt.queue.length ∧ full.rpt.line = [] := by decide +kernel

theorem test_meets_OfferPosted :
    let o := { order 0x03 with peer := 0xFF, standing := 0x01 }
    (head o on).atHead o ∧ o.kind = 0x03 ∧ o.type = 0x01 ∧ o.standing = 0x01 ∧ o.peer = 0xFF ∧
      o.size.toNat ≤ 16777215 ∧ o.base.toNat % 16 = 0 ∧ on.offer 0 = none ∧ (∀ e' : OfferId, ¬e' < 0) := by
  decide +kernel

theorem test_meets_WithdrawActs :
    let o := order 0x04
    let s := fun v => head o (offering v (with2 receiver))
    (s (offer0 .openState)).atHead o ∧ (s (offer0 .openState)).withdrawTarget o.target = some 4 ∧
      (s (offer0 .openState)).reportOpen 1 ∧
      (s (offer0 (.bound 2))).withdrawTarget o.target = some 4 ∧ (s (offer0 (.bound 2))).ex 2 = some receiver ∧
      (s (offer0 (.bound 2))).ord.acks.length < 16 ∧ receiver.state ≠ .retiring ∧ receiver.state ≠ .opening ∧
      receiver.state ≠ .backoff ∧ (head o (offering (offer0 (.bound 2)) (with2 (ended .completed .owed)))).ex 2 =
        some (ended .completed .owed) ∧ (head o on).withdrawTarget o.target = none := by decide +kernel

theorem test_meets_TargetOfCancelAndContinue :
    let s := with2 sender
    ([2] : List SlotId) = [] ++ 2 :: [] ∧ s.ex 2 = some sender ∧ sender.role = .originator ∧ sender.orderTag = 5 ∧
      (let u := offering (offer0 (.withdrawing 2)) on;
        u.xen.originOrder = [] ∧ u.xen.postOrder = [] ++ 4 :: [] ∧ u.offer 4 = some (offer0 (.withdrawing 2)) ∧
          (offer0 (.withdrawing 2)).orderTag = 5) ∧
      on.xen.postOrder = [] := by decide +kernel

theorem test_meets_CancelActs :
    let o := order 0x05
    let s := fun e => head o { with2 e with xen := { (with2 e).xen with originOrder := [2] } }
    let full := fun e => { s e with ord := { (s e).ord with acks := List.replicate 16 ⟨1, .clr, .clearPulse, false⟩ } }
    (s sender).atHead o ∧ o.kind = 0x05 ∧ (s sender).exchangeTarget o.target = some 2 ∧
      (s sender).ex 2 = some sender ∧ (s sender).ord.acks.length < 16 ∧
      (s (ended .completed .owed)).exchangeTarget o.target = some 2 ∧
      16 ≤ (full sender).ord.acks.length ∧ (full sender).exchangeTarget o.target = some 2 ∧
      (head o on).exchangeTarget o.target = none ∧ (head o on).reportOpen 1 := by decide +kernel

theorem test_meets_ContinueResumes :
    let o := order 0x06
    let s := fun e => head o { with2 e with xen := { (with2 e).xen with originOrder := [2] } }
    let p := { sender with localPause := true }
    (s p).atHead o ∧ o.kind = 0x06 ∧ (s p).reportOpen 1 ∧ (s p).exchangeTarget o.target = some 2 ∧
      (s p).ex 2 = some p ∧ p.localPause = true ∧ p.role = .originator ∧ p.dir = .push ∧ p.state = .sending ∧
      (s p).txq.line = [] ∧ (s sender).exchangeTarget o.target = some 2 ∧ sender.localPause = false ∧
      (head o on).exchangeTarget o.target = none := by decide +kernel

theorem test_meets_DetachAttachClrTaken :
    let at' := fun k st => head (order k) (up st)
    (at' 0x07 .online).atHead (order 0x07) ∧ (at' 0x07 .online).ord.acks.length < 16 ∧ (at' 0x07 .online).ctrlOpen ∧
      (at' 0x07 .online).txq.ctrl.length + (at' 0x07 .online).xen.deferred.length ≤ 16 ∧
      (at' 0x07 .offline).atHead (order 0x07) ∧ (at' 0x07 .offline).reportOpen 1 ∧
      (at' 0x08 .conflict).atHead (order 0x08) ∧ (at' 0x08 .conflict).txq.ctrl.length < 16 ∧
      (at' 0x08 .online).atHead (order 0x08) ∧ (at' 0x09 .online).atHead (order 0x09) ∧
      16 ≤ (List.replicate 16 (⟨1, .clr, .clearPulse, false⟩ : AckEntry)).length := by decide +kernel

theorem test_meets_OrderReadPath :
    let s := { on with ord := { on.ord with producer := 1 } }
    s.takesOrders = true ∧ s.ord.orderFault = false ∧ s.ord.head = .absent ∧ s.ord.producer ≠ s.ord.taken ∧
      s.ord.indexWrite = false ∧ (up .detaching).takesOrders = false ∧ on.ord.producer = on.ord.taken ∧
      (moving .orderFetch 32 on).ending ⟨.orderFetch, 0x3000, 32, []⟩ ∧ (moving .orderFetch 32 on).reportOpen 1 ∧
      (OrderRec.parse ([0x06] ++ List.replicate 31 0)).kind = 0x06 ∧
      9 < (OrderRec.parse ([0x0A] ++ List.replicate 31 0)).kind.toNat ∧
      (moving .indexWrite 4 on).ending ⟨.indexWrite, 0x3000, 4, []⟩ := by decide +kernel

theorem test_meets_EntryReadFeedsDrain :
    let link : List Byte := [0, 0x50, 0, 0, 0, 0, 0, 0, 2, 0, 0, 0, 0, 0, 0, 0]
    let dat : List Byte := [0, 0x50, 0, 0, 0, 1, 0, 0, 1, 0, 0, 0, 0, 0, 0, 0]
    let e := { receiver with received := 256, transfers := 1 }
    let m := moving (.entryRead 2 0) 16 ((with2 e).setCell 7 (some ⟨.filled, 2, 0, 0, [1]⟩))
    let s := { m with stg := { m.stg with drain := .choosing 2 0 } }
    s.ending ⟨.entryRead 2 (s.gen 2), 0x3000, 16, []⟩ ∧ s.ex 2 = some e ∧ e.state ≠ .retiring ∧ e.state ≠ .sending ∧
      link.length = 16 ∧ dat.length = 16 ∧ e.walk.gate = none ∧ e.walk.marks = [] ∧ s.stg.drain = .choosing 2 0 ∧
      (byteAt (List.replicate 16 0#8) 8 ≠ 0x01 ∧ byteAt (List.replicate 16 0#8) 8 ≠ 0x02) ∧
      (byteAt link 8 = 0x02 ∧ byteAt link 9 &&& 0x07 = 0 ∧ (le32 link 0).toNat % 16 = 0 ∧ e.walk.visited < 4096) ∧
      (byteAt dat 8 = 0x01 ∧ 0 < (le24 dat 4).toNat ∧ s.findCell 2 (e.drained / 256) = some 7 ∧
        s.cell 7 = some ⟨.filled, 2, 0, 0, [1]⟩) := by decide +kernel

theorem test_meets_FillMakesBufferReady :
    on.runs = true ∧ inTurn (with2 sender).fillEligible (with2 sender).fbd.lastFill 2 ∧
      (with2 sender).ex 2 = some sender ∧ (with2 sender).buffer 0 = none ∧
      (∀ b' : BufId, b' < 0 → (with2 sender).buffer b' ≠ none) ∧ sender.walk.gate = none ∧ sender.walk.marks = [] ∧
      sender.walk.cached = none ∧ sender.walk.visited < 4096 ∧
      (let e := { sender with walk := { sender.walk with cached := some ⟨0x5000, 300, false, false, false⟩ } };
        inTurn (with2 e).fillEligible (with2 e).fbd.lastFill 2 ∧
          e.walk.cached = some ⟨0x5000, 300, false, false, false⟩ ∧ e.walk.inEntry < 300) ∧
      (let e := { sender with prepared := 2, transfers := 1 };
        let s := fun st => moving (.dataRead 2 0 0) 2 ((with2 e).setBuffer 0 (some ⟨st, 2, 0, 0, 2, []⟩));
        (s .filling).ending ⟨.dataRead 2 ((s .filling).gen 2) 0, 0x3000, ([8, 9] : List Byte).length, []⟩ ∧
          (s .filling).ex 2 = some e ∧ (s .filling).buffer 0 = some ⟨.filling, 2, 0, 0, 2, []⟩ ∧ 2 ≤ e.prepared ∧
          (s .discarding).buffer 0 = some ⟨.discarding, 2, 0, 0, 2, []⟩) :=
  ⟨rfl, ⟨by decide +kernel, by decide +kernel⟩, rfl, rfl, fun b h => absurd h (Nat.not_lt_zero b.val), rfl, rfl, rfl,
    by decide, ⟨⟨by decide +kernel, by decide +kernel⟩, rfl, by decide⟩, by decide +kernel⟩

theorem test_meets_DrainMovesBytes :
    let e := { receiver with received := 256 }
    let c := { e with walk := { e.walk with cached := some ⟨0x5000, 300, false, false, false⟩ } }
    let x : Cell := ⟨.filled, 2, 0, 0, List.replicate 256 1⟩
    let s := fun r => (with2 r).setCell 7 (some x)
    let f := { c with state := .finishing, length := 256, transfers := 1 }
    (s e).ex 2 = some e ∧ e.walk.gate = none ∧ e.walk.marks = [] ∧ (s e).runs = true ∧ (s e).stg.drain = .idle ∧
      inTurn (s e).drainable (s e).stg.lastDrain 2 ∧ (e.walk.cached = none ∧ e.walk.visited < 4096) ∧
      (inTurn (s c).drainable (s c).stg.lastDrain 2 ∧ c.walk.cached = some ⟨0x5000, 300, false, false, false⟩ ∧
        c.walk.inEntry < 300 ∧ (s c).findCell 2 (c.drained / 256) = some 7 ∧ (s c).cell 7 = some x) ∧
      (let m := moving (.drainWrite 2 0 7) 256 (s f);
        m.ending ⟨.drainWrite 2 (m.gen 2) 7, 0x3000, 256, []⟩ ∧ m.ex 2 = some f ∧ m.cell 7 = some x ∧ m.ctrlOpen ∧
          f.state = .finishing ∧ m.txq.ctrl = [] ∧ min ((x.index + 1) * 256) f.length ≤ f.drained + 256 ∧
          f.drained + 256 = f.length) ∧
      (let z := { x with state := .reclaiming };
        let m := moving (.drainWrite 2 0 7) 256 ((with2 (rec0 .retiring .responder .push)).setCell 7 (some z));
        m.ending ⟨.drainWrite 2 (m.gen 2) 7, 0x3000, 256, []⟩ ∧ m.cell 7 = some z ∧
          m.ex 2 = some (rec0 .retiring .responder .push)) :=
  ⟨rfl, rfl, rfl, rfl, rfl, ⟨by decide +kernel, by decide +kernel⟩, ⟨rfl, by decide⟩,
    ⟨⟨by decide +kernel, by decide +kernel⟩, by decide +kernel⟩, by decide +kernel, by decide +kernel⟩

theorem test_meets_CreditGranted :
    let s := with2 receiver
    let w := queued [own2 (.credit 512) false] s
    s.runs = true ∧ s.emptyCells ≠ [] ∧ inTurn s.grantEligible s.stg.lastGrant 2 ∧ s.ex 2 = some receiver ∧
      s.ctrlOpen ∧ 2 = s.cellsGiven 2 ((receiver.length + 255) / 256 - (receiver.granted + 255) / 256) ∧
      s.txq.ctrl = [] ∧
      (inTurn w.grantEligible w.stg.lastGrant 2 ∧ w.ctrlOpen ∧ w.txq.ctrl = [] ++ own2 (.credit 512) false :: [] ∧
        (own2 (.credit 512) false).owner = .slot 2 (w.gen 2)) ∧
      (∀ i, on.grantEligible i = false) ∧
      (let full := { s with stg := { s.stg with cells := Vector.replicate 64 (some ⟨.reserved, 9, 0, 0, []⟩) } };
        full.runs = true ∧ full.emptyCells = []) :=
  ⟨rfl, by decide +kernel, ⟨by decide +kernel, by decide +kernel⟩, by decide +kernel, by decide +kernel,
    by decide +kernel, rfl, ⟨⟨by decide +kernel, by decide +kernel⟩, by decide +kernel⟩, by decide +kernel,
    by decide +kernel⟩

theorem test_meets_RescanBinds :
    let d : Deferred := ⟨5, ⟨0, 2⟩, .push, 7, 2000⟩
    let s := fun v => let u := offering v on;
      { u with xen := { u.xen with deferred := [d], rescanDue := true }, txq := { u.txq with line := [.rescan] } }
    let v := offer0 .openState
    (s v).runs = true ∧ (s v).sct.station = .online ∧ (s v).xen.rescanDue = true ∧ (s v).xen.rescanAt = none ∧
      (s v).xen.deferred = [d] ∧ (s v).freeSlot = some 0 ∧ (s v).txq.ctrl.length < 15 ∧ (s v).txq.owed = [] ∧
      (s v).txq.line = [.rescan] ∧ (s v).rpt.queue.length < 8 ∧ (s v).rpt.stationWaiting = [] ∧
      (s v).rpt.line = [] ∧ (s v).matchOffer d.peer d.dir d.key = some 4 ∧ (s v).offer 4 = some v ∧
      d.size ≤ v.size ∧ (s v).txq.ctrl = [] ∧
      ((s { v with size := 1999 }).matchOffer d.peer d.dir d.key = some 4 ∧ ({ v with size := 1999 }).size < d.size) ∧
      (let n := { s v with xen := { (s v).xen with offers := on.xen.offers, postOrder := [] } };
        n.freeSlot ≠ none ∧ ∀ x ∈ n.xen.deferred, n.matchOffer x.peer x.dir x.key = none) ∧
      on.xen.rescanDue = false ∧ on.xen.rescanAt = none := by decide +kernel

theorem test_meets_SlotReleased :
    let e := ended .completed .settled
    let f := ended (.failed .quiet none) .notNeeded
    let r := { ended .completed .notNeeded with role := .responder, offer := some 4 }
    let u := fun v => offering v (with2 r)
    (with2 e).runs = true ∧ (with2 e).ex 2 = some e ∧ e.outcome = some ⟨.completed, .settled, .quiet⟩ ∧
      e.state = .retiring ∧ e.transfers = 0 ∧ e.role = .originator ∧ e.offer = none ∧ (with2 e).reportOpen 1 ∧
      (f.outcome = some ⟨.failed .quiet none, .notNeeded, .quiet⟩ ∧ (with2 f).ex 2 = some f) ∧
      (r.role = .responder ∧ r.offer = some 4 ∧ (u (offer0 (.bound 2))).offer 4 = some (offer0 (.bound 2)) ∧
        (u (offer0 (.bound 2))).ex 2 = some r ∧ (u (offer0 (.bound 2))).reportOpen 2 ∧
        (offer0 (.bound 2)).standing = false ∧ ({ offer0 (.bound 2) with standing := true }).standing = true ∧
        (u (offer0 (.withdrawing 2))).offer 4 = some (offer0 (.withdrawing 2))) ∧
      (ended .completed .queued).state = .retiring ∧ 0 < ({ e with transfers := 1 }).transfers := by decide +kernel

theorem test_meets_MarksAct :
    let m : Mark := ⟨0x3000, 4, 256, true, true⟩
    let n : Mark := { m with pause := false }
    let e := fun m => { sender with walk := { sender.walk with marks := [m] }, acknowledged := 256 }
    (with2 (e m)).runs = true ∧ (with2 (e m)).ex 2 = some (e m) ∧ (e m).walk.marks = [m] ∧ m.note = true ∧
      m.pause = true ∧ n.note = true ∧ n.pause = false ∧ (with2 (e n)).ex 2 = some (e n) ∧
      ((e m).role = .originator ∧ (e m).dir = .push) ∧ m.point ≤ (e m).acknowledged ∧ (with2 (e m)).reportOpen 2 ∧
      (with2 (e m)).ctrlOpen ∧ (with2 (e m)).txq.ctrl = [] ∧
      ({ e m with acknowledged := 255 }).acknowledged < m.point ∧ (∀ b, (with2 (e m)).buffer b = none) := by
  decide +kernel

theorem test_meets_TransmitChoiceHandsOver :
    let s := queued [own2 .hold true, own2 .hold false] on
    let o := own2 (.openReq 7 .push 1000) false
    let v : OutBuffer := ⟨.ready, 2, 0, 0, 2, [8, 9]⟩
    let b := (with2 sender).setBuffer 0 (some v)
    s.onLane = true ∧ s.txq.ctrl = [own2 .hold true] ++ own2 .hold false :: [] ∧ s.lpt.tx = none ∧
      (∀ x ∈ [own2 .hold true], x.inSlot = true) ∧
      (let t := lane .idle (some dataTx) (queued [own2 .hold false] b);
        t.onLane = true ∧ t.lpt.tx = some ⟨.data 0, dataTx.frame, 0, false⟩ ∧ t.lpt.phase ≠ .won ∧
          t.buffer 0 = some v) ∧
      (let t := queued [o] (with2 (rec0 .opening .originator .push));
        t.txq.ctrl = [] ++ o :: [] ∧ o.inSlot = false ∧ o.frame.body = .openReq 7 .push 1000 ∧
          o.owner = .slot 2 (t.gen 2) ∧ t.ex 2 = some (rec0 .opening .originator .push) ∧ t.lpt.tx = none) ∧
      (b.onLane = true ∧ b.lpt.tx = none ∧ b.txq.ctrl = [] ∧ b.sct.station ≠ .fault ∧ b.buffer 0 = some v ∧
        b.ex v.slot = some sender ∧ b.txq.takenBack = none ∧ v.gen = b.gen v.slot ∧
        (∀ b' : BufId, b' ≠ 0 → b.buffer b' = none) ∧ (2 : SlotId) - b.txq.lastTx - 1 = 2 ∧
        ({ b.txq with takenBack := some 0 }).takenBack = some 0) := by decide +kernel

theorem test_meets_FreedEntryGiven :
    let e := ended .completed .owed
    let s := with2 e
    let x : FaultAbort := ⟨5, ⟨0, 2⟩, true⟩
    s.up = true ∧ s.txq.ctrl.length < 16 ∧ s.lpt.tx = none ∧ s.sct.station ≠ .fault ∧
      (({ s.txq with owed := [2] }).owed = 2 :: [] ∧ s.ex 2 = some e ∧ e.outcome = some ⟨.completed, .owed, .quiet⟩) ∧
      (s.txq.owed = [] ∧ ({ s.txq with line := [.frame (from5 true .hold) .nobody] }).line =
        .frame (from5 true .hold) .nobody :: []) ∧
      (({ s.txq with line := [.credit 2] }).line = .credit 2 :: [] ∧ (with2 receiver).ex 2 = some receiver) ∧
      s.txq.line = [] ∧ (up .fault).sct.station = .fault ∧ (up .fault).sct.faultAborts = [] ∧
      (let f := { (up .fault).sct with present := true, faultAborts := [x] };
        f.station = .fault ∧ f.present = true ∧ f.faultAborts = x :: []) := by decide +kernel

theorem test_meets_ReportPath :
    let r : Report := .note 1 2 3
    let q := fun l => { on with rpt := { on.rpt with queue := l } }
    on.runs = true ∧ on.rpt.writer = .idle ∧ ({ on.rpt with status := .due }).status = .due ∧
      ((q [r]).rpt.status = .none ∧ (q [r]).rpt.queue = r :: [] ∧
        ((q [r]).rpt.producer - (q [r]).rpt.release).toNat < (q [r]).par.reportSize.toNat) ∧
      (q [r]).par.reportSize.toNat ≤ (8#16 - (q [r]).rpt.release).toNat ∧
      (moving .reportEntry 16 on).ending ⟨.reportEntry, 0x3000, 16, []⟩ ∧
      ((moving .producerWord 4 (q [r])).ending ⟨.producerWord, 0x3000, 4, []⟩ ∧ r ≠ .station .fault .orderRead ∧
        on.rpt.stationWaiting = [] ∧ on.rpt.line = []) ∧
      (q [.station .fault .orderRead]).rpt.queue = .station .fault .orderRead :: [] ∧
      (let s := { on with rpt := { on.rpt with status := .inProgress true } };
        (moving .statusWord 4 s).ending ⟨.statusWord, 0x3000, 4, []⟩ ∧
          (moving .statusWord 4 s).rpt.status = .inProgress true) ∧
      (let a : AckEntry := ⟨9, .clr, .offlineReport, true⟩;
        let s := { on with ord := { on.ord with acks := [a] } };
        s.runs = true ∧ s.ord.acks = [] ++ a :: [] ∧ a.due = true ∧ s.reportOpen 1) := by decide +kernel

theorem test_meets_PortChoosesAndBusErrors :
    let a : Request := ⟨.ringWords, 0x420, 8, []⟩
    let r : Request := ⟨.statusWord, 0x430, 4, []⟩
    (on.up = true ∧ on.lmp.transfer = none ∧ [a, r, r] = [a] ++ r :: [r] ∧ r.purpose.client < a.purpose.client ∧
        r.purpose.client ≤ r.purpose.client ∧ r.addr + r.count ≤ 2 ^ 32) ∧
      (let s := moving (.entryRead 2 0) 16 (with2 sender);
        s.ending ⟨.entryRead 2 0, 0x3000, 16, []⟩ ∧ s.ex 2 = some sender ∧ sender.state ≠ .retiring ∧ s.gen 2 = 0) ∧
      (let s := moving (.dataRead 2 0 0) 2 ((with2 sender).setBuffer 0 (some ⟨.filling, 2, 0, 0, 2, []⟩));
        s.ending ⟨.dataRead 2 (s.gen 2) 0, 0x3000, 2, []⟩ ∧ s.buffer 0 = some ⟨.filling, 2, 0, 0, 2, []⟩) ∧
      (let s := moving (.drainWrite 2 0 7) 1 ((with2 receiver).setCell 7 (some ⟨.filled, 2, 0, 0, [1]⟩));
        s.ending ⟨.drainWrite 2 (s.gen 2) 7, 0x3000, 1, []⟩ ∧ s.cell 7 = some ⟨.filled, 2, 0, 0, [1]⟩) ∧
      ((moving .orderFetch 32 on).ending ⟨.orderFetch, 0x3000, 32, []⟩ ∧ (moving .orderFetch 32 on).reportOpen 1 ∧
        on.ord.orderFault = false) ∧
      (let s := moving .ringWords 8 { on with ord := { on.ord with ringRead := .inProgress } };
        s.ending ⟨.ringWords, 0x3000, 8, []⟩ ∧ s.ord.ringRead = .inProgress) ∧
      (moving .startRecord 32 (up .starting)).ending ⟨.startRecord, 0x3000, 32, []⟩ ∧
      (moving .producerWord 4 on).ending ⟨.producerWord, 0x3000, 4, []⟩ ∧
      (moving .statusWord 4 on).ending ⟨.statusWord, 0x3000, 4, []⟩ := by decide +kernel

theorem test_meets_DetachAndPresenceEnd :
    let s := up .detaching
    let f := up .fault
    (s.up = true ∧ s.sct.station = .detaching ∧ s.reportOpen 1 ∧ (∀ i, s.ex i = none) ∧ s.xen.deferred = [] ∧
        s.txq.ctrl = [] ∧ s.txq.owed = [] ∧ s.txq.line = [] ∧ s.lpt.tx = none ∧ s.lpt.inbox = []) ∧
      (s.setEx 2 (some sender)).ex 2 ≠ none ∧ (f.up = true ∧ f.sct.station = .fault) ∧
      (({ f.sct with present := true }).present = true ∧ f.sct.faultAborts = [] ∧ f.txq.ctrl = [] ∧ f.lpt.tx = none) ∧
      f.sct.present = false := by decide +kernel

/-! ### The clauses of longer statements, one state for each -/

/-- A transfer in progress on the bus at a beat. -/
def onBus (r : Request) (p : BusProgress) : State := { on with lmp := ⟨[], some r, p⟩ }

/-- The line of R106 set. -/
def lined (l : List CtrlClaim) (s : State) : State := { s with txq := { s.txq with line := l } }

/-- The Pending List set. -/
def holding (l : List Deferred) (s : State) : State := { s with xen := { s.xen with deferred := l } }

/-- The Order Unit's transfers set. -/
def orders (r : RingRead) (h : Head) (w : Bool) (s : State) : State :=
  { s with ord := { s.ord with ringRead := r, head := h, indexWrite := w } }

/-- A pending request from station 5 with tag 02h. -/
def asked : Deferred := ⟨5, ⟨0, 2⟩, .push, 7, 2000⟩

/-- The grant, a middle beat, the last beat, and no transfer. -/
theorem test_meets_StepRunsFrontCommand_bus :
    let r : Request := ⟨.orderFetch, 0x3000, 32, []⟩
    (onBus r ⟨false, 0⟩).pending = [] ∧ on.lmp.transfer = none ∧ (onBus r ⟨false, 0⟩).lmp.transfer = some r ∧
      (onBus r ⟨true, 6⟩).lmp.progress.granted = true ∧ 6 + 1 < (beats r.addr r.count).length ∧
      (beats r.addr r.count).length ≤ 7 + 1 := by decide +kernel

/-- Ring words read while the Order Unit has another transfer, and the ends that place the next one. -/
theorem test_meets_PostAndRingWords_busy :
    let q := moving .ringWords 8 on
    (let s := orders .idle .fetching false on;
      s.runs = true ∧ s.sct.station ≠ .starting ∧ s.ord.ringRead = .idle ∧ s.ord.head = .fetching) ∧
      (let s := orders .idle .absent true on;
        s.runs = true ∧ s.sct.station ≠ .starting ∧ s.ord.ringRead = .idle ∧ s.ord.indexWrite = true) ∧
      ((orders .furtherDue .absent false q).ending ⟨.ringWords, 0x3000, 8, []⟩) ∧
      ((orders .inProgress .absent true q).ending ⟨.ringWords, 0x3000, 8, []⟩) := by decide +kernel

/-- The idle phase of a station that has just begun to observe. -/
theorem test_meets_ReceiverAnswers_idle :
    (lane .idle none on).observes = true ∧ (lane .idle none on).lpt.phase = .idle ∧ on.sct.station ≠ .probing := by
  decide

/-- A PROBE with its number free. -/
theorem test_meets_UnansweredFrameEnds_probe :
    let t := ctrlTx (.probe 7) 3
    let s := lane (.sent false) (some t) (up .probing)
    s.observes = true ∧ s.sct.station ≠ .fault ∧ s.lpt.phase = .sent false ∧ s.lpt.tx = some t ∧
      1 + s.par.linkRetry ≤ t.attempts ∧ t.src = .ctrl ∧ s.sct.station = .probing ∧ s.reportOpen 1 := by
  decide +kernel

/-- A destination that goes SILENT with a RETIRING slot that owes its ABORT, a live slot, a READY buffer of the RETIRING
slot's record and a slot with another peer. -/
theorem test_meets_UnansweredFrameEnds_purge :
    let t := ctrlTx .hold 3
    let r := ended .completed .queued
    let v : OutBuffer := ⟨.ready, 2, 0, 0, 2, [8, 9]⟩
    let s := (((lane (.sent true) (some t) (with2 r)).setEx 4 (some sender)).setEx 6
      (some { sender with peer := 6 })).setBuffer 1 (some v)
    (s.observes = true ∧ s.sct.station ≠ .fault ∧ s.lpt.phase = .sent true ∧ s.lpt.tx = some t ∧
        1 + s.par.linkRetry ≤ t.attempts) ∧ (∀ m, t.frame.body ≠ .probe m) ∧
      (s.ex 2 = some r ∧ r.peer = t.frame.dst ∧ r.state = .retiring ∧ r.outcome = some ⟨.completed, .queued, .quiet⟩) ∧
      (s.ex 4 = some sender ∧ sender.peer = t.frame.dst ∧ sender.state ≠ .retiring) ∧
      (s.ex 6 = some { sender with peer := 6 } ∧ (6 : Station) ≠ t.frame.dst) ∧
      (after (.acknowledgeSlot false false) s).buffer 1 = some v :=
  ⟨by decide +kernel, fun _ h => (by cases h), by decide +kernel, by decide +kernel, by decide +kernel,
    by decide +kernel⟩

/-- TAKEN of an ABORT at a RETIRING slot, and its 64th BUSY. -/
theorem test_meets_LinkOutcomesReachTheSlot_abort :
    let r := ended .completed .queued
    let c := { own2 (.abort .quiet) true with busy := 63 }
    let t := ctrlTx (.abort .quiet) 1
    let s := queued [c] (lane (.sent false) (some t) (with2 r))
    (s.observes = true ∧ s.sct.station ≠ .fault ∧ s.lpt.phase = .sent false ∧ s.lpt.tx = some t ∧ t.src = .ctrl) ∧
      (s.ex 2 = some r ∧ s.txq.ctrl = [] ++ c :: [] ∧ c.inSlot = true ∧ c.owner = .slot 2 (s.gen 2)) ∧
      (r.state = .retiring ∧ r.outcome = some ⟨.completed, .queued, .quiet⟩ ∧ c.frame.body = .abort .quiet) ∧
      64 ≤ c.busy + 1 ∧ (∀ k d n, c.frame.body ≠ .openReq k d n) :=
  ⟨by decide +kernel, by decide +kernel, by decide, by decide, fun _ _ _ h => (by cases h)⟩

/-- BUSY of a CREDIT beside a WAITING one, of a CREDIT alone, and the 64th BUSY of a live slot's frame. -/
theorem test_meets_LinkOutcomesReachTheSlot_busy :
    let c := own2 (.credit 256) true
    let w := own2 (.credit 512) false
    let s := fun l => queued l (lane (.sent false) (some (ctrlTx (.credit 256) 1)) (with2 receiver))
    ((s [c, w]).observes = true ∧ (s [c, w]).sct.station ≠ .fault ∧ (s [c, w]).lpt.phase = .sent false ∧
        (s [c, w]).ex 2 = some receiver ∧ receiver.state ≠ .retiring) ∧
      ((s [c, w]).txq.ctrl = [] ++ c :: [w] ∧ (∀ d ∈ [w], d.inSlot = false) ∧ c.busy + 1 < 64 ∧
        c.frame.body = .credit 256 ∧ w.owner = .slot 2 ((s [c, w]).gen 2) ∧ w.frame.body = .credit 512) ∧
      ((s [c]).txq.ctrl = [] ++ c :: [] ∧ (s [c]).txq.ctrl.length ≤ 16 ∧ (lined [.credit 2] (s [c])).txq.line = [.credit 2]) ∧
      (∀ k d n, c.frame.body ≠ .openReq k d n) ∧ 64 ≤ ({ c with busy := 63 }).busy + 1 :=
  ⟨by decide +kernel, by decide +kernel, by decide +kernel, fun _ _ _ h => (by cases h), by decide⟩

/-- TAKEN and BUSY of the frames of a slot that are neither its OPEN in OPENING, its DONE in FINISHING nor its ABORT in
RETIRING, and of frames without a live owner. -/
theorem test_meets_LinkOutcomesReachTheSlot_others :
    let s := fun c e => queued [c] (lane (.sent false) (some (ctrlTx c.frame.body 1)) (with2 e))
    let w := own2 (.accept 512) true
    let o := own2 (.openReq 7 .push 1000) true
    let free := { own2 .hold true with owner := .slot 6 0 }
    let stale := { own2 .hold true with owner := .slot 2 1 }
    let none2 := { own2 (.abort .unknown) true with owner := .nobody }
    ((s w receiver).observes = true ∧ (s w receiver).lpt.phase = .sent false ∧ (s w receiver).ex 2 = some receiver ∧
        (s w receiver).txq.ctrl = [] ++ w :: [] ∧ w.owner = .slot 2 ((s w receiver).gen 2) ∧
        receiver.state = .receiving) ∧
      ((s w (ended .completed .queued)).ex 2 = some (ended .completed .queued) ∧
        (ended .completed .queued).state = .retiring ∧ w.frame.body = .accept 512) ∧
      ((s o sender).ex 2 = some sender ∧ sender.state ≠ .opening ∧ o.frame.body = .openReq 7 .push 1000) ∧
      ((s free sender).ex 6 = none ∧ (s stale sender).gen 2 ≠ 1 ∧ none2.owner = .nobody ∧
        (s stale sender).lpt.tx.map (·.src) = some .ctrl ∧ stale.inSlot = true) := by decide +kernel

/-- A DATA frame TAKEN at the last byte of its buffer, and before it. -/
theorem test_meets_LinkOutcomesReachTheSlot_data :
    let v : OutBuffer := ⟨.sending, 2, 0, 0, 2, [8, 9]⟩
    let s := fun e => (lane (.sent false) (some dataTx) (with2 e)).setBuffer 0 (some v)
    let e := { sender with acknowledged := 998 }
    (s e).observes = true ∧ (s e).lpt.phase = .sent false ∧ (s e).lpt.tx = some dataTx ∧ (s e).ex 2 = some e ∧
      dataTx.src = .data 0 ∧ (s e).buffer 0 = some v ∧ v.slot = 2 ∧ v.gen = (s e).gen 2 ∧ e.state = .sending ∧
      e.walk.marks = [] ∧ e.acknowledged + v.payload.length = e.length ∧
      sender.acknowledged + v.payload.length ≠ sender.length := by decide +kernel

/-- In FAULT a frame answered TAKEN only makes its source HEARD. -/
theorem test_meets_FrameDispatched_fault :
    let s := lane (.answered .taken (.frame (from5 true .hold))) none (up .fault)
    s.observes = true ∧ s.lpt.phase = .answered .taken (.frame (from5 true .hold)) ∧ s.sct.station = .fault ∧
      (from5 true .hold).src ≠ s.sn := by decide

/-- A DATA frame in each state of a slot other than RECEIVING, and at no slot. -/
theorem test_meets_DataActsByChecks_states :
    let f := from5 true (.data 0 2 [8, 9])
    let s := fun st d => lane (.answered .taken (.frame f)) none (with2 (rec0 st .responder d))
    let n := lane (.answered .taken (.frame f)) none on
    ((s .finishing .push).lookup f = some 2 ∧ (s .sending .pull).lookup f = some 2 ∧
        (s .confirming .pull).lookup f = some 2 ∧ (s .retiring .push).lookup f = some 2 ∧
        (s .finishing .push).lpt.phase = .answered .taken (.frame f)) ∧
      (let g := from5 false (.data 0 2 [8, 9]);
        let o := fun st => lane (.answered .taken (.frame g)) none (with2 (rec0 st .originator .push));
        (o .opening).lookup g = some 2 ∧ (o .backoff).lookup g = some 2 ∧ (o .parked).lookup g = some 2) ∧
      (n.observes = true ∧ n.sct.station ≠ .fault ∧ n.lookup f = none ∧
        (queued (List.replicate 15 (own2 .hold false)) n).txq.ctrl.length < 16) ∧
      16 ≤ (queued (List.replicate 16 (own2 .hold false)) n).txq.ctrl.length := by decide +kernel

/-- Cells of a slot that a lane clear ends: RESERVED, filled, filled under the drain's write, and RECLAIMING before. -/
theorem test_meets_LaneClearClearsStation_cells :
    let s := moving (.drainWrite 2 0 7) 1 ((with2 receiver).setCell 7 (some ⟨.filled, 2, 0, 0, [1]⟩))
    let u := ((s.setCell 8 (some ⟨.reserved, 2, 0, 1, []⟩)).setCell 9 (some ⟨.filled, 2, 0, 2, [1]⟩)).setCell 10
      (some ⟨.reclaiming, 4, 3, 0, [1]⟩)
    (u.takesClear = true ∧ u.reportOpen 1 ∧ u.cell 6 = none ∧ u.ex 2 = some receiver ∧ u.gen 2 = 0 ∧
        receiver.state ≠ .retiring) ∧
      (u.cell 7 = some ⟨.filled, 2, 0, 0, [1]⟩ ∧ u.lmp.transfer = some ⟨.drainWrite 2 0 7, 0x3000, 1, []⟩) ∧
      u.cell 8 = some ⟨.reserved, 2, 0, 1, []⟩ ∧ u.cell 9 = some ⟨.filled, 2, 0, 2, [1]⟩ ∧
      u.cell 10 = some ⟨.reclaiming, 4, 3, 0, [1]⟩ := by decide +kernel

/-- A station that takes no lane clear: observing, in each kind of phase, and not observing. -/
theorem test_meets_LaneClearClearsStation_ignored :
    let s := fun p => lane p none (up .offline)
    ((up .starting).takesClear = false ∧ (up .starting).observes = false) ∧
      ((s .other).takesClear = false ∧ (s .other).observes = true ∧ (s .other).lpt.phase = .other) ∧
      (s .unanswered).lpt.phase = .unanswered ∧ (s (.answered .taken .probe)).lpt.phase = .answered .taken .probe ∧
      (s .idle).lpt.phase = .idle ∧ (lane .won (some (ctrlTx .hold 0)) (up .fault)).observes = true ∧
      (up .fault).takesClear = false := by decide +kernel

/-- OPEN for a PULL bound to a GIVE offer, and for a PUSH of length 0. -/
theorem test_meets_OpenBinds_more :
    let f := from5 true (.openReq 7 .pull 2000)
    let g := from5 true (.openReq 7 .push 0)
    let s := boxed f (offering { offer0 .openState with type := .give } on)
    let z := boxed g (offering (offer0 .openState) on)
    (s.inboxFirst f ∧ s.findResponder f.src f.tag = none ∧ s.matchOffer f.src .pull 7 = some 4 ∧
        s.offer 4 = some { offer0 .openState with type := .give } ∧ (offer0 .openState).size ≤ (2000#24).toNat ∧
        s.freeSlot = some 0 ∧ s.ctrlOpen ∧ s.txq.ctrl = [] ∧ s.xen.deferred = []) ∧
      (z.inboxFirst g ∧ z.matchOffer g.src .push 7 = some 4 ∧ (0#24).toNat = 0 ∧ z.txq.ctrl.length < 15) := by
  decide +kernel

/-- A further copy of an OPEN at a RETIRING slot, at a live slot, and at a live slot whose answer is still queued. -/
theorem test_meets_OpenAnsweredOnce_copy :
    let f := from5 true (.openReq 7 .push 1000)
    let s := fun e => boxed f (with2 e)
    let d := rec0 .retiring .responder .push
    ((s d).inboxFirst f ∧ (s d).findResponder f.src f.tag = some 2 ∧ (s d).ex 2 = some d ∧ d.state = .retiring) ∧
      ((s receiver).findResponder f.src f.tag = some 2 ∧ (s receiver).ex 2 = some receiver ∧
        receiver.state ≠ .retiring ∧ (s receiver).txq.ctrl = [] ∧ (s receiver).ctrlOpen) ∧
      (let a := own2 (.accept 512) false; let u := queued [a] (s receiver);
        u.inboxFirst f ∧ u.findResponder f.src f.tag = some 2 ∧ u.txq.ctrl = [a] ∧ a.owner = .slot 2 (u.gen 2) ∧
          a.frame.body = .accept 512) := by decide +kernel

/-- A stale entry's rank, a retransmission, and an offer without a FREE slot. -/
theorem test_meets_OpenAnsweredOnce_pending :
    let f := from5 true (.openReq 7 .push 2000)
    let stale := { asked with tag := ⟨1, 2⟩ }
    let s := fun l => boxed f (holding l on)
    ((s [stale]).inboxFirst f ∧ (s [stale]).findResponder f.src f.tag = none ∧ (s [stale]).ctrlOpen ∧
        (s [stale]).sct.station = .online ∧ (s [stale]).xen.deferred = [] ++ stale :: [] ∧ stale.peer = f.src ∧
        stale.tag.idx = f.tag.idx ∧ stale.tag.gen ≠ f.tag.gen ∧ (s [stale]).matchOffer f.src .push 7 = none) ∧
      ((s [asked]).inboxFirst f ∧ asked.peer = f.src ∧ asked.tag = f.tag) ∧
      (let v := offering (offer0 .openState) (s []);
        let u := { v with xen := { v.xen with slots := Vector.replicate 16 ⟨0, some { sender with peer := 6 }⟩ } };
        u.inboxFirst f ∧ u.findResponder f.src f.tag = none ∧ u.freeSlot = none ∧
          u.matchOffer f.src .push 7 = some 4 ∧ u.offer 4 = some (offer0 .openState) ∧
          (2000#24).toNat ≤ (offer0 .openState).size ∧ u.xen.deferred = []) := by decide +kernel

/-- A due rescan takes its place where the control queue is full, and OFFER where the station is not ONLINE. -/
theorem test_meets_OfferPosted_more :
    let o := order 0x03
    let full := head o (queued (List.replicate 16 (own2 .hold false)) on)
    (full.atHead o ∧ full.sct.station = .online ∧ 16 ≤ full.txq.ctrl.length ∧ full.offer 0 = none ∧
        CtrlClaim.rescan ∉ full.txq.line) ∧
      ((head o (up .offline)).atHead o ∧ (head o (up .offline)).sct.station ≠ .online) ∧
      CtrlClaim.rescan ∈ (lined [.rescan] (head o on)).txq.line := by decide +kernel

/-- CANCEL in BACKOFF, in OPENING before and after its OPEN was handed over. -/
theorem test_meets_CancelActs_more :
    let o := order 0x05
    let s := fun e => head o { with2 e with xen := { (with2 e).xen with originOrder := [2] } }
    let p := rec0 .opening .originator .push
    (s p).atHead o ∧ (s p).exchangeTarget o.target = some 2 ∧ (s p).ex 2 = some p ∧ p.openHanded = false ∧
      (s { p with openHanded := true }).ex 2 = some { p with openHanded := true } ∧
      (s { p with state := .backoff }).exchangeTarget o.target = some 2 ∧ (s p).ord.acks.length < 16 := by
  decide +kernel

/-- CONTINUE at a paused receiver, in RECEIVING and in FINISHING. -/
theorem test_meets_ContinueResumes_receiver :
    let o := order 0x06
    let p := fun st => { rec0 st .originator .pull with localPause := true }
    let s := fun st => head o { with2 (p st) with xen := { (with2 (p st)).xen with originOrder := [2] } }
    ((s .receiving).atHead o ∧ o.kind = 0x06 ∧ (s .receiving).reportOpen 1 ∧
        (s .receiving).exchangeTarget o.target = some 2 ∧ (s .receiving).ex 2 = some (p .receiving)) ∧
      ((p .receiving).localPause = true ∧ (p .receiving).role = .originator ∧ (p .receiving).dir = .pull) ∧
      ((s .receiving).ctrlOpen ∧ (s .receiving).txq.ctrl = []) ∧
      ((s .finishing).exchangeTarget o.target = some 2 ∧ (s .finishing).ex 2 = some (p .finishing)) := by decide +kernel

/-- DETACH with a pending entry, and CLR with a full acknowledgement list. -/
theorem test_meets_DetachAttachClrTaken_more :
    let s := head (order 0x07) (holding [asked] on)
    let c := head (order 0x09) { on with ord := { on.ord with acks := List.replicate 16 ⟨1, .clr, .clearPulse, false⟩ } }
    (s.atHead (order 0x07) ∧ s.sct.station = .online ∧ s.ctrlOpen ∧ s.ord.acks.length < 16 ∧
        s.txq.ctrl.length + s.xen.deferred.length ≤ 16 ∧ s.xen.deferred = [asked]) ∧
      (c.atHead (order 0x09) ∧ c.sct.station = .online ∧ 16 ≤ c.ord.acks.length) := by decide +kernel

/-- Each reason not to fetch, and an end with a transfer of the Order Unit that waits. -/
theorem test_meets_OrderReadPath_more :
    let s := { on with ord := { on.ord with producer := 1 } }
    (orders .inProgress .absent false s).ord.ringRead ≠ .idle ∧ (orders .idle .absent true s).ord.indexWrite = true ∧
      (orders .idle .fetching false s).ord.head ≠ .absent ∧
      ({ s with ord := { s.ord with orderFault := true } }).ord.orderFault = true ∧
      (let m := orders .inProgress .fetching false (moving .orderFetch 32 on);
        m.ending ⟨.orderFetch, 0x3000, 32, []⟩ ∧ m.takesOrders = true ∧ m.ord.orderFault = false ∧
          m.orderDue = [⟨.ringWords, 0x420, 8, []⟩]) ∧
      (let m := orders .inProgress .absent true (moving .indexWrite 4 on);
        m.ending ⟨.indexWrite, 0x3000, 4, []⟩ ∧ m.ord.ringRead = .inProgress) ∧
      (OrderRec.parse (List.replicate 32 0)).kind.toNat = 0 ∧ (OrderRec.parse ([9] ++ List.replicate 31 0)).kind = 9 := by
  decide +kernel

/-- The entry read of a fill: the buffer, the record with room below the ceiling, and the drain at another slot. -/
theorem test_meets_EntryReadFeedsDrain_fill :
    let e := { sender with transfers := 1 }
    let v : OutBuffer := ⟨.filling, 2, 0, 0, 256, []⟩
    let s := moving (.entryRead 2 0) 16 ((with2 e).setBuffer 1 (some v))
    (s.ending ⟨.entryRead 2 (s.gen 2), 0x3000, 16, []⟩ ∧ s.ex 2 = some e ∧ e.state ≠ .retiring ∧
        s.stg.drain = .idle ∧ e.walk.gate = none) ∧
      s.fills 2 e 1 v ∧ (∀ b' v', b' ≠ 1 → s.buffer b' = some v' → v'.slot = 2 → v'.state ≠ .filling) := by
  refine ⟨by decide +kernel, ⟨by decide +kernel, rfl, by decide +kernel, rfl, by decide +kernel, fun b' v' hb hv => ?_⟩,
    fun b' v' hb hv => ?_⟩
  · exact absurd hv (by
      rw [(by decide +kernel : ∀ b' : BufId, b' < 1 →
        (moving (.entryRead 2 0) 16 ((with2 { sender with transfers := 1 }).setBuffer 1
          (some ⟨.filling, 2, 0, 0, 256, []⟩))).buffer b' = none) b' hb]
      simp)
  · exact absurd hv (by
      rw [(by decide +kernel : ∀ b' : BufId, b' ≠ 1 →
        (moving (.entryRead 2 0) 16 ((with2 { sender with transfers := 1 }).setBuffer 1
          (some ⟨.filling, 2, 0, 0, 256, []⟩))).buffer b' = none) b' hb]
      simp)

/-- What an entry can be: a LINK within and beyond 4096 visits, a DATA entry with bytes that ends at the length with
NOTE, and DATA entries with no bytes, plain, with NOTE, with PAUSE and with END; a full mark queue, whose head mark lies
at or above the frame's offset. -/
theorem test_meets_EntryReadFeedsDrain_entries :
    let link : List Byte := [0, 0x50, 0, 0, 0, 0, 0, 0, 2, 0, 0, 0, 0, 0, 0, 0]
    let data := fun (len flags : Byte) => ([0, 0x50, 0, 0, len, 0, 0, 0, 1, flags, 0, 0, 0, 0, 0, 0] : List Byte)
    let m : Mark := ⟨0x3000, 0, 10, true, false⟩
    let e := { sender with walk := { sender.walk with offset := 990, marks := List.replicate 8 m } }
    (byteAt link 8 = 0x02 ∧ byteAt link 9 &&& 0x07 = 0 ∧ (le32 link 0).toNat % 16 = 0 ∧ sender.walk.visited < 4096 ∧
        4096 ≤ ({ e.walk with visited := 4096 }).visited) ∧
      (byteAt (data 10 1) 8 = 0x01 ∧ 0 < (le24 (data 10 1) 4).toNat ∧ (byteAt (data 10 1) 9).getLsbD 0 = true ∧
        e.walk.offset + min (1000 - e.walk.offset) (le24 (data 10 1) 4).toNat = e.length) ∧
      ((le24 (data 0 0) 4).toNat = 0 ∧ (byteAt (data 0 0) 9).getLsbD 1 = false ∧
        (byteAt (data 0 0) 9).getLsbD 2 = false ∧ (byteAt (data 0 1) 9).getLsbD 0 = true) ∧
      ((byteAt (data 0 2) 9).getLsbD 1 = true ∧ (byteAt (data 0 4) 9).getLsbD 2 = true) ∧
      (8 ≤ e.walk.marks.length ∧ e.walk.marks = m :: List.replicate 7 m ∧ m.point ≤ 256 ∧ 0 < m.point) ∧
      sender.walk.marks.length < 8 := by decide +kernel

/-- A mark queue examined: a head mark that waits in the line for report queue entries that are not free, one whose
point is above the bytes done, and one that is reached, with the queues free and with the report queue full. -/
theorem test_meets_EntryReadFeedsDrain_marks :
    let m : Mark := ⟨0x3000, 0, 10, true, true⟩
    let e := { receiver with drained := 10, walk := { receiver.walk with marks := [m] } }
    let s := with2 e
    let w := { s with rpt := { s.rpt with queue := List.replicate 7 (.note 1 2 3), line := [.mark 2] } }
    w.headMarkRests 2 e 10 ∧ s.headMarkRests 2 e 9 ∧ m.point ≤ 10 ∧ s.reportOpen 2 ∧ s.ctrlOpen ∧ s.txq.ctrl = [] ∧
      8 < w.rpt.queue.length + 2 ∧ s.rpt.line = [] := by
  refine ⟨fun m' r h => .inr ?_, fun m' r h => .inl ?_, by decide +kernel, by decide +kernel, by decide +kernel,
    by decide +kernel, by decide +kernel, by decide +kernel⟩ <;>
  · injection h with h1 _
    subst h1
    decide +kernel

/-- Two pending entries behind one that no offer fits: the walk stops at the second with the control queue full. -/
theorem test_meets_RescanBinds_more :
    let far : Deferred := { asked with dir := .pull }
    let next : Deferred := { asked with tag := ⟨0, 3⟩ }
    let v := { offer0 .openState with orderTag := 6 }
    let u0 := holding [far, asked, next] (lined [.rescan] (queued (List.replicate 14 (own2 .hold false)) on))
    let s := { u0 with xen := { u0.xen with
      rescanDue := true, offers := (u0.xen.offers.set 4 (some (offer0 .openState))).set 5 (some v),
      postOrder := [4, 5] } }
    (s.runs = true ∧ s.sct.station = .online ∧ s.xen.rescanDue = true ∧ s.xen.rescanAt = none ∧
        s.xen.deferred = [far] ++ asked :: [next] ∧ s.matchOffer far.peer far.dir far.key = none ∧
        s.freeSlot = some 0 ∧ s.txq.ctrl.length < 15 ∧ s.txq.owed = [] ∧ s.txq.line = [.rescan] ∧
        s.rpt.queue.length < 8) ∧
      (s.matchOffer asked.peer asked.dir asked.key = some 4 ∧ s.offer 4 = some (offer0 .openState) ∧
        asked.size ≤ (offer0 .openState).size ∧ (∀ x ∈ s.txq.ctrl, x.owner ≠ .slot 0 (s.gen 0))) ∧
      (let q := queued (List.replicate 15 (own2 .hold false)) s;
        let t := after .rescan { q with xen := { q.xen with deferred := [asked, next] } };
        t.txq.ctrl.length = 16 ∧ t.xen.deferred = [next] ∧ t.xen.rescanDue = true ∧ t.xen.rescanWaits = true ∧
          t.txq.line = [.rescan] ∧ t.matchOffer next.peer next.dir next.key = some 5) := by decide +kernel

/-- Slots that are not released: an ABORT owed, an ABORT queued, a transfer left; and no record. -/
theorem test_meets_SlotReleased_kept :
    (with2 (ended .completed .owed)).ex 2 = some (ended .completed .owed) ∧ on.runs = true ∧ on.ex 2 = none ∧
      (with2 (ended .completed .queued)).ex 2 = some (ended .completed .queued) ∧
      0 < ({ ended .completed .settled with transfers := 1 }).transfers ∧ sender.state ≠ .retiring := by decide +kernel

/-- A DATA frame taken back, or held back in turn, whose exchange is alive, has ended, or has been released. -/
theorem test_meets_TransmitChoiceHandsOver_owner :
    let v : OutBuffer := ⟨.sending, 2, 0, 0, 2, [8, 9]⟩
    let s := fun e => (lane .idle (some dataTx) (queued [own2 .hold false] (with2 e))).setBuffer 0 (some v)
    let b := fun e => let t := (with2 e).setBuffer 0 (some { v with state := .ready });
      { t with txq := { t.txq with takenBack := some 0 } }
    ((s sender).onLane = true ∧ (s sender).lpt.tx = some ⟨.data 0, dataTx.frame, 0, false⟩ ∧
        (s sender).lpt.phase ≠ .won ∧ (s sender).buffer 0 = some v ∧ (s sender).ex v.slot = some sender ∧
        v.gen = (s sender).gen v.slot) ∧
      ((s (ended .completed .owed)).ex v.slot = some (ended .completed .owed) ∧
        (ended .completed .owed).state = .retiring) ∧
      ((b (ended .completed .owed)).lpt.tx = none ∧ (b (ended .completed .owed)).txq.ctrl = [] ∧
        (b (ended .completed .owed)).txq.takenBack = some 0 ∧ (b sender).ex v.slot = some sender) ∧
      (({ v with gen := 1 }).gen ≠ (s sender).gen v.slot) := by decide +kernel

/-- Each claimant of a freed control queue entry at the head of the line, and a full queue. -/
theorem test_meets_FreedEntryGiven_more :
    let f := from5 true (.openReq 7 .push 2000)
    let full := queued (List.replicate 16 (own2 .hold false)) on
    (let s := lined [.pendingAbort 5 ⟨0, 2⟩] (holding [asked] on);
      s.up = true ∧ s.txq.ctrl.length < 16 ∧ s.sct.station ≠ .fault ∧ s.txq.owed = [] ∧
        s.txq.line = .pendingAbort 5 ⟨0, 2⟩ :: [] ∧ s.xen.rescanAt = none) ∧
      (let s := lined [.inboxHead] (boxed f on);
        s.txq.line = .inboxHead :: [] ∧ s.headNeedsCtrl = true ∧ s.headNeedsReport = false) ∧
      (let s := lined [.rescan] on;
        let t := { s with xen := { s.xen with rescanDue := true, rescanWaits := true } };
        t.txq.line = .rescan :: [] ∧ t.xen.rescanDue = true ∧ t.xen.rescanWaits = true ∧ t.sct.station = .online ∧
          t.freeSlot ≠ none) ∧
      (full.up = true ∧ 16 ≤ full.txq.ctrl.length ∧ full.lpt.tx = none) := by decide +kernel

/-- A DATA frame taken back for the frame that is placed. -/
theorem test_meets_FreedEntryGiven_takeBack :
    let v : OutBuffer := ⟨.sending, 2, 0, 0, 2, [8, 9]⟩
    let s := lined [.frame (from5 true .hold) .nobody] ((lane .idle (some dataTx) (with2 sender)).setBuffer 0 (some v))
    (s.runs = true ∧ s.txq.ctrl = [] ∧ s.txq.owed = [] ∧ s.txq.line = .frame (from5 true .hold) .nobody :: []) ∧
      (∀ k d m, (from5 true .hold).body ≠ .openReq k d m) ∧
      (s.lpt.tx = some ⟨.data 0, dataTx.frame, 0, false⟩ ∧ s.lpt.phase ≠ .won ∧ s.buffer 0 = some v ∧
        s.ex v.slot = some sender ∧ sender.state ≠ .retiring ∧ v.gen = s.gen v.slot) :=
  ⟨by decide +kernel, fun _ _ _ h => (by cases h), by decide +kernel⟩

/-- A transfer that would wrap, alone and before another request, and a transfer at the top of the address space. -/
theorem test_meets_PortChoosesAndBusErrors_wrap :
    let r : Request := ⟨.entryRead 2 0, 0xFFFFFFF8, 16, []⟩
    let q : Request := ⟨.orderFetch, 0x1000, 32, []⟩
    let s := fun l => { with2 { sender with transfers := 1 } with lmp := ⟨l, none, ⟨false, 0⟩⟩ }
    ((s [r]).runs = true ∧ (s [r]).lmp.transfer = none ∧ (s [r, q]).lmp.waiting = r :: [q] ∧
        r.purpose.client ≤ q.purpose.client ∧ 2 ^ 32 < r.addr + r.count ∧ (s [r]).gen 2 = 0) ∧
      (after .lmpChooseTransfer (s [r])).lmp.waiting = [] ∧
      (after .lmpChooseTransfer (s [r, q])).lmp = ⟨[], some q, ⟨false, 0⟩⟩ ∧ q.addr + q.count ≤ 2 ^ 32 ∧
      0xFFFFFFF0 + 16 ≤ 2 ^ 32 := by decide +kernel

/-- The first, an inner and the last beat of a transfer that is not aligned, and the beat after it. -/
theorem test_meets_PortChoosesAndBusErrors_beats :
    let r : Request := ⟨.drainWrite 2 0 7, 0x3002, 6, [1, 2, 3, 4, 5, 6]⟩
    0 < r.count ∧ r.beat 0 = some ⟨0x3000, 0b1100#4, [none, none, some 1, some 2]⟩ ∧
      r.beat 1 = some ⟨0x3004, 0b1111#4, [some 3, some 4, some 5, some 6]⟩ ∧ r.beat 2 = none ∧
      r.addr + r.count ≤ 4 * (r.addr / 4 + 2) := by decide +kernel

/-- Each order transfer that fails, with another of the Order Unit that waits for its end. -/
theorem test_meets_PortChoosesAndBusErrors_orders :
    let f := orders .inProgress .fetching false (moving .orderFetch 32 on)
    let i := orders .inProgress .absent true (moving .indexWrite 4 on)
    let r := orders .furtherDue .absent true (moving .ringWords 8 on)
    (f.ending ⟨.orderFetch, 0x3000, 32, []⟩ ∧ f.ord.orderFault = false ∧ f.reportOpen 1) ∧
      (i.ending ⟨.indexWrite, 0x3000, 4, []⟩ ∧ i.ord.orderFault = false) ∧
      (r.ending ⟨.ringWords, 0x3000, 8, []⟩ ∧ r.ord.ringRead = .furtherDue) ∧
      (after .busError f).lmp.waiting = [⟨.ringWords, 0x420, 8, []⟩] ∧
      (after .busError i).lmp.waiting = [⟨.ringWords, 0x420, 8, []⟩] ∧
      (after .busError r).lmp.waiting = [⟨.ringWords, 0x420, 8, []⟩] ∧ (after .busError r).ord.indexWrite = false := by
  decide +kernel

/-- A bus error that stops an attached station, and one that stops a station that is not. -/
theorem test_meets_PortChoosesAndBusErrors_fault :
    let s := moving .statusWord 4 (holding [{ asked with tag := ⟨0, 9⟩ }] (with2 sender))
    s.ending ⟨.statusWord, 0x3000, 4, []⟩ ∧ s.sct.station = .online ∧
      (after .busError s).sct.faultAborts = [⟨5, ⟨0, 2⟩, true⟩, ⟨5, ⟨0, 9⟩, false⟩] ∧
      (moving .reportEntry 16 (up .offline)).ending ⟨.reportEntry, 0x3000, 16, []⟩ ∧
      (up .offline).sct.station ≠ .online ∧ (up .offline).sct.station ≠ .detaching := by decide +kernel

/-- Each thing that DETACH_COMPLETE and PRESENCE_END wait for. -/
theorem test_meets_DetachAndPresenceEnd_more :
    let s := up .detaching
    let f := up .fault
    (holding [asked] s).xen.deferred ≠ [] ∧ (queued [own2 .hold false] s).txq.ctrl ≠ [] ∧
      (lane .idle (some (ctrlTx .hold 0)) s).lpt.tx ≠ none ∧ (boxed (from5 true .hold) s).lpt.inbox ≠ [] ∧
      ({ s with txq := { s.txq with owed := [2] } }).txq.owed ≠ [] ∧ s.sct.station = .detaching ∧
      ((lined [.credit 2] s).txq.line = [.credit 2] ∧ CtrlClaim.credit 2 ≠ .rescan ∧ CtrlClaim.credit 2 ≠ .inboxHead) ∧
      (∀ c ∈ (lined [.rescan] s).txq.line, c = .rescan) ∧
      ({ f.sct with faultAborts := [⟨5, ⟨0, 2⟩, true⟩] }).faultAborts ≠ [] ∧
      (queued [⟨from5 true .hold, .stationControl, 0, true⟩] f).txq.ctrl.map (·.owner) = [.stationControl] ∧
      (lane .idle (some (ctrlTx .hold 0)) f).lpt.tx ≠ none := by decide +kernel

/-- A station that still drives the pulse of a CLR, whose ACK awaits the event. -/
def pulsing (st : StationState) : State :=
  let s := up st
  { s with
    lpt := { s.lpt with pins := { s.lpt.pins with lcl := true } },
    ord := { s.ord with acks := [⟨0x11, .clr, .clearPulse, false⟩] } }

/-- FAULT entered behind a report while the pulse of a CLR is driven, and while none is. -/
theorem test_meets_ReportPath_pulse :
    let q := fun s : State => moving .producerWord 4 { s with rpt := { s.rpt with queue := [.station .fault .orderRead] } }
    ((q (pulsing .online)).ending ⟨.producerWord, 0x3000, 4, []⟩ ∧ (q (pulsing .online)).lpt.pins.lcl = true ∧
        (q (pulsing .online)).takesClear = true ∧ (q (pulsing .online)).rpt.stationWaiting = [] ∧
        (q (pulsing .online)).ord.acks = [⟨0x11, .clr, .clearPulse, false⟩]) ∧
      ((q on).lpt.pins.lcl = false ∧ (q on).rpt.queue = .station .fault .orderRead :: []) ∧
      (q (up .offline)).takesClear = false := by decide +kernel

/-- FAULT entered by a bus error while the pulse of a CLR is driven. -/
theorem test_meets_PortChoosesAndBusErrors_pulse :
    let s := moving .statusWord 4 (pulsing .detaching)
    s.ending ⟨.statusWord, 0x3000, 4, []⟩ ∧ s.lpt.pins.lcl = true ∧ s.sct.station = .detaching ∧ s.reportOpen 1 ∧
      s.ord.acks = [⟨0x11, .clr, .clearPulse, false⟩] ∧ on.lpt.pins.lcl = false ∧
      (up .offline).lpt.pins.lcl = false := by decide +kernel

/-- A detach that is complete while the pulse of a CLR is driven. -/
theorem test_meets_DetachAndPresenceEnd_pulse :
    let s := pulsing .detaching
    s.up = true ∧ s.sct.station = .detaching ∧ s.reportOpen 1 ∧ (∀ i, s.ex i = none) ∧ s.xen.deferred = [] ∧
      s.txq.ctrl = [] ∧ s.txq.owed = [] ∧ s.txq.line = [] ∧ s.lpt.tx = none ∧ s.lpt.inbox = [] ∧
      s.lpt.pins.lcl = true ∧ s.rpt.queue.length < 7 ∧ s.ord.acks = [⟨0x11, .clr, .clearPulse, false⟩] ∧
      (up .detaching).lpt.pins.lcl = false := by decide +kernel

/-- In FAULT: an ABORT and a DATA frame that are not answered, with attempts left and without, and a DATA frame that
is. -/
theorem test_meets_UnansweredFrameEnds_fault :
    let t := fun n => ctrlTx (.abort .quiet) n
    let d := fun n => { dataTx with attempts := n, begun := true }
    let s := fun t => lane (.sent false) (some t) (up .fault)
    ((s (t 3)).observes = true ∧ (s (t 3)).sct.station = .fault ∧ (s (t 3)).lpt.phase = .sent false ∧
        (s (t 3)).lpt.tx = some (t 3) ∧ (t 3).src = .ctrl) ∧
      1 + (s (t 3)).par.linkRetry ≤ (t 3).attempts ∧ (t 2).attempts < 1 + (s (t 2)).par.linkRetry ∧
      (t 3).frame.body = .abort .quiet ∧ (s (d 3)).observes = true ∧ (s (d 3)).lpt.tx = some (d 3) ∧
      (d 3).isData = true ∧ 1 + (s (d 3)).par.linkRetry ≤ (d 3).attempts ∧
      (d 2).attempts < 1 + (s (d 2)).par.linkRetry := by decide +kernel

/-- In FAULT a DATA frame leaves the transmit slot at the end of its acknowledge slot; unanswered at its last attempt it
makes its destination SILENT, and the fault aborts to that peer go (R124, R129, R173). -/
theorem test_fault_data_unanswered :
    let v : OutBuffer := ⟨.sending, 2, 0, 0, 2, [8, 9]⟩
    let f := up .fault
    let s := fun n => (lane (.sent false) (some { dataTx with attempts := n, begun := true })
      { f with sct := { f.sct with faultAborts := [⟨5, ⟨0, 2⟩, true⟩, ⟨6, ⟨0, 2⟩, true⟩] } }).setBuffer 0 (some v)
    let t := fun a n => after (.acknowledgeSlot a false) (s n)
    ((t false 3).lpt.tx = none ∧ (t false 3).peer 5 = .silent ∧ (t false 3).peer 6 = .unknown ∧
        (t false 3).sct.faultAborts = [⟨6, ⟨0, 2⟩, true⟩] ∧ (t false 3).buffer 0 = some v) ∧
      ((t false 2).lpt.tx = none ∧ (t false 2).peer 5 = .unknown ∧ (t false 2).sct = (s 2).sct) ∧
      (t true 3).lpt.tx = none ∧ (t true 3).peer 5 = .unknown ∧ (t true 3).sct = (s 3).sct := by decide +kernel

/-- A DATA frame TAKEN with a mark queued whose point is not reached. -/
theorem test_meets_LinkOutcomesReachTheSlot_marks :
    let m : Mark := ⟨0x3000, 0, 256, true, false⟩
    let e := { sender with walk := { sender.walk with marks := [m, m] } }
    let v : OutBuffer := ⟨.sending, 2, 0, 0, 2, [8, 9]⟩
    let s := (lane (.sent false) (some dataTx) (with2 e)).setBuffer 0 (some v)
    s.observes = true ∧ s.lpt.phase = .sent false ∧ s.lpt.tx = some dataTx ∧ s.ex 2 = some e ∧ s.buffer 0 = some v ∧
      v.gen = s.gen 2 ∧ e.state = .sending ∧ e.walk.marks = m :: [m] ∧ e.role = .originator ∧ e.dir = .push ∧
      e.acknowledged + v.payload.length < m.point ∧ e.walk.marks = [] ++ [m, m] ∧
      (let n := { m with point := 2, index := 1 };
        let e := { sender with walk := { sender.walk with marks := [n, m] } };
        e.walk.marks = [n] ++ [m] ∧ n.note = true ∧ n.pause = false ∧ n.point ≤ e.acknowledged + v.payload.length ∧
          s.reportOpen [n].length ∧ s.buffer 1 = none) := by decide +kernel

/-- A DATA frame TAKEN at a RETIRING slot, with another generation and at a FREE slot, and BUSY at a sending slot. -/
theorem test_meets_LinkOutcomesReachTheSlot_dropped :
    let v := fun i g => (⟨.sending, i, g, 0, 2, [8, 9]⟩ : OutBuffer)
    let s := fun v e => (lane (.sent false) (some dataTx) (with2 e)).setBuffer 0 (some v)
    let r := ended .completed .owed
    ((s (v 2 0) r).observes = true ∧ (s (v 2 0) r).lpt.tx = some dataTx ∧ (s (v 2 0) r).buffer 0 = some (v 2 0) ∧
        (s (v 2 0) r).ex 2 = some r ∧ r.state ≠ .sending) ∧
      (s (v 2 1) sender).gen 2 ≠ 1 ∧ (s (v 6 0) sender).ex 6 = none ∧ (s (v 2 0) sender).ex 2 = some sender := by
  decide +kernel

/-- The PROBE's own TAKEN in PROBING. -/
theorem test_meets_LinkOutcomesReachTheSlot_probe :
    let c : CtrlEntry := ⟨⟨3, 3, true, ⟨0, 0⟩, .probe 7⟩, .stationControl, 0, true⟩
    let t : TxFrame := ⟨.ctrl, c.frame, 1, true⟩
    let s := queued [c] (lane (.sent false) (some t) (up .probing))
    s.observes = true ∧ s.sct.station = .probing ∧ s.lpt.phase = .sent false ∧ s.lpt.tx = some t ∧ t.src = .ctrl ∧
      s.txq.ctrl = [] ++ c :: [] ∧ c.inSlot = true ∧ c.owner = .stationControl ∧ c.frame.body = .probe 7 ∧
      s.reportOpen 1 := by decide +kernel

/-- The outcomes of Station Control's ABORT in FAULT, of another frame there, and of a DATA frame. -/
theorem test_meets_LinkOutcomesReachTheSlot_fault :
    let c : CtrlEntry := ⟨⟨5, 3, true, ⟨0, 2⟩, .abort .stationFault⟩, .stationControl, 0, true⟩
    let s := fun c => queued [c] (lane (.sent false) (some (ctrlTx (.abort .stationFault) 1)) (up .fault))
    ((s c).observes = true ∧ (s c).sct.station = .fault ∧ (s c).lpt.phase = .sent false ∧
        (s c).txq.ctrl = [] ++ c :: [] ∧ (s c).txq.ctrl.length ≤ 16 ∧ c.inSlot = true ∧ c.busy + 1 < 64 ∧
        c.owner = .stationControl ∧ c.frame.body = .abort .stationFault) ∧
      64 ≤ ({ c with busy := 63 }).busy + 1 ∧ (own2 .hold true).owner ≠ .stationControl ∧
      (lane (.sent false) (some dataTx) (up .fault)).lpt.tx = some dataTx ∧ dataTx.isData = true := by decide +kernel

/-- A lane clear that includes the pulse of a CLR, beside an ACK that awaits a release and one that awaits OFFLINE. -/
theorem test_meets_LaneClearClearsStation_acks :
    let r : AckEntry := ⟨0x12, .cancel, .release 2 0, false⟩
    let d : AckEntry := ⟨0x13, .detach, .offlineReport, false⟩
    let u := pulsing .online
    let s := { u with ord := { u.ord with acks := u.ord.acks ++ [r, d] } }
    s.takesClear = true ∧ s.reportOpen 1 ∧ s.lpt.pins.lcl = true ∧
      s.ord.acks[0]? = some ⟨0x11, .clr, .clearPulse, false⟩ ∧ s.ord.acks[1]? = some r ∧ s.ord.acks[2]? = some d := by
  decide +kernel

/-- A head order that waits for a report queue entry, oldest in the line, of a kind of its own and of an undefined kind. -/
theorem test_meets_OrderRefused_waiting :
    let s := fun o n => { orders .idle (.record o .report) false on with
      rpt := { on.rpt with queue := List.replicate n (.note 1 2 3), line := [.head, .mark 2] } }
    let o := { order 0x01 with peer := 3 }
    ((s o 7).takesOrders = true ∧ (s o 7).ord.orderFault = false ∧ (s o 7).ord.head = .record o .report ∧
        (s o 7).reasonToRefuse o = some .badPeer ∧ (s o 7).rpt.queue.length < 8 ∧ (s o 7).rpt.stationWaiting = [] ∧
        (s o 7).rpt.line = .head :: [.mark 2] ∧ 8 ≤ (s o 8).rpt.queue.length) ∧
      (s (order 0x0A) 7).reasonToRefuse (order 0x0A) = some .badOrder ∧ 9 < (order 0x0A).kind.toNat := by decide +kernel

/-- The target of WITHDRAW: behind a WITHDRAWING offer with the tag, and none beside it. -/
theorem test_meets_WithdrawActs_target :
    let s := offering (offer0 (.withdrawing 2)) on
    let t := { s with xen := { s.xen with
      offers := s.xen.offers.set 7 (some (offer0 .openState)), postOrder := [4] ++ 7 :: [] } }
    (t.xen.postOrder = [4] ++ 7 :: [] ∧ t.offer 7 = some (offer0 .openState) ∧ (offer0 .openState).orderTag = 5 ∧
        (offer0 .openState).state = .openState ∧ (offer0 (.bound 2)).state = .bound 2 ∧
        t.offer 4 = some (offer0 (.withdrawing 2)) ∧ (offer0 (.withdrawing 2)).state = .withdrawing 2) ∧
      (t.withdrawTarget 5 = some 7 ∧ s.xen.postOrder = [4] ∧ s.withdrawTarget 5 = none) := by decide +kernel

/-- Orders read that pass the checks of R139, one of each kind, and that are refused at once, with an entry free and with
the report queue full. -/
theorem test_meets_OrderReadPath_kinds :
    let m := moving .orderFetch 32 on
    let o := fun (l : List Byte) => OrderRec.parse (l ++ List.replicate (32 - l.length) 0)
    let full := { m with rpt := { m.rpt with queue := List.replicate 8 (.note 1 2 3) } }
    (m.reasonToRefuse (o [1]) = none ∧ m.reasonToRefuse (o [2]) = none ∧ m.reasonToRefuse (o [3, 1]) = none ∧
        (∀ k ∈ ([4, 5, 6, 7, 8, 9] : List Byte), m.reasonToRefuse (o [k]) = none)) ∧
      (m.reasonToRefuse (o [1, 0, 0, 0, 3]) = some .badPeer ∧ m.reasonToRefuse (o [0]) = some .badOrder ∧
        m.reportOpen 1) ∧
      full.ending ⟨.orderFetch, 0x3000, 32, []⟩ ∧ 8 ≤ full.rpt.queue.length ∧ full.rpt.line = [] := by decide +kernel

/-- The write of the producer word ends with a full report queue, so that one entry comes free, and somebody waits. -/
def handing (w : List StationWait) (l : List ReportClaim) (s : State) : State :=
  moving .producerWord 4 { s with
    rpt := { s.rpt with queue := List.replicate 8 (.note 1 2 3), stationWaiting := w, line := l } }

/-- The freed entry: a STATION report first, with a mark behind it; a mark that needs two; a due ACK with a release behind
it; the head order, refused, of an undefined kind, and a CANCEL without a target. -/
theorem test_meets_ReportPath_served :
    let m : Mark := ⟨0x3000, 0, 10, true, true⟩
    let e := { receiver with drained := 10, walk := { receiver.walk with marks := [m] } }
    let a : AckEntry := ⟨9, .clr, .offlineReport, true⟩
    let h := fun o => handing [] [.head, .mark 2] (orders .idle (.record o .report) false on)
    let w : StationWait := ⟨.online, .laneCleared, 1⟩
    ((handing [w] [.mark 2] (with2 e)).ending ⟨.producerWord, 0x3000, 4, []⟩ ∧
        (handing [w] [.mark 2] (with2 e)).rpt.queue = .note 1 2 3 :: List.replicate 7 (.note 1 2 3) ∧
        (handing [w] [.mark 2] (with2 e)).rpt.stationWaiting = w :: []) ∧
      ((handing [] [.mark 2] (with2 e)).ex 2 = some e ∧ e.walk.marks.head? = some m ∧ m.note = true ∧ m.pause = true) ∧
      (({ on.ord with acks := [a] }).acks = [] ++ a :: [] ∧ a.due = true ∧ ReportClaim.acks ∉ [ReportClaim.release 2]) ∧
      ((h (order 0x0A)).reasonToRefuse (order 0x0A) = some .badOrder ∧ (h (order 0x0A)).takesOrders = true ∧
        (h (order 0x0A)).ord.orderFault = false ∧ (h (order 0x0A)).ord.head = .record (order 0x0A) .report) ∧
      ((order 0x05).kind = 0x05 ∧ (h (order 0x05)).exchangeTarget (order 0x05).target = none) := by decide +kernel

/-- A claimant that waits alone: a release, a mark, the inbox head and a rescan. -/
theorem test_meets_ReportPath_alone :
    let r := ended .completed .settled
    let m : Mark := ⟨0x3000, 0, 10, true, false⟩
    let e := { receiver with drained := 10, walk := { receiver.walk with marks := [m] } }
    let small := { offer0 .openState with size := 10 }
    let i := handing [] [.inboxHead] (boxed (from5 true (.openReq 7 .push 1000)) (offering small on))
    let u := handing [] [.rescan] (lined [.rescan] (holding [asked] (offering small on)))
    let x := { u with xen := { u.xen with rescanAt := some 0 } }
    ((handing [] [.release 2] (with2 r)).ex 2 = some r ∧ r.state = .retiring ∧ r.transfers = 0 ∧
        r.outcome = some ⟨.completed, .settled, .quiet⟩ ∧ r.role = .originator) ∧
      ((handing [] [.mark 2] (with2 e)).ex 2 = some e ∧ e.walk.marks = [m] ∧ m.point ≤ e.doneBytes ∧ m.note = true ∧
        (∀ b, (handing [] [.mark 2] (with2 e)).buffer b = none)) ∧
      (i.headNeedsReport = true ∧ i.txq.ctrl.length < 16 ∧ i.txq.owed = [] ∧ i.txq.line = []) ∧
      (x.ending ⟨.producerWord, 0x3000, 4, []⟩ ∧ x.xen.rescanAt = some ([] : List Deferred).length ∧
        x.sct.station = .online ∧ x.xen.deferred = [] ++ asked :: [] ∧ x.xen.rescanDue = false ∧
        x.xen.rescanWaits = false ∧ x.txq.ctrl.length < 16 ∧ x.txq.owed = [] ∧ x.txq.line = [.rescan] ∧
        x.matchOffer asked.peer asked.dir asked.key = some 4 ∧ x.offer 4 = some small ∧ asked.dir = .push ∧
        small.size < asked.size) := by decide +kernel

/-! ### Single steps of rarer cases -/

/-- The lane clear event of a CLR's pulse comes before DETACH_COMPLETE, and the CLR's ACK is due. -/
theorem test_own_clear_at_detach :
    let t := after .detachComplete (pulsing .detaching)
    t.rpt.queue = [.station .detaching .laneCleared, .station .offline .detached] ∧
      t.ord.acks.map (·.due) = [true] ∧ t.lpt.pins.lcl = false := by decide +kernel

/-- It comes before FAULT too. -/
theorem test_own_clear_at_fault :
    let t := after .busError (moving .statusWord 4 ((pulsing .online).setEx 2 (some sender)))
    t.rpt.queue = [.station .online .laneCleared] ∧ t.ord.acks.map (·.due) = [true] ∧ t.sct.faultAborts = [] ∧
      t.lpt.pins.lcl = false := by decide +kernel

/-- A due ACK waits at its own place: behind a release that began waiting earlier. -/
theorem test_ack_places :
    let a : AckEntry := ⟨1, .cancel, .offlineReport, true⟩
    let s := { with2 (ended .completed .settled) with
      rpt := { on.rpt with queue := List.replicate 8 (.paused 1 2), line := [.acks, .release 2] },
      ord := { on.ord with acks := [a, { a with tag := 2 }] } }
    let t := after .dueAckQueued s
    t.rpt.line = [.acks, .release 2, .acks] ∧
      (after .producerWordWriteDone (moving .producerWord 4 t)).rpt.line = [.release 2, .acks] := by decide +kernel

/-- A due rescan that had no FREE slot keeps no entry for itself once a slot is released with the queue no longer full. -/
theorem test_rescan_waits_dropped :
    let full := slotIds.foldl (fun s i => s.setEx i (some (ended .completed .settled))) on
    let s := { full with
      xen := { full.xen with rescanDue := true, rescanWaits := true },
      txq := { full.txq with line := [.rescan], ctrl := List.replicate 15 (own2 .hold false) } }
    (after (.slotRelease 2) s).xen.rescanWaits = false := by decide +kernel

/-- LGNT, then the end of a beat; the last beat waits for the command that ends the transfer. -/
theorem test_bus_tick :
    let r : Request := ⟨.drainWrite 2 0 7, 0x3002, 6, [1, 2, 3, 4, 5, 6]⟩
    step (onBus r ⟨false, 0⟩) = .next (onBus r ⟨true, 0⟩) ∧ step (onBus r ⟨true, 0⟩) = .next (onBus r ⟨true, 1⟩) ∧
      step (onBus r ⟨true, 1⟩) = .next (onBus r ⟨true, 1⟩) :=
  ⟨rfl, rfl, rfl⟩

/-- The beat on the bus, and the bytes that a write has left when that beat ends with LERR. -/
theorem test_bus_beat :
    let s := onBus ⟨.drainWrite 2 0 7, 0x3002, 6, [1, 2, 3, 4, 5, 6]⟩ ⟨true, 1⟩
    s.busBeat = some ⟨0x3004, 0b1111#4, [some 3, some 4, some 5, some 6]⟩ ∧
      s.bytesWritten = [(0x3002, 1), (0x3003, 2)] := by decide +kernel

/-- A station that takes no lane clear ends its pulse and goes back to observing. -/
theorem test_lane_clear_ignored :
    let t := after .laneClear (lane (.answered .taken .probe) none (up .offline))
    t.lpt.phase = .idle ∧ t.lpt.pins.ack = none ∧ t.lpt.pins.lcl = false := by decide +kernel

/-- The buffer of an exchange that has ended is given up when its DATA frame is taken back. -/
theorem test_take_back_ended :
    let s := lane .idle (some dataTx) (queued [own2 .hold false] (with2 (ended .completed .owed)))
    let t := after .transmitChoice (s.setBuffer 0 (some ⟨.sending, 2, 0, 0, 2, [8, 9]⟩))
    t.buffer 0 = none ∧ t.txq.takenBack = none ∧ t.lpt.tx.map (·.src) = some .ctrl := by decide +kernel

/-- A CREDIT returns BUSY with its old limit beside a due one in the line, which raises it when it is served. -/
theorem test_busy_credit_keeps_limit :
    let s := lined [.credit 2] (queued [own2 (.credit 256) true]
      (lane (.sent false) (some (ctrlTx (.credit 256) 1)) (with2 receiver)))
    let t := after (.acknowledgeSlot false true) s
    let u := after .controlFramePlaced t
    t.txq.ctrl.map (fun c => (c.frame.body, c.busy, c.inSlot)) = [(.credit 256, 1, false)] ∧ t.txq.line = [.credit 2] ∧
      u.txq.ctrl.map (fun c => (c.frame.body, c.busy, c.inSlot)) = [(.credit 512, 1, false)] ∧ u.txq.line = [] := by
  decide +kernel

/-- A frame TAKEN that reaches two NOTE marks: both reports are queued, also where the fill that waits for the END entry
then ends the exchange with LIST_SHORT. -/
theorem test_marks_before_fill :
    let m := fun p => (⟨0x3000, p, 1, true, false⟩ : Mark)
    let d : Entry := ⟨0, 0, false, false, true⟩
    let e := { sender with
      prepared := 300, walk := { sender.walk with offset := 300, cached := some d, marks := [m 1, m 2] } }
    let s := ((lane (.sent false) (some dataTx) (with2 e)).setBuffer 0 (some ⟨.sending, 2, 0, 0, 2, [8, 9]⟩)).setBuffer 1
      (some ⟨.filling, 2, 0, 300, 512, []⟩)
    let t := after (.acknowledgeSlot true false) s
    t.rpt.queue = [.note 5 0x3000 1, .note 5 0x3000 2] ∧
      (t.ex 2).bind (·.outcome) = some ⟨.failed .listShort none, .queued, .listShort⟩ := by decide +kernel

/-- Two reached NOTE marks at the head, without and with a fill that waits at an exhausted END entry. -/
theorem test_meets_MarksAct_several :
    let m : Mark := ⟨0x3000, 1, 256, true, false⟩
    let d : Entry := ⟨0, 0, false, false, true⟩
    let e := { sender with
      prepared := 300, acknowledged := 256, walk := { sender.walk with offset := 300, cached := some d, marks := [m, m] } }
    let v : OutBuffer := ⟨.filling, 2, 0, 300, 512, []⟩
    let s := (with2 e).setBuffer 1 (some v)
    (s.runs = true ∧ s.ex 2 = some e ∧ (with2 e).ex 2 = some e ∧ e.role = .originator ∧ e.dir = .push ∧
        e.walk.marks = [m, m] ++ []) ∧
      (∀ x ∈ [m, m], x.note = true ∧ x.pause = false ∧ x.point ≤ e.acknowledged) ∧
      (s.reportOpen [m, m].length ∧ (∀ b, (with2 e).buffer b = none) ∧ s.buffer 1 = some v ∧ s.buffer 0 = none) ∧
      (v.slot = 2 ∧ v.gen = s.gen 2 ∧ v.state = .filling ∧ e.prepared < v.ceiling ∧ e.state = .sending ∧
        e.transfers = 0 ∧ e.walk.gate = none ∧ e.walk.cached = some d ∧ d.len ≤ e.walk.inEntry ∧ d.fin = true) := by
  decide +kernel

/-- A CREDIT in the line of a slot that has a WAITING CREDIT. -/
theorem test_meets_FreedEntryGiven_waiting :
    let y := { own2 (.credit 256) false with busy := 1 }
    let s := lined [.credit 2] (queued [y] (with2 receiver))
    s.up = true ∧ s.txq.ctrl.length < 16 ∧ s.lpt.tx = none ∧ s.sct.station ≠ .fault ∧ s.txq.owed = [] ∧
      s.txq.line = .credit 2 :: [] ∧ s.ex 2 = some receiver ∧ s.txq.ctrl = [] ++ y :: [] ∧ y.inSlot = false ∧
      y.owner = .slot 2 (s.gen 2) ∧ y.frame.body = .credit 256 := by decide +kernel

/-- A ring words read that waits for the index write is placed at its end. -/
theorem test_order_unit_one_transfer :
    let s := after .post (orders .idle .absent true (moving .indexWrite 4 on))
    s.lmp.waiting = [] ∧ (after .indexWriteDone s).lmp.waiting = [⟨.ringWords, 0x420, 8, []⟩] := by decide +kernel

/-- A head order of undefined kind that waits for a report leaves with any of the four commands that refuse an order,
once an entry is free. -/
theorem test_waiting_undefined_kind :
    let s := { orders .idle (.record (order 0x0A) .report) false on with rpt := { on.rpt with line := [.head] } }
    ∀ c ∈ [Instr.sendOrder, .fetchOrder, .offerOrder, .clrOrder],
      (after c s).rpt.queue = [.failed 0x11 .badOrder none 0] ∧ (after c s).ord.head = .absent ∧
        (after c s).rpt.line = [] ∧ (after c s).ord.taken = 1 := by decide +kernel

/-- The PROBE's own TAKEN: the station enters CONFLICT. -/
theorem test_probe_taken :
    let c : CtrlEntry := ⟨⟨3, 3, true, ⟨0, 0⟩, .probe 7⟩, .stationControl, 0, true⟩
    let t := after (.acknowledgeSlot true false) (queued [c] (lane (.sent false) (some ⟨.ctrl, c.frame, 1, true⟩)
      (up .probing)))
    t.sct.station = .conflict ∧ t.sct.faultPin = true ∧ t.txq.ctrl = [] ∧ t.lpt.tx = none ∧
      t.rpt.queue = [.station .conflict .numberTaken] := by decide +kernel

/-- A flagged entry with no bytes at the drain: its PAUSE acts at once. -/
theorem test_drain_pause_entry :
    let e := { receiver with received := 256, transfers := 1 }
    let m := moving (.entryRead 2 0) 16 (with2 e)
    let t := after (.entryReadDone [0, 0x50, 0, 0, 0, 0, 0, 0, 1, 2, 0, 0, 0, 0, 0, 0])
      { m with stg := { m.stg with drain := .choosing 2 0 } }
    t.stg.drain = .idle ∧ t.rpt.queue = [.paused 5 0] ∧ t.txq.ctrl.map (·.frame.body) = [.hold] ∧
      (t.ex 2).map (fun e => (e.localPause, e.walk.marks, e.walk.gate)) = some (true, [], some 0) := by decide +kernel

/-- An ABORT that becomes owed waits behind an older one, also with entries free. -/
theorem test_owed_in_order :
    let e := { sender with timer := ⟨.quiet, 0, .expired⟩ }
    let s := (with2 e).setEx 4 (some (ended .completed .owed))
    let t := after (.quietExpiry 2) { s with txq := { s.txq with owed := [4] } }
    t.txq.owed = [4, 2] ∧ t.txq.ctrl = [] := by decide +kernel

/-- A frame that becomes due joins the line behind an older frame, also with entries free. -/
theorem test_due_in_order :
    let e := { rec0 .backoff .originator .push with timer := ⟨.backoff, 0, .expired⟩ }
    let t := after (.backoffExpiry 2) (lined [.frame (from5 true .hold) .nobody] (with2 e))
    t.txq.ctrl = [] ∧ t.txq.line.length = 2 ∧ t.txq.line.head? = some (.frame (from5 true .hold) .nobody) := by
  decide +kernel

/-- An ABORT(UNKNOWN) never waits: it takes the last free entry also while a frame and an owed ABORT wait (R17, R106). -/
theorem test_reply_takes_free_entry :
    let s := (boxed (from5 true (.credit 256)) on).setEx 4 (some (ended .completed .owed))
    let q := lined [.frame (from5 true .hold) .nobody] (queued (List.replicate 15 (own2 .hold false)) s)
    let t := after .creditFrame { q with txq := { q.txq with owed := [4] } }
    t.txq.ctrl.map (·.frame.body) = List.replicate 15 .hold ++ [.abort .unknown] ∧
      t.txq.line = [.frame (from5 true .hold) .nobody] ∧ t.txq.owed = [4] ∧ t.lpt.inbox = [] := by decide +kernel

/-- With no entry free no ABORT(UNKNOWN) is made, and nothing is kept of it (R17). -/
theorem test_reply_not_made :
    let t := after .creditFrame (queued (List.replicate 16 (own2 .hold false)) (boxed (from5 true (.credit 256)) on))
    t.txq.ctrl.length = 16 ∧ t.txq.line = [] ∧ t.lpt.inbox = [] := by decide +kernel

/-- A due rescan uses no entry while an ABORT is owed (R106). -/
theorem test_rescan_after_owed :
    let s := { holding [asked] on with xen := { (holding [asked] on).xen with rescanDue := true } }
    let t := s.setEx 4 (some (ended .completed .owed))
    after .rescan { t with txq := { t.txq with owed := [4] } } = { t with txq := { t.txq with owed := [4] } } ∧
      (after .rescan s).xen.rescanDue = false := by decide +kernel

/-! ### Walks, marks and the fills behind them -/

/-- A walk at an offset, in its entry, with an entry cached. -/
def walk0 (offset inEntry : Nat) (d : Option Entry) (ms : List Mark) : Walk := ⟨0x3000, 4, inEntry, d, offset, 9, ms, none⟩

/-- A DATA entry of 300 bytes at 5000h. -/
def entry0 (note pause fin : Bool) : Entry := ⟨0x5000, 300, note, pause, fin⟩

/-- A mark of the entry at index 3, with its point. -/
def mark0 (point : Nat) (note pause : Bool) : Mark := ⟨0x3000, 3, point, note, pause⟩

/-- Eight marks. -/
def marks8 : List Mark := List.replicate 8 (mark0 100 true false)

/-- The answer of a walk, computed. -/
theorem answers {w x : Walk} {l u : Nat} {a : WalkAnswer} (h : w.ask l u = (x, a)) : w.Answers l u x a :=
  Walk.answers_iff.2 h

/-- Every answer of a walk, at the boundary of its condition. -/
theorem test_walk_answers :
    ({ walk0 300 0 none [] with gate := some 300 }).Answers 1000 512 { walk0 300 0 none [] with gate := some 300 } .gate ∧
    ({ walk0 300 0 none [] with visited := 4095 }).Answers 1000 512 { walk0 300 0 none [] with visited := 4096 }
      (.read 0x3040) ∧
    ({ walk0 300 0 none [] with visited := 4096 }).Answers 1000 512 { walk0 300 0 none [] with visited := 4096 }
      (.error .listLoop) ∧
    (walk0 300 100 (some (entry0 true false false)) []).Answers 500 512
      (walk0 500 300 (some (entry0 true false false)) [⟨0x3000, 4, 500, true, false⟩]) (.piece 0x5064 200) ∧
    (walk0 300 100 (some (entry0 true false false)) marks8).Answers 500 512
      (walk0 300 100 (some (entry0 true false false)) marks8) .wait ∧
    (walk0 300 300 (some (entry0 false true false)) marks8).Answers 1000 512
      (walk0 300 300 (some (entry0 false true false)) marks8) .wait ∧
    (walk0 300 300 (some (entry0 true false true)) []).Answers 1000 512
      { walk0 300 0 none [⟨0x3000, 4, 300, true, false⟩] with index := 5 } (.error .listShort) ∧
    (walk0 300 300 (some (entry0 false true false)) []).Answers 1000 512
      { walk0 300 0 none [⟨0x3000, 4, 300, false, true⟩] with index := 5, gate := some 300 } .gate ∧
    (walk0 300 300 (some (entry0 true false false)) []).Answers 1000 512
      { walk0 300 0 none [⟨0x3000, 4, 300, true, false⟩] with index := 5, visited := 10 } (.read 0x3050) ∧
    ({ walk0 300 300 (some (entry0 false false false)) marks8 with visited := 4096 }).Answers 1000 512
      { walk0 300 0 none marks8 with index := 5, visited := 4096 } (.error .listLoop) :=
  ⟨answers (by decide +kernel), answers (by decide +kernel), answers (by decide +kernel), answers (by decide +kernel),
    answers (by decide +kernel), answers (by decide +kernel), answers (by decide +kernel), answers (by decide +kernel),
    answers (by decide +kernel), answers (by decide +kernel)⟩

/-- A sender with bytes prepared whose walk stands at an exhausted entry that holds bytes. -/
def passing (ms : List Mark) (note pause : Bool) : Exchange :=
  { sender with prepared := 300, walk := walk0 300 300 (some (entry0 note pause false)) ms }

/-- A fill that starts at an exhausted entry that holds bytes, one that goes on there below its ceiling, and one that
ends at it. -/
theorem test_meets_FillMakesBufferReady_passing :
    let e := passing [] true false
    let s := with2 e
    let p := { e with transfers := 1 }
    let m := fun v => moving (.dataRead 2 0 0) 2 ((with2 p).setBuffer 0 (some v))
    let v : OutBuffer := ⟨.filling, 2, 0, 256, 301, []⟩
    (inTurn s.fillEligible s.fbd.lastFill 2 ∧ s.ex 2 = some e ∧ s.buffer 0 = none) ∧
      e.walk.Answers e.length 512 { walk0 300 0 none [⟨0x3000, 4, 300, true, false⟩] with index := 5, visited := 10 }
        (.read 0x3050) ∧
      ((m v).ending ⟨.dataRead 2 ((m v).gen 2) 0, 0x3000, ([8, 9] : List Byte).length, []⟩ ∧ (m v).ex 2 = some p ∧
        (m v).buffer 0 = some v ∧ p.prepared < v.ceiling ∧ { v with ceiling := 300 }.ceiling ≤ p.prepared ∧
        p.state ≠ .retiring) ∧
      p.walk.Answers p.length v.ceiling
        { walk0 300 0 none [⟨0x3000, 4, 300, true, false⟩] with index := 5, visited := 10 } (.read 0x3050) :=
  ⟨⟨⟨by decide +kernel, by decide +kernel⟩, rfl, rfl⟩,
    answers (by decide +kernel), by decide +kernel,
    answers (by decide +kernel)⟩

/-- FILL_START passes the exhausted entry: its mark is recorded with its point, and the next entry is read. -/
theorem test_fill_passes_entry :
    let t := after .fillStart (with2 (passing [] true false))
    (t.ex 2).map (fun e => (e.walk.marks, e.walk.index, e.walk.visited, e.walk.gate)) =
        some ([⟨0x3000, 4, 300, true, false⟩], 5, 10, none) ∧
      t.lmp.waiting = [⟨.entryRead 2 0, 0x3050, 16, []⟩] := by decide +kernel

/-- FILL_START passes an exhausted PAUSE entry: the gate closes there, and the frame has no byte. -/
theorem test_fill_meets_gate :
    let t := after .fillStart (with2 (passing [] false true))
    (t.ex 2).map (fun e => (e.walk.marks, e.walk.gate)) = some ([⟨0x3000, 4, 300, false, true⟩], some 300) ∧
      t.lmp.waiting = [] ∧ t.buffer 0 = none := by decide +kernel

/-- A receiver with 512 bytes received whose walk stands at an exhausted entry that holds bytes, and its cell. -/
def draining (ms : List Mark) (note pause : Bool) : State :=
  (with2 { receiver with
    received := 512, drained := 300, walk := walk0 300 300 (some (entry0 note pause false)) ms }).setCell 7
    (some ⟨.filled, 2, 0, 1, List.replicate 256 1⟩)

/-- The drain at an exhausted entry that holds bytes: with its mark recorded it is chosen, at a PAUSE also, and at a full
list of marks it is not. -/
theorem test_meets_DrainMovesBytes_passing :
    let s := draining [] true false
    (s.runs = true ∧ s.stg.drain = .idle ∧ inTurn s.drainable s.stg.lastDrain 2) ∧
      (walk0 300 300 (some (entry0 true false false)) []).Answers 1000 (min 512 ((300 / 256 + 1) * 256))
        { walk0 300 0 none [⟨0x3000, 4, 300, true, false⟩] with index := 5, visited := 10 } (.read 0x3050) ∧
      (draining [] false true).drainable 2 = true ∧ (draining marks8 true false).drainable 2 = false ∧
      ((after .drainChoose s).lmp.waiting = [⟨.entryRead 2 0, 0x3050, 16, []⟩] ∧
        (after .drainChoose s).stg.drain = .choosing 2 0) :=
  ⟨⟨rfl, rfl, by decide +kernel, by decide +kernel⟩,
    answers (by decide +kernel), by decide +kernel, by decide +kernel,
    by decide +kernel⟩

/-- A drain write that reaches the points of a NOTE mark and of a PAUSE mark behind it. -/
theorem test_meets_DrainMovesBytes_marks :
    let e := { receiver with
      received := 512, drained := 256, transfers := 1,
      walk := walk0 512 100 (some (entry0 false false false)) [mark0 300 true false, mark0 512 true true] }
    let x : Cell := ⟨.filled, 2, 0, 1, List.replicate 256 1⟩
    let m := moving (.drainWrite 2 0 7) 256 ((with2 e).setCell 7 (some x))
    let t := after .drainWriteDone m
    (m.ending ⟨.drainWrite 2 (m.gen 2) 7, 0x3000, 256, []⟩ ∧ m.ex 2 = some e ∧ m.cell 7 = some x ∧
        e.state = .receiving ∧ m.reportOpen 3 ∧ m.ctrlOpen ∧ m.txq.ctrl = []) ∧
      t.rpt.queue = [.note 5 0x3000 3, .note 5 0x3000 3, .paused 5 512] ∧ t.txq.ctrl.map (·.frame.body) = [.hold] ∧
      t.cell 7 = none ∧ (t.ex 2).map (fun e => (e.drained, e.localPause, e.walk.marks)) = some (512, true, []) := by
  decide +kernel

/-- The sender of a DATA frame whose TAKEN reaches a NOTE and a PAUSE mark. -/
def reached (marks : List Mark) : Exchange :=
  { sender with acknowledged := 256, prepared := 256, walk := walk0 256 0 none marks }

/-- Marks that act one after another, one that waits for report queue entries, and a head that rests. -/
theorem test_meets_marks :
    (∃ t, State.MarksAct 2 256 2 (with2 (reached [mark0 200 true false, mark0 256 false true])) t) ∧
    (∃ t, State.MarksAct 2 256 0
      { with2 (reached [mark0 256 true true]) with
        rpt := { on.rpt with queue := List.replicate 7 (.paused 5 0) } } t) ∧
    (∃ t, State.MarksAct 2 256 1 (with2 (reached [mark0 256 true false, mark0 257 true false])) t) := by
  refine ⟨⟨_, .acts rfl rfl (by decide) (.inl rfl) (by decide) (by decide)
      (.acts rfl rfl (by decide) (.inr rfl) (by decide) (fun _ => ⟨by decide, by decide⟩) (.rests rfl ?_))⟩,
    ⟨_, .waits rfl rfl (by decide) (by decide) (.inr (by decide))⟩,
    ⟨_, .acts rfl rfl (by decide) (.inl rfl) (by decide) (by decide) (.rests rfl ?_)⟩⟩
  · intro m l h; cases h
  · intro m l h; cases h; exact .inl (by decide)

/-- A fill that waits for room behind a NOTE mark whose point is reached. -/
def waiting0 : State :=
  (with2 { passing (mark0 256 true false :: List.replicate 7 (mark0 300 true false)) true false with
    acknowledged := 256 }).setBuffer 1 (some ⟨.filling, 2, 0, 300, 512, []⟩)

/-- The fill goes on when that mark has acted: it passes its entry and reads the next one. -/
theorem test_meets_MarksAct_fill :
    (∃ t e' w, State.MarksAct 2 256 1 waiting0 t ∧ t.ex 2 = some e' ∧
      t.fills 2 e' 1 ⟨.filling, 2, 0, 300, 512, []⟩ ∧ e'.state = .sending ∧ e'.transfers = 0 ∧
      e'.walk.Answers e'.length 512 w (.read 0x3050)) ∧
      (let t := after (.noteMark 2) waiting0;
        t.rpt.queue = [.note 5 0x3000 3] ∧ t.lmp.waiting = [⟨.entryRead 2 0, 0x3050, 16, []⟩] ∧
          (t.ex 2).map (fun e => e.walk.marks.length) = some 8) := by
  refine ⟨⟨_, _,
    { walk0 300 0 none (List.replicate 7 (mark0 300 true false) ++ [⟨0x3000, 4, 300, true, false⟩]) with
      index := 5, visited := 10 },
    .acts rfl rfl (by decide) (.inl rfl) (by decide) (by decide) (.rests rfl ?_), rfl, ?_, rfl, rfl,
    answers ?_⟩, by decide +kernel⟩
  rotate_left 2
  · decide +kernel
  · intro m l h; cases h; exact .inl (by decide)
  · refine ⟨rfl, rfl, rfl, rfl, by decide, fun b' v' hb hv => ?_⟩
    have h0 : b' = 0 := Fin.ext (by have : b'.val < 1 := hb; omega)
    rw [h0] at hv
    cases hv

/-- A DATA frame TAKEN that reaches a NOTE mark and a PAUSE mark behind it. -/
theorem test_meets_LinkOutcomesReachTheSlot_pause :
    let e := { sender with
      acknowledged := 254, walk := walk0 256 0 none [mark0 200 true false, mark0 256 false true] }
    let v : OutBuffer := ⟨.sending, 2, 0, 254, 256, [8, 9]⟩
    let s := (lane (.sent false) (some dataTx) (with2 e)).setBuffer 0 (some v)
    let t := after (.acknowledgeSlot true false) s
    (s.observes = true ∧ s.sct.station ≠ .fault ∧ s.lpt.phase = .sent false ∧ s.lpt.tx = some dataTx ∧
        s.ex 2 = some e ∧ s.buffer 0 = some v ∧ v.gen = s.gen 2 ∧ e.state = .sending ∧ s.reportOpen 2 ∧ s.ctrlOpen) ∧
      t.rpt.queue = [.note 5 0x3000 3, .paused 5 256] ∧ t.txq.ctrl.map (·.frame.body) = [.hold] ∧
      (t.ex 2).map (fun e => (e.state, e.acknowledged, e.localPause, e.walk.marks)) = some (.sending, 256, true, []) := by
  decide +kernel

end Sys2Proof.Tests
end

section
/-!
SUPPORT. What the answers to an OPEN do at the originator's slot that takes them: an ACCEPT or RECALL whose field fails
its check (R36, R38, R39), DEFER(HELD) and DEFER(FULL) (R30, R31, R33), state by state. The statements of originating a
consignment are settled from these.
-/

namespace Sys2Proof.Machine

/-- The field of an ACCEPT or RECALL fails its check in one of two ways: as a limit that is not valid for a PUSH (R36),
or as a length above that of a PULL (R38). -/
theorem Exchange.fieldOk_eq_false_iff (e : Exchange) (n : Nat) :
    e.fieldOk n = false ↔
      e.dir = .push ∧ ¬(n ≤ e.length ∧ (n % 256 = 0 ∨ n = e.length)) ∨ e.dir = .pull ∧ e.length < n := by
  cases hd : e.dir with
  | push => simp only [Exchange.fieldOk, hd, validLimit, decide_eq_false_iff_not]; simp
  | pull => simp only [Exchange.fieldOk, hd, decide_eq_false_iff_not, Nat.not_le]; simp

namespace State

@[simp] theorem openDropped_ex (i j : SlotId) (s : State) : (s.openDropped i).ex j = s.ex j := rfl

/-- A slot whose OPEN is given up goes on with a new record (R30, R33). -/
theorem withdraw_isOpen_updEx {s : State} {i : SlotId} {e : Exchange} (he : s.ex i = some e)
    (f : Exchange → Exchange) :
    (s.withdraw i FrameBody.isOpen).updEx i f = (s.openDropped i).setEx i (some (f e)) := by
  rw [withdraw_isOpen, updEx_of_some (by rw [openDropped_ex, he])]

/-! ### ACCEPT and RECALL -/

/-- In the opening states a field that fails its check ends the exchange with PROTOCOL (R39). -/
theorem answered_of_badField {s : State} {i : SlotId} {e : Exchange} {n : Nat} (he : s.ex i = some e)
    (hs : e.state = .opening ∨ e.state = .backoff ∨ e.state = .parked) (hn : e.fieldOk n = false) :
    s.answered i n = s.abortWith i .protocol := by
  obtain hs | hs | hs := hs <;> simp [answered, he, hs, hn]

/-! ### DEFER(HELD) -/

/-- DEFER(HELD) acts on the record its lookup finds (R30). -/
theorem exec_deferHeld {s : State} {f : Frame} {i : SlotId} (hf : s.inboxFirst f) (hb : f.body = .defer .held)
    (hl : s.lookup f = some i) : exec .deferHeld s = .next (s.deferredHeld i).inboxTaken := by
  have hh := inboxHead_of_first hf
  obtain ⟨d, c, o, t, b⟩ := f
  obtain rfl : b = .defer .held := hb
  simp [exec, execDeferHeld, hh, atSlot, hl, popInbox_eq]

/-- In OPENING and BACKOFF the exchange parks and its OPEN is given up (R30). -/
theorem deferredHeld_of_opening {s : State} {i : SlotId} {e : Exchange} (he : s.ex i = some e)
    (hs : e.state = .opening ∨ e.state = .backoff) :
    s.deferredHeld i = (s.openDropped i).setEx i (some { e with
      state := .parked, timer := ⟨.park, s.par.park * 10, .running⟩ }) := by
  have hpark : s.deferredHeld i = (s.withdraw i FrameBody.isOpen).updEx i fun e =>
      { e.startTimer .park s.par.parkMs with state := .parked } := by
    obtain hs | hs := hs <;> simp only [deferredHeld, he, hs]
  rw [hpark, withdraw_isOpen_updEx he]
  rfl

/-- In PARKED the PARK timer restarts (R30). -/
theorem deferredHeld_of_parked {s : State} {i : SlotId} {e : Exchange} (he : s.ex i = some e)
    (hs : e.state = .parked) :
    s.deferredHeld i = s.setEx i (some { e with timer := ⟨.park, s.par.park * 10, .running⟩ }) := by
  have hrestart : s.deferredHeld i = s.updEx i (Exchange.startTimer .park s.par.parkMs) := by
    simp only [deferredHeld, he, hs]
  rw [hrestart, updEx_of_some he]
  rfl

/-- Once the exchange has opened, DEFER(HELD) is a restart event of the QUIET timer and nothing else (R12, R31). -/
theorem deferredHeld_of_opened {s : State} {i : SlotId} {e : Exchange} (he : s.ex i = some e)
    (hs : e.state = .sending ∨ e.state = .receiving ∨ e.state = .confirming) :
    s.deferredHeld i = s.setEx i (some (s.quietAgain e)) := by
  rw [← quiet_of_some s i e he]
  obtain hs | hs | hs := hs <;> simp only [deferredHeld, he, hs]

/-- In FINISHING DEFER(HELD) is discarded (R31). -/
theorem deferredHeld_of_finishing {s : State} {i : SlotId} {e : Exchange} (he : s.ex i = some e)
    (hs : e.state = .finishing) : s.deferredHeld i = s := by
  simp only [deferredHeld, he, hs]

/-! ### DEFER(FULL) -/

/-- DEFER(FULL) acts on the record its lookup finds (R33). -/
theorem exec_deferFull {s : State} {f : Frame} {i : SlotId} (hf : s.inboxFirst f) (hb : f.body = .defer .full)
    (hl : s.lookup f = some i) : exec .deferFull s = .next (s.deferredFull i).inboxTaken := by
  have hh := inboxHead_of_first hf
  obtain ⟨d, c, o, t, b⟩ := f
  obtain rfl : b = .defer .full := hb
  simp [exec, execDeferFull, hh, atSlot, hl, popInbox_eq]

/-- In OPENING, below the open retry limit, the backoff is counted and its timer starts (R11, R33). -/
theorem deferredFull_of_retry {s : State} {i : SlotId} {e : Exchange} (he : s.ex i = some e)
    (hs : e.state = .opening) (hk : e.backoffs < s.par.openRetry) :
    s.deferredFull i = (s.openDropped i).setEx i (some { e with
      state := .backoff, backoffs := e.backoffs + 1,
      timer := ⟨.backoff, s.par.backoff * 2 ^ (min (e.backoffs + 1) 4 - 1), .running⟩ }) := by
  have hback : s.deferredFull i = (s.withdraw i FrameBody.isOpen).updEx i fun e =>
      { e.startTimer .backoff (s.par.backoffMs (e.backoffs + 1)) with
        state := .backoff, backoffs := e.backoffs + 1 } := by
    simp only [deferredFull, he, hs, if_pos hk]
  rw [hback, withdraw_isOpen_updEx he]
  rfl

/-- In OPENING, at the open retry limit, the exchange ends with REFUSED and owes no ABORT (R18, R33). -/
theorem deferredFull_of_limit {s : State} {i : SlotId} {e : Exchange} (he : s.ex i = some e)
    (hs : e.state = .opening) (hk : s.par.openRetry ≤ e.backoffs) : s.deferredFull i = s.endWith i .refused := by
  simp only [deferredFull, he, hs, if_neg (Nat.not_lt.mpr hk)]

/-- Once the exchange has opened, DEFER(FULL) is a restart event of the QUIET timer and nothing else (R12, R31). -/
theorem deferredFull_of_opened {s : State} {i : SlotId} {e : Exchange} (he : s.ex i = some e)
    (hs : e.state = .sending ∨ e.state = .receiving ∨ e.state = .confirming) :
    s.deferredFull i = s.setEx i (some (s.quietAgain e)) := by
  rw [← quiet_of_some s i e he]
  obtain hs | hs | hs := hs <;> simp only [deferredFull, he, hs]

/-- In BACKOFF, PARKED and FINISHING DEFER(FULL) is discarded (R16, R31, R33). -/
theorem deferredFull_of_discarded {s : State} {i : SlotId} {e : Exchange} (he : s.ex i = some e)
    (hs : e.state = .backoff ∨ e.state = .parked ∨ e.state = .finishing) : s.deferredFull i = s := by
  obtain hs | hs | hs := hs <;> simp only [deferredFull, he, hs]

end State

/-! ### The statements -/

/-- Settles O25: the failed check sends the answer to `abortWith`, whose effect is entry to RETIRING. -/
theorem badAnswerFieldEndsExchange : Obligations.BadAnswerFieldEndsExchange := by
  intro c s f n i e hc hf hl he hs hn
  have hlive : e.state ≠ .retiring := by obtain hs | hs | hs := hs <;> simp [hs]
  have hbad : e.fieldOk n.toNat = false := (e.fieldOk_eq_false_iff n.toNat).mpr hn
  refine ⟨s.abortWith i .protocol, State.abortWith_ends he hlive .protocol, ?_⟩
  rw [State.exec_answer hc hf hl, State.answered_of_badField he hs hbad]

/-- Settles O27, one state of the slot after another. -/
theorem deferHeldParks : Obligations.DeferHeldParks := by
  intro s f i e hf hl he
  refine ⟨fun hb => ⟨fun hs => ?_, fun hs => ?_⟩, fun hb hs => ?_, ?_⟩
  · rw [State.exec_deferHeld hf hb hl, State.deferredHeld_of_opening he hs]
  · rw [State.exec_deferHeld hf hb hl, State.deferredHeld_of_parked he hs]
  · rw [State.exec_deferFull hf hb hl, State.deferredFull_of_discarded he (.inr (.inl hs))]
  · rintro c (⟨rfl, hb⟩ | ⟨rfl, hb⟩)
    · rw [State.exec_deferHeld hf hb hl]
      exact ⟨fun hs => by rw [State.deferredHeld_of_opened he hs],
        fun hs => by rw [State.deferredHeld_of_finishing he hs]⟩
    · rw [State.exec_deferFull hf hb hl]
      exact ⟨fun hs => by rw [State.deferredFull_of_opened he hs],
        fun hs => by rw [State.deferredFull_of_discarded he (.inr (.inr hs))]⟩

/-- Settles O28: below the open retry limit, at it, and in BACKOFF. -/
theorem deferFullBacksOff : Obligations.DeferFullBacksOff := by
  intro s f i e hf hl he hb
  rw [State.exec_deferFull hf hb hl]
  refine ⟨fun hs hk => ?_, fun hs hk => ?_, fun hs => ?_⟩
  · rw [State.deferredFull_of_retry he hs hk]
  · have hlive : e.state ≠ .retiring := by simp [hs]
    exact ⟨s.endWith i .refused, State.endWith_ends he hlive .refused, by rw [State.deferredFull_of_limit he hs hk]⟩
  · rw [State.deferredFull_of_discarded he (.inl hs)]

end Sys2Proof.Machine
end

section
/-!
SUPPORT. The target exchange of CANCEL and CONTINUE (R144): which slots and offers the two searches look for, and what
each search answers. The statement is settled from these.
-/

namespace Sys2Proof.Machine

/-- An offer has a bound slot unless it is OPEN (R47). -/
theorem OfferState.slot_isSome_iff (st : OfferState) : st.slot.isSome = true ↔ st ≠ .openState := by
  cases st <;> simp [OfferState.slot]

/-- The slot of a BOUND or WITHDRAWING offer (R47). -/
theorem OfferState.slot_eq_some_iff (st : OfferState) (i : SlotId) :
    st.slot = some i ↔ st = .bound i ∨ st = .withdrawing i := by
  cases st <;> simp [OfferState.slot]

namespace State

theorem originatorHasTag_iff (s : State) (tag : BitVec 16) (i : SlotId) :
    s.originatorHasTag tag i = true ↔ ∃ e, s.ex i = some e ∧ e.role = .originator ∧ e.orderTag = tag := by
  cases he : s.ex i with
  | none => simp [originatorHasTag, he]
  | some e => simp [originatorHasTag, he]

theorem originatorHasTag_eq_false_iff (s : State) (tag : BitVec 16) (i : SlotId) :
    s.originatorHasTag tag i = false ↔ ∀ e, s.ex i = some e → ¬(e.role = .originator ∧ e.orderTag = tag) := by
  rw [← Bool.not_eq_true, originatorHasTag_iff]
  exact ⟨fun h e he ht => h ⟨e, he, ht⟩, fun h ⟨e, he, ht⟩ => h e he ht⟩

theorem boundHasTag_iff (s : State) (tag : BitVec 16) (q : OfferId) :
    s.boundHasTag tag q = true ↔ ∃ v, s.offer q = some v ∧ v.orderTag = tag ∧ v.state ≠ .openState := by
  cases hv : s.offer q with
  | none => simp [boundHasTag, hv]
  | some v => simp [boundHasTag, hv, Offer.hasTag, OfferState.slot_isSome_iff]

theorem boundHasTag_eq_false_iff (s : State) (tag : BitVec 16) (q : OfferId) :
    s.boundHasTag tag q = false ↔ ∀ w, s.offer q = some w → ¬(w.orderTag = tag ∧ w.state ≠ .openState) := by
  rw [← Bool.not_eq_true, boundHasTag_iff]
  exact ⟨fun h w hw ht => h ⟨w, hw, ht⟩, fun h ⟨w, hw, ht⟩ => h w hw ht⟩

/-- The first choice of R144: the earliest originator slot with the tag. -/
theorem exchangeTarget_of_originator {s : State} {tag : BitVec 16} {i : SlotId}
    (hi : s.xen.originOrder.find? (s.originatorHasTag tag) = some i) : s.exchangeTarget tag = some i := by
  simp only [exchangeTarget, hi]

/-- The second choice of R144: without such a slot, the search among the offers answers. -/
theorem exchangeTarget_of_noOriginator {s : State} {tag : BitVec 16}
    (hn : ∀ j ∈ s.xen.originOrder, ∀ e, s.ex j = some e → ¬(e.role = .originator ∧ e.orderTag = tag)) :
    s.exchangeTarget tag = s.boundTarget tag := by
  have hfind : s.xen.originOrder.find? (s.originatorHasTag tag) = none := by
    refine List.find?_eq_none.mpr fun j hj => ?_
    simp [(s.originatorHasTag_eq_false_iff tag j).mpr (hn j hj)]
  simp only [exchangeTarget, hfind]

/-- The oldest offer that is not OPEN and carries the tag gives its slot (R144). -/
theorem boundTarget_of_find {s : State} {tag : BitVec 16} {q : OfferId} {v : Offer}
    (hq : s.xen.postOrder.find? (s.boundHasTag tag) = some q) (hv : s.offer q = some v) :
    s.boundTarget tag = v.state.slot := by
  simp only [boundTarget, hq, hv]

/-- Without such an offer there is no target (R144). -/
theorem boundTarget_of_noOffer {s : State} {tag : BitVec 16}
    (hn : ∀ q ∈ s.xen.postOrder, ∀ w, s.offer q = some w → ¬(w.orderTag = tag ∧ w.state ≠ .openState)) :
    s.boundTarget tag = none := by
  have hfind : s.xen.postOrder.find? (s.boundHasTag tag) = none := by
    refine List.find?_eq_none.mpr fun q hq => ?_
    simp [(s.boundHasTag_eq_false_iff tag q).mpr (hn q hq)]
  simp only [boundTarget, hfind]

end State

/-- Settles O44: each search goes through its list from the earliest entry, and the originators are searched first. -/
theorem targetOfCancelAndContinue : Obligations.TargetOfCancelAndContinue := by
  intro s tag
  refine ⟨fun before i after hsplit hi hbefore => ?_,
    fun hnone => ⟨fun before q after i v hsplit hv htag hst hbefore => ?_, fun hno => ?_⟩⟩
  · have hfirst : s.xen.originOrder.find? (s.originatorHasTag tag) = some i := by
      refine List.find?_eq_some_iff_append.mpr
        ⟨(s.originatorHasTag_iff tag i).mpr hi, before, after, hsplit, fun j hj => ?_⟩
      simp [(s.originatorHasTag_eq_false_iff tag j).mpr (hbefore j hj)]
    exact State.exchangeTarget_of_originator hfirst
  · have hslot : v.state.slot = some i := (v.state.slot_eq_some_iff i).mpr hst
    have hbound : v.state ≠ .openState := (OfferState.slot_isSome_iff v.state).mp (by rw [hslot]; rfl)
    have hfirst : s.xen.postOrder.find? (s.boundHasTag tag) = some q := by
      refine List.find?_eq_some_iff_append.mpr
        ⟨(s.boundHasTag_iff tag q).mpr ⟨v, hv, htag, hbound⟩, before, after, hsplit, fun p hp => ?_⟩
      simp [(s.boundHasTag_eq_false_iff tag p).mpr (hbefore p hp)]
    rw [State.exchangeTarget_of_noOriginator hnone, State.boundTarget_of_find hfirst hv, hslot]
  · rw [State.exchangeTarget_of_noOriginator hnone, State.boundTarget_of_noOffer hno]

end Sys2Proof.Machine
end

section
/-!
SUPPORT. Every command but hardware reset, its release and the end of the start record read is steady: it answers a next
state, and that state keeps the queue of commands and the laws (Laws/Steady.lean, one operation after another).
-/

namespace Sys2Proof.Machine

/-- The outcome is a next state that keeps what `Steady` says of s. -/
def SteadyNext (s : State) (o : Host.Outcome State Fault Refusal) : Prop := ∃ t, o = .next t ∧ Steady s t

namespace SteadyNext

variable {s t u : State}

theorem next (h : Steady s t) : SteadyNext s (.next t) := ⟨t, rfl, h⟩

theorem quiet (h : Quiet s t) : SteadyNext s (.next t) := next h.steady

theorem same (s : State) : SteadyNext s (.next s) := next (Steady.refl s)

/-- A command that acts only where a condition holds, and changes nothing elsewhere. -/
theorem guard {p : Prop} [Decidable p] (h : p → Steady s t) : SteadyNext s (.next (if p then t else s)) := by
  split
  · exact next (h ‹p›)
  · exact same s

theorem guardQuiet {p : Prop} [Decidable p] (h : Quiet s t) : SteadyNext s (.next (if p then t else s)) :=
  guard fun _ => h.steady

end SteadyNext

namespace Steady

/-! ### The tick and POST -/

theorem isOriginator_tick (s : State) (j : SlotId) : s.tick.isOriginator j = s.isOriginator j := by
  have hex : s.tick.ex j = (s.ex j).map fun e => { e with timer := e.timer.tick } := by
    simp [State.ex, State.tick, Slot.tick]
  cases he : s.ex j <;> simp [State.isOriginator, hex, he]

theorem markCaps_tick {s : State} (h : s.markCaps) : s.tick.markCaps := by
  intro i e he
  have hex : s.tick.ex i = (s.ex i).map fun e => { e with timer := e.timer.tick } := by
    simp [State.ex, State.tick, Slot.tick]
  rw [hex, Option.map_eq_some_iff] at he
  obtain ⟨d, hd, rfl⟩ := he
  exact h i d hd

theorem originators_tick (s : State) : s.tick.originators = s.originators := by
  simp only [State.originators, funext (isOriginator_tick s)]

theorem tick (s : State) : Steady s s.tick where
  pending := rfl
  up := rfl
  params := rfl
  caps := fun ⟨hq, hm⟩ => ⟨hq, markCaps_tick hm⟩
  limit := fun h => by
    rw [State.withinOriginLimit, originators_tick]
    exact h
  starts := Nat.le_refl _
  line := fun h => h
  pulse := fun h => h

theorem withRingRead (s : State) (r : RingRead) : Quiet s { s with ord := { s.ord with ringRead := r } } :=
  .of_port rfl rfl rfl rfl id id (Nat.le_refl _)

theorem postEdge (s : State) : Quiet s s.postEdge := by
  unfold State.postEdge
  split
  · split
    · exact withRingRead s _
    · exact (withRingRead s _).place _ rfl
  all_goals exact withRingRead s _

end Steady

namespace SteadyNext

/-! ### The lane's commands -/

theorem laneClear (s : State) : SteadyNext s (exec .laneClear s) := by
  show SteadyNext s (.next _)
  split
  · exact next (Steady.takeClear s)
  · rename_i h
    exact guard fun _ => Steady.ignoreClear s (by simpa using h)

theorem transmitChoice (s : State) : SteadyNext s (exec .transmitChoice s) := by
  show SteadyNext s (.next _)
  refine guardQuiet ?_
  split
  · exact Steady.chooseFrame s
  · exact Steady.takeBack s

theorem controlFramePlaced (s : State) : SteadyNext s (exec .controlFramePlaced s) := by
  show SteadyNext s (.next _)
  split
  · exact quiet ((Steady.giveCtrl s).trans (Steady.takeBack _))
  · exact guard fun _ => Steady.placeFaultAbort s

/-! ### Frames at the inbox head -/

/-- A frame taken from the inbox head acts at its slot, or draws a reply, and leaves the inbox. -/
theorem atSlot (s : State) (f : Frame) (b : Bool) (act : SlotId → State → State) (h : ∀ i, Quiet s (act i s)) :
    SteadyNext s (.next (s.atSlot f b act).popInbox) :=
  quiet (Steady.atSlot s f b act h).popInbox

theorem acceptFrame (s : State) : SteadyNext s (exec .acceptFrame s) := by
  simp only [exec, execAcceptFrame]
  split
  · exact atSlot s _ _ _ fun i => Steady.answered s i _
  · exact same s

theorem recallFrame (s : State) : SteadyNext s (exec .recallFrame s) := by
  simp only [exec, execRecallFrame]
  split
  · exact atSlot s _ _ _ fun i => Steady.answered s i _
  · exact same s

theorem deferHeld (s : State) : SteadyNext s (exec .deferHeld s) := by
  simp only [exec, execDeferHeld]
  split
  · exact atSlot s _ _ _ fun i => Steady.deferredHeld s i
  · exact same s

theorem deferFull (s : State) : SteadyNext s (exec .deferFull s) := by
  simp only [exec, execDeferFull]
  split
  · exact atSlot s _ _ _ fun i => Steady.deferredFull s i
  · exact same s

theorem creditFrame (s : State) : SteadyNext s (exec .creditFrame s) := by
  simp only [exec, execCreditFrame]
  split
  · exact atSlot s _ _ _ fun i => Steady.credited s i _
  · exact same s

theorem holdFrame (s : State) : SteadyNext s (exec .holdFrame s) := by
  simp only [exec, execHoldFrame]
  split
  · exact atSlot s _ _ _ fun i => Steady.held s i
  · exact same s

theorem doneFrame (s : State) : SteadyNext s (exec .doneFrame s) := by
  simp only [exec, execDoneFrame]
  split
  · exact atSlot s _ _ _ fun i => Steady.doneAt s i _
  · exact same s

theorem abortFrame (s : State) : SteadyNext s (exec .abortFrame s) := by
  simp only [exec, execAbortFrame]
  split
  · exact quiet (Steady.abortFrom s _ _).popInbox
  · exact same s

/-! ### Expiries -/

theorem answerExpiry (i : SlotId) (s : State) : SteadyNext s (exec (.answerExpiry i) s) := by
  simp only [exec, execAnswerExpiry]
  split
  · exact same s
  · exact guardQuiet (Steady.answerExpired s i _)

theorem backoffExpiry (i : SlotId) (s : State) : SteadyNext s (exec (.backoffExpiry i) s) := by
  simp only [exec, execBackoffExpiry]
  split
  · exact same s
  · exact guardQuiet (Steady.backoffExpired s i)

theorem parkExpiry (i : SlotId) (s : State) : SteadyNext s (exec (.parkExpiry i) s) := by
  simp only [exec, execParkExpiry]
  split
  · exact same s
  · exact guardQuiet ((Quiet.refl s).abortWith i _)

theorem quietExpiry (i : SlotId) (s : State) : SteadyNext s (exec (.quietExpiry i) s) := by
  simp only [exec, execQuietExpiry]
  split
  · exact same s
  · split
    any_goals exact same s
    all_goals exact quiet ((Quiet.refl s).abortWith i _)

/-! ### Orders -/

/-- The examination of a head order found by its kind is made only where orders are taken. -/
theorem takesOrders_of_headToRefuse {s : State} {k : OrderKind} {o : OrderRec} (h : s.headToRefuse k = some o) :
    s.takesOrders = true :=
  Steady.takesOrders_of_headOrder (Option.eq_some_of_filter_eq_some h)

theorem examine {s : State} {k : OrderKind} {o : OrderRec} (h : s.headToRefuse k = some o) :
    SteadyNext s (.next (s.examine o)) :=
  next (Steady.examine s o (takesOrders_of_headToRefuse h))

theorem sendOrder (s : State) : SteadyNext s (exec .sendOrder s) := by
  simp only [exec, execSendOrder]
  split
  · exact same s
  · exact examine ‹_›

theorem fetchOrder (s : State) : SteadyNext s (exec .fetchOrder s) := by
  simp only [exec, execFetchOrder]
  split
  · exact same s
  · exact examine ‹_›

theorem offerOrder (s : State) : SteadyNext s (exec .offerOrder s) := by
  simp only [exec, execOfferOrder]
  split
  · exact same s
  · exact examine ‹_›

theorem clrOrder (s : State) : SteadyNext s (exec .clrOrder s) := by
  simp only [exec, execClrOrder]
  split
  · exact same s
  · exact examine ‹_›

theorem withdrawOrder (s : State) : SteadyNext s (exec .withdrawOrder s) := by
  simp only [exec, execWithdrawOrder]
  split
  · exact same s
  · exact quiet (Steady.takeWithdraw s _)

theorem cancelOrder (s : State) : SteadyNext s (exec .cancelOrder s) := by
  simp only [exec, execCancelOrder]
  split
  · exact same s
  · exact quiet (Steady.takeCancel s _)

theorem continueOrder (s : State) : SteadyNext s (exec .continueOrder s) := by
  simp only [exec, execContinueOrder]
  split
  · exact same s
  · exact quiet (Steady.takeContinue s _)

theorem detachOrder (s : State) : SteadyNext s (exec .detachOrder s) := by
  simp only [exec, execDetachOrder]
  split
  · exact same s
  · exact next (Steady.takeDetach s _)

theorem attachOrder (s : State) : SteadyNext s (exec .attachOrder s) := by
  simp only [exec, execAttachOrder]
  split
  · exact same s
  · exact next (Steady.takeAttach s _)

theorem orderFetch (s : State) : SteadyNext s (exec .orderFetch s) :=
  guardQuiet (((Quiet.refl s).setHead _).place _ rfl)

/-! ### The ends of transfers -/

/-- The end of a transfer in FAULT, or what its completion does in another state. -/
theorem orInFault {s t : State} (r : Request) (h : Steady s t) :
    SteadyNext s (.next (if s.sct.station = .fault then s.endInFault true r else t)) := by
  split
  · exact quiet (Steady.endInFault s _ _)
  · exact next h

theorem ringWordsReadDone (bytes : List Byte) (s : State) : SteadyNext s (exec (.ringWordsReadDone bytes) s) := by
  simp only [exec, execRingWordsReadDone]
  split
  · exact same s
  · exact orInFault _ ((((Steady.endRequest s).trans (Steady.acceptRelease _ _)).trans
      (Steady.acceptProducer _ _)).trans (Steady.nextRingRead _)).steady

theorem orderFetchDone (bytes : List Byte) (s : State) : SteadyNext s (exec (.orderFetchDone bytes) s) := by
  simp only [exec, execOrderFetchDone]
  split
  · exact same s
  · exact orInFault _ ((((Steady.endRequest s).setHead _).trans (Steady.nextOrderTransfer _)).trans
      (Steady.refuseHead _)).steady

theorem indexWriteDone (s : State) : SteadyNext s (exec .indexWriteDone s) := by
  simp only [exec, execIndexWriteDone]
  split
  · exact same s
  · exact orInFault _ (((Steady.endRequest s).trans (Steady.withIndexWrite _)).trans
      (Steady.nextOrderTransfer _)).steady

theorem entryReadDone (bytes : List Byte) (s : State) : SteadyNext s (exec (.entryReadDone bytes) s) := by
  simp only [exec, execEntryReadDone]
  split
  · split
    · exact orInFault _ (Steady.entryDone s _ _ _).steady
    · exact same s
  · exact same s

theorem dataReadDone (bytes : List Byte) (s : State) : SteadyNext s (exec (.dataReadDone bytes) s) := by
  simp only [exec, execDataReadDone]
  split
  · split
    · split
      · exact same s
      · exact orInFault _ (Steady.dataDone s _ _ _ _).steady
    · exact same s
  · exact same s

theorem drainWriteDone (s : State) : SteadyNext s (exec .drainWriteDone s) := by
  simp only [exec, execDrainWriteDone]
  split
  · split
    · exact orInFault _ (Steady.drainDone s _ _ _ _).steady
    · exact same s
  · exact same s

theorem reportEntryWriteDone (s : State) : SteadyNext s (exec .reportEntryWriteDone s) := by
  simp only [exec, execReportEntryWriteDone]
  split
  · exact same s
  · exact orInFault _ (Steady.entryWritten s).steady

theorem producerWordWriteDone (s : State) : SteadyNext s (exec .producerWordWriteDone s) := by
  simp only [exec, execProducerWordWriteDone]
  split
  · exact same s
  · exact orInFault _ (Steady.indexWritten s)

theorem statusWordWriteDone (s : State) : SteadyNext s (exec .statusWordWriteDone s) := by
  simp only [exec, execStatusWordWriteDone]
  split
  · exact same s
  · exact orInFault _ (Steady.statusWritten s).steady

theorem busError (s : State) : SteadyNext s (exec .busError s) := by
  simp only [exec, execBusError]
  split
  · exact same s
  · exact next ((Steady.endRequest s).steady.trans (Steady.failed _ _))

end SteadyNext

/-! ### All commands -/

/-- Hardware reset, its release, and the end of the start record read change what `Steady` keeps. -/
def Instr.resets : Instr → Bool
  | .resetAssert | .resetRelease _ _ | .startRecordReadDone _ => true
  | _ => false

theorem steadyNext_exec {c : Instr} (h : Instr.resets c = false) (s : State) : SteadyNext s (exec c s) := by
  cases c with
  | resetAssert => cases h
  | resetRelease sn sb => cases h
  | startRecordReadDone bytes => cases h
  | post => exact .guardQuiet (Steady.postEdge s)
  | laneClear => exact .laneClear s
  | arbitrationWindow bids w => exact .guardQuiet (Steady.window s bids w)
  | tenure bytes => exact .guard fun _ => Steady.tenure s bytes
  | acknowledgeSlot a b => exact .guard fun _ => Steady.ackSlot s a b
  | openFrame => exact .guardQuiet (Quiet.refl s).takeOpen
  | acceptFrame => exact .acceptFrame s
  | recallFrame => exact .recallFrame s
  | deferHeld => exact .deferHeld s
  | deferFull => exact .deferFull s
  | creditFrame => exact .creditFrame s
  | holdFrame => exact .holdFrame s
  | doneFrame => exact .doneFrame s
  | abortFrame => exact .abortFrame s
  | answerExpiry i => exact .answerExpiry i s
  | backoffExpiry i => exact .backoffExpiry i s
  | parkExpiry i => exact .parkExpiry i s
  | quietExpiry i => exact .quietExpiry i s
  | sendOrder => exact .sendOrder s
  | fetchOrder => exact .fetchOrder s
  | offerOrder => exact .offerOrder s
  | withdrawOrder => exact .withdrawOrder s
  | cancelOrder => exact .cancelOrder s
  | continueOrder => exact .continueOrder s
  | detachOrder => exact .detachOrder s
  | attachOrder => exact .attachOrder s
  | clrOrder => exact .clrOrder s
  | ringWordsReadDone bytes => exact .ringWordsReadDone bytes s
  | orderFetch => exact .orderFetch s
  | orderFetchDone bytes => exact .orderFetchDone bytes s
  | indexWriteDone => exact .indexWriteDone s
  | entryReadDone bytes => exact .entryReadDone bytes s
  | dataReadDone bytes => exact .dataReadDone bytes s
  | drainWriteDone => exact .drainWriteDone s
  | reportEntryWriteDone => exact .reportEntryWriteDone s
  | producerWordWriteDone => exact .producerWordWriteDone s
  | statusWordWriteDone => exact .statusWordWriteDone s
  | busError => exact .busError s
  | lmpChooseTransfer => exact .guard fun _ => Steady.chooseTransfer 64 s
  | fillStart => exact .guardQuiet (Steady.chooseFill s)
  | creditGrant => exact .guardQuiet (Steady.chooseGrant s)
  | drainChoose => exact .guardQuiet (Steady.chooseDrain s)
  | transmitChoice => exact .transmitChoice s
  | controlFramePlaced => exact .controlFramePlaced s
  | rescan => exact .guardQuiet (Quiet.refl s).runRescan
  | slotRelease i => exact .guardQuiet ((Quiet.refl s).tryRelease i)
  | noteMark i => exact .guardQuiet ((Quiet.refl s).settleMarks i)
  | pauseMark i => exact .guardQuiet ((Quiet.refl s).settleMarks i)
  | dueAckQueued => exact .guardQuiet (Steady.settleAcks s)
  | reportWriteStart => exact .guardQuiet (Steady.startWrite s)
  | detachComplete => exact .guard fun _ => Steady.completeDetach s
  | presenceEnd => exact .guard fun _ => Steady.endPresence s
  | timerTick => exact .guard fun _ => Steady.tick s

end Sys2Proof.Machine
end

section
/-!
SUPPORT. Steps, hardware reset and the laws: what RESET_ASSERT, RESET_RELEASE and the end of the start record read do to
the laws, and that while RESET is low no other command changes anything.
-/

namespace Sys2Proof.Machine

namespace State

/-! ### While RESET is low -/

theorem runs_of_down {s : State} (h : s.up = false) : s.runs = false := by simp [runs, h]

theorem observes_of_down {s : State} (h : s.up = false) : s.observes = false := by simp [observes, h]

theorem takesClear_of_down {s : State} (h : s.up = false) : s.takesClear = false := by simp [takesClear, h]

theorem onLane_of_down {s : State} (h : s.up = false) : s.onLane = false := by simp [onLane, h]

theorem inboxHead_of_idle {s : State} (h : s.runs = false) : s.inboxHead = none := by simp [inboxHead, h]

theorem expired_of_idle {s : State} (h : s.runs = false) (i : SlotId) (k : TimerKind) : s.expired i k = none := by
  simp [expired, h]

theorem headOrder_of_noOrders {s : State} (h : s.takesOrders = false) : s.headOrder = none := by simp [headOrder, h]

theorem takesOrders_of_down {s : State} (h : s.up = false) : s.takesOrders = false := by simp [takesOrders, h]

theorem transferOf_of_down {s : State} (h : s.up = false) (p : Purpose → Bool) : s.transferOf p = none := by
  simp [transferOf, h]

theorem headToRefuse_of_noOrders {s : State} (h : s.takesOrders = false) (k : OrderKind) : s.headToRefuse k = none := by
  simp [headToRefuse, headOrder_of_noOrders h]

theorem headOfKind_of_noOrders {s : State} (h : s.takesOrders = false) (k : OrderKind) : s.headOfKind k = none := by
  simp [headOfKind, headOrder_of_noOrders h]

theorem mayFetch_of_noOrders {s : State} (h : s.takesOrders = false) : s.mayFetch = false := by simp [mayFetch, h]

/-! ### Commands of a station whose blocks do not act -/

theorem takesOrders_of_idle {s : State} (h : s.runs = false) : s.takesOrders = false := by
  cases hu : s.up with
  | false => exact takesOrders_of_down hu
  | true =>
    have hf : s.sct.station = .fault := by simpa [runs, hu] using h
    simp [takesOrders, hf]

end State

/-- The commands whose meaning begins with a block that acts: they change nothing in FAULT and while RESET is low. -/
def Instr.needsBlocks : Instr → Bool
  | .post | .openFrame | .acceptFrame | .recallFrame | .deferHeld | .deferFull | .creditFrame | .holdFrame | .doneFrame
  | .abortFrame | .answerExpiry _ | .backoffExpiry _ | .parkExpiry _ | .quietExpiry _ | .sendOrder | .fetchOrder
  | .offerOrder | .withdrawOrder | .cancelOrder | .continueOrder | .detachOrder | .attachOrder | .clrOrder | .orderFetch
  | .fillStart | .creditGrant | .drainChoose | .rescan | .slotRelease _ | .noteMark _ | .pauseMark _ | .dueAckQueued
  | .reportWriteStart | .timerTick => true
  | _ => false

theorem exec_of_idle {c : Instr} {s : State} (hc : Instr.needsBlocks c = true) (h : s.runs = false) :
    exec c s = .next s := by
  have hh := State.inboxHead_of_idle h
  have he := State.expired_of_idle h
  have ho := State.takesOrders_of_idle h
  have hr := State.headToRefuse_of_noOrders ho
  have hk := State.headOfKind_of_noOrders ho
  have hm := State.mayFetch_of_noOrders ho
  cases c
  case post => simp [exec, execPost, h]
  case openFrame => simp [exec, execOpenFrame, h]
  case acceptFrame => simp [exec, execAcceptFrame, hh]
  case recallFrame => simp [exec, execRecallFrame, hh]
  case deferHeld => simp [exec, execDeferHeld, hh]
  case deferFull => simp [exec, execDeferFull, hh]
  case creditFrame => simp [exec, execCreditFrame, hh]
  case holdFrame => simp [exec, execHoldFrame, hh]
  case doneFrame => simp [exec, execDoneFrame, hh]
  case abortFrame => simp [exec, execAbortFrame, hh]
  case answerExpiry => simp [exec, execAnswerExpiry, he]
  case backoffExpiry => simp [exec, execBackoffExpiry, he]
  case parkExpiry => simp [exec, execParkExpiry, he]
  case quietExpiry => simp [exec, execQuietExpiry, he]
  case sendOrder => simp [exec, execSendOrder, hr]
  case fetchOrder => simp [exec, execFetchOrder, hr]
  case offerOrder => simp [exec, execOfferOrder, hr]
  case withdrawOrder => simp [exec, execWithdrawOrder, hk]
  case cancelOrder => simp [exec, execCancelOrder, hk]
  case continueOrder => simp [exec, execContinueOrder, hk]
  case detachOrder => simp [exec, execDetachOrder, hk]
  case attachOrder => simp [exec, execAttachOrder, hk]
  case clrOrder => simp [exec, execClrOrder, hr]
  case orderFetch => simp [exec, execOrderFetch, hm]
  case fillStart => simp [exec, execFillStart, h]
  case creditGrant => simp [exec, execCreditGrant, h]
  case drainChoose => simp [exec, execDrainChoose, h]
  case rescan => simp [exec, execRescan, h]
  case slotRelease => simp [exec, execSlotRelease, h]
  case noteMark => simp [exec, execNoteMark, h]
  case pauseMark => simp [exec, execPauseMark, h]
  case dueAckQueued => simp [exec, execDueAckQueued, h]
  case reportWriteStart => simp [exec, execReportWriteStart, h]
  case timerTick => simp [exec, execTimerTick, h]
  all_goals cases hc

/-- While RESET is low only hardware reset itself and its release change anything (R166). -/
theorem exec_of_down {c : Instr} {s : State} (ha : c ≠ .resetAssert) (hr : ∀ sn sb, c ≠ .resetRelease sn sb)
    (h : s.up = false) : exec c s = .next s := by
  cases hn : Instr.needsBlocks c with
  | true => exact exec_of_idle hn (State.runs_of_down h)
  | false =>
    have ho := State.observes_of_down h
    have hx := State.transferOf_of_down h
    cases c
    case resetAssert => exact absurd rfl ha
    case resetRelease sn sb => exact absurd rfl (hr sn sb)
    case laneClear => simp [exec, execLaneClear, State.takesClear_of_down h, ho]
    case arbitrationWindow => simp [exec, execArbitrationWindow, ho]
    case tenure => simp [exec, execTenure, ho]
    case acknowledgeSlot => simp [exec, execAcknowledgeSlot, ho]
    case transmitChoice => simp [exec, execTransmitChoice, State.onLane_of_down h]
    case controlFramePlaced => simp [exec, execControlFramePlaced, State.runs_of_down h, h]
    case detachComplete => simp [exec, execDetachComplete, h]
    case presenceEnd => simp [exec, execPresenceEnd, h]
    case ringWordsReadDone => simp [exec, execRingWordsReadDone, hx]
    case orderFetchDone => simp [exec, execOrderFetchDone, hx]
    case indexWriteDone => simp [exec, execIndexWriteDone, hx]
    case startRecordReadDone => simp [exec, execStartRecordReadDone, hx]
    case entryReadDone => simp [exec, execEntryReadDone, h]
    case dataReadDone => simp [exec, execDataReadDone, h]
    case drainWriteDone => simp [exec, execDrainWriteDone, h]
    case reportEntryWriteDone => simp [exec, execReportEntryWriteDone, hx]
    case producerWordWriteDone => simp [exec, execProducerWordWriteDone, hx]
    case statusWordWriteDone => simp [exec, execStatusWordWriteDone, hx]
    case busError => simp [exec, execBusError, hx]
    case lmpChooseTransfer => simp [exec, execLmpChooseTransfer, h]
    all_goals cases hn

end Sys2Proof.Machine
end

section
/-!
SUPPORT. Hardware reset, its release and the end of the start record read, and the laws that every step keeps: the
statements of tier 1, the capacities, the origin limit and the line law are settled here.
-/

namespace Sys2Proof.Machine

namespace State

/-! ### Hardware reset -/

theorem reset_ex (i : SlotId) : State.reset.ex i = none := by simp [ex, State.reset, Slot.reset]

theorem reset_gen (i : SlotId) : State.reset.gen i = 0 := by simp [gen, State.reset, Slot.reset]

theorem reset_offer (o : OfferId) : State.reset.offer o = none := by simp [offer, State.reset]

theorem reset_buffer (b : BufId) : State.reset.buffer b = none := by simp [buffer, State.reset]

theorem reset_cell (c : CellId) : State.reset.cell c = none := by simp [cell, State.reset]

theorem reset_peer (p : Station) : State.reset.peer p = .unknown := by simp [peer, State.reset]

theorem reset_withinCaps : State.reset.withinCaps := by
  refine ⟨by decide, fun i e he => ?_⟩
  rw [reset_ex] at he
  cases he

theorem reset_originLaw : State.reset.originLaw := by
  have hnone : State.reset.originators = 0 := by simp [originators, isOriginator, reset_ex]
  refine ⟨by simp [withinOriginLimit, hnone], by decide, fun _ => rfl, fun _ => rfl⟩

theorem reset_lineLaw : State.reset.lineLaw :=
  ⟨rfl, ⟨fun h => absurd h (by decide), fun h => absurd h (by decide)⟩, fun _ => rfl⟩

/-! ### The release of RESET -/

/-- The station with its straps sampled, in STARTING, its status word write not yet due. -/
def strapped (sn : Station) (sb : BitVec 2) (s : State) : State :=
  { s with
    sct :=
      { s.sct with
        inReset := false, stationNumber := sn, startBlock := Config.startBlockOf sb, station := .starting,
        faultPin := false } }

/-- What the release of RESET does beyond sampling the straps: the status word write, then the read of the start
record. -/
theorem releaseReset_eq (sn : Station) (sb : BitVec 2) (s : State) :
    ∃ u r, Quiet (s.strapped sn sb) u ∧ s.releaseReset sn sb = u.place r := ⟨_, _, Steady.makeStatusDue _, rfl⟩

/-- The release of RESET keeps the queue of commands and the capacities, and places one request. -/
theorem releaseReset_caps {sn : Station} {sb : BitVec 2} {s : State} (h : s.withinCaps) :
    (s.releaseReset sn sb).withinCaps := by
  obtain ⟨u, r, hq, he⟩ := releaseReset_eq sn sb s
  obtain ⟨hqueue, hmark⟩ := h
  rw [he]
  exact ⟨hq.caps hqueue, hq.marks hmark⟩

theorem startReads_place_le (r : Request) (s : State) : (s.place r).startReads ≤ s.startReads + 1 := by
  have hone : ([r].filter Request.isStart).length ≤ 1 := List.length_filter_le _ _
  simp only [startReads, place, List.filter_append, List.length_append] at hone ⊢
  omega

theorem startReads_strapped (sn : Station) (sb : BitVec 2) (s : State) :
    (s.strapped sn sb).startReads = s.startReads := rfl

theorem releaseReset_originLaw {sn : Station} {sb : BitVec 2} {s : State} (h : s.originLaw)
    (hr : s.sct.inReset = true) : (s.releaseReset sn sb).originLaw := by
  obtain ⟨hlimit, -, hnone, hparams⟩ := h
  obtain ⟨u, r, hq, he⟩ := releaseReset_eq sn sb s
  have hp : (s.releaseReset sn sb).sct = (s.strapped sn sb).sct := by rw [he, place_sct, hq.sct]
  have hp' : (s.releaseReset sn sb).sct.params = none := by rw [hp]; exact hparams hr
  have hup : (s.releaseReset sn sb).sct.inReset = false := by rw [hp]; rfl
  have hreads : (s.releaseReset sn sb).startReads ≤ 1 := by
    have h1 := startReads_place_le r u
    have h2 := hq.starts
    rw [startReads_strapped, hnone (.inr hr)] at h2
    rw [he]
    omega
  have horig : (s.releaseReset sn sb).originators ≤ s.originators := by
    rw [he]
    exact hq.originators
  have hpar : (s.releaseReset sn sb).par = s.par := by simp [par, hp', hparams hr]
  exact ⟨by rw [withinOriginLimit, hpar]; exact Nat.le_trans horig hlimit, hreads,
    fun h => by simp [hp', hup] at h, fun _ => hp'⟩

theorem releaseReset_lineLaw {sn : Station} {sb : BitVec 2} {s : State} (h : s.lineLaw)
    (hr : s.sct.inReset = true) : (s.releaseReset sn sb).lineLaw := by
  obtain ⟨-, ⟨hlcl, hawait⟩, -⟩ := h
  have hdark : s.lpt.pins.lcl = false := by
    by_contra hl
    have hup := (hlcl (by simpa using hl)).1
    simp [up, hr] at hup
  have hnone : s.awaitsPulse ≠ true := fun ha => by simp [hawait ha] at hdark
  obtain ⟨u, r, hq, he⟩ := releaseReset_eq sn sb s
  have hsct : (s.releaseReset sn sb).sct = (s.strapped sn sb).sct := by rw [he, place_sct, hq.sct]
  have hl : (s.releaseReset sn sb).lpt.pins.lcl = false := by rw [he, place_lpt, hq.lcl]; exact hdark
  have ha : (s.releaseReset sn sb).awaitsPulse ≠ true := by
    rw [he]
    exact fun h => hnone (hq.pulses h)
  refine ⟨by rw [hsct]; rfl, ⟨fun h => by simp [hl] at h, fun h => absurd h ha⟩, fun h => ?_⟩
  rw [hsct] at h
  cases h

theorem releaseReset_pending (sn : Station) (sb : BitVec 2) (s : State) :
    (s.releaseReset sn sb).pending = s.pending := by
  obtain ⟨u, r, hq, he⟩ := releaseReset_eq sn sb s
  rw [he, place_pending]
  exact hq.pending

/-! ### The end of the start record read -/

/-- What the end of the start record read can do: a next state that is steady, or, in STARTING, the accepted parameters
and the first probe. -/
theorem exec_startRecordReadDone_cases (bytes : List Byte) (s : State) :
    SteadyNext s (exec (.startRecordReadDone bytes) s) ∨
      ∃ r p, s.up = true ∧ s.lmp.transfer = some r ∧ r.isStart = true ∧ s.sct.station = .starting ∧
        exec (.startRecordReadDone bytes) s =
          .next { s.endRequest with sct := { s.sct with params := some p } }.startProbe := by
  cases hu : s.up with
  | false => exact .inl (by rw [exec_of_down (by simp) (by simp) hu]; exact SteadyNext.same s)
  | true =>
    simp only [exec, execStartRecordReadDone]
    split
    · exact .inl (SteadyNext.same s)
    · rename_i r hr
      obtain ⟨ht, hp⟩ : s.lmp.transfer = some r ∧ r.purpose = .startRecord ∧ bytes.length = 32 := by
        simpa [transferOf, hu, Option.filter_eq_some_iff] using hr
      by_cases hf : s.sct.station = .fault
      · exact .inl (by rw [if_pos hf]; exact .quiet (Steady.endInFault s _ _))
      · rw [if_neg hf]
        by_cases hs : s.sct.station = .starting
        · rw [if_pos hs, checkStart]
          cases hrec : startRecord bytes with
          | none => exact .inl (.next ((Steady.endRequest s).steady.trans (Steady.enterFault _ _)))
          | some p => exact .inr ⟨r, p, trivial, ht, by simp [Request.isStart, hp], hs, rfl⟩
        · rw [if_neg hs]
          exact .inl (SteadyNext.same s)

/-- In STARTING the accepted parameters and the first probe keep everything else steady. -/
theorem startProbe_steady {s : State} {p : StartParams} (hs : s.sct.station = .starting) :
    Steady { s.endRequest with sct := { s.sct with params := some p } }
      { s.endRequest with sct := { s.sct with params := some p } }.startProbe :=
  Steady.startProbe _ (by simp [hs]) (by simp [hs])

end State

/-! ### Steps -/

/-- A law that holds of the reset value, which steady commands, the release of RESET and an accepted start record keep,
is kept by every command. -/
theorem exec_keeps {law : State → Prop} (hreset : ∀ l, law { State.reset with pending := l })
    (hsteady : ∀ {s t : State}, law s → Steady s t → law t)
    (hrelease : ∀ sn sb (s : State), law s → s.up = false → law (s.releaseReset sn sb))
    (hstart : ∀ (s : State) (r : Request) (p : StartParams), law s → s.up = true → s.lmp.transfer = some r →
      r.isStart = true → s.sct.station = .starting →
      law { s.endRequest with sct := { s.sct with params := some p } }.startProbe)
    {c : Instr} {s t : State} (h : law s) (ht : exec c s = .next t) : law t := by
  have hnext : ∀ {o}, SteadyNext s o → o = .next t → law t := by
    rintro _ ⟨u, rfl, hu⟩ ht
    cases ht
    exact hsteady h hu
  cases hc : Instr.resets c with
  | false => exact hnext (steadyNext_exec hc s) ht
  | true =>
    cases c with
    | resetAssert =>
      cases ht
      exact hreset _
    | resetRelease sn sb =>
      simp only [exec, execResetRelease, Host.Outcome.next.injEq] at ht
      subst ht
      split
      · exact h
      · rename_i hu
        exact hrelease sn sb s h (by simpa using hu)
    | startRecordReadDone bytes =>
      obtain hs | ⟨r, p, hu, hr, hi, hst, he⟩ := State.exec_startRecordReadDone_cases bytes s
      · exact hnext hs ht
      · rw [he, Host.Outcome.next.injEq] at ht
        subst ht
        exact hstart s r p h hu hr hi hst
    | _ => cases hc

/-- A law of the station that the queue of commands does not enter holds after every step, if it holds of the reset value,
if what is steady keeps it, and if the release of RESET and an accepted start record keep it. -/
theorem step_keeps {law : State → Prop} (hpend : ∀ {s : State} (l : List Instr), law s → law { s with pending := l })
    (hreset : law State.reset) (hsteady : ∀ {s t : State}, law s → Steady s t → law t)
    (hrelease : ∀ sn sb (s : State), law s → s.up = false → law (s.releaseReset sn sb))
    (hstart : ∀ (s : State) (r : Request) (p : StartParams), law s → s.up = true → s.lmp.transfer = some r →
      r.isStart = true → s.sct.station = .starting →
      law { s.endRequest with sct := { s.sct with params := some p } }.startProbe) :
    ∀ s t : State, law s → step s = .next t → law t := by
  intro s t h ht
  cases hp : s.pending with
  | nil =>
    simp only [step, hp, Host.Outcome.next.injEq] at ht
    subst ht
    exact hsteady h (Steady.busTick s).steady
  | cons c rest =>
    simp only [step, hp] at ht
    exact exec_keeps (fun l => hpend l hreset) hsteady hrelease hstart (hpend rest h) ht

/-! ### The statements -/

/-- Settles O1: the step's own two branches, and the branches of the bus event on an empty queue. -/
theorem stepRunsFrontCommand : Obligations.StepRunsFrontCommand := by
  refine ⟨fun c rest s h => by simp only [step, h], fun s h => ?_⟩
  have hstep : step s = .next s.busTick := by simp only [step, h]
  rw [hstep]
  refine ⟨fun ht => by simp only [State.busTick, ht], fun r ht => ⟨fun hg => ?_, fun hg => ⟨fun hb => ?_, fun hb => ?_⟩⟩⟩
  · simp only [State.busTick, ht, hg, if_true]
  · simp [State.busTick, ht, hg, hb]
  · simp [State.busTick, ht, hg, Nat.not_lt.mpr hb]

/-- Settles O2: a steady command answers a next state with its queue, and so do the three that are not steady. -/
theorem everyCommandAnswersNext : Obligations.EveryCommandAnswersNext := by
  intro c s
  cases hc : Instr.resets c with
  | false =>
    obtain ⟨t, ht, hs⟩ := steadyNext_exec hc s
    exact ⟨t, ht, hs.pending⟩
  | true =>
    cases c with
    | resetAssert => exact ⟨_, rfl, rfl⟩
    | resetRelease sn sb =>
      cases hu : s.up with
      | true => exact ⟨s, by simp [exec, execResetRelease, hu], rfl⟩
      | false => exact ⟨_, by simp only [exec, execResetRelease, hu]; rfl, State.releaseReset_pending sn sb s⟩
    | startRecordReadDone bytes =>
      obtain ⟨t, ht, hs⟩ | ⟨r, p, -, -, -, hst, ht⟩ := State.exec_startRecordReadDone_cases bytes s
      · exact ⟨t, ht, hs.pending⟩
      · exact ⟨_, ht, (State.startProbe_steady hst).pending⟩
    | _ => cases hc

/-- Settles O3: each block of the reset value, read field by field. -/
theorem resetAssertGivesResetValues : Obligations.ResetAssertGivesResetValues := by
  intro s
  refine ⟨{ State.reset with pending := s.pending }, rfl, rfl, fun i => ⟨State.reset_ex i, State.reset_gen i⟩, rfl,
    State.reset_offer, rfl, rfl, rfl, rfl, rfl, State.reset_buffer, rfl, State.reset_cell, rfl, rfl, rfl, rfl, rfl, rfl,
    rfl, rfl, rfl, rfl, rfl, State.reset_peer, ?_⟩
  repeat' constructor

/-- Settles O6: a steady step keeps the capacities, the reset value meets them, and the release of RESET and the first
probe keep them too. -/
theorem stepKeepsCapacities : Obligations.StepKeepsCapacities :=
  step_keeps (fun _ h => h) State.reset_withinCaps (fun h hs => hs.caps h)
    (fun _ _ _ h _ => State.releaseReset_caps h) (fun _ _ _ h _ _ _ hst => (State.startProbe_steady hst).caps h)

/-- Settles O5. -/
theorem lawsHoldAtReset : Obligations.LawsHoldAtReset :=
  ⟨State.reset_withinCaps, State.reset_originLaw, State.reset_lineLaw⟩


/-- Without start parameters the origin limit is 0, so no slot is an originator's (R6). -/
theorem State.originators_of_noParams {s : State} (h : s.withinOriginLimit) (hp : s.sct.params = none) :
    s.originators = 0 := by
  have hzero : s.par.originLimit = 0 := by simp [State.par, hp, StartParams.unset]
  rw [State.withinOriginLimit, hzero] at h
  omega

/-- The start record read that has ended was the only one (R167). -/
theorem State.startReads_endRequest {s : State} {r : Request} (ht : s.lmp.transfer = some r) (hr : r.isStart = true) :
    s.startReads = s.endRequest.startReads + 1 := by
  simp [State.startReads, State.endRequest, ht, hr]

theorem Steady.originLaw {s t : State} (h : s.originLaw) (hs : Steady s t) : t.originLaw := by
  obtain ⟨hlimit, hone, hnone, hparams⟩ := h
  refine ⟨hs.limit hlimit, Nat.le_trans hs.starts hone, fun h => ?_, fun h => ?_⟩
  · have hz := hnone (by rwa [hs.params, hs.up] at h)
    have hle := hs.starts
    omega
  · rw [hs.params]
    exact hparams (by rwa [hs.up] at h)

/-- An accepted start record: the read was the only one, and no slot is an originator's yet (R6, R167). -/
theorem State.startProbe_originLaw {s : State} {r : Request} {p : StartParams} (h : s.originLaw) (hu : s.up = true)
    (ht : s.lmp.transfer = some r) (hr : r.isStart = true) (hst : s.sct.station = .starting) :
    s.sct.params = none ∧
      { s.endRequest with sct := { s.sct with params := some p } }.startProbe.originLaw := by
  obtain ⟨hlimit, hone, hnone, -⟩ := h
  have hreads := State.startReads_endRequest ht hr
  have hfresh : s.sct.params = none := by
    by_contra hp
    have := hnone (.inl hp)
    omega
  refine ⟨hfresh, Steady.originLaw ⟨?_, ?_, fun _ => ?_, fun hlow => ?_⟩ (State.startProbe_steady hst)⟩
  · have hz : s.originators = 0 := State.originators_of_noParams hlimit hfresh
    exact Nat.le_trans (Nat.le_of_eq hz) (Nat.zero_le _)
  · show s.endRequest.startReads ≤ 1
    omega
  · show s.endRequest.startReads = 0
    omega
  · have : s.sct.inReset = true := hlow
    simp [State.up, this] at hu

theorem step_originLaw : ∀ s t : State, s.originLaw → step s = .next t → t.originLaw :=
  step_keeps (fun _ h => h) State.reset_originLaw Steady.originLaw
    (fun _ _ _ h hu => State.releaseReset_originLaw h (by simpa [State.up] using hu))
    (fun _ _ _ h hu ht hr hst => (State.startProbe_originLaw h hu ht hr hst).2)

/-- Accepted parameters stand until hardware reset: the only read that could replace them is none that is placed
(R167). -/
theorem exec_paramsStand {c : Instr} {s t : State} (h : s.originLaw) (ht : exec c s = .next t) :
    t.sct.inReset = true ∨ s.sct.params = none ∨ t.sct.params = s.sct.params := by
  cases hc : Instr.resets c with
  | false =>
    obtain ⟨u, hu, hs⟩ := steadyNext_exec hc s
    cases hu.symm.trans ht
    exact .inr (.inr hs.params)
  | true =>
    cases c with
    | resetAssert =>
      cases ht
      exact .inl rfl
    | resetRelease sn sb =>
      simp only [exec, execResetRelease, Host.Outcome.next.injEq] at ht
      subst ht
      split
      · exact .inr (.inr rfl)
      · rename_i hu
        exact .inr (.inl (h.2.2.2 (by simpa [State.up] using hu)))
    | startRecordReadDone bytes =>
      obtain ⟨u, hu, hs⟩ | ⟨r, p, hu, hr, hi, hst, -⟩ := State.exec_startRecordReadDone_cases bytes s
      · cases hu.symm.trans ht
        exact .inr (.inr hs.params)
      · exact .inr (.inl (State.startProbe_originLaw (p := p) h hu hr hi hst).1)
    | _ => cases hc

/-- Settles O7. -/
theorem stepKeepsOriginLimit : Obligations.StepKeepsOriginLimit := by
  intro s t h ht
  refine ⟨step_originLaw s t h ht, ?_⟩
  cases hp : s.pending with
  | nil =>
    simp only [step, hp, Host.Outcome.next.injEq] at ht
    subst ht
    exact .inr (.inr (Steady.busTick s).steady.params)
  | cons c rest =>
    simp only [step, hp] at ht
    exact exec_paramsStand (s := { s with pending := rest }) h ht

/-! ### The line law -/

/-- A station whose RESET is not low keeps the line law over a steady step. -/
theorem Steady.lineLaw {s t : State} (h : s.lineLaw) (hu : s.up = true) (hs : Steady s t) : t.lineLaw := by
  obtain ⟨hpin, hpulse, -⟩ := h
  refine ⟨hs.line hpin, hs.pulse hpulse, fun hr => ?_⟩
  rw [hs.up] at hr
  simp [State.up, hr] at hu

theorem exec_lineLaw {c : Instr} {s t : State} (h : s.lineLaw) (ht : exec c s = .next t) : t.lineLaw := by
  cases hu : s.up with
  | true =>
    cases hc : Instr.resets c with
    | false =>
      obtain ⟨u, hn, hs⟩ := steadyNext_exec hc s
      cases hn.symm.trans ht
      exact hs.lineLaw h hu
    | true =>
      cases c with
      | resetAssert =>
        cases ht
        exact State.reset_lineLaw
      | resetRelease sn sb =>
        simp only [exec, execResetRelease, hu, if_true, Host.Outcome.next.injEq] at ht
        subst ht
        exact h
      | startRecordReadDone bytes =>
        obtain ⟨u, hn, hs⟩ | ⟨r, p, -, -, -, hst, hn⟩ := State.exec_startRecordReadDone_cases bytes s
        · cases hn.symm.trans ht
          exact hs.lineLaw h hu
        · cases hn.symm.trans ht
          obtain ⟨hpin, hpulse, hlow⟩ := h
          have hrun : { s.endRequest with sct := { s.sct with params := some p } }.lineLaw :=
            ⟨hpin, hpulse, fun hr => by
              have hdown : s.sct.inReset = true := hr
              simp [State.up, hdown] at hu⟩
          exact (State.startProbe_steady hst).lineLaw hrun hu
      | _ => cases hc
  | false =>
    have hr : s.sct.inReset = true := by simpa [State.up] using hu
    by_cases ha : c = .resetAssert
    · subst ha
      cases ht
      exact State.reset_lineLaw
    · by_cases hrel : ∃ sn sb, c = .resetRelease sn sb
      · obtain ⟨sn, sb, rfl⟩ := hrel
        simp only [exec, execResetRelease, hu, Host.Outcome.next.injEq] at ht
        subst ht
        exact State.releaseReset_lineLaw h hr
      · rw [exec_of_down ha (fun sn sb he => hrel ⟨sn, sb, he⟩) hu] at ht
        cases ht
        exact h

/-- While RESET is low the port has no transfer, so that the local bus does not move. -/
theorem State.busTick_lineLaw {s : State} (h : s.lineLaw) : s.busTick.lineLaw := by
  cases hu : s.up with
  | true => exact (Steady.busTick s).steady.lineLaw h hu
  | false =>
    have hreset := h.2.2 (by simpa [State.up] using hu)
    have hport : s.lmp.transfer = none := congrArg (fun x : State => x.lmp.transfer) hreset
    simpa only [State.busTick, hport] using h

/-- Settles O8. -/
theorem stepKeepsLineLaw : Obligations.StepKeepsLineLaw := by
  intro s t h ht
  cases hp : s.pending with
  | nil =>
    simp only [step, hp, Host.Outcome.next.injEq] at ht
    subst ht
    exact State.busTick_lineLaw h
  | cons c rest =>
    simp only [step, hp] at ht
    exact exec_lineLaw (s := { s with pending := rest }) h ht

end Sys2Proof.Machine
end

section
/-!
SUPPORT. What a stopped station still does (R115, R173 to R175): the operations that go on in FAULT, each said once to
leave the station as it stopped.
-/

namespace Sys2Proof.Machine

/-- From s to t the station has stayed as it stopped: its state, cause, lines, Exchange Table, offers, Pending List,
buffers, cells and Order Unit are the same, and no WAITING entry and no DATA frame before its tenure has come in that
s did not hold, but entries of Station Control. -/
structure Still (s t : State) : Prop where
  inReset : t.sct.inReset = s.sct.inReset
  station : t.sct.station = s.sct.station
  faultCause : t.sct.faultCause = s.sct.faultCause
  faultPin : t.sct.faultPin = s.sct.faultPin
  reportPin : t.rpt.reportPin = s.rpt.reportPin
  xen : t.xen = s.xen
  fbd : t.fbd = s.fbd
  stg : t.stg = s.stg
  ord : t.ord = s.ord
  waiting : ∀ c ∈ t.txq.ctrl, c.inSlot = false → c ∈ s.txq.ctrl ∨ c.owner = Owner.stationControl
  unbegun : ∀ f, t.lpt.tx = some f → f.isData = true → f.begun = false → s.lpt.tx = some f

namespace Still

variable {s t u : State}

theorem refl (s : State) : Still s s :=
  ⟨rfl, rfl, rfl, rfl, rfl, rfl, rfl, rfl, rfl, fun _ h _ => .inl h, fun _ h _ _ => h⟩

theorem trans (h : Still s t) (k : Still t u) : Still s u where
  inReset := k.inReset.trans h.inReset
  station := k.station.trans h.station
  faultCause := k.faultCause.trans h.faultCause
  faultPin := k.faultPin.trans h.faultPin
  reportPin := k.reportPin.trans h.reportPin
  xen := k.xen.trans h.xen
  fbd := k.fbd.trans h.fbd
  stg := k.stg.trans h.stg
  ord := k.ord.trans h.ord
  waiting := fun c hc hw => (k.waiting c hc hw).elim (fun h' => h.waiting c h' hw) .inr
  unbegun := fun f hf hd hb => h.unbegun f (k.unbegun f hf hd hb) hd hb

/-- A stopped station that stays as it stopped is stopped, with everything the statement lists. -/
theorem holds (h : Still s t) (hs : s.stopped) :
    t.stopped ∧ t.sct.faultCause = s.sct.faultCause ∧ t.sct.faultPin = s.sct.faultPin ∧
      t.rpt.reportPin = s.rpt.reportPin ∧ t.xen = s.xen ∧ t.fbd = s.fbd ∧ t.stg = s.stg ∧ t.ord = s.ord := by
  obtain ⟨hr, hf, hw, hd⟩ := hs
  refine ⟨⟨h.inReset.trans hr, h.station.trans hf, fun c hc hwait => ?_, fun f hf hdata => ?_⟩, h.faultCause,
    h.faultPin, h.reportPin, h.xen, h.fbd, h.stg, h.ord⟩
  · exact (h.waiting c hc hwait).elim (fun hin => hw c hin hwait) id
  · by_contra hb
    have hfresh : f.begun = false := by simpa using hb
    exact hb (hd f (h.unbegun f hf hdata hfresh) hdata)

/-! ### Blocks that do not hold what stays -/

/-- Changes of the Lane Port that keep the transmit slot or empty it, of the Report Unit that keep the REPORT line, and of
the Local Memory Port. -/
theorem of_ports (l : LanePort) (r : ReportUnit) (m : MemoryPort) (hl : l.tx = s.lpt.tx ∨ l.tx = none)
    (hr : r.reportPin = s.rpt.reportPin) : Still s { s with lpt := l, rpt := r, lmp := m } :=
  ⟨rfl, rfl, rfl, rfl, hr, rfl, rfl, rfl, rfl, fun _ h _ => .inl h, fun f hf _ _ => by
    obtain h | h := hl
    · rw [← h]; exact hf
    · rw [h] at hf; cases hf⟩

theorem withLane (l : LanePort) (hl : l.tx = s.lpt.tx ∨ l.tx = none) : Still s { s with lpt := l } :=
  of_ports l s.rpt s.lmp hl rfl

theorem withReports (r : ReportUnit) (m : MemoryPort) (hr : r.reportPin = s.rpt.reportPin) :
    Still s { s with rpt := r, lmp := m } :=
  of_ports s.lpt r m (.inl rfl) hr

/-- Changes of the control queue that bring in no WAITING entry but Station Control's, and of the fields of Station Control
that are not held still. -/
theorem withQueue (c : StationControl) (q : TransmitQueue)
    (hc : c.inReset = s.sct.inReset ∧ c.station = s.sct.station ∧ c.faultCause = s.sct.faultCause ∧
      c.faultPin = s.sct.faultPin)
    (hq : ∀ x ∈ q.ctrl, x.inSlot = false → x ∈ s.txq.ctrl ∨ x.owner = Owner.stationControl) :
    Still s { s with sct := c, txq := q } :=
  ⟨hc.1, hc.2.1, hc.2.2.1, hc.2.2.2, rfl, rfl, rfl, rfl, rfl, hq, fun _ hf _ _ => hf⟩

/-! ### The local memory port -/

theorem endRequest (s : State) : Still s s.endRequest := withReports s.rpt _ rfl

theorem placeFaultStatus (s : State) : Still s s.placeFaultStatus := by
  unfold State.placeFaultStatus
  split
  · exact withReports _ _ rfl
  · exact refl s

theorem endInFault (b : Bool) (r : Request) (s : State) : Still s (s.endInFault b r) := by
  have hwriter : Still s { s.endRequest with rpt := { s.rpt with writer := .idle } } := withReports _ _ rfl
  unfold State.endInFault
  split
  · refine trans ?_ (placeFaultStatus _)
    split
    · exact withReports _ _ rfl
    all_goals exact endRequest s
  · refine trans ?_ (placeFaultStatus _)
    split
    · exact withReports _ _ rfl
    · exact hwriter
  · exact hwriter.trans (placeFaultStatus _)
  all_goals exact (endRequest s).trans (placeFaultStatus _)

theorem failed (r : Request) {s : State} (hf : s.sct.station = .fault) : Still s (s.failed r) := by
  rw [State.failed, if_pos hf]
  exact endInFault false r s

theorem chooseTransfer (n : Nat) : ∀ {s : State}, s.sct.station = .fault → Still s (State.chooseTransfer n s) := by
  induction n with
  | zero => exact fun _ => refl _
  | succ n ih =>
    intro s hf
    unfold State.chooseTransfer
    split
    · exact refl s
    · rename_i r hr
      have herase : Still s { s with lmp := { s.lmp with waiting := s.lmp.waiting.erase r } } :=
        withReports s.rpt _ rfl
      have hfail := failed r (s := { s with lmp := { s.lmp with waiting := s.lmp.waiting.erase r } }) hf
      split
      · exact (herase.trans hfail).trans (ih (hfail.station.trans hf))
      · exact withReports s.rpt _ rfl

theorem busTick (s : State) : Still s s.busTick := by
  unfold State.busTick
  split
  · exact refl s
  · split
    · exact withReports s.rpt _ rfl
    · split
      · exact withReports s.rpt _ rfl
      · exact refl s

/-! ### The control queue -/

theorem freeInSlot (s : State) : Still s s.freeInSlot :=
  withQueue s.sct _ ⟨rfl, rfl, rfl, rfl⟩ fun _ hx _ => .inl (List.mem_of_mem_filter hx)

theorem emptyTx (s : State) : Still s s.emptyTx := withLane _ (.inr rfl)

theorem setPhase (p : LanePhase) (a : Option Ack) (s : State) : Still s (s.setPhase p a) := withLane _ (.inl rfl)

/-- In FAULT no rescan waits for an entry, so that an entry of Station Control that joins the queue changes nothing else
(R61). -/
theorem pushEntry {s : State} {c : CtrlEntry} (hf : s.sct.station = .fault) (hc : c.owner = .stationControl) :
    Still s (s.pushEntry c) := by
  have hwaits : s.rescanWaitsAt (s.txq.ctrl.length + 1) = s.xen.rescanWaits := by simp [State.rescanWaitsAt, hf]
  unfold State.pushEntry
  split
  · rw [hwaits]
    refine withQueue s.sct { s.txq with ctrl := s.txq.ctrl ++ [c] } ⟨rfl, rfl, rfl, rfl⟩ fun x hx _ => ?_
    simp only [List.mem_append, List.mem_singleton] at hx
    obtain hx | rfl := hx
    · exact .inl hx
    · exact .inr hc
  · exact refl s

theorem placeFaultAbort {s : State} (hf : s.sct.station = .fault) : Still s s.placeFaultAbort := by
  unfold State.placeFaultAbort
  split
  · exact refl s
  · split
    · exact refl s
    · rename_i rest _ _
      have hdrop : Still s { s with sct := { s.sct with faultAborts := rest } } :=
        withQueue _ s.txq ⟨rfl, rfl, rfl, rfl⟩ fun _ h _ => .inl h
      exact hdrop.trans (pushEntry hf rfl)

theorem purge (p : Station) (s : State) : Still s (s.purge p) :=
  withQueue s.sct _ ⟨rfl, rfl, rfl, rfl⟩ fun _ hx _ => .inl (List.mem_of_mem_filter hx)

theorem setPeer (p : Station) (v : PeerState) (s : State) : Still s (s.setPeer p v) := withLane _ (.inl rfl)

theorem markSilent (p : Station) {s : State} (hf : s.sct.station = .fault) : Still s (s.markSilent p) := by
  have hpurge := (setPeer p .silent s).trans (purge p _)
  have hst : ((s.setPeer p .silent).purge p).sct.station = .fault := hpurge.station.trans hf
  rw [State.markSilent, if_pos hst]
  exact hpurge.trans (withQueue _ _ ⟨rfl, rfl, rfl, rfl⟩ fun _ h _ => .inl h)

/-! ### Link outcomes -/

/-- In FAULT the outcome TAKEN of a control frame reaches nobody (R174). -/
theorem ctrlTaken_of_fault (c : CtrlEntry) {s : State} (hf : s.sct.station = .fault) : s.ctrlTaken c = s := by
  unfold State.ctrlTaken
  split
  · rfl
  · simp [hf]
  · rw [if_pos (.inl hf)]

theorem ctrlBusy (c : CtrlEntry) {s : State} (hf : s.sct.station = .fault) : Still s (s.ctrlBusy c) := by
  unfold State.ctrlBusy
  split
  · exact freeInSlot s
  · split
    · exact (freeInSlot s).trans (pushEntry hf ‹_›)
    · exact freeInSlot s
  · rw [if_pos (.inl hf)]
    exact freeInSlot s

theorem linkTaken {t : TxFrame} {s : State} (hf : s.sct.station = .fault) (hd : t.isData = false) :
    Still s (s.linkTaken t) := by
  unfold State.linkTaken
  split
  · simp [TxFrame.isData, ‹t.src = _›] at hd
  · split
    · exact emptyTx s
    · rw [ctrlTaken_of_fault _ (by exact hf)]
      exact (emptyTx s).trans (freeInSlot _)

theorem linkBusy {t : TxFrame} {s : State} (hf : s.sct.station = .fault) (hd : t.isData = false) :
    Still s (s.linkBusy t) := by
  unfold State.linkBusy
  split
  · simp [TxFrame.isData, ‹t.src = _›] at hd
  · split
    · exact emptyTx s
    · exact (emptyTx s).trans (ctrlBusy _ hf)

theorem linkExhausted {t : TxFrame} {s : State} (hf : s.sct.station = .fault) (hd : t.isData = false) :
    Still s (s.linkExhausted t) := by
  have hfree := (emptyTx s).trans (freeInSlot _)
  unfold State.linkExhausted
  split
  · simp [TxFrame.isData, ‹t.src = _›] at hd
  · split
    · rw [if_neg (by simp [hf])]
      exact hfree
    · exact hfree.trans (markSilent _ hf)

theorem readSlot (t : TxFrame) (a : Option Ack) {s : State} (hf : s.sct.station = .fault) :
    Still s (s.readSlot t a) := by
  cases hd : t.isData with
  | true =>
    unfold State.readSlot State.removeInFault
    rw [if_pos ⟨hf, hd⟩]
    split
    · exact (emptyTx s).trans (markSilent _ hf)
    · exact emptyTx s
  | false =>
    unfold State.readSlot
    rw [if_neg (by simp [hd])]
    split
    · exact linkTaken hf hd
    · exact linkBusy hf hd
    · split
      · exact refl s
      · exact linkExhausted hf hd

/-! ### The lane -/

theorem dispatch (a : Ack) (w : Received) {s : State} (hf : s.sct.station = .fault) : Still s (s.dispatch a w) := by
  unfold State.dispatch
  split
  any_goals exact refl s
  rename_i f
  have hheard : Still s (s.heard f.src) := by
    unfold State.heard
    split
    · exact refl s
    · exact setPeer _ _ s
  simp only [hf, if_true]
  exact hheard

theorem ackSlot (a b : Bool) {s : State} (hf : s.sct.station = .fault) : Still s (s.ackSlot a b) := by
  unfold State.ackSlot
  split
  · split
    · exact setPhase _ _ s
    · exact (setPhase _ _ s).trans (readSlot _ _ hf)
  · exact (setPhase _ _ s).trans (dispatch _ _ hf)
  · exact setPhase _ _ s
  all_goals exact refl s

theorem sendTenure (t : TxFrame) (bytes : List Byte) {s : State} (hf : s.sct.station = .fault) :
    Still s (s.sendTenure t bytes) := by
  unfold State.sendTenure
  rw [if_neg (by simp [hf])]
  refine ⟨rfl, rfl, rfl, rfl, rfl, rfl, rfl, rfl, rfl, fun _ h _ => .inl h, fun f hx _ hb => ?_⟩
  cases hx
  cases hb

theorem receiveTenure (bytes : List Byte) {s : State} (hf : s.sct.station = .fault) :
    Still s (s.receiveTenure bytes) := by
  unfold State.receiveTenure
  rw [if_neg (by simp [hf])]
  split
  · exact setPhase _ _ s
  · exact setPhase _ _ s

theorem tenure (bytes : List Byte) {s : State} (hf : s.sct.station = .fault) : Still s (s.tenure bytes) := by
  unfold State.tenure
  split
  · split
    · exact setPhase _ _ s
    · exact sendTenure _ bytes hf
  · exact receiveTenure bytes hf
  · exact receiveTenure bytes hf
  all_goals exact refl s

theorem window (bids : List Bid) (w : Bool) (s : State) : Still s (s.window bids w) := by
  unfold State.window
  dsimp only
  split
  · refine withLane _ (.inl ?_)
    unfold LanePort.emptyWindow
    split <;> rfl
  · split
    · exact withLane _ (.inl rfl)
    · split <;> exact withLane _ (.inl rfl)

theorem ignoreClear (s : State) : Still s s.ignoreClear := by
  unfold State.ignoreClear
  split <;> exact withLane _ (.inl rfl)

/-- In FAULT the frame handed over is Station Control's, whose OPENs are none (R115). -/
theorem handOver {s : State} (hs : s.stopped) : Still s s.handOver := by
  obtain ⟨-, -, hw, -⟩ := hs
  unfold State.handOver
  split
  · exact refl s
  · rename_i k hk
    split
    · exact refl s
    · rename_i c hc
      obtain ⟨hlt, hwait, -⟩ := List.findIdx?_eq_some_iff_getElem.mp hk
      have hget : s.txq.ctrl[k] = c := by
        rw [List.getElem?_eq_getElem hlt] at hc
        exact Option.some.inj hc
      have hown : c.owner = .stationControl :=
        hw c (hget ▸ List.getElem_mem hlt) (by simpa [hget] using hwait)
      simp only [State.markOpenHanded, hown]
      refine ⟨rfl, rfl, rfl, rfl, rfl, rfl, rfl, rfl, rfl, fun x hx hin => ?_, fun f hf hd _ => ?_⟩
      · obtain hx | rfl := List.mem_or_eq_of_mem_set hx
        · exact .inl hx
        · cases hin
      · cases hf
        cases hd

theorem chooseFrame {s : State} (hs : s.stopped) : Still s s.chooseFrame := by
  unfold State.chooseFrame
  split
  · exact handOver hs
  · rw [if_pos hs.2.1]
    exact refl s

/-- In FAULT no DATA frame is taken back: the one that is left has begun its tenure (R173). -/
theorem takeBack_of_stopped {s : State} (hs : s.stopped) : s.takeBack = s := by
  obtain ⟨-, -, -, hd⟩ := hs
  unfold State.takeBack
  split
  · rfl
  · rename_i t ht
    split
    · rfl
    · rename_i b hb
      have hbegun : t.begun = true := hd t ht (by simp [TxFrame.isData, hb])
      simp [hbegun]

theorem endPresence (s : State) : Still s s.endPresence :=
  have hgone : Still s { s with sct := { s.sct with present := false } } :=
    withQueue _ s.txq ⟨rfl, rfl, rfl, rfl⟩ fun _ h _ => .inl h
  hgone.trans (withLane _ (.inr rfl))

end Still

/-! ### Commands -/

/-- The outcome is a next state in which the station has stayed as it stopped. -/
def StillNext (s : State) (o : Host.Outcome State Fault Refusal) : Prop := ∃ t, o = .next t ∧ Still s t

namespace StillNext

variable {s t : State}

theorem next (h : Still s t) : StillNext s (.next t) := ⟨t, rfl, h⟩

theorem same (s : State) : StillNext s (.next s) := next (Still.refl s)

theorem guard {p : Prop} [Decidable p] (h : Still s t) : StillNext s (.next (if p then t else s)) := by
  split
  · exact next h
  · exact same s

/-- In FAULT a transfer that completes ends as R165 says, by whatever command. -/
theorem inFault {u : State} (hf : s.sct.station = .fault) (r : Request) :
    StillNext s (.next (if s.sct.station = .fault then s.endInFault true r else u)) := by
  rw [if_pos hf]
  exact next (Still.endInFault true r s)

end StillNext

theorem runs_of_fault {s : State} (hf : s.sct.station = .fault) : s.runs = false := by simp [State.runs, hf]

/-- In FAULT every command but hardware reset leaves the station as it stopped (R175). -/
theorem stillNext_exec {c : Instr} {s : State} (hc : c ≠ .resetAssert) (hs : s.stopped) : StillNext s (exec c s) := by
  have hf : s.sct.station = .fault := hs.2.1
  cases hn : Instr.needsBlocks c with
  | true =>
    rw [exec_of_idle hn (runs_of_fault hf)]
    exact .same s
  | false =>
    cases c
    case resetAssert => exact absurd rfl hc
    case resetRelease sn sb =>
      have hu : s.up = true := by simp [State.up, hs.1]
      simp only [exec, execResetRelease, hu, if_true]
      exact .same s
    case laneClear =>
      have htake : s.takesClear = false := by simp [State.takesClear, hf]
      simp only [exec, execLaneClear, htake]
      exact .guard (Still.ignoreClear s)
    case arbitrationWindow bids w => exact .guard (Still.window bids w s)
    case tenure bytes => exact .guard (Still.tenure bytes hf)
    case acknowledgeSlot a b => exact .guard (Still.ackSlot a b hf)
    case transmitChoice =>
      refine .guard ?_
      split
      · exact Still.chooseFrame hs
      · rw [Still.takeBack_of_stopped hs]
        exact Still.refl s
    case controlFramePlaced =>
      simp only [exec, execControlFramePlaced, runs_of_fault hf]
      exact .guard (Still.placeFaultAbort hf)
    case detachComplete =>
      have hdone : s.detachDone = false := by simp [State.detachDone, hf]
      rw [exec, execDetachComplete, if_neg (by simp [hdone])]
      exact .same s
    case presenceEnd => exact .guard (Still.endPresence s)
    case busError =>
      simp only [exec, execBusError]
      split
      · exact .same s
      · exact .next ((Still.endRequest s).trans (Still.failed _ hf))
    case lmpChooseTransfer => exact .guard (Still.chooseTransfer 64 hf)
    case entryReadDone bytes =>
      simp only [exec, execEntryReadDone]
      split
      · split
        · exact .next (Still.endInFault true _ s)
        · exact .same s
      · exact .same s
    case dataReadDone bytes =>
      simp only [exec, execDataReadDone]
      split
      · split
        · split
          · exact .same s
          · exact .next (Still.endInFault true _ s)
        · exact .same s
      · exact .same s
    case drainWriteDone =>
      simp only [exec, execDrainWriteDone]
      split
      · split
        · exact .next (Still.endInFault true _ s)
        · exact .same s
      · exact .same s
    case ringWordsReadDone bytes =>
      simp only [exec, execRingWordsReadDone]
      split
      · exact .same s
      · exact .inFault hf _
    case orderFetchDone bytes =>
      simp only [exec, execOrderFetchDone]
      split
      · exact .same s
      · exact .inFault hf _
    case indexWriteDone =>
      simp only [exec, execIndexWriteDone]
      split
      · exact .same s
      · exact .inFault hf _
    case startRecordReadDone bytes =>
      simp only [exec, execStartRecordReadDone]
      split
      · exact .same s
      · exact .inFault hf _
    case reportEntryWriteDone =>
      simp only [exec, execReportEntryWriteDone]
      split
      · exact .same s
      · exact .inFault hf _
    case producerWordWriteDone =>
      simp only [exec, execProducerWordWriteDone]
      split
      · exact .same s
      · exact .inFault hf _
    case statusWordWriteDone =>
      simp only [exec, execStatusWordWriteDone]
      split
      · exact .same s
      · exact .inFault hf _
    all_goals cases hn

/-- Settles O9. -/
theorem faultHoldsStill : Obligations.FaultHoldsStill := by
  intro s t hs ht
  cases hp : s.pending with
  | nil =>
    simp only [step, hp, Host.Outcome.next.injEq] at ht
    subst ht
    exact .inr ((Still.busTick s).holds hs)
  | cons c rest =>
    simp only [step, hp] at ht
    by_cases hc : c = .resetAssert
    · subst hc
      cases ht
      exact .inl rfl
    · obtain ⟨u, hu, hstill⟩ := stillNext_exec (s := { s with pending := rest }) hc hs
      cases hu.symm.trans ht
      exact .inr (hstill.holds hs)

end Sys2Proof.Machine
end

section
/-!
SUPPORT. The release of RESET, the tick, POST, the ring words and the start record: what each does in full.
-/

namespace Sys2Proof.Machine

namespace State

/-! ### The release of RESET -/

/-- While RESET is low only the queue of commands is not at its reset value (R166). -/
theorem eq_reset_of_lineLaw {s : State} (h : s.lineLaw) (hr : s.sct.inReset = true) :
    s = { State.reset with pending := s.pending } := by
  obtain ⟨-, -, hreset⟩ := h
  have := hreset hr
  cases s
  simp_all [State.reset]

/-- The strap levels choose the start block (12.1). -/
theorem startBlockOf_eq (sb : BitVec 2) :
    Config.startBlockOf sb = if sb = 0 then 0x00000400#32 else if sb = 1 then 0x00100000#32 else if sb = 2 then
      0x40000000#32 else 0x7FFFF000#32 := by
  revert sb
  decide

/-! ### The tick -/

theorem ex_tick (s : State) (i : SlotId) :
    s.tick.ex i = (s.ex i).map fun e => { e with timer := e.timer.tick } := by
  simp [ex, tick, Slot.tick]

theorem gen_tick (s : State) (i : SlotId) : s.tick.gen i = s.gen i := by simp [gen, tick, Slot.tick]

end State

/-- A running timer with time left counts down (R9). -/
theorem Timer.tick_of_running {t : Timer} (h : t.run = .running) (hr : 2 ≤ t.remaining) :
    t.tick = ⟨t.kind, t.remaining - 1, .running⟩ := by
  have hr' : ¬t.remaining ≤ 1 := by omega
  simp only [Timer.tick, h, if_neg hr']

/-- A running timer at its last count expires (R9). -/
theorem Timer.tick_of_last {t : Timer} (h : t.run = .running) (hr : t.remaining < 2) :
    t.tick = ⟨t.kind, 0, .expired⟩ := by
  simp only [Timer.tick, h, if_pos (Nat.le_of_lt_succ hr)]

/-- A timer that does not run stays (R9). -/
theorem Timer.tick_of_stopped {t : Timer} (h : t.run ≠ .running) : t.tick = t := by
  unfold Timer.tick
  split
  · exact absurd ‹_› h
  all_goals rfl

namespace State

/-! ### POST and the ring words -/

theorem orderBusy_eq_false_iff (s : State) :
    s.orderBusy = false ↔ s.ord.head ≠ .fetching ∧ s.ord.indexWrite = false := by
  simp [orderBusy]

theorem orderBusy_iff (s : State) : s.orderBusy = true ↔ s.ord.head = .fetching ∨ s.ord.indexWrite = true := by
  simp [orderBusy]

theorem exec_post {s : State} (h : s.runs = true) (hs : s.sct.station ≠ .starting) :
    exec .post s = .next s.postEdge := by
  simp only [exec, execPost, if_pos (And.intro h hs)]

theorem postEdge_of_idle {s : State} (h : s.ord.ringRead = .idle) :
    s.postEdge = if s.orderBusy then { s with ord := { s.ord with ringRead := .inProgress } }
      else { s with ord := { s.ord with ringRead := .inProgress } }.requested
        ⟨.ringWords, s.sct.startBlock.toNat + 0x20, 8, []⟩ := by
  simp only [postEdge, h]
  rfl

theorem postEdge_of_reading {s : State} (h : s.ord.ringRead ≠ .idle) :
    s.postEdge = { s with ord := { s.ord with ringRead := .furtherDue } } := by
  unfold postEdge
  split
  · exact absurd ‹_› h
  all_goals rfl

/-- The transfer that ends is the one in progress, where its purpose is as asked (R163). -/
theorem transferOf_of_ending {s : State} {r : Request} {p : Purpose → Bool} (h : s.ending r) (hp : p r.purpose = true) :
    s.transferOf p = some r := by
  obtain ⟨hr, ht⟩ := h
  simp [transferOf, (runs_up hr).1, ht, hp]

/-- The release word is accepted where it lies between the counts, and REPORT follows (R154, R155). -/
theorem acceptRelease_eq (w : BitVec 16) (s : State) :
    s.acceptRelease w = { s with
      rpt :=
        if (w - s.rpt.release).toNat ≤ (s.rpt.producer - s.rpt.release).toNat then
          { s.rpt with release := w, reportPin := s.rpt.producer != w }
        else s.rpt } := by
  unfold acceptRelease
  split <;> rfl

/-- The producer word is accepted where it lies between the producer count and the ring's size (R136). -/
theorem acceptProducer_eq (p : BitVec 16) (s : State) :
    s.acceptProducer p = { s with
      ord :=
        { s.ord with
          producer :=
            if (s.ord.producer - s.ord.taken).toNat ≤ (p - s.ord.taken).toNat ∧
                (p - s.ord.taken).toNat ≤ s.par.orderSize.toNat then p
            else s.ord.producer } } := by
  unfold acceptProducer ordersPresent
  split <;> rfl

/-- The ring words read that has ended gives way to the one that is due, else to the index write that waited
(R136, R160). -/
theorem nextRingRead_eq (s : State) :
    s.nextRingRead = { s with
      ord := { s.ord with ringRead := if s.ord.ringRead = .furtherDue then .inProgress else .idle },
      lmp := { s.lmp with
        waiting := s.lmp.waiting ++
          (if s.ord.ringRead = .furtherDue then [⟨.ringWords, s.sct.startBlock.toNat + 0x20, 8, []⟩]
          else if s.ord.indexWrite then
            [⟨.indexWrite, s.sct.startBlock.toNat + 0x28, 4,
              [s.ord.taken.extractLsb' 0 8, s.ord.taken.extractLsb' 8 8, 0, 0]⟩]
          else []) } } := by
  rw [nextRingRead, nextOrderTransfer_eq]
  cases hr : s.ord.ringRead <;> simp [orderDue, RingRead.next]

theorem exec_ringWordsReadDone {s : State} {q : Request} {bytes : List Byte} (h : s.ending q)
    (hp : q.purpose = .ringWords) (hb : bytes.length = 8) :
    exec (.ringWordsReadDone bytes) s =
      .next ((s.endRequest.acceptRelease (le16 bytes 4)).acceptProducer (le16 bytes 0)).nextRingRead := by
  have ht := transferOf_of_ending (p := fun p => p == .ringWords && decide (bytes.length = 8)) h (by simp [hp, hb])
  simp only [exec, execRingWordsReadDone, ht, if_neg (runs_up h.1).2]

end State

/-! ### The statements -/

/-- Settles O4: from the reset values the release is a computation; at a station that is up it does nothing. -/
theorem resetReleaseSamplesStraps : Obligations.ResetReleaseSamplesStraps := by
  refine ⟨fun sn sb base s h hr hbase => ?_, fun sn sb s hr => ?_⟩
  · rw [State.eq_reset_of_lineLaw h hr, hbase, ← State.startBlockOf_eq]
    rfl
  · simp [exec, execResetRelease, State.up, hr]

/-- Settles O10. -/
theorem timerTickCountsDown : Obligations.TimerTickCountsDown := by
  refine ⟨fun s h => ⟨s.tick, by simp [exec, execTimerTick, h], rfl, fun i => ⟨s.gen_tick i, fun he => ?_, fun e he => ?_⟩⟩,
    fun s h => exec_of_idle rfl h⟩
  · rw [State.ex_tick, he]
    rfl
  · have htick : s.tick.ex i = some { e with timer := e.timer.tick } := by rw [State.ex_tick, he]; rfl
    refine ⟨fun hrun hr => ?_, fun hrun hr => ?_, fun hrun => ?_⟩
    · rw [htick, Timer.tick_of_running hrun hr]
    · rw [htick, Timer.tick_of_last hrun hr]
    · rw [htick, Timer.tick_of_stopped hrun]

/-- Settles O11. -/
theorem postAndRingWords : Obligations.PostAndRingWords := by
  refine ⟨fun s hr hs => ⟨fun hi => ⟨fun hh hw => ?_, fun hb => ?_⟩, fun hi => ?_⟩, fun s h => ?_,
    fun s q p0 p1 p2 p3 r0 r1 r2 r3 p r h hp hpw hrw => ?_⟩
  · rw [State.exec_post hr hs, State.postEdge_of_idle hi, if_neg (by simp [(s.orderBusy_eq_false_iff).mpr ⟨hh, hw⟩])]
  · rw [State.exec_post hr hs, State.postEdge_of_idle hi, if_pos (s.orderBusy_iff.mpr hb)]
  · rw [State.exec_post hr hs, State.postEdge_of_reading hi]
  · obtain h | h := h
    · exact exec_of_idle rfl h
    · simp [exec, execPost, h]
  · have hrel : le16 [p0, p1, p2, p3, r0, r1, r2, r3] 4 = r := hrw.symm
    have hprod : le16 [p0, p1, p2, p3, r0, r1, r2, r3] 0 = p := hpw.symm
    rw [State.exec_ringWordsReadDone h hp rfl, hrel, hprod, State.acceptRelease_eq, State.acceptProducer_eq,
      State.nextRingRead_eq]
    rfl

end Sys2Proof.Machine
end

section
/-!
SUPPORT. The start record: its checks line by line (R167), and the two outcomes of its read in STARTING (R168, R173).
-/

namespace Sys2Proof.Machine

/-! ### The checks of R167 -/

/-- The ring sizes allowed are the powers of two from 8 to 1024 (R167). -/
theorem ringSizeOk_iff (n : BitVec 16) : ringSizeOk n = true ↔ ∃ k, 3 ≤ k ∧ k ≤ 10 ∧ n.toNat = 2 ^ k := by
  constructor
  · intro h
    simp only [ringSizeOk, Bool.or_eq_true, beq_iff_eq] at h
    obtain ((((((h | h) | h) | h) | h) | h) | h) | h := h
    · exact ⟨3, by omega, by omega, h⟩
    · exact ⟨4, by omega, by omega, h⟩
    · exact ⟨5, by omega, by omega, h⟩
    · exact ⟨6, by omega, by omega, h⟩
    · exact ⟨7, by omega, by omega, h⟩
    · exact ⟨8, by omega, by omega, h⟩
    · exact ⟨9, by omega, by omega, h⟩
    · exact ⟨10, by omega, by omega, h⟩
  · rintro ⟨k, h3, h10, h⟩
    interval_cases k <;> simp [ringSizeOk, h]

/-- The lines of R167 on the fields other than the signature. The 16-bit fields meet their upper bounds by their size. -/
theorem StartParams.valid_parse_iff (bytes : List Byte) :
    (StartParams.parse bytes).valid = true ↔
      (∃ k, 3 ≤ k ∧ k ≤ 10 ∧ (StartParams.parse bytes).orderSize.toNat = 2 ^ k) ∧
      (StartParams.parse bytes).orderBase.toNat % 32 = 0 ∧
      (StartParams.parse bytes).orderBase.toNat + 32 * (StartParams.parse bytes).orderSize.toNat ≤ 2 ^ 32 ∧
      (∃ k, 3 ≤ k ∧ k ≤ 10 ∧ (StartParams.parse bytes).reportSize.toNat = 2 ^ k) ∧
      (StartParams.parse bytes).reportBase.toNat % 16 = 0 ∧
      (StartParams.parse bytes).reportBase.toNat + 16 * (StartParams.parse bytes).reportSize.toNat ≤ 2 ^ 32 ∧
      1 ≤ (StartParams.parse bytes).originLimit ∧ (StartParams.parse bytes).originLimit ≤ 16 ∧
      1 ≤ (StartParams.parse bytes).linkRetry ∧ (StartParams.parse bytes).linkRetry ≤ 7 ∧
      (StartParams.parse bytes).openRetry ≤ 15 ∧ 1 ≤ (StartParams.parse bytes).quiet ∧
      1 ≤ (StartParams.parse bytes).park ∧ 1 ≤ (StartParams.parse bytes).backoff ∧
      (StartParams.parse bytes).backoff ≤ 1000 ∧ 1 ≤ (StartParams.parse bytes).window ∧
      (StartParams.parse bytes).window ≤ 16 ∧ 1 ≤ (StartParams.parse bytes).divisor := by
  have hquiet : (StartParams.parse bytes).quiet ≤ 65535 := Nat.le_of_lt_succ (le16 bytes 0x14).isLt
  have hpark : (StartParams.parse bytes).park ≤ 65535 := Nat.le_of_lt_succ (le16 bytes 0x16).isLt
  have hdivisor : (StartParams.parse bytes).divisor ≤ 65535 := Nat.le_of_lt_succ (le16 bytes 0x1A).isLt
  rw [← ringSizeOk_iff, ← ringSizeOk_iff]
  simp only [StartParams.valid, Bool.and_eq_true, beq_iff_eq, decide_eq_true_eq, Config.topAddress]
  generalize StartParams.parse bytes = p at *
  grind

theorem startRecord_eq_some_iff (bytes : List Byte) :
    startRecord bytes = some (StartParams.parse bytes) ↔
      le32 bytes 0 = 0x4D533216#32 ∧ (StartParams.parse bytes).valid = true := by
  unfold startRecord
  split <;> simp_all [Config.signature]

namespace State

/-! ### The two outcomes -/

theorem exec_startRecordReadDone {s : State} {q : Request} {bytes : List Byte} (h : s.ending q)
    (hp : q.purpose = .startRecord) (hb : bytes.length = 32) (hs : s.sct.station = .starting) :
    exec (.startRecordReadDone bytes) s = .next (s.endRequest.checkStart bytes) := by
  have ht := transferOf_of_ending (p := fun p => p == .startRecord && decide (bytes.length = 32)) h (by simp [hp, hb])
  simp only [exec, execStartRecordReadDone, ht, if_neg (runs_up h.1).2, if_pos hs]

/-- In a state in which the read is never made its end changes nothing (log 2). -/
theorem exec_startRecordReadDone_elsewhere {s : State} (bytes : List Byte) (h : s.runs = true)
    (hs : s.sct.station ≠ .starting) : exec (.startRecordReadDone bytes) s = .next s := by
  simp only [exec, execStartRecordReadDone]
  split
  · rfl
  · rw [if_neg (runs_up h).2, if_neg hs]

/-- Entry to PROBING from a state with an empty control queue: one PROBE is placed (R168). -/
theorem startProbe_of_empty {s : State} (h : s.txq.ctrl = []) :
    s.startProbe = { s with
      sct := { s.sct with station := .probing, faultPin := false, probe := true },
      txq := { s.txq with
        ctrl := [⟨⟨s.sn, s.sn, true, ⟨0, 0⟩, .probe s.sct.tickCount⟩, .stationControl, 0, false⟩] },
      rpt := { s.rpt with status := s.statusAfter },
      lmp := { s.lmp with waiting := s.lmp.waiting ++ s.statusPlaced .probing } } := by
  have hroom : (s.enter .probing).txq.ctrl.length < 16 := by simp [enter_eq, h]
  rw [startProbe, placeProbe, pushCtrl_of_room (by exact hroom), enter_eq]
  simp [enqueued, rescanWaitsAt, h, sn, faultLevel]

/-- Entry to FAULT from a state in which the station is not attached and drives no pulse (R173): the station leaves the
lane, and one status word write is placed. -/
theorem enterFault_of_unattached {s : State} {c : FaultCause} (hs : s.sct.station = .starting)
    (ht : s.lmp.transfer = none) :
    s.enterFault c = { (s.stopBlocks c).leaveLane with
      rpt := { (s.stopBlocks c).rpt with status := .inProgress false },
      lmp := ⟨[⟨.statusWord, s.sct.startBlock.toNat + 0x30, 4, statusWordBytes .fault c s.sn⟩], none,
        s.lmp.progress⟩ } := by
  have hclear : s.takesClear = false := by simp [takesClear, hs]
  have hatt : s.attached = false := by simp [attached, hs]
  rw [enterFault, if_neg (by simp [hs]), ownClear, if_neg (by simp [hclear]), stopStation]
  simp only [hatt, Bool.false_eq_true, if_false]
  simp [placeFaultStatus, leaveLane, stopBlocks, ht, placeStatus, statusRequest, place, sn]

end State

/-- Settles O12: the checks of R167, then the outcomes of the read in STARTING and elsewhere. -/
theorem startRecordDecides : Obligations.StartRecordDecides := by
  refine ⟨fun bytes p hp => ?_, fun s q bytes p h hq hb hrec hs hempty => ?_,
    fun s bytes h hs => State.exec_startRecordReadDone_elsewhere bytes h hs, fun s q bytes h hq hb hrec hs => ?_⟩
  · subst hp
    rw [startRecord_eq_some_iff, StartParams.valid_parse_iff]
  · have hcheck : s.endRequest.checkStart bytes =
        { s.endRequest with sct := { s.sct with params := some p } }.startProbe := by
      simp only [State.checkStart, hrec]
      rfl
    have hprobe := State.startProbe_of_empty (s := { s.endRequest with sct := { s.sct with params := some p } }) hempty
    rw [State.exec_startRecordReadDone h hq hb hs, hcheck, hprobe]
    rfl
  · have hcheck : s.endRequest.checkStart bytes = s.endRequest.enterFault .startInvalid := by
      simp only [State.checkStart, hrec]
    have hatt : s.endRequest.attached = false := by simp [State.attached, hs]
    refine ⟨_, by rw [State.exec_startRecordReadDone h hq hb hs, hcheck], ?_⟩
    rw [State.enterFault_of_unattached (s := s.endRequest) hs rfl]
    simp [State.stopBlocks, State.leaveLane, State.faultAbortsAtEntry, State.ctrlAtFault, hatt, statusWordBytes,
      StationState.code, FaultCause.code, State.sn]
    rfl

end Sys2Proof.Machine
end

section
/-!
SUPPORT. Arbitration windows and tenures (R118 to R123, R127): who bids what, what the lines resolve to, what the winner
drives and what a receiver answers.
-/

namespace Sys2Proof.Machine

/-! ### The highest bid -/

/-- A line leaves the bids that agree with the highest down to it. -/
theorem resolveLine_subset (L : List Bid) (k : Nat) : ∀ x ∈ resolveLine L k, x ∈ L := by
  intro x hx
  unfold resolveLine at hx
  split at hx
  · exact List.mem_of_mem_filter hx
  · exact hx

/-- A bid stands on the lines k - 1 down to 0 among bids that agree with it above, exactly where none of them is
higher. -/
theorem mem_resolve_iff (b : Bid) : ∀ (k : Nat) (L : List Bid), k ≤ 6 → b ∈ L →
    (∀ x ∈ L, x.toNat / 2 ^ k = b.toNat / 2 ^ k) →
    (b ∈ (List.range k).reverse.foldl resolveLine L ↔ ∀ x ∈ L, x.toNat ≤ b.toNat) := by
  intro k
  induction k with
  | zero =>
    intro L _ hb hL
    refine iff_of_true hb fun x hx => ?_
    have := hL x hx
    simp only [pow_zero, Nat.div_one] at this
    omega
  | succ k ih =>
    intro L hk hb hL
    have hbit : ∀ x : Bid, x.getLsbD k = x.toNat.testBit k := fun _ => rfl
    have hsplit : ∀ x ∈ L, x.toNat / 2 ^ k = 2 * (b.toNat / 2 ^ (k + 1)) + if x.getLsbD k then 1 else 0 := by
      intro x hx
      rw [div_two_pow_succ, hL x hx, hbit]
    rw [List.range_succ, List.reverse_append, List.reverse_singleton, List.singleton_append, List.foldl_cons]
    by_cases hone : L.any (·.getLsbD k) = true
    · have hline : resolveLine L k = L.filter (·.getLsbD k) := by rw [resolveLine, if_pos hone]
      obtain ⟨y, hy, hybit⟩ := List.any_eq_true.mp hone
      cases hbk : b.getLsbD k with
      | true =>
        rw [ih _ (by omega) (by rw [hline]; exact List.mem_filter.mpr ⟨hb, hbk⟩) fun x hx => ?_]
        · constructor
          · intro h x hx
            cases hxk : x.getLsbD k with
            | true => exact h x (by rw [hline]; exact List.mem_filter.mpr ⟨hx, hxk⟩)
            | false =>
              have h1 := hsplit x hx
              have h2 := hsplit b hb
              rw [hxk] at h1
              rw [hbk] at h2
              have hlt : x.toNat / 2 ^ k < b.toNat / 2 ^ k := by
                simp only [Bool.false_eq_true, if_false, if_true] at h1 h2
                omega
              exact Nat.le_of_lt (by simpa using div_lt_of_div_lt (Nat.zero_le k) hlt)
          · exact fun h x hx => h x (resolveLine_subset L k x hx)
        · rw [hline] at hx
          obtain ⟨hxL, hxk⟩ := List.mem_filter.mp hx
          rw [hsplit x hxL, hsplit b hb, hbk, if_pos hxk, if_pos rfl]
      | false =>
        refine iff_of_false (fun hmem => ?_) fun h => ?_
        · have hin : b ∈ resolveLine L k := by
            have hsub : ∀ (l : List Nat) (M : List Bid), ∀ x ∈ l.foldl resolveLine M, x ∈ M := by
              intro l
              induction l with
              | nil => exact fun _ _ h => h
              | cons j l ihl => exact fun M x h => resolveLine_subset M j x (ihl _ x h)
            exact hsub _ _ b hmem
          rw [hline] at hin
          simp [hbk] at hin
        · have h1 := hsplit y hy
          have h2 := hsplit b hb
          rw [if_pos hybit] at h1
          rw [hbk] at h2
          have hlt : b.toNat / 2 ^ k < y.toNat / 2 ^ k := by
            simp only [Bool.false_eq_true, if_false] at h2
            omega
          have hyb := h y hy
          have : b.toNat < y.toNat := by simpa using div_lt_of_div_lt (Nat.zero_le k) hlt
          omega
    · have hzero : ∀ x ∈ L, x.getLsbD k = false := by
        intro x hx
        by_contra hxk
        exact hone (List.any_eq_true.mpr ⟨x, hx, by simpa using hxk⟩)
      rw [show resolveLine L k = L by rw [resolveLine, if_neg hone]]
      exact ih L (by omega) hb fun x hx => by rw [hsplit x hx, hsplit b hb, hzero x hx, hzero b hb]

/-- After ARB0 the highest bid stands, and no lower one (R118). -/
theorem mem_resolveBids_iff {b : Bid} {L : List Bid} (hb : b ∈ L) : b ∈ resolveBids L ↔ ∀ x ∈ L, x.toNat ≤ b.toNat := by
  refine mem_resolve_iff b 6 L (Nat.le_refl 6) hb fun x _ => ?_
  rw [Nat.div_eq_of_lt x.isLt, Nat.div_eq_of_lt b.isLt]

namespace State

/-! ### What the station bids -/

/-- A control frame bids 32 above the station number (R118). -/
theorem ownBid_of_ctrl {s : State} {t : TxFrame} (hl : s.onLane = true) (ht : s.lpt.tx = some t) (hs : t.src = .ctrl) :
    s.ownBid = some (BitVec.ofNat 6 (32 + s.sn.toNat)) ∧ s.ownWait = false := by
  have hbid : (1#1 ++ s.sn : Bid) = BitVec.ofNat 6 (32 + s.sn.toNat) := by
    apply BitVec.eq_of_toNat_eq
    have := s.sn.isLt
    rw [BitVec.toNat_append, BitVec.toNat_ofNat]
    simp [Nat.shiftLeft_eq, ← Nat.two_pow_add_eq_or_of_lt this 1]
    omega
  simp only [ownBid, ownWait, hl, ht, hs, hbid]
  simp

/-- A DATA frame bids the station number while SPENT is clear (R119). -/
theorem ownBid_of_data {s : State} {t : TxFrame} (hl : s.onLane = true) (ht : s.lpt.tx = some t)
    (hd : t.isData = true) (hs : s.lpt.spent = false) :
    s.ownBid = some (BitVec.ofNat 6 s.sn.toNat) ∧ s.ownWait = false := by
  have hbid : (0#1 ++ s.sn : Bid) = BitVec.ofNat 6 s.sn.toNat := by
    apply BitVec.eq_of_toNat_eq
    have := s.sn.isLt
    rw [BitVec.toNat_append, BitVec.toNat_ofNat]
    simp
    omega
  unfold TxFrame.isData at hd
  split at hd
  · cases hd
  · simp_all [ownBid, ownWait]

/-- While SPENT a DATA frame does not bid, and asserts WAIT (R119). -/
theorem ownBid_of_spent {s : State} {t : TxFrame} (hl : s.onLane = true) (ht : s.lpt.tx = some t)
    (hd : t.isData = true) (hs : s.lpt.spent = true) : s.ownBid = none ∧ s.ownWait = true := by
  unfold TxFrame.isData at hd
  split at hd
  · cases hd
  · simp_all [ownBid, ownWait]

/-- Off the lane, or without a frame, the station neither bids nor waits (R117). -/
theorem ownBid_of_silent {s : State} (h : s.onLane = false ∨ s.lpt.tx = none) :
    s.ownBid = none ∧ s.ownWait = false := by
  obtain h | h := h <;> simp [ownBid, ownWait, h]

/-! ### A window -/

theorem exec_window {bids : List Bid} {wait : Bool} {s : State} (ho : s.observes = true) (hp : s.lpt.phase = .idle) :
    exec (.arbitrationWindow bids wait) s = .next (s.window bids wait) := by
  simp only [exec, execArbitrationWindow, if_pos (And.intro ho hp)]

/-- A window in which the station bids b: the highest bid wins, and a data win sets SPENT (R118, R120). -/
theorem window_of_bid {s : State} {t : TxFrame} {b : Bid} {bids : List Bid} (wait : Bool) (hb : s.ownBid = some b)
    (hw : s.ownWait = false) (ht : s.lpt.tx = some t) :
    s.window bids wait = { s with
      lpt := { s.lpt with
        phase := if ∀ x ∈ bids, x.toNat ≤ b.toNat then .won else .other,
        spent := if (∀ x ∈ bids, x.toNat ≤ b.toNat) ∧ t.isData = true then true else s.lpt.spent,
        pins := { s.lpt.pins with arb := some (driven b arbLines (b :: bids)), wait := false } } } := by
  have hmem : (resolveBids (b :: bids)).contains b = true ↔ ∀ x ∈ bids, x.toNat ≤ b.toNat := by
    rw [List.contains_iff_mem, mem_resolveBids_iff (by simp)]
    simp
  unfold window
  simp only [hb, hw, Option.toList_some, List.singleton_append, Option.map_some]
  by_cases hwin : ∀ x ∈ bids, x.toNat ≤ b.toNat
  · simp only [if_pos (hmem.mpr hwin), if_pos hwin, LanePort.won, ht]
    cases hd : t.isData with
    | false => simp
    | true => simpa using .inl hwin
  · simp only [if_neg (fun h => hwin (hmem.mp h)), if_neg hwin]
    simp [hwin]

/-- A window in which the station does not bid: with no bid at all, WAIT clears SPENT (R119, R120). -/
theorem window_of_noBid {s : State} {bids : List Bid} {w : Bool} (wait : Bool) (hb : s.ownBid = none)
    (hw : s.ownWait = w) :
    s.window bids wait = { s with
      lpt := { s.lpt with
        phase := if bids = [] then .idle else .other,
        spent := if bids = [] ∧ (w = true ∨ wait = true) then false else s.lpt.spent,
        pins := { s.lpt.pins with arb := none, wait := w } } } := by
  unfold window
  simp only [hb, hw, Option.toList_none, List.nil_append, Option.map_none]
  cases bids with
  | nil => cases w <;> cases wait <;> simp [LanePort.emptyWindow]
  | cons x xs => simp

end State

/-- Settles O13. -/
theorem highestBidWins : Obligations.HighestBidWins := by
  intro bids wait s ho hp
  rw [State.exec_window ho hp]
  refine ⟨fun t b hl ht hcase => ?_, fun w hcase => ?_⟩
  · have hown : s.ownBid = some b ∧ s.ownWait = false := by
      obtain ⟨hs, rfl⟩ | ⟨hd, hs, rfl⟩ := hcase
      · exact State.ownBid_of_ctrl hl ht hs
      · exact State.ownBid_of_data hl ht hd hs
    refine ⟨driven b arbLines (b :: bids), by rw [State.window_of_bid wait hown.1 hown.2 ht], fun h => ?_, fun k => ?_⟩
    · exact driven_of_highest (by simp) (by simpa using h)
    · rw [getLsbD_driven_arbLines (by simp)]
      simp
  · have hown : s.ownBid = none ∧ s.ownWait = w := by
      obtain ⟨rfl, hl, hs, t, ht, hd⟩ | ⟨rfl, h⟩ := hcase
      · exact State.ownBid_of_spent hl ht hd hs
      · exact State.ownBid_of_silent h
    rw [State.window_of_noBid wait hown.1 hown.2]

end Sys2Proof.Machine
end

section
/-!
SUPPORT. The probe that ends with its number taken (R169), and the tenures of this and of other stations (R121 to R123,
R127).
-/

namespace Sys2Proof.Machine

namespace State

/-! ### The number is taken -/

/-- A STATION report made changes the acknowledgement list, the report queue and the reports that wait, and nothing
else. -/
theorem stationReport_shape (s : State) (w : StationWait) :
    ∃ acks queue waiting, s.stationReport w = { s with
      ord := { s.ord with acks := acks }, rpt := { s.rpt with queue := queue, stationWaiting := waiting } } := by
  unfold stationReport
  split
  · unfold queueStation pushReport ackEvent
    split <;> exact ⟨_, _, _, rfl⟩
  · exact ⟨_, _, _, rfl⟩

/-- What the number taken leaves: CONFLICT with its FAULT line, nothing on the lane, in the inbox or of Station Control in
the control queue, and the Exchange Table and the taken count as they were (R134, R169). -/
structure NumberTaken (s u : State) : Prop where
  station : u.sct.station = .conflict
  faultPin : u.sct.faultPin = true
  probe : u.sct.probe = false
  lpt : u.lpt = { s.lpt with
    tx := none, inbox := [], phase := .idle, pins := ⟨none, false, [], none, s.lpt.pins.lcl⟩ }
  xen : u.xen = s.xen
  taken : u.ord.taken = s.ord.taken
  ctrl : u.txq.ctrl = s.txq.ctrl.filter fun c => c.owner != Owner.stationControl
  report : s.reportOpen 1 → u.rpt.queue = s.rpt.queue ++ [.station .conflict .numberTaken]

/-- The station in CONFLICT, its STATION report not yet made (R169). -/
def conflicted (s : State) : State :=
  (({ s with
    sct := { s.sct with probe := false },
    txq := { s.txq with ctrl := s.txq.ctrl.filter fun c => c.owner != Owner.stationControl } }.leaveLane).emptyInbox).enter
      .conflict

theorem numberTaken_eq (s : State) : s.numberTaken = s.conflicted.stationReport ⟨.conflict, .numberTaken, 0⟩ := rfl

theorem numberTaken_facts (s : State) : NumberTaken s s.numberTaken := by
  rw [numberTaken_eq]
  have hreport : s.reportOpen 1 → (s.conflicted.stationReport ⟨.conflict, .numberTaken, 0⟩).rpt.queue =
      s.rpt.queue ++ [.station .conflict .numberTaken] := by
    rintro ⟨hq, hw, -⟩
    rw [stationReport_of_room (by rw [conflicted, enter_eq]; show s.rpt.queue.length < 8; omega)
      (by rw [conflicted, enter_eq]; exact hw), conflicted, enter_eq]
    rfl
  obtain ⟨acks, queue, waiting, he⟩ := s.conflicted.stationReport_shape ⟨.conflict, .numberTaken, 0⟩
  rw [he] at hreport ⊢
  rw [conflicted, enter_eq] at *
  exact ⟨rfl, rfl, rfl, rfl, rfl, rfl, rfl, hreport⟩

/-- No entry of Station Control is left once the number is taken. -/
theorem NumberTaken.owner_ne {s u : State} (h : NumberTaken s u) : ∀ c ∈ u.txq.ctrl, c.owner ≠ .stationControl := by
  intro c hc
  rw [h.ctrl] at hc
  simpa using (List.mem_filter.mp hc).2

end State

/-! ### The station's own tenure -/

theorem drivenBytes_of_read : ∀ {d seen : List Byte}, seen.take d.length = d → drivenBytes d seen = d := by
  intro d
  induction d with
  | nil => exact fun _ => rfl
  | cons x xs ih =>
    intro seen h
    cases seen with
    | nil => cases h
    | cons y ys =>
      obtain ⟨rfl, hrest⟩ : y = x ∧ ys.take xs.length = xs := by simpa using h
      simp [drivenBytes, ih hrest]

/-- The byte that reads back otherwise is the last one driven (R121). -/
theorem drivenBytes_of_differs : ∀ {k : Nat} {d seen : List Byte}, k < d.length → seen.take k = d.take k →
    seen[k]? ≠ d[k]? → drivenBytes d seen = d.take (k + 1) := by
  intro k
  induction k with
  | zero =>
    intro d seen hk _ hne
    cases d with
    | nil => cases hk
    | cons x xs =>
      cases seen with
      | nil => simp [drivenBytes]
      | cons y ys =>
        have hxy : x ≠ y := fun h => hne (by simp [h])
        simp [drivenBytes, hxy]
  | succ k ih =>
    intro d seen hk htake hne
    cases d with
    | nil => cases hk
    | cons x xs =>
      cases seen with
      | nil => simp at htake
      | cons y ys =>
        obtain ⟨rfl, hrest⟩ : y = x ∧ ys.take k = xs.take k := by simpa using htake
        simp [drivenBytes, ih (by simpa using hk) hrest (by simpa using hne)]

theorem readBack_iff (d seen : List Byte) : readBack d seen = true ↔ seen.take d.length = d := by
  simp [readBack]

/-- A byte that differs is a collision (R121; log 11). -/
theorem readBack_of_differs {k : Nat} {d seen : List Byte} (hk : k < d.length) (h : seen[k]? ≠ d[k]?) :
    readBack d seen = false := by
  rw [← Bool.not_eq_true, readBack_iff]
  intro heq
  refine h ?_
  rw [← heq, List.getElem?_take_of_lt hk]

namespace State

/-- The Lane Port in the tenure of the frame t (R121). -/
def driving (s : State) (t : TxFrame) (collided : Bool) (bytes : List Byte) : State :=
  { s with
    lpt := { s.lpt with
      tx := some { t with attempts := t.attempts + 1, begun := true },
      phase := .sent collided,
      pins := { s.lpt.pins with data := bytes } } }

theorem exec_tenure_won {bytes : List Byte} {t : TxFrame} {s : State} (ho : s.observes = true) (hp : s.lpt.phase = .won)
    (ht : s.lpt.tx = some t) : exec (.tenure bytes) s = .next (s.sendTenure t bytes) := by
  simp only [exec, execTenure, ho, if_true, tenure, hp, ht]

theorem sendTenure_of_read {bytes : List Byte} {t : TxFrame} {s : State}
    (h : bytes.take t.frame.encode.length = t.frame.encode) :
    s.sendTenure t bytes = s.driving t false t.frame.encode := by
  have hread := (readBack_iff t.frame.encode bytes).mpr h
  simp [sendTenure, hread, drivenBytes_of_read h, driving]

theorem sendTenure_of_differs {bytes : List Byte} {t : TxFrame} {s : State} {k : Nat} (hk : k < t.frame.encode.length)
    (htake : bytes.take k = t.frame.encode.take k) (hne : bytes[k]? ≠ t.frame.encode[k]?)
    (hs : s.sct.station ≠ .probing) :
    s.sendTenure t bytes = s.driving t true (t.frame.encode.take (k + 1)) := by
  have hread := readBack_of_differs hk hne
  simp [sendTenure, hread, drivenBytes_of_differs hk htake hne, hs, driving]

/-- In PROBING a collision shows that the number is taken (R121). -/
theorem sendTenure_of_probing {bytes : List Byte} {t : TxFrame} {s : State}
    (h : bytes.take t.frame.encode.length ≠ t.frame.encode) (hs : s.sct.station = .probing) :
    s.sendTenure t bytes = (s.driving t true (drivenBytes t.frame.encode bytes)).numberTaken := by
  have hread : readBack t.frame.encode bytes = false := by
    rw [← Bool.not_eq_true, readBack_iff]
    exact h
  simp [sendTenure, hread, hs, driving]

/-! ### Another station's tenure -/

theorem exec_tenure_other {bytes : List Byte} {s : State} (ho : s.observes = true)
    (hp : s.lpt.phase = .other ∨ s.lpt.phase = .idle) :
    exec (.tenure bytes) s = .next (s.receiveTenure bytes) := by
  obtain hp | hp := hp <;> simp only [exec, execTenure, ho, if_true, tenure, hp]

end State

/-- A frame that passes its check has at least 9 bytes (R177). -/
theorem length_of_crcPasses {bytes : List Byte} (h : crcPasses bytes = true) : 9 ≤ bytes.length := by
  simp only [crcPasses, Bool.and_eq_true, decide_eq_true_eq] at h
  exact h.1.1

theorem getElem?_eq_byteAt {bytes : List Byte} {k : Nat} (h : k < bytes.length) : bytes[k]? = some (byteAt bytes k) := by
  simp [byteAt, h]

namespace State

/-- What the station drives after another's tenure is decided by `answerFor`, unless the tenure shows in PROBING that its
number is taken (R123, R127). -/
theorem receiveTenure_of_answer {bytes : List Byte} {s : State}
    (h : ¬(s.sct.station = .probing ∧ crcPasses bytes = true ∧ sourceIsOwn s.sn bytes = true)) :
    s.receiveTenure bytes = match s.answerFor bytes with
      | none => s.setPhase .unanswered none
      | some (a, what) => s.setPhase (.answered a what) (some a) :=
  if_neg h

theorem answerFor_of_probing {bytes : List Byte} {s : State} (h : s.sct.station = .probing) :
    s.answerFor bytes = none := by
  have hn : s.answersFrames = false := by simp [answersFrames, h]
  simp [answerFor, hn]

/-- The first line of R123's table that applies: no answer to a frame that fails its check, or is another's, or comes to a
station that answers none. -/
theorem answerFor_of_ignored {bytes : List Byte} {s : State}
    (h : crcPasses bytes = false ∨ bytes[0]? ≠ some (s.sn.setWidth 8) ∨ s.answersFrames = false) :
    s.answerFor bytes = none := by
  cases hc : crcPasses bytes with
  | false => simp [answerFor, hc]
  | true =>
    obtain h | h | h := h
    · simp [hc] at h
    · have haddr : addressedTo s.sn bytes = false := by
        have hlen := length_of_crcPasses hc
        rw [getElem?_eq_byteAt (by omega)] at h
        simpa [addressedTo] using h
      simp [answerFor, hc, haddr]
    · simp [answerFor, h]

/-- The lines of R123's table that answer: a PROBE and a malformed frame TAKEN, any other TAKEN or, for want of room in
the inbox, BUSY. -/
theorem answerFor_of_addressed {bytes : List Byte} {s : State}
    (h : ¬(crcPasses bytes = false ∨ bytes[0]? ≠ some (s.sn.setWidth 8) ∨ s.answersFrames = false)) :
    s.answerFor bytes =
      if bytes[2]? = some 0x0A then some (.taken, .probe)
      else
        match Frame.parse s.sn bytes with
        | none => some (.taken, .malformed)
        | some f =>
          if s.sct.station = .fault ∨
              (match f.body with | .data _ _ _ => true | _ => decide (s.lpt.inbox.length < 8)) = true then
            some (.taken, .frame f)
          else some (.busy, .frame f) := by
  push Not at h
  obtain ⟨hc, haddr, hans⟩ := h
  have hc' : crcPasses bytes = true := by simpa using hc
  have hans' : s.answersFrames = true := by simpa using hans
  have hlen := length_of_crcPasses hc'
  rw [getElem?_eq_byteAt (by omega)] at haddr
  rw [getElem?_eq_byteAt (by omega)]
  have haddr' : addressedTo s.sn bytes = true := by simpa [addressedTo] using haddr
  simp only [answerFor, hc', haddr', hans', Bool.true_eq_false, if_false, isProbeBytes, beq_iff_eq, Option.some.injEq]
  congr 1
  cases Frame.parse s.sn bytes with
  | none => rfl
  | some f =>
    by_cases hf : s.sct.station = .fault
    · simp [hf]
    · cases hb : f.body <;> simp [hf, hb]

end State

/-! ### The statements -/

/-- Settles O14. -/
theorem tenureSendsTheFrame : Obligations.TenureSendsTheFrame := by
  intro bytes t s ho hp ht
  rw [State.exec_tenure_won ho hp ht]
  refine ⟨fun h => by rw [State.sendTenure_of_read h]; rfl,
    fun k hk htake hne hs => by rw [State.sendTenure_of_differs hk htake hne hs]; rfl, fun h hs => ?_⟩
  rw [State.sendTenure_of_probing h hs]
  have k := (s.driving t true (drivenBytes t.frame.encode bytes)).numberTaken_facts
  exact ⟨_, rfl, k.station, k.faultPin, by rw [k.lpt], by rw [k.lpt], by rw [k.lpt], k.xen, k.taken, k.owner_ne, k.report⟩

/-- Settles O15. -/
theorem receiverAnswers : Obligations.ReceiverAnswers := by
  intro bytes s ho hp
  rw [State.exec_tenure_other ho hp]
  refine ⟨fun hs hc hsrc => ?_, fun hs h => ?_, fun hs => ?_⟩
  · have hown : sourceIsOwn s.sn bytes = true := by
      have hlen := length_of_crcPasses hc
      rw [getElem?_eq_byteAt (by omega), Option.some.injEq] at hsrc
      simp [sourceIsOwn, hsrc]
    rw [State.receiveTenure, if_pos ⟨hs, hc, hown⟩]
    have k := s.numberTaken_facts
    exact ⟨_, rfl, k.station, k.faultPin, by rw [k.lpt], by rw [k.lpt], k.xen, k.owner_ne⟩
  · rw [State.receiveTenure_of_answer, State.answerFor_of_probing hs]
    rintro ⟨-, hc, hsrc⟩
    obtain h | h := h
    · simp [hc] at h
    · have hlen := length_of_crcPasses hc
      exact h _ (getElem?_eq_byteAt (by omega)) (by simpa [sourceIsOwn] using hsrc)
  · rw [State.receiveTenure_of_answer (fun h => hs h.1)]
    by_cases hign : crcPasses bytes = false ∨ bytes[0]? ≠ some (s.sn.setWidth 8) ∨ s.answersFrames = false
    · rw [State.answerFor_of_ignored hign, if_pos hign]
    · rw [State.answerFor_of_addressed hign, if_neg hign]
      by_cases hprobe : bytes[2]? = some 0x0A
      · simp only [if_pos hprobe]
      · simp only [if_neg hprobe]
        cases Frame.parse s.sn bytes with
        | none => rfl
        | some f =>
          by_cases hf : s.sct.station = .fault
          · simp [hf]
          · by_cases hroom : s.lpt.inbox.length < 8 <;> cases hb : f.body <;> simp [hf, hb, hroom]

end Sys2Proof.Machine
end

section
/-!
SUPPORT. The end of another station's acknowledge slot (R125, R128): the dispatch of a frame, and what a DATA frame does
at its slot (R92 to R94, R99, R102).
-/

namespace Sys2Proof.Machine

namespace State

/-! ### The dispatch -/

theorem exec_ackSlot_answered {ackt ackb : Bool} {s : State} {a : Ack} {what : Received} (ho : s.observes = true)
    (hp : s.lpt.phase = .answered a what) :
    exec (.acknowledgeSlot ackt ackb) s = .next ((s.setPhase .idle none).dispatch a what) := by
  simp only [exec, execAcknowledgeSlot, ho, if_true, ackSlot, hp]

theorem dispatch_of_nothing {a : Ack} {what : Received} (h : what = .probe ∨ what = .malformed) (s : State) :
    s.dispatch a what = s := by
  obtain rfl | rfl := h <;> rfl

/-- The Peer Table acts first (R128). -/
theorem heard_of_other {p : Station} {s : State} (h : p ≠ s.sn) : s.heard p = s.setPeer p .heard := by
  rw [heard, if_neg h]

/-- A BUSY frame places nothing, and in FAULT no frame does (R125; log 23). -/
theorem dispatch_of_discarded {a : Ack} {f : Frame} {s : State} (h : a = .busy ∨ s.sct.station = .fault)
    (hs : f.src ≠ s.sn) : s.dispatch a (.frame f) = s.setPeer f.src .heard := by
  unfold dispatch
  dsimp only
  rw [heard_of_other hs]
  split
  · rfl
  · obtain rfl | h := h
    · rfl
    · contradiction

theorem dispatch_of_taken {f : Frame} {s : State} (hst : s.sct.station ≠ .fault) (hs : f.src ≠ s.sn) :
    s.dispatch .taken (.frame f) = (s.setPeer f.src .heard).dispatchFrame f := by
  unfold dispatch
  dsimp only
  rw [heard_of_other hs, if_neg hst]

/-- A control frame joins the inbox (R126). -/
theorem dispatchFrame_of_control {f : Frame} {s : State} (hb : ∀ a n p, f.body ≠ .data a n p)
    (hroom : s.lpt.inbox.length < 8) :
    s.dispatchFrame f = { s with lpt := { s.lpt with inbox := s.lpt.inbox ++ [f] } } := by
  unfold dispatchFrame
  split
  · exact absurd ‹_› (hb _ _ _)
  · rw [pushInbox, if_pos hroom]

theorem dispatchFrame_of_data {f : Frame} {a : BitVec 24} {c : BitVec 16} {payload : List Byte} (s : State)
    (hb : f.body = .data a c payload) : s.dispatchFrame f = s.takeData f a.toNat c.toNat payload := by
  simp only [dispatchFrame, hb]

/-! ### DATA at its slot -/

/-- DATA of an exchange that has opened as a sender restarts the QUIET timer (R12; log 17). -/
theorem takeData_of_sender {s : State} {f : Frame} {i : SlotId} {e : Exchange} (hl : s.lookup f = some i)
    (he : s.ex i = some e) (hs : e.state = .sending ∨ e.state = .confirming) (a c : Nat) (p : List Byte) :
    s.takeData f a c p = s.setEx i (some (s.quietAgain e)) := by
  rw [← quiet_of_some s i e he]
  obtain hs | hs := hs <;> simp only [takeData, hl, he, hs]

/-- In the opening states and in RETIRING it is discarded (R92). -/
theorem takeData_of_discarded {s : State} {f : Frame} {i : SlotId} {e : Exchange} (hl : s.lookup f = some i)
    (he : s.ex i = some e)
    (hs : e.state = .opening ∨ e.state = .backoff ∨ e.state = .parked ∨ e.state = .retiring) (a c : Nat)
    (p : List Byte) : s.takeData f a c p = s := by
  obtain hs | hs | hs | hs := hs <;> simp only [takeData, hl, he, hs]

/-- In FINISHING it clears peer hold; no timer runs there (R99). -/
theorem takeData_of_finishing {s : State} {f : Frame} {i : SlotId} {e : Exchange} (hl : s.lookup f = some i)
    (he : s.ex i = some e) (hs : e.state = .finishing) (a c : Nat) (p : List Byte) :
    s.takeData f a c p = s.setEx i (some { e with peerHold := false }) := by
  have hunhold : e.unhold s.par = { e with peerHold := false } := by
    simp [Exchange.unhold, Exchange.restartQuiet, hs]
  simp only [takeData, hl, he, hs, updEx_of_some he, hunhold]

theorem takeData_of_receiving {s : State} {f : Frame} {i : SlotId} {e : Exchange} (hl : s.lookup f = some i)
    (he : s.ex i = some e) (hs : e.state = .receiving) (a c : Nat) (p : List Byte) :
    s.takeData f a c p = s.receiveData i e a c p := by
  simp only [takeData, hl, he, hs]

theorem takeData_of_unknown {s : State} {f : Frame} (hl : s.lookup f = none) (a c : Nat) (p : List Byte) :
    s.takeData f a c p = s.replyUnknown f := by
  simp only [takeData, hl]

end State

/-! ### The checks of R93 -/

theorem Exchange.checkData_of_malformed {e : Exchange} {a c : Nat}
    (h : c = 0 ∨ 256 < c ∨ a / 256 ≠ (a + c - 1) / 256) : e.checkData a c = .malformed := by
  rw [checkData, if_pos h]

/-- The checks of a frame that is not malformed. -/
theorem Exchange.checkData_of_fit {e : Exchange} {a c : Nat} (h1 : 1 ≤ c) (h2 : c ≤ 256)
    (h3 : a / 256 = (a + c - 1) / 256) :
    e.checkData a c = if a < e.received then .duplicate else if e.received < a then .outOfOrder
      else if e.granted < a + c then .overrun else .accepted := by
  have hfit : ¬(c = 0 ∨ 256 < c ∨ a / 256 ≠ (a + c - 1) / 256) := by
    rintro (h | h | h)
    · omega
    · omega
    · exact h h3
  rw [checkData, if_neg hfit]

/-- The record after an accepted frame: at the length it is FINISHING, while credit is owed the QUIET timer restarts, else
it stops (R12, R93, R99, R102). -/
theorem State.accepted_eq {s : State} {e : Exchange} (r : Nat) :
    e.accepted s.par r =
      if r = e.length then
        { e with received := e.length, peerHold := false, state := .finishing, timer := ⟨.none, 0, .stopped⟩ }
      else if r < e.granted then s.quietAgain { e with received := r, peerHold := false }
      else { e with received := r, peerHold := false, timer := { e.timer with run := .stopped } } := by
  unfold Exchange.accepted
  by_cases hr : r = e.length
  · simp [hr, Exchange.clearTimer, Timer.cleared]
  · by_cases hg : r < e.granted
    · simp [hr, hg, Exchange.creditOwed, State.restartQuiet_eq]
    · simp [hr, hg, Exchange.creditOwed, Exchange.stopTimer]

/-- The payload of an accepted frame is stored in the cell of its range (R93). -/
theorem State.storePayload_of_cell {s : State} {i : SlotId} {a : Nat} {k : CellId} {x : Cell}
    (hk : s.findCell i (a / 256) = some k) (hx : s.cell k = some x) (p : List Byte) :
    s.storePayload i a p = s.setCell k (some { x with state := .filled, bytes := x.bytes ++ p }) := by
  simp only [storePayload, hk, hx]

/-! ### The statements -/

/-- Settles O18. -/
theorem frameDispatched : Obligations.FrameDispatched := by
  intro ackt ackb s ho
  refine ⟨fun what hw hp => ?_, fun f a hp h hs => ?_, fun f hp hst hs hb hroom => ?_⟩
  · rw [State.exec_ackSlot_answered ho hp, State.dispatch_of_nothing hw]
  · rw [State.exec_ackSlot_answered ho hp, State.dispatch_of_discarded (s := s.setPhase .idle none) h hs]
  · rw [State.exec_ackSlot_answered ho hp, State.dispatch_of_taken (s := s.setPhase .idle none) hst hs,
      State.dispatchFrame_of_control (s := (s.setPhase .idle none).setPeer f.src .heard) hb hroom]
    rfl

/-- Settles O19: the state v has heard the source, and the frame acts on it by the state of its slot. -/
theorem dataActsByChecks : Obligations.DataActsByChecks := by
  intro ackt ackb s f a c payload ho hst hp hsrc hb v hv
  have hexec : exec (.acknowledgeSlot ackt ackb) s = .next (v.takeData f a.toNat c.toNat payload) := by
    rw [State.exec_ackSlot_answered ho hp, State.dispatch_of_taken (s := s.setPhase .idle none) hst hsrc, ← hv,
      State.dispatchFrame_of_data v hb]
  have hlook : v.lookup f = s.lookup f := by rw [hv]; rfl
  have hex : ∀ i, v.ex i = s.ex i := fun i => by rw [hv]; rfl
  have hagain : ∀ e, v.quietAgain e = s.quietAgain e := fun e => by rw [hv]; rfl
  rw [hexec]
  refine ⟨fun i e hl he hs => ?_, fun i e hl he => ?_, fun hl => ?_⟩
  · rw [← hlook] at hl
    rw [← hex] at he
    have hlive : e.state ≠ .retiring := by simp [hs]
    rw [State.takeData_of_receiving hl he hs]
    refine ⟨fun hbad => ?_, fun h1 h2 h3 => ?_⟩
    · simp only [State.receiveData, Exchange.checkData_of_malformed hbad]
      exact ⟨_, rfl, State.abortWith_ends he hlive .protocol⟩
    · unfold State.receiveData
      rw [Exchange.checkData_of_fit h1 h2 h3]
      refine ⟨fun h => ?_, fun h => ?_, fun h hg => ?_, fun h hg k x hk hx => ?_⟩
      · rw [if_pos h]
        dsimp only
        rw [State.updEx_of_some he, Exchange.unhold, State.restartQuiet_eq, hagain]
      · rw [if_neg (Nat.not_lt.mpr (Nat.le_of_lt h)), if_pos h]
        exact ⟨_, rfl, State.abortWith_ends he hlive .protocol⟩
      · rw [h, if_neg (Nat.lt_irrefl _), if_neg (Nat.lt_irrefl _), if_pos (h ▸ hg)]
        exact ⟨_, rfl, State.abortWith_ends he hlive .overrun⟩
      · rw [h] at hg hk ⊢
        have hk' : v.findCell i (e.received / 256) = some k := by rw [hv]; exact hk
        have hx' : v.cell k = some x := by rw [hv]; exact hx
        rw [if_neg (Nat.lt_irrefl _), if_neg (Nat.lt_irrefl _), if_neg (Nat.not_lt.mpr hg)]
        dsimp only
        rw [State.storePayload_of_cell hk' hx', State.updEx_of_some (by exact he), State.accepted_eq, hagain]
  · rw [← hlook] at hl
    rw [← hex] at he
    refine ⟨fun hs => ?_, fun hs => ?_, fun hs => ?_⟩
    · rw [State.takeData_of_finishing hl he hs]
    · rw [State.takeData_of_sender hl he hs, hagain]
    · rw [State.takeData_of_discarded hl he hs]
  · rw [← hlook] at hl
    rw [State.takeData_of_unknown hl]
    refine ⟨fun hroom => ?_, fun hfull => ?_⟩
    · rw [State.replyUnknown_of_room (by rw [hv]; exact hroom)]
      rw [hv]
      rfl
    · rw [State.replyUnknown_of_full (by rw [hv]; exact hfull)]

end Sys2Proof.Machine
end

section
/-!
SUPPORT. Frames on the lane: what is sent is read back, byte by byte (12.2, R177, R178).
-/

namespace Sys2Proof.Machine

/-! ### Fields -/

theorem bytes16_append (w : BitVec 16) : (w.extractLsb' 8 8 ++ w.extractLsb' 0 8 : BitVec 16) = w := by
  rw [BitVec.extractLsb'_append_extractLsb'_eq_extractLsb' (by rfl)]
  simp

theorem bytes24_append (w : BitVec 24) :
    (w.extractLsb' 16 8 ++ w.extractLsb' 8 8 ++ w.extractLsb' 0 8 : BitVec 24) = w := by
  rw [BitVec.extractLsb'_append_extractLsb'_eq_extractLsb' (by rfl),
    BitVec.extractLsb'_append_extractLsb'_eq_extractLsb' (by rfl)]
  simp

theorem bytes32_append (w : BitVec 32) :
    (w.extractLsb' 24 8 ++ w.extractLsb' 16 8 ++ w.extractLsb' 8 8 ++ w.extractLsb' 0 8 : BitVec 32) = w := by
  rw [BitVec.extractLsb'_append_extractLsb'_eq_extractLsb' (by rfl),
    BitVec.extractLsb'_append_extractLsb'_eq_extractLsb' (by rfl),
    BitVec.extractLsb'_append_extractLsb'_eq_extractLsb' (by rfl)]
  simp

theorem length_toBe32 (w : BitVec 32) : (toBe32 w).length = 4 := rfl

theorem byteAt_append (l m : List Byte) (k : Nat) : byteAt (l ++ m) (l.length + k) = byteAt m k := by
  simp [byteAt, List.getElem?_append_right (Nat.le_add_right l.length k)]

/-- A big-endian field read from where it was written (12.2). -/
theorem be32_append_toBe32 (l : List Byte) (w : BitVec 32) : be32 (l ++ toBe32 w) l.length = w := by
  have h0 : byteAt (l ++ toBe32 w) l.length = byteAt (toBe32 w) 0 := byteAt_append l _ 0
  rw [be32, h0, byteAt_append, byteAt_append, byteAt_append]
  exact bytes32_append w

/-! ### Codes -/

theorem Direction.ofCode_code (d : Direction) : Direction.ofCode d.code = some d := by cases d <;> rfl

theorem DeferReason.ofCode_code (r : DeferReason) : DeferReason.ofCode r.code = some r := by cases r <;> rfl

theorem Reason.ofFrameCode_code {r : Reason} (h : r.inFrame = true) : Reason.ofFrameCode r.code = some r := by
  cases r <;> first | rfl | cases h

theorem Tag.ofByte_byte (t : Tag) : Tag.ofByte t.byte = t := by
  have hgen : t.byte.extractLsb' 4 4 = t.gen := BitVec.extractLsb'_append_eq_left
  have hidx : t.byte.extractLsb' 0 4 = t.idx := BitVec.extractLsb'_append_eq_right
  simp [Tag.ofByte, hgen, hidx]

/-! ### The check -/

/-- The bytes of a frame's kind number at most 261 (12.2). -/
theorem FrameBody.length_bytes_le {b : FrameBody}
    (h : ∀ a n p, b = .data a n p → p.length = n.toNat ∧ n.toNat ≤ 256) : b.bytes.length ≤ 261 := by
  cases b with
  | data a n p =>
    obtain ⟨hp, hn⟩ := h a n p rfl
    simp only [FrameBody.bytes, List.length_append, toBe24, toBe16, List.length_cons, List.length_nil]
    omega
  | _ => simp [FrameBody.bytes, toBe32, toBe24, toBe16]

theorem Frame.length_covered (f : Frame) : f.covered.length = 5 + f.body.bytes.length := by
  simp only [Frame.covered, Frame.header, List.length_append, List.length_cons, List.length_nil]

theorem Frame.length_encode (f : Frame) : f.encode.length = f.covered.length + 4 := by
  simp [Frame.encode, length_toBe32]

/-- A frame of at most 270 bytes passes the check its own CRC makes (R177). -/
theorem Frame.crcPasses_encode {f : Frame} (h : f.body.bytes.length ≤ 261) : crcPasses f.encode = true := by
  have hlen := f.length_encode
  have hcov := f.length_covered
  have hcut : f.encode.length - 4 = f.covered.length := by omega
  have htake : f.encode.take f.covered.length = f.covered := by simp [Frame.encode]
  have hfield : be32 f.encode f.covered.length = crc32 f.covered := be32_append_toBe32 _ _
  simp only [crcPasses, hcut, htake, hfield, beq_self_eq_true, Bool.and_true, Bool.and_eq_true, decide_eq_true_eq]
  omega

/-! ### The fields of a kind -/

/-- The payload of a DATA frame stands between its 10 bytes of fields and the CRC (12.2). -/
theorem FrameBody.parse_encode_data {f : Frame} {a : BitVec 24} {n : BitVec 16} {p : List Byte}
    (hb : f.body = .data a n p) (hp : p.length = n.toNat) : FrameBody.parse f.encode = some f.body := by
  have hlen : f.encode.length = 14 + n.toNat := by
    rw [f.length_encode, f.length_covered, hb]
    simp only [FrameBody.bytes, List.length_append, toBe24, toBe16, List.length_cons, List.length_nil, hp]
    omega
  have hcode : byteAt f.encode 2 = 0x07 := by simp [Frame.encode, Frame.covered, Frame.header, hb, FrameBody.code, byteAt]
  have hoff : be24 f.encode 5 = a := by
    simp [Frame.encode, Frame.covered, Frame.header, hb, FrameBody.bytes, toBe24, toBe16, be24, byteAt, bytes24_append]
  have hcount : be16 f.encode 8 = n := by
    simp [Frame.encode, Frame.covered, Frame.header, hb, FrameBody.bytes, toBe24, toBe16, be16, byteAt, bytes16_append]
  have hpay : (f.encode.drop 10).take (f.encode.length - 14) = p := by
    have hrest : f.encode.drop 10 = p ++ toBe32 (crc32 f.covered) := by
      simp [Frame.encode, Frame.covered, Frame.header, hb, FrameBody.bytes, toBe24, toBe16]
    rw [hlen, hrest, Nat.add_sub_cancel_left, ← hp, List.take_left]
  simp only [FrameBody.parse, hcode, hoff, hcount, hpay]
  simp [hlen, hb]

/-- The fields of a frame are read back from the bytes it is sent as (12.2, R178). -/
theorem FrameBody.parse_encode {f : Frame} (hr : ∀ r, f.body = .abort r → r.inFrame = true)
    (hd : ∀ a n p, f.body = .data a n p → p.length = n.toNat) : FrameBody.parse f.encode = some f.body := by
  cases hb : f.body with
  | data a n p => rw [← hb, FrameBody.parse_encode_data hb (hd a n p hb)]
  | abort r =>
    have hcode := Reason.ofFrameCode_code (hr r hb)
    simp [FrameBody.parse, toBe32, hb, FrameBody.bytes, Frame.encode, Frame.covered, Frame.header, FrameBody.code, byteAt,
      hcode]
  | openReq key d n =>
    simp [FrameBody.parse, hb, FrameBody.bytes, Frame.encode, Frame.covered, Frame.header, FrameBody.code, byteAt,
      toBe32, toBe24, be32, be24, bytes32_append, bytes24_append, Direction.ofCode_code]
  | defer r =>
    simp [FrameBody.parse, toBe32, hb, FrameBody.bytes, Frame.encode, Frame.covered, Frame.header, FrameBody.code, byteAt,
      DeferReason.ofCode_code]
  | probe m =>
    simp [FrameBody.parse, toBe32, hb, FrameBody.bytes, Frame.encode, Frame.covered, Frame.header, FrameBody.code, byteAt,
      toBe16, be16, bytes16_append]
  | _ =>
    simp [FrameBody.parse, toBe32, hb, FrameBody.bytes, Frame.encode, Frame.covered, Frame.header, FrameBody.code, byteAt,
      toBe24, be24, bytes24_append]

/-! ### The header -/

theorem station_byte (p : Station) : (p.setWidth 8).setWidth 5 = p := by
  apply BitVec.eq_of_toNat_eq
  have := p.isLt
  simp

theorem station_byte_injective {p q : Station} (h : p.setWidth 8 = q.setWidth 8) : p = q := by
  rw [← station_byte p, h, station_byte]

/-- The header of a frame is read back from its five bytes (12.2). -/
theorem Frame.parse_encode {sn : Station} {f : Frame} (hs : f.src ≠ sn) (ho : f.body.origFits f.fromOrig = true)
    (hb : FrameBody.parse f.encode = some f.body) : Frame.parse sn f.encode = some f := by
  have hdst : byteAt f.encode 0 = f.dst.setWidth 8 := rfl
  have hsrc : byteAt f.encode 1 = f.src.setWidth 8 := rfl
  have horig : byteAt f.encode 3 = if f.fromOrig then 0x80 else 0x00 := rfl
  have htag : byteAt f.encode 4 = f.tag.byte := rfl
  have hsmall : ¬(f.src.setWidth 8).toNat ≥ 32 := by
    have := f.src.isLt
    simp
    omega
  have hother : ¬f.src.setWidth 8 = sn.setWidth 8 := fun h => hs (station_byte_injective h)
  have hbits : ((if f.fromOrig then 0x80 else 0x00 : Byte).extractLsb' 0 7) = 0 ∧
      (if f.fromOrig then 0x80 else 0x00 : Byte).getLsbD 7 = f.fromOrig := by
    cases f.fromOrig <;> decide
  simp only [Frame.parse, hdst, hsrc, horig, htag, hb, if_neg hsmall, if_neg hother, hbits.1, hbits.2, ho, station_byte,
    Tag.ofByte_byte]
  simp

/-- Settles O21. -/
theorem frameRoundTrip : Obligations.FrameRoundTrip := by
  intro sn f hs ho hr hd
  have hparse := FrameBody.parse_encode hr fun a n p h => (hd a n p h).1
  exact ⟨Frame.crcPasses_encode (FrameBody.length_bytes_le hd), Frame.parse_encode hs ho hparse⟩

end Sys2Proof.Machine
end

section
/-!
SUPPORT. The end of the station's own acknowledge slot without an answer (R113, R124, R129, R169): the frame that stays,
the probe whose number is free, and the SILENT mark with its purge.
-/

namespace Sys2Proof.Machine

theorem readAnswer_ne_none {ackt ackb : Bool} (h : ackt = true ∨ ackb = true) : readAnswer ackt ackb ≠ none := by
  obtain rfl | rfl := h
  · cases ackb <;> simp [readAnswer]
  · simp [readAnswer]

namespace State

/-! ### The answer read -/

/-- The state at the end of the acknowledge slot, before the outcome is returned (R124). -/
theorem exec_ackSlot_sent {ackt ackb collided : Bool} {t : TxFrame} {s : State} (ho : s.observes = true)
    (hp : s.lpt.phase = .sent collided) (ht : s.lpt.tx = some t) :
    exec (.acknowledgeSlot ackt ackb) s =
      .next ((s.setPhase .idle none).readSlot t (if collided then none else readAnswer ackt ackb)) := by
  simp only [exec, execAcknowledgeSlot, ho, if_true, ackSlot, hp, ht]

theorem exec_ackSlot_unanswered {ackt ackb collided : Bool} {t : TxFrame} {s : State} (ho : s.observes = true)
    (hp : s.lpt.phase = .sent collided) (ht : s.lpt.tx = some t)
    (hn : collided = true ∨ ackt = false ∧ ackb = false) :
    exec (.acknowledgeSlot ackt ackb) s = .next ((s.setPhase .idle none).readSlot t none) := by
  rw [exec_ackSlot_sent ho hp ht]
  obtain rfl | ⟨rfl, rfl⟩ := hn
  · rfl
  · cases collided <;> rfl

theorem attemptsLeft_iff (t : TxFrame) (s : State) : s.attemptsLeft t = true ↔ t.attempts < 1 + s.par.linkRetry := by
  simp [attemptsLeft]

theorem attemptsLeft_eq_false {t : TxFrame} {s : State} (h : 1 + s.par.linkRetry ≤ t.attempts) :
    s.attemptsLeft t = false := by
  simp [attemptsLeft, h]

/-- Below 1 + N attempts the frame stays (R124). -/
theorem readSlot_of_left {t : TxFrame} {s : State} (hd : s.sct.station ≠ .fault ∨ t.isData = false)
    (h : t.attempts < 1 + s.par.linkRetry) : s.readSlot t none = s := by
  have hn : ¬(s.sct.station = .fault ∧ t.isData = true) := by
    rintro ⟨h1, h2⟩
    obtain hd | hd := hd
    · exact hd h1
    · simp [hd] at h2
  unfold readSlot
  rw [if_neg hn]
  simp only [(attemptsLeft_iff t s).mpr h, if_true]

theorem readSlot_of_exhausted {t : TxFrame} {s : State} (hd : s.sct.station ≠ .fault ∨ t.isData = false)
    (h : 1 + s.par.linkRetry ≤ t.attempts) : s.readSlot t none = s.linkExhausted t := by
  have hn : ¬(s.sct.station = .fault ∧ t.isData = true) := by
    rintro ⟨h1, h2⟩
    obtain hd | hd := hd
    · exact hd h1
    · simp [hd] at h2
  unfold readSlot
  rw [if_neg hn]
  simp only [attemptsLeft_eq_false h, Bool.false_eq_true, if_false]

/-- In FAULT a DATA frame leaves the transmit slot whatever the answer, without further attempts (R173). -/
theorem readSlot_of_faultData {t : TxFrame} {a : Option Ack} {s : State} (hf : s.sct.station = .fault)
    (hd : t.isData = true) (h : a ≠ none ∨ t.attempts < 1 + s.par.linkRetry) : s.readSlot t a = s.emptyTx := by
  have hn : ¬(a = none ∧ s.attemptsLeft t = false) := by
    rintro ⟨h1, h2⟩
    obtain h | h := h
    · exact h h1
    · simp [(attemptsLeft_iff t s).mpr h] at h2
  unfold readSlot removeInFault
  rw [if_pos ⟨hf, hd⟩, if_neg hn]

theorem readSlot_of_faultExhausted {t : TxFrame} {s : State} (hf : s.sct.station = .fault) (hd : t.isData = true)
    (h : 1 + s.par.linkRetry ≤ t.attempts) : s.readSlot t none = s.emptyTx.markSilent t.frame.dst := by
  unfold readSlot removeInFault
  rw [if_pos ⟨hf, hd⟩, if_pos ⟨rfl, attemptsLeft_eq_false h⟩]

/-! ### The number is free -/

/-- A rescan made due changes the due mark, and the line of the Transmit Queue. -/
theorem makeRescanDue_shape (s : State) :
    ∃ due waits line, s.makeRescanDue = { s with
      xen := { s.xen with rescanDue := due, rescanWaits := waits }, txq := { s.txq with line := line } } := by
  unfold makeRescanDue claimCtrl
  split
  · split <;> exact ⟨_, _, _, rfl⟩
  · exact ⟨s.xen.rescanDue, s.xen.rescanWaits, s.txq.line, rfl⟩

/-- What the number free leaves: ONLINE without its FAULT line, the STATION report, and the lane, the control queue, the
slots and the offers as they were (R169). -/
structure NumberFree (s u : State) : Prop where
  station : u.sct.station = .online
  faultPin : u.sct.faultPin = false
  lpt : u.lpt = s.lpt
  ctrl : u.txq.ctrl = s.txq.ctrl
  queue : u.rpt.queue = s.rpt.queue ++ [.station .online .numberFree]
  slots : u.xen.slots = s.xen.slots
  offers : u.xen.offers = s.xen.offers

/-- The station back ONLINE on its own number, before its report. -/
def freed (s : State) : State := { s with sct := { s.sct with probe := false } }.enter .online

theorem numberFree_facts {s : State} (h : s.reportOpen 1) : NumberFree s s.numberFree := by
  obtain ⟨hq, hw, -⟩ := h
  have hreport : NumberFree s (s.freed.stationReport ⟨.online, .numberFree, 0⟩) := by
    rw [stationReport_of_room (s := s.freed) (by rw [freed, enter_eq]; show s.rpt.queue.length < 8; omega)
      (by rw [freed, enter_eq]; exact hw), freed, enter_eq]
    exact ⟨rfl, rfl, rfl, rfl, rfl, rfl, rfl⟩
  show NumberFree s (if _ then (s.freed.stationReport ⟨.online, .numberFree, 0⟩).makeRescanDue else
    s.freed.stationReport ⟨.online, .numberFree, 0⟩)
  split
  · obtain ⟨due, waits, line, he⟩ := makeRescanDue_shape (s.freed.stationReport ⟨.online, .numberFree, 0⟩)
    rw [he]
    exact ⟨hreport.station, hreport.faultPin, hreport.lpt, hreport.ctrl, hreport.queue, hreport.slots, hreport.offers⟩
  · exact hreport

/-! ### The SILENT mark -/

theorem peer_setPeer_self (p : Station) (v : PeerState) (s : State) : (s.setPeer p v).peer p = v := by
  simp [peer, setPeer]

theorem peer_setPeer_of_ne {p q : Station} (h : q ≠ p) (v : PeerState) (s : State) :
    (s.setPeer p v).peer q = s.peer q := by
  have hne : p.toNat ≠ q.toNat := fun he => h (BitVec.eq_of_toNat_eq he.symm)
  simp only [peer, setPeer]
  exact Vector.getElem_set_ne _ _ hne

/-- The station with the peer marked SILENT and the frames to it purged, before the mark reaches the slots (R113, R129). -/
def silencing (p : Station) (s : State) : State := (s.setPeer p .silent).purge p

theorem silencing_peer (p : Station) (s : State) :
    (s.silencing p).peer p = .silent ∧ ∀ q, q ≠ p → (s.silencing p).peer q = s.peer q :=
  ⟨peer_setPeer_self p .silent s, fun _ h => peer_setPeer_of_ne h .silent s⟩

/-- In FAULT the mark reaches the Peer Table, the Transmit Queue and the fault aborts only (R129, R174). -/
theorem markSilent_of_fault {p : Station} {s : State} (hf : s.sct.station = .fault) :
    s.markSilent p = { s.silencing p with
      sct := { s.sct with faultAborts := s.sct.faultAborts.filter fun x => x.dst != p } } := by
  have hst : (s.silencing p).sct.station = .fault := hf
  show (if (s.silencing p).sct.station = .fault then _ else _) = _
  rw [if_pos hst]
  rfl

theorem markSilent_of_running {p : Station} {s : State} (hf : s.sct.station ≠ .fault) :
    s.markSilent p = (slotIds.foldl (silentSlot p) (s.silencing p)).dropDeferred fun d => d.peer == p := by
  have hst : (s.silencing p).sct.station ≠ .fault := hf
  exact if_neg hst

/-- Some slot of the station owns a frame and has an exchange with the peer that has not ended (R18, R113). -/
theorem any_slot_eq_liveWith (s : State) (p : Station) (o : Owner) :
    (slotIds.any fun i => o == .slot i (s.gen i) && (s.ex i).any fun e => e.peer == p && e.state != .retiring) =
      s.liveWith p o := by
  rw [Bool.eq_iff_iff, List.any_eq_true]
  cases o with
  | slot j g =>
    simp only [liveWith, Bool.and_eq_true, beq_iff_eq, Owner.slot.injEq]
    constructor
    · rintro ⟨i, -, ⟨rfl, rfl⟩, h⟩
      exact ⟨rfl, h⟩
    · rintro ⟨rfl, h⟩
      exact ⟨j, mem_slotIds j, ⟨rfl, rfl⟩, h⟩
  | stationControl => simp [liveWith]
  | nobody => simp [liveWith]

/-- What the SILENT mark of a peer leaves at a station that runs (R18, R20, R113, R129). -/
structure Silent (p : Station) (s u : State) : Prop where
  peer : u.peer p = .silent ∧ ∀ q, q ≠ p → u.peer q = s.peer q
  tx : u.lpt.tx = s.lpt.tx
  ctrl : u.txq.ctrl = s.txq.ctrl.filter fun c => c.inSlot || (c.frame.dst != p && !s.liveWith p c.owner)
  line : u.txq.line = s.txq.line.filter fun c =>
    match c with
    | .frame f o => f.dst != p && !s.liveWith p o
    | .credit j => (s.ex j).all fun e => e.peer != p
    | .pendingAbort q _ => q != p
    | .inboxHead => true
    | .rescan => true
  owed : u.txq.owed = s.txq.owed.filter fun j => !(s.ex j).any fun e => e.peer == p && e.state == .retiring
  deferred : u.xen.deferred = s.xen.deferred.filter fun d => d.peer != p
  live : ∀ i e, s.ex i = some e → e.peer = p → e.state ≠ .retiring →
    ∃ e' o, u.ex i = some e' ∧ e'.state = .retiring ∧ e'.outcome = some o ∧ o.result = .failed .peerSilent none ∧
      o.abort = .notNeeded
  retiring : ∀ i e o, s.ex i = some e → e.peer = p → e.state = .retiring → e.outcome = some o →
    u.ex i = some { e with outcome := some { o with abort := if o.abort = .notNeeded then .notNeeded else .settled } }
  others : ∀ i e, s.ex i = some e → e.peer ≠ p → u.ex i = some e
  ready : ∀ b v e, u.buffer b = some v → v.state = .ready → s.ex v.slot = some e → v.gen = s.gen v.slot →
    e.peer = p → e.state = .retiring
  offers : u.xen.offers = s.xen.offers
  queue : u.rpt.queue = s.rpt.queue

/-- An ABORT that is not needed stays so at its settling; every other is settled (R20). -/
theorem settleAbort_of_outcome {e : Exchange} {o : ExOutcome} (h : e.outcome = some o) :
    e.settleAbort = { e with
      outcome := some { o with abort := if o.abort = .notNeeded then .notNeeded else .settled } } := by
  obtain ⟨r, a, why⟩ := o
  cases e
  cases a <;> simp_all [Exchange.settleAbort, Exchange.setAbort]

theorem settle_ex {s : State} {i : SlotId} {e : Exchange} (he : s.ex i = some e) :
    (s.settle i).ex i = some e.settleAbort := by
  have hset : (s.settle i).ex i = (s.updEx i Exchange.settleAbort).ex i := rfl
  rw [hset, ex_updEx, if_pos rfl, he]
  rfl

/-- The SILENT mark at one slot: another peer's slot stays, a RETIRING slot's ABORT is settled, any other slot ends. -/
theorem silentSlot_ex {p : Station} {s : State} {i : SlotId} {e : Exchange} (he : s.ex i = some e) :
    (e.peer ≠ p → (s.silentSlot p i).ex i = some e) ∧
    (e.peer = p → e.state = .retiring → (s.silentSlot p i).ex i = some e.settleAbort) ∧
    (e.peer = p → e.state ≠ .retiring →
      (s.silentSlot p i).ex i = some (s.ended i e (.failed .peerSilent none) none)) := by
  unfold silentSlot
  simp only [he]
  refine ⟨fun hp => ?_, fun hp hs => ?_, fun hp hs => ?_⟩
  · rw [if_neg hp]
    exact he
  · rw [if_pos hp, if_pos hs]
    exact settle_ex he
  · rw [if_pos hp, if_neg hs]
    exact (endWith_ends he hs .peerSilent).record

theorem purge_line_credit_ne {p : Station} {s : State} :
    ∀ c ∈ (s.silencing p).txq.line, ∀ j, c = .credit j → ∀ e, (s.silencing p).ex j = some e → e.peer ≠ p := by
  rintro c hc j rfl e he hp
  have hx : s.ex j = some e := he
  obtain ⟨-, hto⟩ := List.mem_filter.mp hc
  have hpeer : (s.setPeer p .silent).peerOf j = some p := by
    show (s.ex j).map (·.peer) = some p
    rw [hx, ← hp]
    rfl
  simp [CtrlClaim.isTo, hpeer] at hto

theorem Silenced.ctrl_eq {p : Station} {s u : State} (h : Silenced p slotIds (s.silencing p) u) :
    u.txq.ctrl = s.txq.ctrl.filter fun c => c.inSlot || (c.frame.dst != p && !s.liveWith p c.owner) := by
  rw [h.ctrl]
  show ((s.txq.ctrl.filter fun c => c.inSlot || c.frame.dst != p).filter _) = _
  rw [List.filter_filter]
  refine List.filter_congr fun c _ => ?_
  have hlive : (s.silencing p).liveWith p c.owner = s.liveWith p c.owner := rfl
  rw [any_slot_eq_liveWith (s.silencing p) p c.owner, hlive]
  cases c.inSlot <;> simp [Bool.and_comm]

theorem Silenced.line_eq {p : Station} {s u : State} (h : Silenced p slotIds (s.silencing p) u) :
    u.txq.line = s.txq.line.filter fun c =>
      match c with
      | .frame f o => f.dst != p && !s.liveWith p o
      | .credit j => (s.ex j).all fun e => e.peer != p
      | .pendingAbort q _ => q != p
      | .inboxHead => true
      | .rescan => true := by
  rw [h.line purge_line_credit_ne]
  show ((s.txq.line.filter fun c => !c.isTo (s.setPeer p .silent).peerOf p).filter _) = _
  rw [List.filter_filter]
  refine List.filter_congr fun c _ => ?_
  have hpeer : ∀ j, (s.setPeer p .silent).peerOf j = (s.ex j).map (·.peer) := fun _ => rfl
  cases c with
  | frame f o =>
    have hlive : (s.silencing p).liveWith p o = s.liveWith p o := rfl
    simp only [any_slot_eq_liveWith (s.silencing p) p o, hlive, CtrlClaim.isTo]
    exact Bool.and_comm _ _
  | credit j =>
    simp only [CtrlClaim.isTo, hpeer, Bool.false_and]
    cases s.ex j <;> simp [bne]
  | pendingAbort q t => simp [CtrlClaim.isTo, bne]
  | inboxHead => simp [CtrlClaim.isTo]
  | rescan => simp [CtrlClaim.isTo]

theorem Silenced.owed_eq {p : Station} {s u : State} (h : Silenced p slotIds (s.silencing p) u) :
    u.txq.owed = s.txq.owed.filter fun j => !(s.ex j).any fun e => e.peer == p && e.state == .retiring := by
  rw [h.owed]
  refine List.filter_congr fun j _ => congrArg not ?_
  rw [Bool.eq_iff_iff, List.any_eq_true]
  constructor
  · rintro ⟨i, -, hi⟩
    obtain ⟨hij, hex⟩ := Bool.and_eq_true_iff.mp hi
    obtain rfl : i = j := by simpa using hij
    exact hex
  · intro hj
    exact ⟨j, mem_slotIds j, Bool.and_eq_true_iff.mpr ⟨by simp, hj⟩⟩

/-- What the walk over the slots leaves, once each slot is known to be treated as it stood. -/
theorem silent_of_walk {p : Station} {s u : State} (hkeep : Keep (s.silencing p) u)
    (hsil : Silenced p slotIds (s.silencing p) u)
    (hone : ∀ i e, s.ex i = some e → ∃ v : State, v.ex i = some e ∧ u.ex i = (v.silentSlot p i).ex i) :
    Silent p s (u.dropDeferred fun d => d.peer == p) where
  peer := by
    have hpeers : ∀ q, (u.dropDeferred fun d => d.peer == p).peer q = (s.silencing p).peer q := fun q => by
      show u.lpt.peers[q.toNat] = _
      rw [hkeep.lpt]
      rfl
    rw [hpeers]
    exact ⟨(silencing_peer p s).1, fun q h => (hpeers q).trans ((silencing_peer p s).2 q h)⟩
  tx := congrArg (·.tx) hkeep.lpt
  ctrl := hsil.ctrl_eq
  line := hsil.line_eq
  owed := hsil.owed_eq
  deferred := congrArg (List.filter fun d : Deferred => d.peer != p) hkeep.deferred
  live := by
    intro i e he hp hs
    obtain ⟨v, hv, hfold⟩ := hone i e he
    obtain ⟨-, -, hend⟩ := silentSlot_ex (p := p) hv
    exact ⟨_, _, hfold.trans (hend hp hs), rfl, rfl, rfl, rfl⟩
  retiring := by
    intro i e o he hp hs ho
    obtain ⟨v, hv, hfold⟩ := hone i e he
    obtain ⟨-, hset, -⟩ := silentSlot_ex (p := p) hv
    rw [← settleAbort_of_outcome ho]
    exact hfold.trans (hset hp hs)
  others := by
    intro i e he hp
    obtain ⟨v, hv, hfold⟩ := hone i e he
    obtain ⟨hother, -, -⟩ := silentSlot_ex (p := p) hv
    exact hfold.trans (hother hp)
  ready := fun b v e hb hv he hg hp => (hsil.ready b v hb hv).2 v.slot (mem_slotIds _) e he rfl hg hp
  offers := hkeep.offers
  queue := hkeep.queue

theorem markSilent_silent {p : Station} {s : State} (hf : s.sct.station ≠ .fault) : Silent p s (s.markSilent p) := by
  rw [markSilent_of_running hf]
  obtain ⟨hkeep, -, hslot⟩ := foldl_keep (silentSlot p) (silentSlot_keep p) (silentSlot_ex_of_ne p) slotIds
    (s.silencing p) slotIds_nodup
  refine silent_of_walk hkeep (silenced_foldl p slotIds (s.silencing p) slotIds_nodup) fun i e he => ?_
  obtain ⟨v, -, hv, hfold⟩ := hslot i (mem_slotIds i)
  exact ⟨v, hv.trans he, hfold⟩

/-! ### The frame that is lost -/

/-- The state a lost frame leaves its transmit slot in, before its peer is marked: a control frame leaves its queue, a DATA
frame frees its buffer (R18, R113). -/
def lost (t : TxFrame) (s : State) : State :=
  match t.src with
  | .data b => s.emptyTx.setBuffer b none
  | .ctrl => s.emptyTx.freeInSlot

theorem lost_sct (t : TxFrame) (s : State) : (s.lost t).sct = s.sct := by
  unfold lost
  split <;> rfl

/-- The transmit slot empty, and the control queue without its entry. -/
def unsent (t : TxFrame) (s : State) : State := { s with
  lpt := { s.lpt with tx := none },
  txq := { s.txq with ctrl := s.txq.ctrl.filter fun c => !c.inSlot || t.isData } }

/-- A lost frame changes the transmit slot, its own control entry and the frame buffers only. -/
theorem lost_shape (t : TxFrame) (s : State) : ∃ fbd, s.lost t = { s.unsent t with fbd := fbd } := by
  unfold lost unsent TxFrame.isData
  cases t.src with
  | data b => exact ⟨(s.emptyTx.setBuffer b none).fbd, by simp [emptyTx, setBuffer]⟩
  | ctrl => exact ⟨s.fbd, by simp [emptyTx, freeInSlot]⟩

theorem linkExhausted_of_not_probe {t : TxFrame} {s : State} (h : ∀ m, t.frame.body ≠ .probe m) :
    s.linkExhausted t = (s.lost t).markSilent t.frame.dst := by
  have hp : ¬t.frame.body.isProbe = true := fun hb => by
    cases hbody : t.frame.body with
    | probe m => exact h m hbody
    | _ => simp [hbody, FrameBody.isProbe] at hb
  unfold linkExhausted lost
  cases t.src with
  | data b => rfl
  | ctrl => exact if_neg hp

theorem linkExhausted_of_probe {t : TxFrame} {s : State} {m : BitVec 16} (hsrc : t.src = .ctrl)
    (h : t.frame.body = .probe m) (hs : s.sct.station = .probing) :
    s.linkExhausted t = s.emptyTx.freeInSlot.numberFree := by
  unfold linkExhausted
  simp only [hsrc, h, FrameBody.isProbe, if_true, hs]

/-- The peer of a lost frame is SILENT (R113, R129). -/
theorem lost_silent {t : TxFrame} {s : State} (hf : s.sct.station ≠ .fault) :
    Silent t.frame.dst (s.lost t) ((s.lost t).markSilent t.frame.dst) :=
  markSilent_silent (by rw [lost_sct]; exact hf)

/-- In FAULT a lost frame leaves the transmit slot and, a control frame, its queue; its peer is marked (R129, R173). -/
theorem readSlot_of_faultLost {t : TxFrame} {s : State} (hf : s.sct.station = .fault)
    (h : 1 + s.par.linkRetry ≤ t.attempts) (hb : t.isData = true ∨ ∃ r, t.frame.body = .abort r) :
    s.readSlot t none = (s.unsent t).markSilent t.frame.dst := by
  unfold unsent
  cases hd : t.isData with
  | true =>
    rw [readSlot_of_faultExhausted hf hd h]
    simp [emptyTx]
  | false =>
    obtain ⟨r, hr⟩ := hb.resolve_left (by simp [hd])
    rw [readSlot_of_exhausted (.inr hd) h, linkExhausted_of_not_probe (by simp [hr])]
    have hsrc : t.src = .ctrl := by
      cases hs : t.src with
      | ctrl => rfl
      | data b => simp [TxFrame.isData, hs] at hd
    simp [lost, hsrc, emptyTx, freeInSlot]

/-- The control entries left: at a lost control frame its own is gone, and those to the peer are. -/
theorem filter_lost_ctrl (l : List CtrlEntry) (d : Bool) (f : CtrlEntry → Bool) :
    (l.filter fun c => !c.inSlot || d).filter (fun c => c.inSlot || f c) =
      l.filter fun c => if c.inSlot then d else f c := by
  rw [List.filter_filter]
  refine List.filter_congr fun c _ => ?_
  cases c.inSlot <;> simp

end State

/-- Settles O16 (R113, R124, R129, R169, R173, R174). -/
theorem unansweredFrameEnds : Obligations.UnansweredFrameEnds := by
  unfold Obligations.UnansweredFrameEnds
  refine ⟨?_, ?_, ?_⟩
  · intro t ackt ackb collided s ho hf hp ht hn
    rw [State.exec_ackSlot_unanswered ho hp ht hn]
    have hfree : (s.setPhase .idle none).sct.station ≠ .fault ∨ t.isData = false := .inl hf
    refine ⟨fun h => congrArg _ (State.readSlot_of_left hfree h), ?_, ?_⟩
    · rintro h hsrc ⟨m, hbody⟩ hst hopen
      have hnum := State.numberFree_facts (s := (s.setPhase .idle none).emptyTx.freeInSlot) hopen
      refine ⟨_, rfl, ?_⟩
      rw [State.readSlot_of_exhausted hfree h, State.linkExhausted_of_probe (s := s.setPhase .idle none) hsrc hbody hst]
      exact ⟨hnum.station, congrArg (·.tx) hnum.lpt, hnum.ctrl, congrArg (·.peers) hnum.lpt, hnum.queue, hnum.faultPin,
        hnum.slots, hnum.offers⟩
    · intro h hbody
      have hsil := State.lost_silent (t := t) (s := s.setPhase .idle none) hf
      obtain ⟨fbd, hshape⟩ := State.lost_shape t (s.setPhase .idle none)
      refine ⟨_, rfl, ?_⟩
      rw [State.readSlot_of_exhausted hfree h, State.linkExhausted_of_not_probe hbody]
      rw [hshape] at hsil ⊢
      exact ⟨hsil.tx, hsil.peer.1, hsil.peer.2, hsil.ctrl.trans (State.filter_lost_ctrl _ _ _), hsil.line, hsil.owed,
        hsil.deferred, hsil.live, hsil.retiring, hsil.ready, hsil.others, hsil.offers, hsil.queue⟩
  · intro t ackt ackb collided s ho hf hp ht hn
    rw [State.exec_ackSlot_unanswered ho hp ht hn]
    refine ⟨fun hsrc h => ?_, fun hd h => ?_, fun h hb => ⟨_, rfl, ?_⟩⟩
    · have hd : t.isData = false := by simp [TxFrame.isData, hsrc]
      exact congrArg _ (State.readSlot_of_left (s := s.setPhase .idle none) (.inr hd) h)
    · exact congrArg _ (State.readSlot_of_faultData (s := s.setPhase .idle none) hf hd (.inr h))
    · rw [State.readSlot_of_faultLost (s := s.setPhase .idle none) hf h hb,
        State.markSilent_of_fault (s := (s.setPhase .idle none).unsent t) hf]
      have hpeer := State.silencing_peer t.frame.dst s
      refine ⟨rfl, rfl, hpeer.1, hpeer.2, ?_, rfl, rfl, rfl, rfl, rfl, rfl⟩
      exact State.filter_lost_ctrl s.txq.ctrl t.isData fun c => c.frame.dst != t.frame.dst
  · intro t ackt ackb s ho hf hp ht hd ha
    rw [State.exec_ackSlot_sent ho hp ht]
    exact congrArg _ (State.readSlot_of_faultData (s := s.setPhase .idle none) hf hd
      (.inl (readAnswer_ne_none ha)))

end Sys2Proof.Machine
end

section
/-!
SUPPORT. The end of the station's own acknowledge slot with an answer (R111, R112, R124): what TAKEN and BUSY bring to the
owner of the frame.
-/

namespace Sys2Proof.Machine

namespace State

/-! ### The entry in the transmit slot -/

/-- The control queue holds the entry c in the transmit slot, between the entries pre and post that are not in it. -/
structure InTxSlot (s : State) (pre : List CtrlEntry) (c : CtrlEntry) (post : List CtrlEntry) : Prop where
  queue : s.txq.ctrl = pre ++ c :: post
  inSlot : c.inSlot = true
  rest : ∀ d ∈ pre ++ post, d.inSlot = false

/-- The frame has left the transmit slot with an outcome, and these control entries are left (R111, R124). -/
def sentWith (l : List CtrlEntry) (s : State) : State := { s with
  txq := { s.txq with ctrl := l },
  lpt := { s.lpt with tx := none, phase := .idle, pins := { s.lpt.pins with ack := none } } }

theorem InTxSlot.find {s : State} {pre post : List CtrlEntry} {c : CtrlEntry} (h : s.InTxSlot pre c post) :
    s.txq.ctrl.find? (·.inSlot) = some c := by
  have hpre : pre.find? (·.inSlot) = none :=
    List.find?_eq_none.mpr fun d hd => by simp [h.rest d (List.mem_append_left _ hd)]
  rw [h.queue, List.find?_append, hpre, List.find?_cons_of_pos h.inSlot]
  rfl

theorem InTxSlot.filter {s : State} {pre post : List CtrlEntry} {c : CtrlEntry} (h : s.InTxSlot pre c post) :
    s.txq.ctrl.filter (fun d => !d.inSlot) = pre ++ post := by
  have hkeep : ∀ l : List CtrlEntry, (∀ d ∈ l, d.inSlot = false) → l.filter (fun d => !d.inSlot) = l := fun l hl =>
    List.filter_eq_self.mpr fun d hd => by simp [hl d hd]
  rw [h.queue, List.filter_append, List.filter_cons_of_neg (by simp [h.inSlot]),
    hkeep pre fun d hd => h.rest d (List.mem_append_left _ hd), hkeep post fun d hd => h.rest d (List.mem_append_right _ hd)]

theorem InTxSlot.freed {s : State} {pre post : List CtrlEntry} {c : CtrlEntry} (h : s.InTxSlot pre c post) :
    (s.setPhase .idle none).emptyTx.freeInSlot = s.sentWith (pre ++ post) := by
  unfold freeInSlot sentWith
  simp only [setPhase, emptyTx]
  rw [h.filter]

theorem InTxSlot.length {s : State} {pre post : List CtrlEntry} {c : CtrlEntry} (h : s.InTxSlot pre c post) :
    s.txq.ctrl.length = (pre ++ post).length + 1 := by
  rw [h.queue]
  simp [Nat.add_assoc]

/-! ### The answer returned -/

theorem readSlot_of_taken {t : TxFrame} {s : State} (h : s.sct.station ≠ .fault ∨ t.isData = false) :
    s.readSlot t (some .taken) = s.linkTaken t := by
  have hn : ¬(s.sct.station = .fault ∧ t.isData = true) := by
    rintro ⟨h1, h2⟩
    obtain h | h := h
    · exact h h1
    · simp [h] at h2
  exact if_neg hn

theorem readSlot_of_busy {t : TxFrame} {s : State} (h : s.sct.station ≠ .fault ∨ t.isData = false) :
    s.readSlot t (some .busy) = s.linkBusy t := by
  have hn : ¬(s.sct.station = .fault ∧ t.isData = true) := by
    rintro ⟨h1, h2⟩
    obtain h | h := h
    · exact h h1
    · simp [h] at h2
  exact if_neg hn

theorem isData_of_ctrl {t : TxFrame} (h : t.src = .ctrl) : t.isData = false := by
  unfold TxFrame.isData
  rw [h]

/-- A control frame TAKEN: its entry leaves the queue, and its owner hears of it (R111). -/
theorem exec_ackSlot_ctrlTaken {t : TxFrame} {s : State} {pre post : List CtrlEntry} {c : CtrlEntry}
    (ho : s.observes = true) (hp : s.lpt.phase = .sent false) (ht : s.lpt.tx = some t) (hsrc : t.src = .ctrl)
    (h : s.InTxSlot pre c post) :
    exec (.acknowledgeSlot true false) s = .next ((s.sentWith (pre ++ post)).ctrlTaken c) := by
  rw [exec_ackSlot_sent ho hp ht]
  have hread : (s.setPhase .idle none).readSlot t (some .taken) = _ := readSlot_of_taken (.inr (isData_of_ctrl hsrc))
  have hfind : (s.setPhase .idle none).txq.ctrl.find? (·.inSlot) = some c := h.find
  show Host.Outcome.next ((s.setPhase .idle none).readSlot t (some .taken)) = _
  rw [hread, ← h.freed]
  unfold linkTaken
  simp only [hsrc, hfind]

theorem exec_ackSlot_ctrlBusy {t : TxFrame} {ackt : Bool} {s : State} {pre post : List CtrlEntry} {c : CtrlEntry}
    (ho : s.observes = true) (hp : s.lpt.phase = .sent false) (ht : s.lpt.tx = some t) (hsrc : t.src = .ctrl)
    (h : s.InTxSlot pre c post) :
    exec (.acknowledgeSlot ackt true) s = .next ((s.setPhase .idle none).emptyTx.ctrlBusy c) := by
  rw [exec_ackSlot_sent ho hp ht]
  have hread : (s.setPhase .idle none).readSlot t (some .busy) = _ := readSlot_of_busy (.inr (isData_of_ctrl hsrc))
  have hfind : (s.setPhase .idle none).txq.ctrl.find? (·.inSlot) = some c := h.find
  show Host.Outcome.next ((s.setPhase .idle none).readSlot t (some .busy)) = _
  rw [hread]
  unfold linkBusy
  simp only [hsrc, hfind]

theorem live_iff (s : State) (i : SlotId) (g : Gen) : s.live i g = true ↔ (∃ e, s.ex i = some e) ∧ s.gen i = g := by
  simp [live, Option.isSome_iff_exists]

theorem live_eq_false {s : State} {i : SlotId} {g : Gen} (h : s.ex i = none ∨ s.gen i ≠ g) : s.live i g = false := by
  rw [Bool.eq_false_iff]
  intro hl
  obtain ⟨⟨e, he⟩, hg⟩ := (live_iff s i g).mp hl
  obtain h | h := h
  · simp [h] at he
  · exact h hg

/-- The frame of a live slot TAKEN reaches its slot (R111). -/
theorem ctrlTaken_of_slot {s : State} {c : CtrlEntry} {i : SlotId} {e : Exchange} (hf : s.sct.station ≠ .fault)
    (hc : c.owner = .slot i (s.gen i)) (he : s.ex i = some e) : s.ctrlTaken c = s.slotTaken i c.frame e := by
  have hl : s.live i (s.gen i) = true := (live_iff ..).mpr ⟨⟨e, he⟩, rfl⟩
  unfold ctrlTaken
  simp only [hc, hf, hl, he, or_self, Bool.true_eq_false, if_false]

theorem ctrlBusy_of_slot {s : State} {c : CtrlEntry} {i : SlotId} {e : Exchange} (hf : s.sct.station ≠ .fault)
    (hc : c.owner = .slot i (s.gen i)) (he : s.ex i = some e) : s.ctrlBusy c = s.slotBusy i c e (c.busy + 1) := by
  have hl : s.live i (s.gen i) = true := (live_iff ..).mpr ⟨⟨e, he⟩, rfl⟩
  unfold ctrlBusy
  simp only [hc, hf, hl, he, or_self, Bool.true_eq_false, if_false]

/-- A frame without a live owner is done with its outcome (R17, R111, R112). -/
theorem ctrlTaken_of_unowned {s : State} {c : CtrlEntry}
    (h : c.owner = .nobody ∨ ∃ j g, c.owner = .slot j g ∧ (s.ex j = none ∨ s.gen j ≠ g)) : s.ctrlTaken c = s := by
  obtain h | ⟨j, g, hc, hd⟩ := h
  · unfold ctrlTaken
    simp only [h]
  · unfold ctrlTaken
    simp only [hc, live_eq_false hd, or_true, if_true]

theorem ctrlBusy_of_unowned {s : State} {c : CtrlEntry}
    (h : c.owner = .nobody ∨ ∃ j g, c.owner = .slot j g ∧ (s.ex j = none ∨ s.gen j ≠ g)) :
    s.ctrlBusy c = s.freeInSlot := by
  obtain h | ⟨j, g, hc, hd⟩ := h
  · unfold ctrlBusy
    simp only [h]
  · unfold ctrlBusy
    simp only [hc, live_eq_false hd, or_true, if_true]

end State

theorem FrameBody.isAbort_iff (b : FrameBody) : b.isAbort = true ↔ ∃ r, b = .abort r := by
  cases b <;> simp [isAbort]

theorem FrameBody.isOpen_iff (b : FrameBody) : b.isOpen = true ↔ ∃ k d n, b = .openReq k d n := by
  cases b <;> simp [isOpen]

theorem FrameBody.isDone_iff (b : FrameBody) : b.isDone = true ↔ ∃ n, b = .done n := by
  cases b <;> simp [isDone]

theorem FrameBody.isCredit_iff (b : FrameBody) : b.isCredit = true ↔ ∃ n, b = .credit n := by
  cases b <;> simp [isCredit]

theorem FrameBody.isProbe_iff (b : FrameBody) : b.isProbe = true ↔ ∃ m, b = .probe m := by
  cases b <;> simp [isProbe]

namespace State

/-! ### TAKEN at the slot -/

/-- In no other state does a QUIET timer run again (R12). -/
theorem quietAgain_of_still {s : State} {e : Exchange}
    (h : e.state ≠ .sending ∧ e.state ≠ .confirming ∧ e.state ≠ .receiving) : s.quietAgain e = e := by
  obtain ⟨h1, h2, h3⟩ := h
  simp [quietAgain, Exchange.quietRuns, h1, h2, h3]

theorem settle_of_pending {s : State} {i : SlotId} {e : Exchange} {res : Result} {a : AbortState} {why : Reason}
    (he : s.ex i = some e) (ho : e.outcome = some ⟨res, a, why⟩) (ha : a = .owed ∨ a = .queued) :
    s.settle i = ({ s with txq := { s.txq with owed := s.txq.owed.filter (· != i) } }).setEx i
      (some { e with outcome := some ⟨res, .settled, why⟩ }) := by
  have hset : e.settleAbort = { e with outcome := some ⟨res, .settled, why⟩ } := by
    rw [settleAbort_of_outcome ho]
    obtain rfl | rfl := ha <;> rfl
  unfold settle
  rw [updEx_of_some he, hset]
  rfl

theorem slotTaken_of_open {s : State} {i : SlotId} {f : Frame} {e : Exchange} {k : Word} {d : Direction} {n : BitVec 24}
    (hs : e.state = .opening) (h : f.body = .openReq k d n) :
    s.slotTaken i f e = s.updEx i (Exchange.startTimer .answer s.par.quiet) := by
  unfold slotTaken
  rw [hs, h]
  exact if_pos rfl

theorem slotTaken_of_done {s : State} {i : SlotId} {f : Frame} {e : Exchange} {n : BitVec 24} (hs : e.state = .finishing)
    (h : f.body = .done n) : s.slotTaken i f e = s.retire i .completed none := by
  unfold slotTaken
  rw [hs, h]
  exact if_pos rfl

theorem slotTaken_of_abort {s : State} {i : SlotId} {f : Frame} {e : Exchange} {r : Reason} (hs : e.state = .retiring)
    (h : f.body = .abort r) : s.slotTaken i f e = s.settle i := by
  unfold slotTaken
  rw [hs, h]
  exact if_pos rfl

/-- A frame of a slot that is neither its OPEN in OPENING, its DONE in FINISHING nor an ABORT in RETIRING restarts the QUIET
timer where that runs (R12, R111). -/
theorem slotTaken_of_other {s : State} {i : SlotId} {f : Frame} {e : Exchange} (he : s.ex i = some e)
    (hopen : e.state = .opening → ∀ k d n, f.body ≠ .openReq k d n) (hdone : e.state = .finishing → ∀ n, f.body ≠ .done n)
    (habort : e.state = .retiring → ∀ r, f.body ≠ .abort r) :
    s.slotTaken i f e = s.setEx i (some (s.quietAgain e)) := by
  have hquiet := quiet_of_some s i e he
  unfold slotTaken
  split
  next hs =>
    have hb : ¬f.body.isAbort = true := fun hb => by
      obtain ⟨r, hr⟩ := f.body.isAbort_iff.mp hb
      exact habort hs r hr
    rw [if_neg hb, quietAgain_of_still (by simp [hs]), setEx_same he]
  next hs =>
    have hb : ¬f.body.isOpen = true := fun hb => by
      obtain ⟨k, d, n, hk⟩ := f.body.isOpen_iff.mp hb
      exact hopen hs k d n hk
    rw [if_neg hb, quietAgain_of_still (by simp [hs]), setEx_same he]
  next hs =>
    have hb : ¬f.body.isDone = true := fun hb => by
      obtain ⟨n, hn⟩ := f.body.isDone_iff.mp hb
      exact hdone hs n hn
    rw [if_neg hb, quietAgain_of_still (by simp [hs]), setEx_same he]
  all_goals exact hquiet

/-! ### BUSY at the slot -/

/-- A BUSY frame that its slot no longer needs is removed (R112). -/
theorem slotBusy_of_dropped {s : State} {i : SlotId} {c : CtrlEntry} {e : Exchange} {n : Nat}
    (h : e.state = .retiring ∧ ((∀ r, c.frame.body ≠ .abort r) ∨ ∀ o, e.outcome = some o → o.abort ≠ .queued) ∨
      e.state ≠ .opening ∧ ∃ k d n, c.frame.body = .openReq k d n) : s.slotBusy i c e n = s.freeInSlot := by
  unfold slotBusy
  obtain ⟨hs, h⟩ | ⟨hs, h⟩ := h
  · refine if_pos ⟨hs, ?_⟩
    obtain h | h := h
    · refine .inl (Bool.eq_false_iff.mpr fun hb => ?_)
      obtain ⟨r, hr⟩ := c.frame.body.isAbort_iff.mp hb
      exact h r hr
    · refine .inr fun ha => ?_
      obtain ⟨o, ho, hq⟩ := Option.map_eq_some_iff.mp ha
      exact h o ho hq
  · have hdrop : c.frame.body.isOpen = true ∧ e.state ≠ .opening := ⟨c.frame.body.isOpen_iff.mpr h, hs⟩
    rw [if_pos hdrop, ite_self]

/-- Neither of the two removals applies to a BUSY frame that its slot still needs (R112). -/
theorem slotBusy_of_needed {s : State} {i : SlotId} {c : CtrlEntry} {e : Exchange} {n : Nat}
    (habort : e.state = .retiring → (∃ r, c.frame.body = .abort r) ∧ ∃ o, e.outcome = some o ∧ o.abort = .queued)
    (hopen : (∃ k d n, c.frame.body = .openReq k d n) → e.state = .opening) :
    s.slotBusy i c e n =
      if 64 ≤ n then if e.state = .retiring then s.freeInSlot.settle i else s.freeInSlot.endWith i .peerCongested
      else if c.frame.body.isCredit = true ∧ s.txq.ctrl.any (s.isWaitingCredit i) = true then s.mergeCredit i n
      else s.requeue c n := by
  have h1 : ¬(e.state = .retiring ∧ (c.frame.body.isAbort = false ∨ e.abortState ≠ some .queued)) := by
    rintro ⟨hs, h⟩
    obtain ⟨hb, o, ho, hq⟩ := habort hs
    obtain h | h := h
    · simp [c.frame.body.isAbort_iff.mpr hb] at h
    · exact h (by simp [Exchange.abortState, ho, hq])
  have h2 : ¬(c.frame.body.isOpen = true ∧ e.state ≠ .opening) := fun ⟨hb, hs⟩ =>
    hs (hopen (c.frame.body.isOpen_iff.mp hb))
  unfold slotBusy
  rw [if_neg h1, if_neg h2]

theorem isWaitingCredit_iff (s : State) (i : SlotId) (d : CtrlEntry) : s.isWaitingCredit i d = true ↔
    d.inSlot = false ∧ d.owner = .slot i (s.gen i) ∧ d.frame.body.isCredit = true := by
  simp [isWaitingCredit, CtrlEntry.isOf]

/-- Below the cap a BUSY frame returns to the tail with its busy count (R112). -/
theorem InTxSlot.requeue {s : State} {pre post : List CtrlEntry} {c : CtrlEntry} (h : s.InTxSlot pre c post)
    (hlen : s.txq.ctrl.length ≤ 16) (n : Nat) :
    (s.setPhase .idle none).emptyTx.requeue c n =
      { s.sentWith (pre ++ post ++ [{ c with busy := n, inSlot := false }]) with
        xen := { s.xen with rescanWaits := s.rescanWaitsAt s.txq.ctrl.length } } := by
  have hroom : (s.sentWith (pre ++ post)).txq.ctrl.length < Config.ctrlCap :=
    Nat.lt_of_lt_of_le (Nat.lt_of_succ_le (Nat.le_of_eq h.length.symm)) hlen
  unfold State.requeue
  rw [h.freed, h.length]
  unfold pushEntry
  rw [if_pos hroom]
  rfl

/-- A CREDIT that returns BUSY merges into the slot's WAITING CREDIT (R108). -/
theorem InTxSlot.merge {s : State} {pre post : List CtrlEntry} {c : CtrlEntry} (h : s.InTxSlot pre c post)
    (i : SlotId) (n : Nat) :
    (s.setPhase .idle none).emptyTx.mergeCredit i n = s.sentWith ((pre ++ post).map fun d =>
      if d.owner = .slot i (s.gen i) ∧ d.frame.body.isCredit = true then { d with busy := max d.busy n } else d) := by
  have hmap : ∀ d ∈ pre ++ post,
      (if (s.sentWith (pre ++ post)).isWaitingCredit i d then { d with busy := max d.busy n } else d) =
        if d.owner = .slot i (s.gen i) ∧ d.frame.body.isCredit = true then { d with busy := max d.busy n } else d :=
    fun d hd => if_congr ((isWaitingCredit_iff _ i d).trans
      ⟨fun hw => hw.2, fun hw => ⟨h.rest d hd, hw⟩⟩) rfl rfl
  unfold mergeCredit
  rw [h.freed]
  exact congrArg (fun l => s.sentWith l) (List.map_congr_left hmap)

/-- A WAITING CREDIT of the slot stands in the queue outside the transmit slot (R108). -/
theorem InTxSlot.any_credit {s : State} {pre post : List CtrlEntry} {c : CtrlEntry} (h : s.InTxSlot pre c post)
    (i : SlotId) : s.txq.ctrl.any (s.isWaitingCredit i) = true ↔
      ∃ d ∈ pre ++ post, d.owner = .slot i (s.gen i) ∧ ∃ l, d.frame.body = .credit l := by
  rw [List.any_eq_true, h.queue]
  constructor
  · rintro ⟨d, hd, hw⟩
    obtain ⟨hin, ho, hb⟩ := (isWaitingCredit_iff s i d).mp hw
    refine ⟨d, ?_, ho, d.frame.body.isCredit_iff.mp hb⟩
    have hne : d ≠ c := fun he => by simp [he, h.inSlot] at hin
    simpa [hne] using hd
  · rintro ⟨d, hd, ho, hb⟩
    refine ⟨d, ?_, (isWaitingCredit_iff s i d).mpr ⟨h.rest d hd, ho, d.frame.body.isCredit_iff.mpr hb⟩⟩
    obtain hd | hd := List.mem_append.mp hd
    · exact List.mem_append_left _ hd
    · exact List.mem_append_right _ (List.mem_cons_of_mem _ hd)

/-! ### FAULT: no outcome reaches a slot -/

theorem ctrlTaken_of_fault {s : State} {c : CtrlEntry} (h : s.sct.station = .fault) : s.ctrlTaken c = s := by
  unfold ctrlTaken
  split
  · rfl
  · exact if_neg (by simp [h])
  · exact if_pos (.inl h)

/-- A BUSY frame leaves the queue in FAULT, but a fault abort below the cap (R174; log 27). -/
theorem ctrlBusy_of_fault {s : State} {c : CtrlEntry} (h : s.sct.station = .fault)
    (hc : c.owner ≠ .stationControl ∨ 64 ≤ c.busy + 1) : s.ctrlBusy c = s.freeInSlot := by
  unfold ctrlBusy
  split
  · rfl
  next ho => exact if_neg fun ⟨_, hlt⟩ => hc.elim (fun hne => hne ho) (Nat.not_le.mpr hlt)
  · exact if_pos (.inl h)

theorem ctrlBusy_of_faultAbort {s : State} {c : CtrlEntry} {r : Reason} (hc : c.owner = .stationControl)
    (hb : c.frame.body = .abort r) (hlt : c.busy + 1 < 64) : s.ctrlBusy c = s.requeue c (c.busy + 1) := by
  unfold ctrlBusy
  rw [hc]
  exact if_pos ⟨c.frame.body.isAbort_iff.mpr ⟨r, hb⟩, hlt⟩

/-! ### A DATA frame's outcome -/

theorem quietAgain_timer (s : State) (e : Exchange) : ∃ tm, s.quietAgain e = { e with timer := tm } := by
  unfold quietAgain quietStarted
  split
  · exact ⟨_, rfl⟩
  · exact ⟨e.timer, rfl⟩

/-- A DATA frame TAKEN at a live sender (R83, R101). -/
theorem dataTaken_of_sending {s : State} {b : BufId} {v : OutBuffer} {e : Exchange} (hb : s.buffer b = some v)
    (he : s.ex v.slot = some e) (hg : v.gen = s.gen v.slot) (hs : e.state = .sending) :
    s.dataTaken b = ((((s.setBuffer b none).setEx v.slot
      (some (s.quietAgain { e with acknowledged := e.acknowledged + v.payload.length }))).settleMarks v.slot).confirmIfDone
        v.slot) := by
  have hex : (s.setBuffer b none).ex v.slot = some e := he
  have hl : (s.setBuffer b none).live v.slot v.gen = true := (live_iff ..).mpr ⟨⟨e, he⟩, hg.symm⟩
  have hack : (s.setBuffer b none).ackData v.slot v.payload.length = (s.setBuffer b none).setEx v.slot
      (some (s.quietAgain { e with acknowledged := e.acknowledged + v.payload.length })) := by
    unfold ackData
    rw [updEx_of_some hex, quiet_of_some _ _ _ (ex_setEx_self ..), setEx_setEx]
    rfl
  unfold dataTaken
  simp only [hb, hl, hex, Bool.true_eq_false, if_false]
  split
  · rw [hack]
  all_goals next h => exact absurd (hs.symm.trans h) (by decide)

/-- A DATA frame of a slot that sends no longer, or of another generation, only frees its buffer (R83). -/
theorem dataTaken_of_other {s : State} {b : BufId} {v : OutBuffer} (hb : s.buffer b = some v)
    (h : ∀ e, s.ex v.slot = some e → v.gen = s.gen v.slot → e.state ≠ .sending) : s.dataTaken b = s.setBuffer b none := by
  unfold dataTaken
  simp only [hb]
  split
  · rfl
  next hl =>
    obtain ⟨⟨e, he⟩, hg⟩ := (live_iff ..).mp (Bool.eq_true_of_not_eq_false hl)
    have hex : s.ex v.slot = some e := he
    have hs := h e hex hg.symm
    rw [he]
    cases hst : e.state with
    | sending => exact absurd hst hs
    | _ => simp only [hst]

/-- The entry to CONFIRMING, once every byte is acknowledged (R101). -/
theorem confirmIfDone_of_some {s : State} {i : SlotId} {e : Exchange} (he : s.ex i = some e) :
    s.confirmIfDone i = if e.state = .sending ∧ e.acknowledged = e.length then
      s.setEx i (some (s.quietStarted { e with state := .confirming })) else s := by
  unfold confirmIfDone
  simp only [he]
  rw [updEx_of_some he]
  rfl

/-- No fill goes on where the slot fills no buffer (R75). -/
theorem resumeFill_of_no_filling {s : State} {i : SlotId}
    (h : ∀ b v, s.buffer b = some v → v.slot = i → v.state ≠ .filling) : s.resumeFill i = s := by
  have hfind : bufIds.find? (s.bufferIn i .filling) = none := by
    refine List.find?_eq_none.mpr fun b _ hin => ?_
    unfold bufferIn at hin
    split at hin
    next v hv =>
      simp only [Bool.and_eq_true, beq_iff_eq] at hin
      exact h b v hv hin.1.1 hin.2
    next => simp at hin
  unfold resumeFill
  split
  · rfl
  · rw [hfind]

/-- The reached NOTE marks of a slot that fills no buffer act, and nothing else goes on (R75, R76). -/
theorem settleMarks_noted {s : State} {i : SlotId} {e : Exchange} {ms rest : List Mark} (he : s.ex i = some e)
    (hm : e.walk.marks = ms ++ rest) (hr : ms ≠ [] → s.notesReached ms rest e.doneBytes)
    (hrest : ∀ m l, rest = m :: l → e.doneBytes < m.point)
    (hb : ms ≠ [] → ∀ b v, s.buffer b = some v → v.slot = i → v.state ≠ .filling) :
    s.settleMarks i = s.noted i e ms rest := by
  by_cases hne : ms = []
  · subst hne
    have hmarks : e.walk.marks = rest := hm
    rw [settleMarks_of_unreached he fun m l h => hrest m l (hmarks.symm.trans h)]
    have hsame : { e with walk := { e.walk with marks := rest } } = e := by rw [← hmarks]
    unfold noted
    rw [hsame, setEx_same he]
    simp
  · refine settleMarks_of_notes he hm hne (hr hne) (resumeFill_of_no_filling ?_) ?_
    · exact hb hne
    · exact headMark_of_unreached (ex_setEx_self ..) hrest

/-- The entry to CONFIRMING behind the NOTE marks that have acted (R76, R101). -/
theorem confirmIfDone_noted {s : State} {i : SlotId} {e : Exchange} {n : Nat} {ms rest : List Mark}
    (hs : e.state = .sending) :
    (s.noted i (s.quietAgain { e with acknowledged := n }) ms rest).confirmIfDone i = s.noted i
      (if n = e.length then s.quietStarted { e with acknowledged := e.length, state := .confirming }
        else s.quietAgain { e with acknowledged := n }) ms rest := by
  obtain ⟨tm, htm⟩ := s.quietAgain_timer { e with acknowledged := n }
  rw [htm]
  have hex : (s.noted i { e with acknowledged := n, timer := tm } ms rest).ex i =
      some { e with acknowledged := n, timer := tm, walk := { e.walk with marks := rest } } := ex_setEx_self ..
  rw [confirmIfDone_of_some hex]
  by_cases hn : n = e.length
  · rw [if_pos hn, if_pos ⟨hs, hn⟩]
    unfold noted
    subst hn
    simp only [setEx, Vector.set_set, Fin.getElem_fin, Vector.getElem_set_self]
    rfl
  · rw [if_neg hn, if_neg fun h => hn h.2]

/-- The record of a sender after n more bytes of it were acknowledged (R83). -/
def acked (s : State) (e : Exchange) (n : Nat) : Exchange := s.quietAgain { e with acknowledged := e.acknowledged + n }

theorem acked_shape (s : State) (e : Exchange) (n : Nat) :
    ∃ tm, s.acked e n = { e with acknowledged := e.acknowledged + n, timer := tm } :=
  s.quietAgain_timer { e with acknowledged := e.acknowledged + n }

theorem acked_doneBytes (s : State) (e : Exchange) (n : Nat) : (s.acked e n).doneBytes =
    if e.role = .originator ∧ e.dir = .push ∨ e.role = .responder ∧ e.dir = .pull then e.acknowledged + n
    else e.drained := by
  obtain ⟨tm, htm⟩ := s.acked_shape e n
  rw [htm, doneBytes_eq]

theorem acked_marks (s : State) (e : Exchange) (n : Nat) : (s.acked e n).walk.marks = e.walk.marks := by
  obtain ⟨tm, htm⟩ := s.acked_shape e n
  rw [htm]

/-- A DATA frame TAKEN that reaches NOTE marks only, at a slot that fills no other buffer (R76, R83, R101). -/
theorem dataTaken_noted {s : State} {b : BufId} {v : OutBuffer} {e : Exchange} {ms rest : List Mark}
    (hb : s.buffer b = some v) (he : s.ex v.slot = some e) (hg : v.gen = s.gen v.slot) (hs : e.state = .sending)
    (hm : e.walk.marks = ms ++ rest)
    (hside : e.walk.marks ≠ [] → e.role = .originator ∧ e.dir = .push ∨ e.role = .responder ∧ e.dir = .pull)
    (hr : ms ≠ [] → s.notesReached ms rest (e.acknowledged + v.payload.length) ∧
      ∀ b' v', b' ≠ b → s.buffer b' = some v' → v'.slot = v.slot → v'.state ≠ .filling)
    (hrest : ∀ m l, rest = m :: l → e.acknowledged + v.payload.length < m.point) :
    s.dataTaken b = (s.setBuffer b none).noted v.slot
      (if e.acknowledged + v.payload.length = e.length then
        s.quietStarted { e with acknowledged := e.length, state := .confirming }
      else s.acked e v.payload.length) ms rest := by
  have hdone : e.walk.marks ≠ [] → (s.acked e v.payload.length).doneBytes = e.acknowledged + v.payload.length :=
    fun hne => (s.acked_doneBytes e v.payload.length).trans (if_pos (hside hne))
  have hex : ((s.setBuffer b none).setEx v.slot (some (s.acked e v.payload.length))).ex v.slot =
      some (s.acked e v.payload.length) := ex_setEx_self ..
  have hnoted : ((s.setBuffer b none).setEx v.slot (some (s.acked e v.payload.length))).settleMarks v.slot =
      (s.setBuffer b none).noted v.slot (s.acked e v.payload.length) ms rest := by
    rw [settleMarks_noted hex ((s.acked_marks e _).trans hm)]
    · simp [noted, setEx]
    · intro hne
      rw [hdone (by simp [hm, hne])]
      exact (hr hne).1
    · intro m l hl
      rw [hdone (by simp [hm, hl])]
      exact hrest m l hl
    · intro hne b' v' hb' hslot
      have hbuf : (s.setBuffer b none).buffer b' = some v' := hb'
      by_cases h : b' = b
      · rw [h, buffer_setBuffer_self] at hbuf
        cases hbuf
      · have hother : (s.setBuffer b none).buffer b' = s.buffer b' := Vector.getElem_set_ne b.isLt b'.isLt (Fin.val_ne_of_ne (Ne.symm h))
        rw [hother] at hbuf
        exact (hr hne).2 b' v' h hbuf hslot
  rw [dataTaken_of_sending hb he hg hs]
  show (((s.setBuffer b none).setEx v.slot (some (s.acked e v.payload.length))).settleMarks v.slot).confirmIfDone v.slot = _
  rw [hnoted]
  exact confirmIfDone_noted (s := s.setBuffer b none) hs

/-- A DATA frame TAKEN: the bytes advance, the marks they reach are settled, and then the sender may confirm (R76, R83,
R101). -/
theorem dataTaken_settled {s : State} {b : BufId} {v : OutBuffer} {e : Exchange} (hb : s.buffer b = some v)
    (he : s.ex v.slot = some e) (hg : v.gen = s.gen v.slot) (hs : e.state = .sending) :
    ∃ u : State, ((s.setBuffer b none).setEx v.slot (some (s.acked e v.payload.length))).MarksSettled v.slot
        (s.acked e v.payload.length) (s.acked e v.payload.length).doneBytes (.next u) ∧
      s.dataTaken b = u.confirmIfDone v.slot :=
  ⟨_, settleMarks_settled (ex_setEx_self ..), dataTaken_of_sending hb he hg hs⟩

theorem exec_ackSlot_dataTaken {t : TxFrame} {s : State} {b : BufId} (ho : s.observes = true)
    (hf : s.sct.station ≠ .fault) (hp : s.lpt.phase = .sent false) (ht : s.lpt.tx = some t) (hsrc : t.src = .data b) :
    exec (.acknowledgeSlot true false) s = .next ((s.setPhase .idle none).emptyTx.dataTaken b) := by
  rw [exec_ackSlot_sent ho hp ht]
  have hread : (s.setPhase .idle none).readSlot t (some .taken) = _ := readSlot_of_taken (.inl hf)
  show Host.Outcome.next ((s.setPhase .idle none).readSlot t (some .taken)) = _
  rw [hread]
  unfold linkTaken
  simp only [hsrc]

theorem exec_ackSlot_dataBusy {t : TxFrame} {ackt : Bool} {s : State} {b : BufId} (ho : s.observes = true)
    (hf : s.sct.station ≠ .fault) (hp : s.lpt.phase = .sent false) (ht : s.lpt.tx = some t) (hsrc : t.src = .data b) :
    exec (.acknowledgeSlot ackt true) s = .next ((s.setPhase .idle none).emptyTx.setBuffer b none) := by
  rw [exec_ackSlot_sent ho hp ht]
  have hread : (s.setPhase .idle none).readSlot t (some .busy) = _ := readSlot_of_busy (.inl hf)
  show Host.Outcome.next ((s.setPhase .idle none).readSlot t (some .busy)) = _
  rw [hread]
  unfold linkBusy
  simp only [hsrc]

end State

/-- Settles O17, first the outcome of a slot's control frame, then that of a DATA frame, then the frames of no live owner,
the PROBE's and those in FAULT (R111, R112, R124). -/
theorem linkOutcomesReachTheSlot : Obligations.LinkOutcomesReachTheSlot := by
  unfold Obligations.LinkOutcomesReachTheSlot
  refine ⟨?_, ?_, ?_, ?_, ?_⟩
  · intro t ackt ackb s i e ho hf hp ht he
    refine ⟨?_, ?_⟩
    · intro pre c post hsrc hq hin hrest hown
      have hc : s.InTxSlot pre c post := ⟨hq, hin, hrest⟩
      refine ⟨?_, ?_, ?_⟩
      · rintro ⟨rfl, rfl⟩
        have htaken : exec (.acknowledgeSlot true false) s =
            .next ((s.sentWith (pre ++ post)).slotTaken i c.frame e) := by
          rw [State.exec_ackSlot_ctrlTaken ho hp ht hsrc hc]
          exact congrArg _ (State.ctrlTaken_of_slot hf hown he)
        rw [htaken]
        refine ⟨?_, ?_, ?_, ?_⟩
        · rintro hs ⟨k, d, n, hbody⟩
          exact congrArg _ ((State.slotTaken_of_open hs hbody).trans
            (State.updEx_of_some (s := s.sentWith (pre ++ post)) he _))
        · rintro hs ⟨n, hbody⟩
          refine ⟨_, rfl, ?_⟩
          rw [State.slotTaken_of_done hs hbody]
          exact State.retire_ends (s := s.sentWith (pre ++ post)) he (by simp [hs]) _ _
        · intro r res a why hs hout ha hbody
          exact congrArg _ ((State.slotTaken_of_abort hs hbody).trans
            (State.settle_of_pending (s := s.sentWith (pre ++ post)) he hout ha))
        · intro h1 h2 h3
          exact congrArg _ (State.slotTaken_of_other he h1 h2 h3)
      · rintro rfl h
        rw [State.exec_ackSlot_ctrlBusy ho hp ht hsrc hc,
          State.ctrlBusy_of_slot (s := (s.setPhase .idle none).emptyTx) hf hown he, State.slotBusy_of_dropped h, hc.freed]
        rfl
      · rintro rfl habort hopen
        rw [State.exec_ackSlot_ctrlBusy ho hp ht hsrc hc,
          State.ctrlBusy_of_slot (s := (s.setPhase .idle none).emptyTx) hf hown he, State.slotBusy_of_needed habort hopen,
          hc.freed]
        refine ⟨?_, ?_, ?_, ?_⟩
        · intro hcap hlen hcredit
          have hmerge : ¬(c.frame.body.isCredit = true ∧ s.txq.ctrl.any (s.isWaitingCredit i) = true) := by
            rintro ⟨hb, hany⟩
            obtain ⟨l, hl⟩ := c.frame.body.isCredit_iff.mp hb
            obtain ⟨d, hd, hdown, n, hn⟩ := (hc.any_credit i).mp hany
            obtain h | h := hcredit
            · exact h l hl
            · exact h d hd hdown n hn
          rw [if_neg (Nat.not_le.mpr hcap)]
          exact congrArg _ ((if_neg hmerge).trans (hc.requeue hlen _))
        · intro hcap hcredit hany
          rw [if_neg (Nat.not_le.mpr hcap)]
          exact congrArg _ ((if_pos ⟨c.frame.body.isCredit_iff.mpr hcredit, (hc.any_credit i).mpr hany⟩).trans
            (hc.merge i _))
        · intro res why hcap hs hout
          rw [if_pos hcap, if_pos hs]
          exact congrArg _ (State.settle_of_pending (s := s.sentWith (pre ++ post)) he hout (.inr rfl))
        · intro hcap hs
          rw [if_pos hcap, if_neg hs]
          exact ⟨_, rfl, State.endWith_ends (s := s.sentWith (pre ++ post)) he hs .peerCongested⟩
    · rintro b v hsrc hb rfl hg hs rfl rfl
      rw [State.exec_ackSlot_dataTaken ho hf hp ht hsrc]
      refine ⟨?_, ?_⟩
      · intro ms rest hm hside hr hrest
        exact congrArg _ (State.dataTaken_noted (s := (s.setPhase .idle none).emptyTx) hb he hg hs hm hside hr hrest)
      · rintro e1 t1 done rfl rfl rfl
        obtain ⟨u, hu, hdata⟩ := State.dataTaken_settled (s := (s.setPhase .idle none).emptyTx) hb he hg hs
        rw [State.acked_doneBytes] at hu
        refine ⟨u, hu, congrArg _ (hdata.trans ?_)⟩
        cases hex : u.ex v.slot with
        | none => simp only [State.confirmIfDone, hex]
        | some e2 => exact State.confirmIfDone_of_some hex
  · intro t ackt ackb s pre c post ho hf hp ht hsrc hq hin hrest hown ha
    have hc : s.InTxSlot pre c post := ⟨hq, hin, hrest⟩
    cases ackb with
    | true =>
      rw [State.exec_ackSlot_ctrlBusy ho hp ht hsrc hc,
        State.ctrlBusy_of_unowned (s := (s.setPhase .idle none).emptyTx) hown, hc.freed]
      rfl
    | false =>
      obtain rfl : ackt = true := by simpa using ha
      rw [State.exec_ackSlot_ctrlTaken ho hp ht hsrc hc]
      exact congrArg _ (State.ctrlTaken_of_unowned (s := s.sentWith (pre ++ post)) hown)
  · intro t ackt ackb s b v ho hf hp ht hsrc hb h
    cases ackb with
    | true => exact State.exec_ackSlot_dataBusy ho hf hp ht hsrc
    | false =>
      obtain ⟨rfl, hs⟩ : ackt = true ∧ _ := by simpa using h
      rw [State.exec_ackSlot_dataTaken ho hf hp ht hsrc]
      exact congrArg _ (State.dataTaken_of_other (s := (s.setPhase .idle none).emptyTx) hb hs)
  · rintro t s pre c post ho hst hp ht hsrc hq hin hrest hown hprobe
    have hc : s.InTxSlot pre c post := ⟨hq, hin, hrest⟩
    have hnum := State.numberTaken_facts (s.sentWith (pre ++ post))
    have htaken : (s.sentWith (pre ++ post)).ctrlTaken c = (s.sentWith (pre ++ post)).numberTaken := by
      unfold State.ctrlTaken
      rw [hown]
      exact if_pos ⟨c.frame.body.isProbe_iff.mpr hprobe, hst⟩
    refine ⟨_, State.exec_ackSlot_ctrlTaken ho hp ht hsrc hc, ?_⟩
    rw [htaken]
    exact ⟨hnum.station, hnum.faultPin, hnum.probe, congrArg (·.tx) hnum.lpt, congrArg (·.inbox) hnum.lpt,
      congrArg (·.phase) hnum.lpt, congrArg (·.pins) hnum.lpt, hnum.xen, hnum.taken, hnum.ctrl, hnum.report⟩
  · intro t ackt ackb s ho hst hp ht ha
    refine ⟨?_, ?_⟩
    · intro hd
      rw [State.exec_ackSlot_sent ho hp ht]
      exact congrArg _ (State.readSlot_of_faultData (s := s.setPhase .idle none) hst hd
        (.inl (readAnswer_ne_none ha)))
    · intro pre c post hsrc hq hin hrest
      have hc : s.InTxSlot pre c post := ⟨hq, hin, hrest⟩
      refine ⟨?_, ?_⟩
      · intro h
        cases ackb with
        | false =>
          obtain rfl : ackt = true := by simpa using ha
          rw [State.exec_ackSlot_ctrlTaken ho hp ht hsrc hc]
          exact congrArg _ (State.ctrlTaken_of_fault hst)
        | true =>
          rw [State.exec_ackSlot_ctrlBusy ho hp ht hsrc hc,
            State.ctrlBusy_of_fault (s := (s.setPhase .idle none).emptyTx) hst (by simpa using h), hc.freed]
          rfl
      · rintro r rfl hown hbody hcap hlen
        have hwaits : s.rescanWaitsAt s.txq.ctrl.length = s.xen.rescanWaits := by simp [State.rescanWaitsAt, hst]
        rw [State.exec_ackSlot_ctrlBusy ho hp ht hsrc hc, State.ctrlBusy_of_faultAbort hown hbody hcap, hc.requeue hlen,
          hwaits]
        rfl

end Sys2Proof.Machine
end

section
/-!
SUPPORT. What LANE_CLEAR leaves of the whole station (R23, R104, R114, R131 to R133, R147, R170), and where it is no event
(log 9).
-/

namespace Sys2Proof.Machine

namespace State

/-! ### The walk of the event over the slots -/

/-- The event counted and the lane cleared, before the slots (R131, R132). -/
def clearing (s : State) : State := (s.countClear s.lpt.pins.lcl).clearLane

/-- What the event has left when every slot has been cleared and no report has been made (R23, R104, R114, R132). -/
structure ClearedSlots (s a : State) : Prop where
  sct : a.sct = s.sct
  lpt : a.lpt = s.lpt.cleared
  ord : a.ord = (s.countClear s.lpt.pins.lcl).ord
  queue : a.rpt.queue = s.rpt.queue
  stationWaiting : a.rpt.stationWaiting = s.rpt.stationWaiting
  ctrl : a.txq.ctrl = []
  owed : a.txq.owed = []
  line : a.txq.line = s.txq.line.filter fun c => c == .rescan && s.xen.rescanDue
  last : a.txq.lastTx = s.txq.lastTx
  takenBack : a.txq.takenBack = none
  buffers : ∀ b v, a.buffer b = some v → v.state ≠ .sending ∧ v.state ≠ .ready
  cells : ∀ k, a.cell k = match s.cell k with
    | none => none
    | some x => if (s.ex x.slot).any (·.state != .retiring) = true then s.reclaimCell x.slot k (some x) else some x
  deferred : a.xen.deferred = []
  offers : a.xen.offers = s.xen.offers
  postOrder : a.xen.postOrder = s.xen.postOrder
  rescan : a.xen.rescanDue = s.xen.rescanDue ∧ a.xen.rescanWaits = false ∧ a.xen.rescanAt = none
  gens : ∀ i, a.gen i = s.gen i
  free : ∀ i, s.ex i = none → a.ex i = none
  live : ∀ i e, s.ex i = some e → e.state ≠ .retiring →
    ∃ u : State, a.ex i = some (u.ended i e (.failed .laneCleared none) none)
  retiring : ∀ i e, s.ex i = some e → e.state = .retiring → a.ex i = some e.settleAbort
  transfer : a.lmp.transfer = s.lmp.transfer

/-- A lane clear at one slot (R23). -/
theorem clearSlot_ex {s : State} {i : SlotId} {e : Exchange} (he : s.ex i = some e) : (s.clearSlot i).ex i =
    some (if e.state = .retiring then e.settleAbort else s.ended i e (.failed .laneCleared none) none) := by
  unfold clearSlot
  rw [he]
  dsimp only
  split
  · exact settle_ex he
  next hs => exact (endWith_ends he hs .laneCleared).record

theorem clearing_buffer {s : State} {b : BufId} {v : OutBuffer} (h : s.clearing.buffer b = some v) :
    v.state ≠ .sending ∧ v.state ≠ .ready := by
  have hmap : s.clearing.buffer b = OutBuffer.afterClear (s.buffer b) := Vector.getElem_map _ _
  rw [hmap] at h
  have hv := Option.filter_eq_some_iff.mp h
  simpa using hv.2

theorem clearing_line {s : State} : ∀ c ∈ s.clearing.txq.line, c = .rescan := by
  intro c hc
  obtain ⟨-, h⟩ := List.mem_filter.mp hc
  exact beq_iff_eq.mp (Bool.and_eq_true_iff.mp h).1

theorem clearedSlots_of_walk {s a : State} (hk : Keep s.clearing a) (hc : Clears slotIds s.clearing a)
    (hslot : ∀ i, ∃ u : State, u.ex i = s.ex i ∧ a.ex i = (u.clearSlot i).ex i) : ClearedSlots s a where
  sct := hk.sct
  lpt := hk.lpt
  ord := hk.ord
  queue := hk.queue
  stationWaiting := hk.sw
  ctrl := List.eq_nil_iff_forall_not_mem.mpr fun c h => List.not_mem_nil (hk.ctrl c h)
  owed := List.eq_nil_iff_forall_not_mem.mpr fun c h => List.not_mem_nil (hk.owed c h)
  line := hc.line clearing_line
  last := hk.last
  takenBack := hc.back rfl
  buffers := by
    intro b v hv
    by_cases hs : v.state = .sending ∨ v.state = .ready
    · exact clearing_buffer (hk.bufs b v hv hs)
    · exact not_or.mp hs
  cells := by
    intro k
    rw [hc.cells k]
    have hcell : s.clearing.cell k = s.cell k := rfl
    rw [hcell]
    cases s.cell k with
    | none => rfl
    | some x =>
      have hex : s.clearing.ex x.slot = s.ex x.slot := rfl
      have hre : s.clearing.reclaimCell x.slot k (some x) = s.reclaimCell x.slot k (some x) := rfl
      simp only [mem_slotIds, true_and, hex, hre]
  deferred := hk.deferred
  offers := hk.offers
  postOrder := hk.post
  rescan := hk.rd
  gens := hk.gens
  free := by
    intro i hi
    obtain ⟨u, hu, ha⟩ := hslot i
    rw [ha]
    unfold clearSlot
    rw [hu.trans hi]
    exact hu.trans hi
  live := by
    intro i e he hs
    obtain ⟨u, hu, ha⟩ := hslot i
    rw [ha, clearSlot_ex (hu.trans he), if_neg hs]
    exact ⟨u, rfl⟩
  retiring := by
    intro i e he hs
    obtain ⟨u, hu, ha⟩ := hslot i
    rw [ha, clearSlot_ex (hu.trans he), if_pos hs]
  transfer := hk.transfer

theorem clearedSlots_foldl (s : State) : ClearedSlots s (slotIds.foldl clearSlot s.clearing) := by
  obtain ⟨hk, -, hslot⟩ := foldl_keep clearSlot clearSlot_keep clearSlot_ex_of_ne slotIds s.clearing slotIds_nodup
  refine clearedSlots_of_walk hk (clears_foldl slotIds s.clearing slotIds_nodup) fun i => ?_
  obtain ⟨u, -, hu, ha⟩ := hslot i (mem_slotIds i)
  exact ⟨u, hu, ha⟩

/-! ### The report and the new PROBE -/

/-- The state with its report made (R133, R147). -/
def clearNoted (s a : State) : State := { a with
  ord := { a.ord with acks := a.ord.acks.map fun x =>
    if StationWait.serves ⟨s.sct.station, .laneCleared, s.ord.clears + 1⟩ x.await then { x with due := true } else x },
  rpt := { a.rpt with
    line := (a.rpt.line.filter (· != .inboxHead)).filter (· != .rescan),
    queue := s.rpt.queue ++ [.station s.sct.station .laneCleared] } }

/-- The state with its report made and, in PROBING, its new PROBE placed (R133, R147, R170). -/
def clearReported (s a : State) : State :=
  if s.sct.station = .probing then { s.clearNoted a with
    sct := { s.sct with probe := true },
    txq := { a.txq with ctrl :=
      [⟨⟨s.sn, s.sn, true, ⟨0, 0⟩, .probe s.sct.tickCount⟩, .stationControl, 0, false⟩] } }
  else s.clearNoted a

/-- A PROBE placed in an empty control queue by a station that is not ONLINE (R168). -/
theorem placeProbe_of_empty {s : State} (h : s.txq.ctrl = []) (hw : s.xen.rescanWaits = false)
    (hs : s.sct.station = .probing) : s.placeProbe = { s with
      sct := { s.sct with probe := true },
      txq := { s.txq with ctrl :=
        [⟨⟨s.sn, s.sn, true, ⟨0, 0⟩, .probe s.sct.tickCount⟩, .stationControl, 0, false⟩] } } := by
  have hroom : s.txq.ctrl.length < Config.ctrlCap := by simp [h, Config.ctrlCap]
  have hwaits : rescanWaitsAt { s with sct := { s.sct with probe := true } } (s.txq.ctrl.length + 1) = false := by
    simp [rescanWaitsAt, hw, hs]
  have hpush : s.placeProbe = if s.txq.ctrl.length < Config.ctrlCap then _ else _ := rfl
  rw [hpush, if_pos hroom, hwaits, h, ← hw]
  rfl

/-- The report of the event made, and the new PROBE placed, at a station whose slots have been cleared (R147, R170). -/
def reportClear (a : State) : State :=
  let t := (a.unclaimReport .inboxHead).unclaimReport .rescan
  let t := t.stationReport ⟨t.sct.station, .laneCleared, t.ord.clears⟩
  if t.sct.station = .probing then t.placeProbe else t

theorem takeClear_eq_reportClear (s : State) : s.takeClear = (slotIds.foldl clearSlot s.clearing).reportClear := by
  unfold takeClear clearing reportClear
  with_reducible rfl

theorem ClearedSlots.reportClear {s a : State} (hc : ClearedSlots s a) (h : s.reportOpen 1) :
    a.reportClear = s.clearReported a := by
  obtain ⟨hq, hw, -⟩ := h
  have hord : a.ord.clears = s.ord.clears + 1 := by rw [hc.ord]; rfl
  have hreport : ((a.unclaimReport .inboxHead).unclaimReport .rescan).stationReport
      ⟨a.sct.station, .laneCleared, a.ord.clears⟩ = s.clearNoted a := by
    rw [stationReport_of_room (s := (a.unclaimReport .inboxHead).unclaimReport .rescan)
      (by show a.rpt.queue.length < 8; rw [hc.queue]; omega) (hc.stationWaiting.trans hw), hord]
    unfold clearNoted unclaimReport
    rw [← hc.sct, ← hc.queue]
  have hgo : ∀ u, ((a.unclaimReport .inboxHead).unclaimReport .rescan).stationReport
      ⟨a.sct.station, .laneCleared, a.ord.clears⟩ = u →
      a.reportClear = if u.sct.station = .probing then u.placeProbe else u := by
    rintro u rfl
    rfl
  have hstation : (s.clearNoted a).sct.station = s.sct.station := congrArg (·.station) hc.sct
  rw [hgo _ hreport, hstation]
  unfold clearReported
  by_cases hp : s.sct.station = .probing
  · rw [if_pos hp, if_pos hp, placeProbe_of_empty (s := s.clearNoted a) hc.ctrl hc.rescan.2.1 (hstation.trans hp)]
    have hsct : (s.clearNoted a).sct = s.sct := hc.sct
    simp only [sn, hsct]
    rfl
  · rw [if_neg hp, if_neg hp]

theorem takeClear_eq {s : State} (h : s.reportOpen 1) :
    ∃ a, ClearedSlots s a ∧ s.takeClear = s.clearReported a :=
  ⟨_, clearedSlots_foldl s, (takeClear_eq_reportClear s).trans ((clearedSlots_foldl s).reportClear h)⟩

theorem clearReported_shape {s a : State} (hc : ClearedSlots s a) : ∃ sct ctrl, s.clearReported a =
    { s.clearNoted a with sct := sct, txq := { a.txq with ctrl := ctrl } } ∧
    (s.sct.station ≠ .probing → ctrl = [] ∧ sct = s.sct) ∧
    (s.sct.station = .probing →
      ctrl = [⟨⟨s.sn, s.sn, true, ⟨0, 0⟩, .probe s.sct.tickCount⟩, .stationControl, 0, false⟩]) := by
  unfold clearReported
  by_cases hp : s.sct.station = .probing
  · exact ⟨_, _, if_pos hp, fun h => absurd hp h, fun _ => rfl⟩
  · exact ⟨a.sct, a.txq.ctrl, if_neg hp, fun _ => ⟨hc.ctrl, hc.sct⟩, fun h => absurd h hp⟩

/-! ### The cells and the acknowledgements -/

theorem ClearedSlots.cell_none {s a : State} (hc : ClearedSlots s a) {k : CellId} (h : s.cell k = none) :
    a.cell k = none := by
  rw [hc.cells k, h]

theorem ClearedSlots.cell_reclaiming {s a : State} (hc : ClearedSlots s a) {k : CellId} {x : Cell}
    (h : s.cell k = some x) (hx : x.state = .reclaiming) : a.cell k = some x := by
  rw [hc.cells k, h]
  simp [reclaimCell, hx]

theorem ClearedSlots.cell_live {s a : State} (hc : ClearedSlots s a) {k : CellId} {x : Cell} {e : Exchange}
    (h : s.cell k = some x) (he : s.ex x.slot = some e) (hg : x.gen = s.gen x.slot) (hs : e.state ≠ .retiring) :
    a.cell k = match x.state with
      | .reserved => none
      | .filled => if s.inProgress (.drainWrite x.slot x.gen k) then some { x with state := .reclaiming } else none
      | .reclaiming => some x := by
  have hlive : (s.ex x.slot).any (·.state != .retiring) = true := by simp [he, hs]
  rw [hc.cells k, h]
  simp only [hlive, if_true]
  exact if_pos ⟨rfl, hg⟩

theorem inProgress_iff (s : State) (p : Purpose) :
    s.inProgress p = true ↔ ∃ r, s.lmp.transfer = some r ∧ r.purpose = p := by
  unfold inProgress
  cases s.lmp.transfer <;> simp

/-- An entry of the acknowledgement list after the event and its report (R131, R147). -/
def ackAfterClear (s : State) (x : AckEntry) : AckEntry :=
  let y := if s.lpt.pins.lcl then { x with await := x.await.atClear (s.ord.clears + 1) } else x
  if StationWait.serves ⟨s.sct.station, .laneCleared, s.ord.clears + 1⟩ y.await then { y with due := true } else y

theorem ackAfterClear_tag (s : State) (x : AckEntry) :
    (s.ackAfterClear x).tag = x.tag ∧ (s.ackAfterClear x).kind = x.kind := by
  unfold ackAfterClear
  dsimp only
  split <;> split <;> exact ⟨rfl, rfl⟩

theorem ackAfterClear_due {s : State} {x : AckEntry} (hx : x.await = .clearPulse) (hl : s.lpt.pins.lcl = true) :
    (s.ackAfterClear x).due = true := by
  simp [ackAfterClear, hl, hx, Await.atClear, StationWait.serves]

theorem ackAfterClear_stands {s : State} {x : AckEntry} (h : (∃ i g, x.await = .release i g) ∨ x.await = .offlineReport) :
    s.ackAfterClear x = x := by
  have hstill : x.await.atClear (s.ord.clears + 1) = x.await ∧
      StationWait.serves ⟨s.sct.station, .laneCleared, s.ord.clears + 1⟩ x.await = false := by
    obtain ⟨i, g, hx⟩ | hx := h <;> rw [hx] <;> exact ⟨rfl, rfl⟩
  simp [ackAfterClear, hstill.1, hstill.2]

theorem clearNoted_acks {s a : State} (hc : ClearedSlots s a) :
    (s.clearNoted a).ord.acks = s.ord.acks.map s.ackAfterClear := by
  unfold clearNoted
  rw [hc.ord]
  unfold countClear ackAfterClear
  cases s.lpt.pins.lcl with
  | false => rfl
  | true => exact List.map_map

end State

theorem exec_laneClear_of_taken {s : State} (h : s.takesClear = true) : exec .laneClear s = .next s.takeClear := by
  simp only [exec, execLaneClear, h, if_true]

theorem exec_laneClear_of_ignored {s : State} (h : s.takesClear = false) :
    exec .laneClear s = .next (if s.observes then s.ignoreClear else s) := by
  simp only [exec, execLaneClear, h, Bool.false_eq_true, if_false]

/-- Settles O20 (R23, R104, R114, R131 to R133, R147, R170; log 9, log 14, log 28). -/
theorem laneClearClearsStation : Obligations.LaneClearClearsStation := by
  unfold Obligations.LaneClearClearsStation
  refine ⟨?_, ?_⟩
  · intro s htake hopen
    obtain ⟨a, hc, ha⟩ := State.takeClear_eq hopen
    obtain ⟨sct, ctrl, hshape, hrun, hprobe⟩ := State.clearReported_shape hc
    have hexec := exec_laneClear_of_taken htake
    rw [ha, hshape] at hexec
    refine ⟨_, hexec, ?_⟩
    have hacks := State.clearNoted_acks hc
    have hline : a.txq.line = if s.xen.rescanDue then s.txq.line.filter (· == .rescan) else [] := by
      rw [hc.line]
      cases s.xen.rescanDue <;> simp
    refine ⟨congrArg (·.tx) hc.lpt, congrArg (·.spent) hc.lpt, congrArg (·.inbox) hc.lpt, ?_, congrArg (·.phase) hc.lpt,
      congrArg (·.pins) hc.lpt, hc.owed, hline, hc.last, hc.takenBack, hrun, hprobe, hc.buffers, ?_, ?_,
      hc.deferred, hc.offers, hc.postOrder, hc.rescan.1, hc.rescan.2.1, hc.rescan.2.2, ?_,
      congrArg (·.head) hc.ord, congrArg (·.taken) hc.ord, congrArg (·.producer) hc.ord, ?_, ?_, rfl, hc.transfer⟩
    · intro p
      show a.lpt.peers[p.toNat] = _
      rw [hc.lpt]
      exact Vector.getElem_replicate _
    · exact fun k h => hc.cell_none h
    · intro k x hk
      refine ⟨hc.cell_reclaiming hk, fun e he hg hs hx => ⟨fun r hf hr hp => ?_, fun h => ?_⟩⟩
      · refine (hc.cell_live hk he hg hs).trans ?_
        rw [hf]
        exact if_pos ((s.inProgress_iff _).mpr ⟨r, hr, hp⟩)
      · refine (hc.cell_live hk he hg hs).trans ?_
        cases hst : x.state with
        | reserved => rfl
        | reclaiming => exact absurd hst hx
        | filled =>
          refine if_neg fun hin => ?_
          obtain ⟨r, hr, hp⟩ := (s.inProgress_iff _).mp hin
          exact (h.resolve_left (by simp [hst])) r hr hp
    · refine fun i => ⟨hc.gens i, hc.free i, fun e he => ⟨fun hs => ?_, fun hs o ho => ?_⟩⟩
      · obtain ⟨u, hu⟩ := hc.live i e he hs
        exact ⟨_, hu, rfl, rfl, rfl, rfl, rfl, rfl, rfl, rfl⟩
      · rw [← State.settleAbort_of_outcome ho]
        exact hc.retiring i e he hs
    · refine (congrArg List.length hacks).trans ?_
      simp
    · intro n x hx
      refine ⟨s.ackAfterClear x, ?_, (s.ackAfterClear_tag x).1, (s.ackAfterClear_tag x).2,
        State.ackAfterClear_due, State.ackAfterClear_stands⟩
      refine (congrArg (·[n]?) hacks).trans ?_
      simp [hx]
  · intro s htake
    rw [exec_laneClear_of_ignored htake]
    refine ⟨fun ho => by rw [if_neg (by simp [ho])], fun ho => ?_⟩
    · rw [if_pos ho]
      refine ⟨fun h => congrArg _ ?_, fun h => congrArg _ ?_⟩
      · unfold State.ignoreClear
        obtain h | h | ⟨a, w, h⟩ := h <;> rw [h]
      · unfold State.ignoreClear
        obtain h | h | ⟨c, h⟩ := h <;> rw [h]


end Sys2Proof.Machine
end

section
/-!
SUPPORT. The frames taken from the inbox head (R15 to R17, R35 to R41, R59, R91, R98, R99, R101): the lookup, and what each
kind does at its slot, state by state.
-/

namespace Sys2Proof.Machine

namespace State

/-! ### The lookup (R15) -/

theorem isResponderOf_iff (s : State) (src : Station) (tag : Tag) (i : SlotId) : s.isResponderOf src tag i = true ↔
    ∃ e, s.ex i = some e ∧ e.role = .responder ∧ e.peer = src ∧ e.tag = tag := by
  cases he : s.ex i with
  | none => simp [isResponderOf, he]
  | some e => simp [isResponderOf, he, and_assoc]

theorem lookup_of_orig {s : State} {f : Frame} (h : f.fromOrig = true) : s.lookup f = s.findResponder f.src f.tag :=
  if_pos h

theorem lookup_of_resp {s : State} {f : Frame} (h : f.fromOrig = false) : s.lookup f = s.findOriginator f.src f.tag :=
  if_neg (by simp [h])

theorem tag_slot_eq_iff (t : Tag) (i : SlotId) : t.slot = i ↔ i.val = t.idx.toNat := by
  rw [Fin.ext_iff, eq_comm]
  rfl

theorem findOriginator_eq_some_iff (s : State) (src : Station) (tag : Tag) (i : SlotId) :
    s.findOriginator src tag = some i ↔
      tag.slot = i ∧ ∃ e, s.ex i = some e ∧ e.role = .originator ∧ s.gen i = tag.gen ∧ e.peer = src := by
  unfold findOriginator
  cases he : s.ex tag.slot with
  | none =>
    refine ⟨fun h => (by cases h), ?_⟩
    rintro ⟨rfl, e, hx, -⟩
    simp [he] at hx
  | some e =>
    dsimp only
    split
    next h =>
      refine ⟨fun hi => ?_, fun hi => congrArg some hi.1⟩
      obtain rfl := Option.some.inj hi
      exact ⟨rfl, e, he, h⟩
    next h =>
      refine ⟨fun hi => (by cases hi), ?_⟩
      rintro ⟨rfl, x, hx, hall⟩
      obtain rfl := Option.some.inj (he.symm.trans hx)
      exact absurd hall h

/-! ### A frame at its slot -/

/-- CREDIT acts on the record its lookup finds (R91). -/
theorem exec_creditFrame {s : State} {f : Frame} {n : BitVec 24} {i : SlotId} (hf : s.inboxFirst f)
    (hb : f.body = .credit n) (hl : s.lookup f = some i) :
    exec .creditFrame s = .next (s.credited i n.toNat).inboxTaken := by
  have hh := inboxHead_of_first hf
  obtain ⟨d, c, o, t, b⟩ := f
  obtain rfl : b = .credit n := hb
  simp [exec, execCreditFrame, hh, atSlot, hl, popInbox_eq]

/-- HOLD acts on the record its lookup finds (R98). -/
theorem exec_holdFrame {s : State} {f : Frame} {i : SlotId} (hf : s.inboxFirst f) (hb : f.body = .hold)
    (hl : s.lookup f = some i) : exec .holdFrame s = .next (s.held i).inboxTaken := by
  have hh := inboxHead_of_first hf
  obtain ⟨d, c, o, t, b⟩ := f
  obtain rfl : b = .hold := hb
  simp [exec, execHoldFrame, hh, atSlot, hl, popInbox_eq]

/-- DONE acts on the record its lookup finds (R40). -/
theorem exec_doneFrame {s : State} {f : Frame} {n : BitVec 24} {i : SlotId} (hf : s.inboxFirst f)
    (hb : f.body = .done n) (hl : s.lookup f = some i) :
    exec .doneFrame s = .next (s.doneAt i n.toNat).inboxTaken := by
  have hh := inboxHead_of_first hf
  obtain ⟨d, c, o, t, b⟩ := f
  obtain rfl : b = .done n := hb
  simp [exec, execDoneFrame, hh, atSlot, hl, popInbox_eq]

/-- ABORT acts by its lookup (R41, R59). -/
theorem exec_abortFrame {s : State} {f : Frame} {r : Reason} (hf : s.inboxFirst f) (hb : f.body = .abort r) :
    exec .abortFrame s = .next (s.abortFrom f r).inboxTaken := by
  have hh := inboxHead_of_first hf
  obtain ⟨d, c, o, t, b⟩ := f
  obtain rfl : b = .abort r := hb
  simp [exec, execAbortFrame, hh, popInbox_eq]

/-! ### ACCEPT and RECALL (R35, R36, R38) -/

theorem validLimit_iff (n l : Nat) : validLimit n l = true ↔ n ≤ l ∧ (n % 256 = 0 ∨ n = l) := by
  simp [validLimit]

/-- In the opening states a field that passes its check opens the exchange (R35). -/
theorem answered_of_goodField {s : State} {i : SlotId} {e : Exchange} {n : Nat} (he : s.ex i = some e)
    (hs : e.state = .opening ∨ e.state = .backoff ∨ e.state = .parked) (hn : e.fieldOk n = true) {dir : Direction}
    (hd : e.dir = dir) : s.answered i n = s.openExchange i n dir := by
  subst hd
  obtain hs | hs | hs := hs <;> simp [answered, he, hs, hn]

/-- Once the exchange has opened an answer is a restart event of the QUIET timer and nothing else (R12, R39). -/
theorem answered_of_opened {s : State} {i : SlotId} {e : Exchange} {n : Nat} (he : s.ex i = some e)
    (hs : e.state = .sending ∨ e.state = .receiving ∨ e.state = .confirming) :
    s.answered i n = s.setEx i (some (s.quietAgain e)) := by
  rw [← quiet_of_some s i e he]
  obtain hs | hs | hs := hs <;> simp only [answered, he, hs]

/-- In FINISHING and RETIRING an answer is discarded (R16, R39). -/
theorem answered_of_discarded {s : State} {i : SlotId} {e : Exchange} {n : Nat} (he : s.ex i = some e)
    (hs : e.state = .finishing ∨ e.state = .retiring) : s.answered i n = s := by
  obtain hs | hs := hs <;> simp only [answered, he, hs]

/-- A PUSH opens as a sender (R36). -/
theorem openExchange_push {s : State} {i : SlotId} {e : Exchange} {n : Nat} (he : s.ex i = some e) (hd : e.dir = .push) :
    s.openExchange i n .push = (s.openDropped i).setEx i (some (s.quietStarted { e with
      creditReceived := max e.creditReceived n,
      state := if e.length = 0 then .confirming else .sending })) := by
  have hopened : e.opened n = { e with creditReceived := max e.creditReceived n } := by simp only [Exchange.opened, hd]
  unfold openExchange openSender
  rw [withdraw_isOpen_updEx he, hopened]
  dsimp only
  rw [updEx_of_some (ex_setEx_self ..), setEx_setEx]
  rfl

/-- A PULL opens as a receiver of the length answered (R38). -/
theorem openExchange_pull {s : State} {i : SlotId} {e : Exchange} {n : Nat} (he : s.ex i = some e) (hd : e.dir = .pull) :
    s.openExchange i n .pull =
      (((s.openDropped i).setEx i (some { e with length := n })).openReceiver i).firstOfReceiver i := by
  have hopened : e.opened n = { e with length := n } := by simp only [Exchange.opened, hd]
  unfold openExchange
  rw [withdraw_isOpen_updEx he, hopened]

/-- Giving up a slot's OPEN leaves the queue open (R27, R106). -/
theorem openDropped_ctrlOpen {s : State} {i : SlotId} (h : s.ctrlOpen) : (s.openDropped i).ctrlOpen := by
  obtain ⟨hlen, howed, hline⟩ := h
  refine ⟨Nat.lt_of_le_of_lt (List.length_filter_le ..) hlen, howed, ?_⟩
  show s.txq.line.filter _ = []
  rw [hline]
  rfl

/-- A receiver of length 0 opens in FINISHING (R103). -/
theorem openReceiver_of_zero {s : State} {i : SlotId} {e : Exchange} (he : s.ex i = some e) (hz : e.length = 0) :
    s.openReceiver i = s.setEx i (some { e with state := .finishing, timer := ⟨.none, 0, .stopped⟩ }) := by
  unfold openReceiver
  rw [he]
  dsimp only
  rw [if_pos hz, updEx_of_some he]
  rfl

/-- Any other receiver opens in RECEIVING with its initial grant (R10, R89). -/
theorem openReceiver_of_pos {s : State} {i : SlotId} {e : Exchange} (he : s.ex i = some e) (hz : e.length ≠ 0) :
    s.openReceiver i =
      (s.setEx i (some { e with state := .receiving, timer := ⟨.quiet, s.par.quiet, .stopped⟩ })).grant i := by
  unfold openReceiver
  rw [he]
  dsimp only
  rw [if_neg hz, updEx_of_some he]
  rfl

/-- A DONE that becomes due with a free queue is placed (R102, R106). -/
theorem dueDone_of_open {s : State} {i : SlotId} {e : Exchange} (he : s.ex i = some e) (hc : s.ctrlOpen)
    (hq : ∀ y ∈ s.txq.ctrl, y.owner = .slot i (s.gen i) → ∀ m, y.frame.body ≠ .done m) :
    s.dueDone i =
      s.enqueued ⟨e.peer, s.sn, e.role == Role.originator, e.tag, .done (BitVec.ofNat 24 e.length)⟩ (.slot i (s.gen i)) := by
  have hno : s.hasFrame i FrameBody.isDone = false := by
    simp only [hasFrame, hc.2.2, List.any_nil, Bool.or_false, List.any_eq_false]
    intro y hy hof
    simp only [CtrlEntry.isOf, Bool.and_eq_true, beq_iff_eq] at hof
    obtain ⟨m, hm⟩ := y.frame.body.isDone_iff.mp hof.2
    exact hq y hy hof.1 m hm
  unfold dueDone dueOnce
  rw [he]
  dsimp only
  rw [hno, if_neg Bool.false_ne_true, dueFrame_of_open hc]
  rfl

theorem firstOfReceiver_of_finishing {s : State} {i : SlotId} {e : Exchange} (he : s.ex i = some e)
    (hs : e.state = .finishing) : s.firstOfReceiver i = s.dueDone i := by
  simp only [firstOfReceiver, he, hs]

theorem firstOfReceiver_of_receiving {s : State} {i : SlotId} {e : Exchange} (he : s.ex i = some e)
    (hs : e.state = .receiving) : s.firstOfReceiver i = s.dueCredit i := by
  simp only [firstOfReceiver, he, hs]

/-- The record of a receiver that has opened with its initial grant up to a limit (R10, R12, R89). -/
def receiving (s : State) (e : Exchange) (limit : Nat) : Exchange :=
  let e' := { e with state := .receiving, granted := limit }
  if e.granted ≤ e.received ∧ e.received < limit then s.quietStarted e'
  else { e' with timer := ⟨.quiet, s.par.quiet, .stopped⟩ }

theorem receiving_shape (s : State) (e : Exchange) (limit : Nat) : ∃ tm, s.receiving e limit =
    { e with state := .receiving, granted := limit, timer := tm } := by
  unfold receiving
  dsimp only
  split
  · exact ⟨_, rfl⟩
  · exact ⟨_, rfl⟩

/-- Cells, counts of cells and generations do not depend on the records of the slots (R88). -/
theorem cellsGiven_setEx (s : State) (i : SlotId) (x : Option Exchange) (n : Nat) :
    (s.setEx i x).cellsGiven i n = s.cellsGiven i n := by
  unfold cellsGiven outstanding cellIsOf
  rw [gen_setEx]
  rfl

theorem reserves_setEx {s : State} {i : SlotId} {x : Option Exchange} {cells : Vector (Option Cell) 64} {next k : Nat}
    (h : (s.setEx i x).Reserves cells i next k) : s.Reserves cells i next k := by
  intro c
  rw [h c, gen_setEx]
  rfl

/-- A receiver with a length above 0 opens: its initial grant is reserved and its CREDIT placed (R38, R89, R90). -/
theorem openReceiver_firstCredit {s : State} {i : SlotId} {e : Exchange} {k limit : Nat} (he : s.ex i = some e)
    (hz : e.length ≠ 0) (hk : k = s.cellsGiven i ((e.length + 255) / 256 - (e.granted + 255) / 256))
    (hlim : limit = min (e.granted + 256 * k) e.length) (hc : s.ctrlOpen)
    (hn : ∀ y ∈ s.txq.ctrl, y.owner = .slot i (s.gen i) → ∀ l, y.inSlot = false → y.frame.body ≠ .credit l) :
    ∃ cells, s.Reserves cells i ((e.granted + 255) / 256) k ∧ (s.openReceiver i).firstOfReceiver i =
      (({ s with stg := { s.stg with cells := cells } }).setEx i (some (s.receiving e limit))).enqueued
        ⟨e.peer, s.sn, e.role == Role.originator, e.tag, .credit (BitVec.ofNat 24 limit)⟩ (.slot i (s.gen i)) := by
  obtain ⟨cells, hres, hgrant⟩ := grant_of_some
    (s := s.setEx i (some { e with state := .receiving, timer := ⟨.quiet, s.par.quiet, .stopped⟩ }))
    (ex_setEx_self ..) (hk.trans (cellsGiven_setEx ..).symm) hlim
  refine ⟨cells, reserves_setEx hres, ?_⟩
  have hopened : s.openReceiver i =
      ({ s with stg := { s.stg with cells := cells } }).setEx i (some (s.receiving e limit)) := by
    rw [openReceiver_of_pos he hz, hgrant, setEx_setEx]
    unfold receiving
    rfl
  obtain ⟨tm, htm⟩ := s.receiving_shape e limit
  rw [hopened, htm, firstOfReceiver_of_receiving (ex_setEx_self ..) rfl, dueCredit_of_open (ex_setEx_self ..) (by exact hc)]
  · rw [gen_setEx]
    rfl
  · intro y hy hin hown
    rw [gen_setEx] at hown
    exact fun l => hn y hy hown l hin

end State

/-! ### The statements on the lookup and the answers -/

/-- Settles O22. -/
theorem lookupFindsTheExchange : Obligations.LookupFindsTheExchange := by
  intro s f
  refine ⟨fun ho => ⟨fun i hi => ?_, fun hn i e he h => ?_⟩, fun ho i => ?_⟩
  · rw [State.lookup_of_orig ho] at hi
    exact (s.isResponderOf_iff ..).mp (List.find?_some hi)
  · rw [State.lookup_of_orig ho] at hn
    exact List.find?_eq_none.mp hn i (State.mem_slotIds i) ((s.isResponderOf_iff ..).mpr ⟨e, he, h⟩)
  · rw [State.lookup_of_resp ho, State.findOriginator_eq_some_iff, State.tag_slot_eq_iff]
    constructor
    · rintro ⟨hi, e, he, hr, hg, hp⟩
      exact ⟨hi, hg, e, he, hr, hp⟩
    · rintro ⟨hi, hg, e, he, hr, hp⟩
      exact ⟨hi, e, he, hr, hg, hp⟩

/-- Settles O23. -/
theorem answerOpensPush : Obligations.AnswerOpensPush := by
  intro c s f n i e hc hf hl he hs hd hle hmod
  have hok : e.fieldOk n.toNat = true := by
    unfold Exchange.fieldOk
    rw [hd]
    exact (State.validLimit_iff ..).mpr ⟨hle, hmod⟩
  rw [State.exec_answer hc hf hl, State.answered_of_goodField he hs hok hd, State.openExchange_push he hd]

/-- Settles O24: a length of 0 goes to FINISHING with its DONE(0), any other to RECEIVING with the initial grant. -/
theorem answerOpensPull : Obligations.AnswerOpensPull := by
  intro c s f n i e hc hf hl he hs hd hle hopen hown
  have hok : e.fieldOk n.toNat = true := by
    unfold Exchange.fieldOk
    rw [hd]
    exact decide_eq_true hle
  have hexec : exec c s = .next (State.inboxTaken
      ((((s.openDropped i).setEx i (some { e with length := n.toNat })).openReceiver i).firstOfReceiver i)) := by
    rw [State.exec_answer hc hf hl, State.answered_of_goodField he hs hok hd, State.openExchange_pull he hd]
  have hopen' : (s.openDropped i).ctrlOpen := State.openDropped_ctrlOpen hopen
  rw [hexec]
  have hmem : ∀ y ∈ (s.openDropped i).txq.ctrl, y ∈ s.txq.ctrl := fun y hy => (List.mem_filter.mp hy).1
  refine ⟨fun hn => ?_, fun hn k limit hk hlim => ?_⟩
  · rw [State.openReceiver_of_zero (State.ex_setEx_self ..) hn, State.setEx_setEx,
      State.firstOfReceiver_of_finishing (State.ex_setEx_self ..) rfl,
      State.dueDone_of_open (State.ex_setEx_self ..) (by exact hopen'), State.gen_setEx, hn]
    · rfl
    · intro y hy ho
      rw [State.gen_setEx] at ho
      exact (hown y (hmem y hy) ho).1
  · obtain ⟨cells, hres, hfirst⟩ := State.openReceiver_firstCredit
      (s := (s.openDropped i).setEx i (some { e with length := n.toNat })) (State.ex_setEx_self ..)
      (Nat.ne_of_gt hn) (hk.trans (State.cellsGiven_setEx (s.openDropped i) ..).symm) hlim hopen'
      (fun y hy ho l hin => by
        rw [State.gen_setEx] at ho
        exact (hown y (hmem y hy) ho).2 l hin)
    refine ⟨cells, State.reserves_setEx (s := s.openDropped i) hres, ?_⟩
    rw [hfirst, State.gen_setEx]
    have hset : ∀ x, ({ (s.openDropped i).setEx i (some { e with length := n.toNat }) with
        stg := { (s.openDropped i).stg with cells := cells } } : State).setEx i x =
        ({ s.openDropped i with stg := { s.stg with cells := cells } } : State).setEx i x := fun x =>
      State.setEx_setEx { s.openDropped i with stg := { s.stg with cells := cells } } i _ x
    exact congrArg (fun u : State => Host.Outcome.next (State.inboxTaken (u.enqueued _ _))) (hset _)

/-- Settles O26. -/
theorem lateAnswerOnlyRestartsQuiet : Obligations.LateAnswerOnlyRestartsQuiet := by
  intro c s f n i e hc hf hl he
  rw [State.exec_answer hc hf hl]
  exact ⟨fun hs => by rw [State.answered_of_opened he hs], fun hs => by rw [State.answered_of_discarded he hs]⟩

end Sys2Proof.Machine
end

section
/-!
SUPPORT. CREDIT, HOLD, DONE and ABORT at their slots (R37, R40, R41, R59, R91, R98, R99, R101), and the frames that find no
slot (R15, R17).
-/

namespace Sys2Proof.Machine

namespace State

/-! ### CREDIT -/

theorem side_eq_sender_iff (e : Exchange) : e.side = .sender ↔
    e.role = .originator ∧ e.dir = .push ∨ e.role = .responder ∧ e.dir = .pull := by
  unfold Exchange.side
  cases e.role <;> cases e.dir <;> simp

/-- An invalid limit changes nothing at a sender (R91). -/
theorem credited_of_invalid {s : State} {i : SlotId} {e : Exchange} {n : Nat} (he : s.ex i = some e)
    (hside : e.side = .sender) (hn : validLimit n e.length = false) : s.credited i n = s := by
  simp only [credited, he, hside, hn, Bool.false_eq_true, if_false]

/-- Before the exchange opens a valid limit raises the credit limit received (R37). -/
theorem credited_of_opening {s : State} {i : SlotId} {e : Exchange} {n : Nat} (he : s.ex i = some e)
    (hside : e.side = .sender) (hn : validLimit n e.length = true)
    (hs : e.state = .opening ∨ e.state = .backoff ∨ e.state = .parked) :
    s.credited i n = s.setEx i (some { e with creditReceived := max e.creditReceived n }) := by
  have hraise : s.credited i n = s.updEx i fun e => { e with creditReceived := max e.creditReceived n } := by
    obtain hs | hs | hs := hs <;> simp only [credited, he, hside, hn, if_true, hs]
  rw [hraise, updEx_of_some he]

/-- In SENDING it also clears peer hold and restarts the QUIET timer (R91, R99). -/
theorem credited_of_sending {s : State} {i : SlotId} {e : Exchange} {n : Nat} (he : s.ex i = some e)
    (hside : e.side = .sender) (hn : validLimit n e.length = true) (hs : e.state = .sending) :
    s.credited i n =
      s.setEx i (some (s.quietAgain { e with creditReceived := max e.creditReceived n, peerHold := false })) := by
  have hraise : s.credited i n =
      s.updEx i fun e => { e with creditReceived := max e.creditReceived n }.unhold s.par := by
    simp only [credited, he, hside, hn, if_true, hs]
  rw [hraise, updEx_of_some he, Exchange.unhold, restartQuiet_eq]

theorem credited_of_confirming {s : State} {i : SlotId} {e : Exchange} {n : Nat} (he : s.ex i = some e)
    (hside : e.side = .sender) (hn : validLimit n e.length = true) (hs : e.state = .confirming) :
    s.credited i n = s.setEx i (some (s.quietAgain { e with peerHold := false })) := by
  have hraise : s.credited i n = s.updEx i (Exchange.unhold s.par) := by
    simp only [credited, he, hside, hn, if_true, hs]
  rw [hraise, updEx_of_some he, Exchange.unhold, restartQuiet_eq]

theorem credited_of_retiring {s : State} {i : SlotId} {e : Exchange} {n : Nat} (he : s.ex i = some e)
    (hside : e.side = .sender) (hn : validLimit n e.length = true) (hs : e.state = .retiring) : s.credited i n = s := by
  simp only [credited, he, hside, hn, if_true, hs]

/-! ### HOLD -/

/-- While bytes move HOLD sets peer hold, and a QUIET timer that runs restarts with its longer time (R10, R98). -/
theorem held_of_moving {s : State} {i : SlotId} {e : Exchange} (he : s.ex i = some e)
    (hs : e.state = .sending ∨ e.state = .receiving) :
    s.held i = s.setEx i (some (
      if e.quietRuns then { e with peerHold := true, timer := ⟨.quiet, s.par.park * 10, .running⟩ }
      else { e with peerHold := true })) := by
  have hhold : s.held i = s.updEx i fun e => { e with peerHold := true }.restartQuiet s.par := by
    obtain hs | hs := hs <;> simp only [held, he, hs]
  have hagain : s.quietAgain { e with peerHold := true } =
      if e.quietRuns then { e with peerHold := true, timer := ⟨.quiet, s.par.park * 10, .running⟩ }
      else { e with peerHold := true } := rfl
  rw [hhold, updEx_of_some he, restartQuiet_eq, hagain]

theorem held_of_finishing {s : State} {i : SlotId} {e : Exchange} (he : s.ex i = some e) (hs : e.state = .finishing) :
    s.held i = s.setEx i (some { e with peerHold := true }) := by
  have hhold : s.held i = s.updEx i fun e => { e with peerHold := true } := by simp only [held, he, hs]
  rw [hhold, updEx_of_some he]

theorem held_of_confirming {s : State} {i : SlotId} {e : Exchange} (he : s.ex i = some e) (hs : e.state = .confirming) :
    s.held i = s.setEx i (some (s.quietAgain e)) := by
  rw [← quiet_of_some s i e he]
  simp only [held, he, hs]

theorem held_of_discarded {s : State} {i : SlotId} {e : Exchange} (he : s.ex i = some e)
    (hs : e.state = .opening ∨ e.state = .backoff ∨ e.state = .parked ∨ e.state = .retiring) : s.held i = s := by
  obtain hs | hs | hs | hs := hs <;> simp only [held, he, hs]

/-! ### DONE -/

/-- The length confirmed completes a sender (R101). -/
theorem doneAt_of_confirmed {s : State} {i : SlotId} {e : Exchange} {n : Nat} (he : s.ex i = some e)
    (hs : e.state = .confirming ∨ e.state = .sending ∧ e.prepared = e.length) (hn : n = e.length) :
    s.doneAt i n = s.retire i .completed none := by
  obtain hs | ⟨hs, hp⟩ := hs
  · simp only [doneAt, he, hs, hn, if_true]
  · simp only [doneAt, he, hs, hp, hn, and_self, if_true]

/-- A wrong count ends the exchange with PROTOCOL (R101). -/
theorem doneAt_of_wrong {s : State} {i : SlotId} {e : Exchange} {n : Nat} (he : s.ex i = some e)
    (h : e.state = .confirming ∧ n ≠ e.length ∨ e.state = .sending ∧ ¬(e.prepared = e.length ∧ n = e.length)) :
    s.doneAt i n = s.abortWith i .protocol := by
  obtain ⟨hs, hn⟩ | ⟨hs, hn⟩ := h <;> simp only [doneAt, he, hs, if_neg hn]

/-- A PUSH of length 0 is completed by its DONE(0) before its answer comes (R40). -/
theorem doneAt_of_opening {s : State} {i : SlotId} {e : Exchange} {n : Nat} (he : s.ex i = some e)
    (hs : e.state = .opening ∨ e.state = .backoff ∨ e.state = .parked) :
    s.doneAt i n = if e.dir = .push ∧ e.length = 0 ∧ n = 0 then s.retire i .completed none else s := by
  obtain hs | hs | hs := hs <;> simp only [doneAt, he, hs]

theorem doneAt_of_receiving {s : State} {i : SlotId} {e : Exchange} {n : Nat} (he : s.ex i = some e)
    (hs : e.state = .receiving) : s.doneAt i n = s.setEx i (some (s.quietAgain e)) := by
  rw [← quiet_of_some s i e he]
  simp only [doneAt, he, hs]

theorem doneAt_of_discarded {s : State} {i : SlotId} {e : Exchange} {n : Nat} (he : s.ex i = some e)
    (hs : e.state = .finishing ∨ e.state = .retiring) : s.doneAt i n = s := by
  obtain hs | hs := hs <;> simp only [doneAt, he, hs]

/-! ### ABORT -/

theorem abortFrom_of_slot {s : State} {f : Frame} {i : SlotId} (hl : s.lookup f = some i) (r : Reason) :
    s.abortFrom f r = s.abortedAt i r := by
  simp only [abortFrom, hl]

theorem abortFrom_of_unknown {s : State} {f : Frame} (hl : s.lookup f = none) (r : Reason) :
    s.abortFrom f r =
      if f.fromOrig then (s.dropDeferred (Deferred.isOf f.src f.tag)).unclaimCtrl (.pendingAbort f.src f.tag) else s := by
  simp only [abortFrom, hl]

/-- The peer's ABORT ends a live exchange, and no ABORT is owed (R18, R41). -/
theorem abortedAt_ends {s : State} {i : SlotId} {e : Exchange} (he : s.ex i = some e) (hs : e.state ≠ .retiring)
    (r : Reason) : s.Ends (s.abortedAt i r) i e
      (if r = .unknown then .failed .unknownAtPeer none else .failed .peerAbort (some r)) none := by
  unfold abortedAt
  split
  · exact endWith_ends he hs .unknownAtPeer
  · exact retire_ends he hs _ none

theorem retire_of_retiring {s : State} {i : SlotId} {e : Exchange} (he : s.ex i = some e) (hs : e.state = .retiring)
    (r : Result) (owes : Option Reason) : s.retire i r owes = s := by
  simp only [retire, he, hs]

/-- Entry to RETIRING is made once (R18). -/
theorem abortedAt_of_retiring {s : State} {i : SlotId} {e : Exchange} (he : s.ex i = some e) (hs : e.state = .retiring)
    (r : Reason) : s.abortedAt i r = s := by
  unfold abortedAt endWith
  split <;> exact retire_of_retiring he hs _ _

/-- A walk of the Pending List keeps its place beside an entry that leaves, where no rescan stands at one (R58, R59). -/
theorem dropDeferred_of_noRescan {s : State} (h : s.xen.rescanAt = none) (p : Deferred → Bool) :
    s.dropDeferred p = { s with xen := { s.xen with deferred := s.xen.deferred.filter (!p ·) } } := by
  simp [dropDeferred, h]

/-! ### The frames that find no slot -/

/-- An unknown ACCEPT, RECALL, DEFER or CREDIT draws a reply (R15, R17). -/
theorem exec_unknown_answered {s : State} {f : Frame} {c : Instr} (hf : s.inboxFirst f) (hl : s.lookup f = none)
    (hc : (∃ n, c = .acceptFrame ∧ f.body = .accept n) ∨ (∃ n, c = .recallFrame ∧ f.body = .recall n) ∨
      c = .deferHeld ∧ f.body = .defer .held ∨ c = .deferFull ∧ f.body = .defer .full ∨
      (∃ n, c = .creditFrame ∧ f.body = .credit n)) : exec c s = .next (s.replyUnknown f).inboxTaken := by
  have hh := inboxHead_of_first hf
  obtain ⟨d, sr, o, t, b⟩ := f
  obtain ⟨n, rfl, hb⟩ | ⟨n, rfl, hb⟩ | ⟨rfl, hb⟩ | ⟨rfl, hb⟩ | ⟨n, rfl, hb⟩ := hc
  all_goals obtain rfl := hb
  · simp [exec, execAcceptFrame, hh, atSlot, hl, popInbox_eq]
  · simp [exec, execRecallFrame, hh, atSlot, hl, popInbox_eq]
  · simp [exec, execDeferHeld, hh, atSlot, hl, popInbox_eq]
  · simp [exec, execDeferFull, hh, atSlot, hl, popInbox_eq]
  · simp [exec, execCreditFrame, hh, atSlot, hl, popInbox_eq]

/-- An unknown HOLD or DONE draws none (R17). -/
theorem exec_unknown_silent {s : State} {f : Frame} {c : Instr} (hf : s.inboxFirst f) (hl : s.lookup f = none)
    (hc : c = .holdFrame ∧ f.body = .hold ∨ ∃ n, c = .doneFrame ∧ f.body = .done n) :
    exec c s = .next s.inboxTaken := by
  have hh := inboxHead_of_first hf
  obtain ⟨d, sr, o, t, b⟩ := f
  obtain ⟨rfl, hb⟩ | ⟨n, rfl, hb⟩ := hc
  all_goals obtain rfl := hb
  · simp [exec, execHoldFrame, hh, atSlot, hl, popInbox_eq]
  · simp [exec, execDoneFrame, hh, atSlot, hl, popInbox_eq]

end State

/-! ### The statements -/

/-- Settles O29. -/
theorem creditActsByState : Obligations.CreditActsByState := by
  intro s f n i e hf hb hl he hside
  have hsender : e.side = .sender := (State.side_eq_sender_iff e).mpr hside
  rw [State.exec_creditFrame hf hb hl]
  refine ⟨fun hbad => ?_, fun hle hmod => ?_⟩
  · have hv : validLimit n.toNat e.length = false := by
      rw [← Bool.not_eq_true, State.validLimit_iff]
      exact hbad
    rw [State.credited_of_invalid he hsender hv]
  · have hv : validLimit n.toNat e.length = true := (State.validLimit_iff ..).mpr ⟨hle, hmod⟩
    exact ⟨fun hs => by rw [State.credited_of_opening he hsender hv hs],
      fun hs => by rw [State.credited_of_sending he hsender hv hs],
      fun hs => by rw [State.credited_of_confirming he hsender hv hs],
      fun hs => by rw [State.credited_of_retiring he hsender hv hs]⟩

/-- Settles O30. -/
theorem holdActsByState : Obligations.HoldActsByState := by
  intro s f i e hf hb hl he
  rw [State.exec_holdFrame hf hb hl]
  exact ⟨fun hs => by rw [State.held_of_moving he hs], fun hs => by rw [State.held_of_finishing he hs],
    fun hs => by rw [State.held_of_confirming he hs], fun hs => by rw [State.held_of_discarded he hs]⟩

/-- Settles O31. -/
theorem doneActsByState : Obligations.DoneActsByState := by
  intro s f n i e hf hb hl he
  rw [State.exec_doneFrame hf hb hl]
  refine ⟨fun hs hn => ?_, fun h => ?_, fun hs => ⟨fun hz => ?_, fun hz => ?_⟩, fun hs => ?_, fun hs => ?_⟩
  · have hlive : e.state ≠ .retiring := by obtain hs | ⟨hs, -⟩ := hs <;> simp [hs]
    exact ⟨_, State.retire_ends he hlive .completed none, by rw [State.doneAt_of_confirmed he hs hn]⟩
  · have hlive : e.state ≠ .retiring := by obtain ⟨hs, -⟩ | ⟨hs, -⟩ := h <;> simp [hs]
    exact ⟨_, State.abortWith_ends he hlive .protocol, by rw [State.doneAt_of_wrong he h]⟩
  · have hlive : e.state ≠ .retiring := by obtain hs | hs | hs := hs <;> simp [hs]
    exact ⟨_, State.retire_ends he hlive .completed none, by rw [State.doneAt_of_opening he hs, if_pos hz]⟩
  · rw [State.doneAt_of_opening he hs, if_neg hz]
  · rw [State.doneAt_of_receiving he hs]
  · rw [State.doneAt_of_discarded he hs]

/-- Settles O32. -/
theorem abortEndsExchange : Obligations.AbortEndsExchange := by
  intro s f r hf hb
  rw [State.exec_abortFrame hf hb]
  refine ⟨fun i e hl he hs => ?_, fun i e hl he hs => ?_, fun hl ho hr => ?_, fun hl ho => ?_⟩
  · exact ⟨_, State.abortedAt_ends he hs r, by rw [State.abortFrom_of_slot hl]⟩
  · rw [State.abortFrom_of_slot hl, State.abortedAt_of_retiring he hs]
  · rw [State.abortFrom_of_unknown hl, if_pos ho, State.dropDeferred_of_noRescan hr]
    rfl
  · rw [State.abortFrom_of_unknown hl, if_neg (by simp [ho])]

/-- Settles O33. -/
theorem unknownFrameReply : Obligations.UnknownFrameReply := by
  intro s f c hf hl
  refine ⟨fun hc => ⟨fun hroom => ?_, fun hfull => ?_⟩, fun hc => State.exec_unknown_silent hf hl hc⟩
  · rw [State.exec_unknown_answered hf hl hc, State.replyUnknown_of_room hroom]
  · rw [State.exec_unknown_answered hf hl hc, State.replyUnknown_of_full hfull]

end Sys2Proof.Machine
end

section
/-!
SUPPORT. An OPEN at the inbox head (R50 to R56): the plan each case of the lookup, the Pending List and the Offer List gives,
and what handling it does.
-/

namespace Sys2Proof.Machine

/-! ### Matching (R50, R51) -/

/-- An offer is OPEN and fits a request by type, peer and masked key (R50). -/
def Offer.Fits (v : Offer) (p : Station) (dir : Direction) (key : Word) : Prop :=
  v.state = .openState ∧ (v.type = .receive ∧ dir = .push ∨ v.type = .give ∧ dir = .pull) ∧
    (v.peer = none ∨ v.peer = some p) ∧ key &&& v.mask = v.key &&& v.mask

theorem Offer.fits_iff (v : Offer) (p : Station) (dir : Direction) (key : Word) :
    v.fits p dir key = true ↔ v.Fits p dir key := by
  have htype : (match v.type, dir with
      | .receive, .push => true
      | .give, .pull => true
      | .receive, .pull => false
      | .give, .push => false) = true ↔ (v.type = .receive ∧ dir = .push ∨ v.type = .give ∧ dir = .pull) := by
    cases v.type <;> cases dir <;> simp
  have hpeer : (match v.peer with
      | none => true
      | some q => q == p) = true ↔ (v.peer = none ∨ v.peer = some p) := by
    cases v.peer <;> simp
  simp only [Offer.fits, Offer.Fits, Bool.and_eq_true, beq_iff_eq, and_assoc]
  exact and_congr Iff.rfl (and_congr htype (and_congr hpeer Iff.rfl))

theorem Offer.holds_iff (v : Offer) (dir : Direction) (size : Nat) :
    v.holds dir size = true ↔ (dir = .push → size ≤ v.size) ∧ (dir = .pull → v.size ≤ size) := by
  cases dir <;> simp [Offer.holds]

namespace State

theorem offerFits_iff (s : State) (p : Station) (dir : Direction) (key : Word) (o : OfferId) :
    s.offerFits p dir key o = true ↔ ∃ v, s.offer o = some v ∧ v.Fits p dir key := by
  cases hv : s.offer o with
  | none => simp [offerFits, hv]
  | some v => simp [offerFits, hv, v.fits_iff]

/-! ### The plan -/

theorem openPlan_of_retiring {s : State} {f : Frame} {i : SlotId} {e : Exchange}
    (hr : s.findResponder f.src f.tag = some i) (he : s.ex i = some e) (hs : e.state = .retiring) (key : Word)
    (dir : Direction) (size : Nat) : s.openPlan f key dir size = .discard := by
  simp only [openPlan, hr, he, hs, if_true]

/-- The answer of a slot is an ACCEPT or a RECALL that has not left the control queue (R56). -/
theorem any_isAnswer_iff (s : State) (i : SlotId) :
    s.txq.ctrl.any (CtrlEntry.isOf i (s.gen i) FrameBody.isAnswer) = true ↔
      ∃ y ∈ s.txq.ctrl, y.owner = .slot i (s.gen i) ∧ ∃ n, y.frame.body = .accept n ∨ y.frame.body = .recall n := by
  have hbody : ∀ b : FrameBody, b.isAnswer = true ↔ ∃ n, b = .accept n ∨ b = .recall n := by
    intro b
    cases b <;> simp [FrameBody.isAnswer]
  simp [CtrlEntry.isOf, hbody]

theorem openPlan_of_copy {s : State} {f : Frame} {i : SlotId} {e : Exchange}
    (hr : s.findResponder f.src f.tag = some i) (he : s.ex i = some e) (hs : e.state ≠ .retiring) (key : Word)
    (dir : Direction) (size : Nat) : s.openPlan f key dir size =
      if s.txq.ctrl.any (CtrlEntry.isOf i (s.gen i) FrameBody.isAnswer) then .copySilent i else .copy i := by
  simp only [openPlan, hr, he, hs, if_false]

theorem openPlan_of_detaching {s : State} {f : Frame} (hr : s.findResponder f.src f.tag = none)
    (hs : s.sct.station = .detaching) (key : Word) (dir : Direction) (size : Nat) :
    s.openPlan f key dir size = .detaching := by
  simp only [openPlan, hr, hs, if_true]

theorem openPlan_of_online {s : State} {f : Frame} (hr : s.findResponder f.src f.tag = none)
    (hs : s.sct.station = .online) (key : Word) (dir : Direction) (size : Nat) :
    s.openPlan f key dir size = s.matcherPlan f.src f.tag dir key size := by
  simp only [openPlan, hr, hs, reduceCtorEq, if_false]

theorem sameSlot_iff (p : Station) (t : Tag) (d : Deferred) : d.sameSlot p t = true ↔ d.peer = p ∧ d.tag.idx = t.idx := by
  simp [Deferred.sameSlot]

/-- No entry of the Pending List stands for the originator's slot: the request is fresh (R53). -/
theorem matcherPlan_of_fresh {s : State} {p : Station} {t : Tag}
    (h : ∀ d ∈ s.xen.deferred, ¬(d.peer = p ∧ d.tag.idx = t.idx)) (dir : Direction) (key : Word) (size : Nat) :
    s.matcherPlan p t dir key size = s.freshPlan p dir key size none := by
  have hfind : s.xen.deferred.findIdx? (Deferred.sameSlot p t) = none :=
    List.findIdx?_eq_none_iff.mpr fun d hd => by
      rw [Bool.eq_false_iff]
      exact fun hs => h d hd ((sameSlot_iff p t d).mp hs)
  simp only [matcherPlan, hfind]

/-- The first entry that stands for the originator's slot (R53). -/
theorem findIdx_sameSlot {s : State} {p : Station} {t : Tag} {pre post : List Deferred} {d : Deferred}
    (hsplit : s.xen.deferred = pre ++ d :: post) (hd : d.peer = p ∧ d.tag.idx = t.idx)
    (hpre : ∀ x ∈ pre, ¬(x.peer = p ∧ x.tag.idx = t.idx)) :
    s.xen.deferred.findIdx? (Deferred.sameSlot p t) = some pre.length := by
  have hnone : pre.findIdx? (Deferred.sameSlot p t) = none :=
    List.findIdx?_eq_none_iff.mpr fun x hx => by
      rw [Bool.eq_false_iff]
      exact fun hs => hpre x hx ((sameSlot_iff p t x).mp hs)
  have hsame : d.sameSlot p t = true := (sameSlot_iff p t d).mpr hd
  rw [hsplit, List.findIdx?_append, hnone, List.findIdx?_cons, if_pos hsame]
  simp

theorem exists_first_sameSlot {s : State} {p : Station} {t : Tag} {d : Deferred} (hd : d ∈ s.xen.deferred)
    (hsame : d.peer = p ∧ d.tag.idx = t.idx) : ∃ pre x post, s.xen.deferred = pre ++ x :: post ∧
      (x.peer = p ∧ x.tag.idx = t.idx) ∧ ∀ y ∈ pre, ¬(y.peer = p ∧ y.tag.idx = t.idx) := by
  obtain ⟨x, hx⟩ : ∃ x, s.xen.deferred.find? (Deferred.sameSlot p t) = some x :=
    Option.isSome_iff_exists.mp (List.find?_isSome.mpr ⟨d, hd, (sameSlot_iff p t d).mpr hsame⟩)
  obtain ⟨hxsame, pre, post, hsplit, hpre⟩ := List.find?_eq_some_iff_append.mp hx
  refine ⟨pre, x, post, hsplit, (sameSlot_iff p t x).mp hxsame, fun y hy h => ?_⟩
  have hno := hpre y hy
  rw [(sameSlot_iff p t y).mpr h] at hno
  cases hno

theorem matcherPlan_of_split {s : State} {p : Station} {t : Tag} {pre post : List Deferred} {d : Deferred}
    (hsplit : s.xen.deferred = pre ++ d :: post) (hd : d.peer = p ∧ d.tag.idx = t.idx)
    (hpre : ∀ x ∈ pre, ¬(x.peer = p ∧ x.tag.idx = t.idx)) (dir : Direction) (key : Word) (size : Nat) :
    s.matcherPlan p t dir key size =
      if d.tag.gen = t.gen then .held else s.freshPlan p dir key size (some pre.length) := by
  have hget : s.xen.deferred[pre.length]? = some d := by rw [hsplit]; simp
  simp only [matcherPlan, findIdx_sameSlot hsplit hd hpre, hget, Option.map_some, Option.some.injEq]

/-- No offer takes the request now: none fits, or the one that fits finds no FREE slot (R54, R55). -/
def NotTaken (s : State) (p : Station) (dir : Direction) (key : Word) (size : Nat) : Prop :=
  s.matchOffer p dir key = none ∨ s.freeSlot = none ∧ ∃ o v, s.matchOffer p dir key = some o ∧
    s.offer o = some v ∧ (dir = .push → size ≤ v.size) ∧ (dir = .pull → v.size ≤ size)

theorem freshPlan_of_notTaken {s : State} {p : Station} {dir : Direction} {key : Word} {size : Nat}
    (h : s.NotTaken p dir key size) (rank : Option Nat) : s.freshPlan p dir key size rank =
      if rank.isSome || decide (s.xen.deferred.length < 8) then .store rank else .full := by
  obtain hm | ⟨hfree, o, v, hm, hv, hold⟩ := h
  · simp only [freshPlan, hm]
  · have hholds : s.offerHolds o dir size = true := by
      simp only [offerHolds, hv]
      exact (v.holds_iff dir size).mpr hold
    simp only [freshPlan, hm, hholds, if_true, hfree]

theorem freshPlan_of_bind {s : State} {p : Station} {dir : Direction} {key : Word} {size : Nat} {o : OfferId} {v : Offer}
    {i : SlotId} (hm : s.matchOffer p dir key = some o) (hv : s.offer o = some v)
    (hold : (dir = .push → size ≤ v.size) ∧ (dir = .pull → v.size ≤ size)) (hfree : s.freeSlot = some i)
    (rank : Option Nat) : s.freshPlan p dir key size rank = .bind i o := by
  have hholds : s.offerHolds o dir size = true := by
    simp only [offerHolds, hv]
    exact (v.holds_iff dir size).mpr hold
  simp only [freshPlan, hm, hholds, if_true, hfree]

theorem freshPlan_of_tooLong {s : State} {p : Station} {dir : Direction} {key : Word} {size : Nat} {o : OfferId}
    {v : Offer} (hm : s.matchOffer p dir key = some o) (hv : s.offer o = some v)
    (hlong : dir = .push ∧ v.size < size ∨ dir = .pull ∧ size < v.size) (rank : Option Nat) :
    s.freshPlan p dir key size rank = .tooLong o := by
  have hholds : s.offerHolds o dir size = false := by
    simp only [offerHolds, hv]
    rw [← Bool.not_eq_true, v.holds_iff]
    rintro ⟨hpush, hpull⟩
    obtain ⟨hd, hlt⟩ | ⟨hd, hlt⟩ := hlong
    · exact absurd (hpush hd) (Nat.not_le.mpr hlt)
    · exact absurd (hpull hd) (Nat.not_le.mpr hlt)
  simp only [freshPlan, hm, hholds, Bool.false_eq_true, if_false]

/-! ### The handling of a plan -/

/-- The head gives up its place in the line with its handling (R106, R126). -/
theorem inboxTaken_unclaimCtrl (s : State) : (s.unclaimCtrl .inboxHead).inboxTaken = s.inboxTaken := by
  simp [inboxTaken, unclaimCtrl]

/-- A plan that needs an entry is handled where one is free for it, and its report too (R52). -/
theorem exec_openFrame_of_open {s : State} {f : Frame} {key : Word} {dir : Direction} {size : BitVec 24} {plan : OpenPlan}
    (hf : s.inboxFirst f) (hb : f.body = .openReq key dir size) (hp : s.openPlan f key dir size.toNat = plan)
    (hc : s.ctrlOpen) (hr : plan.needsReport = true → s.reportOpen 1) :
    exec .openFrame s = .next (s.handleOpen f key dir size.toNat plan).inboxTaken := by
  have hready : s.openReady plan = true := by
    unfold openReady
    rw [ctrlTurn_of_open hc]
    cases hn : plan.needsReport with
    | false => simp
    | true => simp [reportTurn_of_open (hr hn)]
  rw [exec_openFrame hf hb, hp, if_pos hready, unclaimCtrl_of_nil hc.2.2, popInbox_eq]

/-- A plan that needs no entry is handled at once (R52, R56). -/
theorem exec_openFrame_of_silent {s : State} {f : Frame} {key : Word} {dir : Direction} {size : BitVec 24}
    {plan : OpenPlan} (hf : s.inboxFirst f) (hb : f.body = .openReq key dir size)
    (hp : s.openPlan f key dir size.toNat = plan) (hc : plan.needsCtrl = false) (hr : plan.needsReport = false) :
    exec .openFrame s =
      .next ((s.unclaimCtrl .inboxHead).handleOpen f key dir size.toNat plan).inboxTaken := by
  have hready : s.openReady plan = true := by simp [openReady, hc, hr]
  rw [exec_openFrame hf hb, hp, if_pos hready, popInbox_eq]

/-- Where no entry stands for the originator's slot the Pending List stays (R53). -/
theorem dropStale_of_none {s : State} {p : Station} {t : Tag}
    (h : ∀ d ∈ s.xen.deferred, ¬(d.peer = p ∧ d.tag.idx = t.idx)) : s.dropStale p t = s := by
  have hno : ∀ d ∈ s.xen.deferred, d.sameSlot p t = false := fun d hd => by
    rw [Bool.eq_false_iff]
    exact fun hs => h d hd ((sameSlot_iff p t d).mp hs)
  have hkeep : s.xen.deferred.filter (fun d => !d.sameSlot p t) = s.xen.deferred :=
    List.filter_eq_self.mpr fun d hd => by simp [hno d hd]
  have hzero : ∀ k, (s.xen.deferred.take k).filter (Deferred.sameSlot p t) = [] := fun k =>
    List.filter_eq_nil_iff.mpr fun d hd => by simp [hno d (List.mem_of_mem_take hd)]
  unfold dropStale dropDeferred
  simp [hkeep, hzero]

theorem answerField_eq (e : Exchange) : e.answerField = if e.dir = .push then e.granted else e.length := by
  unfold Exchange.answerField
  cases e.dir <;> rfl

/-- A further copy of an OPEN draws the answer again and restarts the QUIET timer (R12, R56). -/
theorem answerCopy_of_room {s : State} {i : SlotId} {e : Exchange} (he : s.ex i = some e) (h : s.txq.ctrl.length < 16) :
    s.answerCopy i = (s.enqueued ⟨e.peer, s.sn, e.role == Role.originator, e.tag,
      .accept (BitVec.ofNat 24 (if e.dir = .push then e.granted else e.length))⟩ (.slot i (s.gen i))).setEx i
        (some (s.quietAgain e)) := by
  unfold answerCopy
  rw [he]
  dsimp only
  rw [pushCtrl_of_room h, quiet_of_some _ _ e (by exact he), answerField_eq]
  rfl

theorem handleOpen_tooLong {s : State} {f : Frame} {key : Word} {dir : Direction} {size : Nat} {o : OfferId} {v : Offer}
    (hstale : ∀ d ∈ s.xen.deferred, ¬(d.peer = f.src ∧ d.tag.idx = f.tag.idx)) (hv : s.offer o = some v)
    (hc : s.txq.ctrl.length < 16) (hr : s.reportOpen 1) :
    s.handleOpen f key dir size (.tooLong o) =
      (s.enqueued ⟨f.src, s.sn, false, f.tag, .abort .tooLong⟩ .nobody).reported
        (.served v.orderTag f.src key 0 (.failed .tooLong none)) := by
  unfold handleOpen
  dsimp only
  rw [dropStale_of_none hstale]
  unfold tooLong
  rw [hv]
  dsimp only
  rw [pushCtrl_of_room hc, pushReport_of_open (k := 0) (by exact hr)]
  rfl

end State

/-! ### The statements -/

/-- Settles O36: the posting order is searched from its oldest offer on. -/
theorem matchingTakesOldestFit : Obligations.MatchingTakesOldestFit := by
  intro s p dir key o
  have hfit : ∀ q, s.offerFits p dir key q = true ↔ ∃ v, s.offer q = some v ∧ v.Fits p dir key := fun q =>
    s.offerFits_iff p dir key q
  unfold State.matchOffer
  rw [List.find?_eq_some_iff_append, hfit]
  constructor
  · rintro ⟨hv, before, after, hsplit, hbefore⟩
    refine ⟨before, after, hsplit, hv, fun q hq v hqv hfits => ?_⟩
    have hno := hbefore q hq
    rw [(hfit q).mpr ⟨v, hqv, hfits⟩] at hno
    cases hno
  · rintro ⟨before, after, hsplit, hv, hbefore⟩
    refine ⟨hv, before, after, hsplit, fun q hq => ?_⟩
    rw [Bool.not_eq_true', ← Bool.not_eq_true, hfit]
    rintro ⟨v, hqv, hfits⟩
    exact hbefore q hq v hqv hfits

/-- Settles O34: the plan is to bind, and binding is `bind_binds`. -/
theorem openBinds : Obligations.OpenBinds := by
  intro s f key dir size i o v hf hb hst hr hfresh hm hv hpush hpull hfree hc hown hzero
  have hplan : s.openPlan f key dir size.toNat = .bind i o := by
    rw [State.openPlan_of_online hr hst, State.matcherPlan_of_fresh hfresh]
    exact State.freshPlan_of_bind hm hv ⟨hpush, hpull⟩ hfree none
  refine ⟨s.bind i o .accept f.src f.tag dir key size.toNat, ?_, ?_⟩
  · exact State.bind_binds (d := ⟨f.src, f.tag, dir, key, size.toNat⟩) hv hc.1 hc.2.1
      (by rw [hc.2.2]; simp) hzero hown (fun _ => rfl)
  · rw [State.exec_openFrame_of_open hf hb hplan hc (by simp [OpenPlan.needsReport])]
    exact congrArg (fun u : State => Host.Outcome.next (u.bind i o _ _ _ _ _ _).inboxTaken)
      (State.dropStale_of_none hfresh)

/-- Settles O35: one plan after another. -/
theorem openAnsweredOnce : Obligations.OpenAnsweredOnce := by
  refine ⟨?_, ?_⟩
  · intro s f key dir size i e hf hb hr he
    obtain ⟨x, hx, hrole, hpeer, htag⟩ := (s.isResponderOf_iff ..).mp (List.find?_some hr)
    obtain rfl := Option.some.inj (he.symm.trans hx)
    refine ⟨fun hs => ?_, fun hs => ⟨fun hno hc => ?_, fun hyes => ?_⟩⟩
    · rw [State.exec_openFrame_of_silent hf hb (State.openPlan_of_retiring hr he hs ..) rfl rfl]
      exact congrArg _ s.inboxTaken_unclaimCtrl
    · have hplan := State.openPlan_of_copy hr he hs key dir size.toNat
      rw [if_neg (by
        rw [State.any_isAnswer_iff]
        rintro ⟨y, hy, ho, n, hn⟩
        exact hn.elim (hno y hy ho n).1 (hno y hy ho n).2)] at hplan
      rw [State.exec_openFrame_of_open hf hb hplan hc (by simp [OpenPlan.needsReport])]
      refine congrArg (fun u : State => Host.Outcome.next u.inboxTaken) ((State.answerCopy_of_room he hc.1).trans ?_)
      rw [hpeer, htag, hrole]
      rfl
    · have hplan := State.openPlan_of_copy hr he hs key dir size.toNat
      rw [if_pos ((s.any_isAnswer_iff i).mpr hyes)] at hplan
      rw [State.exec_openFrame_of_silent hf hb hplan rfl rfl]
      refine congrArg _ ((congrArg State.inboxTaken (State.quiet_of_some (s.unclaimCtrl .inboxHead) i e he)).trans ?_)
      exact (s.setEx i (some (s.quietAgain e))).inboxTaken_unclaimCtrl
  · intro s f key dir size hf hb hr hc
    refine ⟨fun hst => ?_, fun hst hgen hold => ?_, fun hst pre d post hsplit hp hidx hgen hpre hnot => ?_,
      fun hst hfresh => ⟨fun hnot => ⟨fun hroom => ?_, fun hfull => ?_⟩, fun o v hm hv hlong hrep => ?_⟩⟩
    · rw [State.exec_openFrame_of_open hf hb (State.openPlan_of_detaching hr hst ..) hc (by simp [OpenPlan.needsReport])]
      exact congrArg (fun u : State => Host.Outcome.next u.inboxTaken) (State.pushCtrl_of_room hc.1 _ _)
    · obtain ⟨d0, hd0, hpeer0, htag0⟩ := hold
      obtain ⟨pre, d, post, hsplit, hsame, hpre⟩ := State.exists_first_sameSlot (t := f.tag) hd0 ⟨hpeer0, by rw [htag0]⟩
      have hplan : s.openPlan f key dir size.toNat = .held := by
        rw [State.openPlan_of_online hr hst, State.matcherPlan_of_split hsplit hsame hpre]
        exact if_pos (hgen d (by simp [hsplit]) hsame.1 hsame.2)
      rw [State.exec_openFrame_of_open hf hb hplan hc (by simp [OpenPlan.needsReport])]
      exact congrArg (fun u : State => Host.Outcome.next u.inboxTaken) (State.pushCtrl_of_room hc.1 _ _)
    · have hplan : s.openPlan f key dir size.toNat = .store (some pre.length) := by
        rw [State.openPlan_of_online hr hst, State.matcherPlan_of_split hsplit ⟨hp, hidx⟩ hpre, if_neg hgen]
        exact State.freshPlan_of_notTaken hnot _
      rw [State.exec_openFrame_of_open hf hb hplan hc (by simp [OpenPlan.needsReport])]
      have hset : s.xen.deferred.set pre.length ⟨f.src, f.tag, dir, key, size.toNat⟩ =
          pre ++ ⟨f.src, f.tag, dir, key, size.toNat⟩ :: post := by
        rw [hsplit]
        simp
      rw [← hset]
      exact congrArg (fun u : State => Host.Outcome.next u.inboxTaken) (State.pushCtrl_of_room (by exact hc.1) _ _)
    · have hplan : s.openPlan f key dir size.toNat = .store none := by
        rw [State.openPlan_of_online hr hst, State.matcherPlan_of_fresh hfresh, State.freshPlan_of_notTaken hnot]
        simp [hroom]
      rw [State.exec_openFrame_of_open hf hb hplan hc (by simp [OpenPlan.needsReport])]
      have hstore : s.storeDeferred ⟨f.src, f.tag, dir, key, size.toNat⟩ none = { s with
          xen := { s.xen with deferred := s.xen.deferred ++ [⟨f.src, f.tag, dir, key, size.toNat⟩] } } := if_pos hroom
      rw [← hstore]
      refine congrArg (fun u : State => Host.Outcome.next u.inboxTaken) ((State.pushCtrl_of_room ?_ _ _).trans ?_)
      · rw [hstore]
        exact hc.1
      · rw [hstore]
        rfl
    · have hplan : s.openPlan f key dir size.toNat = .full := by
        rw [State.openPlan_of_online hr hst, State.matcherPlan_of_fresh hfresh, State.freshPlan_of_notTaken hnot]
        simp [hfull]
      rw [State.exec_openFrame_of_open hf hb hplan hc (by simp [OpenPlan.needsReport])]
      exact congrArg (fun u : State => Host.Outcome.next u.inboxTaken) (State.pushCtrl_of_room hc.1 _ _)
    · have hplan : s.openPlan f key dir size.toNat = .tooLong o := by
        rw [State.openPlan_of_online hr hst, State.matcherPlan_of_fresh hfresh]
        exact State.freshPlan_of_tooLong hm hv hlong none
      rw [State.exec_openFrame_of_open hf hb hplan hc (fun _ => hrep), State.handleOpen_tooLong hfresh hv hc.1 hrep]

end Sys2Proof.Machine
end

section
/-!
SUPPORT. The expiries of the slot timer (R9, R10, R14, R29, R32, R34).
-/

namespace Sys2Proof.Machine

namespace State

/-- The record whose timer of a kind has expired (R9, R14). -/
theorem expired_of_expired {s : State} {i : SlotId} {e : Exchange} {k : TimerKind} (hr : s.runs = true)
    (he : s.ex i = some e) (hk : e.timer.kind = k) (hx : e.timer.run = .expired) : s.expired i k = some e := by
  simp [expired, hr, he, Exchange.expiredAs, hk, hx]

theorem expired_of_running {s : State} {i : SlotId} {e : Exchange} (he : s.ex i = some e) (hx : e.timer.run ≠ .expired)
    (k : TimerKind) : s.expired i k = none := by
  simp [expired, he, Exchange.expiredAs, hx]

/-- An entry of the control queue is the slot's OPEN (R27). -/
theorem isOf_isOpen_eq (s : State) (i : SlotId) (c : CtrlEntry) :
    c.isOf i (s.gen i) FrameBody.isOpen = s.isOpenOf i c.frame c.owner := by
  unfold CtrlEntry.isOf isOpenOf
  cases c.frame.body <;> rfl

/-- An OPEN becomes due where the slot has none (R27). -/
theorem dueOpen_of_none {s : State} {i : SlotId} {e : Exchange} (he : s.ex i = some e) (hl : s.txq.line = [])
    (hn : ∀ x ∈ s.txq.ctrl, s.isOpenOf i x.frame x.owner = false) :
    s.dueOpen i = s.dueFrame ⟨e.peer, s.sn, e.role == Role.originator, e.tag,
      .openReq e.key e.dir (BitVec.ofNat 24 e.length)⟩ (.slot i (s.gen i)) := by
  have hno : s.hasFrame i FrameBody.isOpen = false := by
    simp only [hasFrame, hl, List.any_nil, Bool.or_false, List.any_eq_false]
    intro x hx
    rw [isOf_isOpen_eq, hn x hx]
    exact Bool.false_ne_true
  unfold dueOpen dueOnce
  rw [he]
  dsimp only
  rw [hno, if_neg Bool.false_ne_true]
  rfl

theorem isOpenOf_setEx (s : State) (i : SlotId) (v : Option Exchange) (f : Frame) (o : Owner) :
    (s.setEx i v).isOpenOf i f o = s.isOpenOf i f o := by
  unfold isOpenOf
  rw [gen_setEx]

/-- The OPEN of a slot with a new record: placed with a free queue, and in the line with a full one (R27, R106). -/
theorem dueOpen_setEx {s : State} {i : SlotId} {e : Exchange}
    (hn : ∀ x ∈ s.txq.ctrl, s.isOpenOf i x.frame x.owner = false) {open' : Frame}
    (hf : open' = ⟨e.peer, s.sn, e.role == Role.originator, e.tag, .openReq e.key e.dir (BitVec.ofNat 24 e.length)⟩) :
    (s.ctrlOpen → (s.setEx i (some e)).dueOpen i = (s.setEx i (some e)).enqueued open' (.slot i (s.gen i))) ∧
    (16 ≤ s.txq.ctrl.length → s.txq.line = [] → (s.setEx i (some e)).dueOpen i = { s.setEx i (some e) with
      txq := { (s.setEx i (some e)).txq with line := [.frame open' (.slot i (s.gen i))] } }) := by
  subst hf
  have hdue : s.txq.line = [] → (s.setEx i (some e)).dueOpen i = _ := fun hl =>
    dueOpen_of_none (ex_setEx_self ..) hl fun x hx => (isOpenOf_setEx ..).trans (hn x hx)
  refine ⟨fun hc => ?_, fun hfull hl => ?_⟩
  · rw [hdue hc.2.2, dueFrame_of_open (by exact hc), gen_setEx]
    rfl
  · have hline : (s.setEx i (some e)).txq.line = [] := hl
    rw [hdue hl, dueFrame_of_full (by exact hfull), gen_setEx, hline]
    rfl

theorem exec_answerExpiry {s : State} {i : SlotId} {e : Exchange} (hr : s.runs = true) (he : s.ex i = some e)
    (hs : e.state = .opening) (hk : e.timer.kind = .answer) (hx : e.timer.run = .expired) :
    exec (.answerExpiry i) s = .next (s.answerExpired i e) := by
  simp only [exec, execAnswerExpiry, expired_of_expired hr he hk hx, hs, if_true]

theorem exec_backoffExpiry {s : State} {i : SlotId} {e : Exchange} (hr : s.runs = true) (he : s.ex i = some e)
    (hs : e.state = .backoff) (hk : e.timer.kind = .backoff) (hx : e.timer.run = .expired) :
    exec (.backoffExpiry i) s = .next (s.backoffExpired i) := by
  simp only [exec, execBackoffExpiry, expired_of_expired hr he hk hx, hs, if_true]

theorem exec_parkExpiry {s : State} {i : SlotId} {e : Exchange} (hr : s.runs = true) (he : s.ex i = some e)
    (hs : e.state = .parked) (hk : e.timer.kind = .park) (hx : e.timer.run = .expired) :
    exec (.parkExpiry i) s = .next (s.abortWith i .parkExpired) := by
  simp only [exec, execParkExpiry, expired_of_expired hr he hk hx, hs, if_true]

theorem exec_quietExpiry {s : State} {i : SlotId} {e : Exchange} (hr : s.runs = true) (he : s.ex i = some e)
    (hs : e.state = .sending ∨ e.state = .receiving ∨ e.state = .confirming) (hk : e.timer.kind = .quiet)
    (hx : e.timer.run = .expired) : exec (.quietExpiry i) s = .next (s.abortWith i .quiet) := by
  obtain hs | hs | hs := hs <;> simp only [exec, execQuietExpiry, expired_of_expired hr he hk hx, hs]

end State

/-! ### The statements -/

/-- Settles O37. -/
theorem answerExpirySendsOpenAgain : Obligations.AnswerExpirySendsOpenAgain := by
  intro s i e hr he hs hk hx
  rw [State.exec_answerExpiry hr he hs hk hx]
  refine ⟨fun hlt hn t open' ht hf => ?_, fun hle => ?_⟩
  · have hagain : s.answerExpired i e = t.dueOpen i := by
      unfold State.answerExpired
      rw [if_pos hlt, State.updEx_of_some he, ht]
      rfl
    obtain ⟨hopen, hfull⟩ := State.dueOpen_setEx
      (e := { e with timer := ⟨.none, 0, .stopped⟩, openAttempts := e.openAttempts + 1 }) hn hf
    rw [hagain, ht]
    exact ⟨fun hc => congrArg _ (hopen hc), fun hlen hl => congrArg _ (hfull hlen hl)⟩
  · have hlive : e.state ≠ .retiring := by simp [hs]
    refine ⟨s.endWith i .noAnswer, State.endWith_ends he hlive .noAnswer, ?_⟩
    unfold State.answerExpired
    rw [if_neg (Nat.not_lt.mpr hle)]

/-- Settles O38. -/
theorem backoffExpiryReturnsToOpening : Obligations.BackoffExpiryReturnsToOpening := by
  intro s i e hr he hs hk hx hn t open' ht hf
  have hagain : s.backoffExpired i = t.dueOpen i := by
    unfold State.backoffExpired
    rw [State.updEx_of_some he, ht]
    rfl
  obtain ⟨hopen, hfull⟩ := State.dueOpen_setEx (e := { e with timer := ⟨.none, 0, .stopped⟩, state := .opening }) hn hf
  rw [State.exec_backoffExpiry hr he hs hk hx, hagain, ht]
  exact ⟨fun hc => congrArg _ (hopen hc), fun hlen hl => congrArg _ (hfull hlen hl)⟩

/-- Settles O39. -/
theorem parkAndQuietExpiryEnd : Obligations.ParkAndQuietExpiryEnd := by
  intro s i e hr he
  refine ⟨fun hx hk hs => ?_, fun hx hk hs => ?_, fun hx => ?_⟩
  · have hlive : e.state ≠ .retiring := by simp [hs]
    exact ⟨_, State.abortWith_ends he hlive .parkExpired, State.exec_parkExpiry hr he hs hk hx⟩
  · have hlive : e.state ≠ .retiring := by obtain hs | hs | hs := hs <;> simp [hs]
    exact ⟨_, State.abortWith_ends he hlive .quiet, State.exec_quietExpiry hr he hs hk hx⟩
  · have hnone := State.expired_of_running he hx
    refine ⟨?_, ?_, ?_, ?_⟩
    · simp only [exec, execParkExpiry, hnone]
    · simp only [exec, execQuietExpiry, hnone]
    · simp only [exec, execAnswerExpiry, hnone]
    · simp only [exec, execBackoffExpiry, hnone]

end Sys2Proof.Machine
end

section
/-!
SUPPORT. The checks of R139 in one line each, and the head order examined by its kind (R137 to R149).
-/

namespace Sys2Proof.Machine

theorem OrderKind.ofCode_eq_some_iff (b : Byte) (k : OrderKind) : OrderKind.ofCode b = some k ↔ b = k.code := by
  rw [← BitVec.toNat_inj]
  unfold ofCode
  split <;> rename_i h <;> cases k <;> simp_all [code]

theorem OrderKind.ofCode_eq_none_iff (b : Byte) : OrderKind.ofCode b = none ↔ b.toNat = 0 ∨ 9 < b.toNat := by
  unfold ofCode
  split <;> rename_i h <;> simp_all
  omega

namespace State

/-- A station number in an order names the station itself (R139). -/
theorem peerNo_eq_iff {o : OrderRec} {sn : Station} (h : o.peer.toNat < 32) :
    o.peerNo = sn ↔ o.peer = sn.setWidth 8 := by
  unfold OrderRec.peerNo
  rw [← BitVec.toNat_inj, ← BitVec.toNat_inj, BitVec.toNat_setWidth, BitVec.toNat_setWidth]
  have := sn.isLt
  omega

theorem offLane_iff (s : State) : s.offLane = true ↔ s.sct.station = .offline ∨ s.sct.station = .conflict := by
  simp [offLane]

theorem freeOffer_isNone_iff (s : State) : s.freeOffer.isNone = true ↔ ∀ e, s.offer e ≠ none := by
  simp [freeOffer]

/-- The lines of R139's table for a SEND or FETCH. -/
theorem moveRefusal_eq (s : State) (o : OrderRec) (fetch : Bool) : s.moveRefusal o fetch =
    if 32 ≤ o.peer.toNat ∨ 16777215 < o.size.toNat then some .badOrder
    else if o.base.toNat % 16 ≠ 0 ∧ o.size ≠ 0 then some .badOrder
    else if fetch = true ∧ o.size = 0 ∧ o.base ≠ 0 then some .badOrder
    else if o.peer = s.sn.setWidth 8 then some .badPeer
    else if s.sct.station = .offline ∨ s.sct.station = .conflict then some .offline
    else if s.peer (o.peer.setWidth 5) = .silent then some .peerSilent
    else none := by
  have hmove : o.badMove = true ↔ 32 ≤ o.peer.toNat ∨ 16777215 < o.size.toNat := by
    simp [OrderRec.badMove, Config.maxSize]
  have hbase : o.badBase = true ↔ o.base.toNat % 16 ≠ 0 ∧ o.size ≠ 0 := by
    simp [OrderRec.badBase, ← BitVec.toNat_inj]
  unfold moveRefusal
  by_cases h : 32 ≤ o.peer.toNat ∨ 16777215 < o.size.toNat
  · rw [if_pos (hmove.mpr h), if_pos h]
  · have hpeer : o.peerNo = s.sn ↔ o.peer = s.sn.setWidth 8 := peerNo_eq_iff (by omega)
    rw [if_neg (mt hmove.mp h), if_neg h]
    simp only [hbase, hpeer, offLane_iff]
    rfl

/-- The lines of R139's table for an OFFER. -/
theorem offerRefusal_eq (s : State) (o : OrderRec) : s.offerRefusal o =
    if (o.type ≠ 0x01 ∧ o.type ≠ 0x02) ∨ (o.standing ≠ 0x00 ∧ o.standing ≠ 0x01) ∨
        (32 ≤ o.peer.toNat ∧ o.peer ≠ 0xFF) ∨ 16777215 < o.size.toNat then some .badOrder
    else if o.base.toNat % 16 ≠ 0 ∧ o.size ≠ 0 then some .badOrder
    else if ∀ e, s.offer e ≠ none then some .noRoom
    else none := by
  have hoffer : o.badOffer = true ↔ (o.type ≠ 0x01 ∧ o.type ≠ 0x02) ∨ (o.standing ≠ 0x00 ∧ o.standing ≠ 0x01) ∨
      (32 ≤ o.peer.toNat ∧ o.peer ≠ 0xFF) ∨ 16777215 < o.size.toNat := by
    simp only [OrderRec.badOffer, Bool.or_eq_true, decide_eq_true_eq, or_assoc]
    rfl
  have hbase : o.badBase = true ↔ o.base.toNat % 16 ≠ 0 ∧ o.size ≠ 0 := by
    simp [OrderRec.badBase, ← BitVec.toNat_inj]
  unfold offerRefusal
  simp only [hoffer, hbase, freeOffer_isNone_iff]

theorem clrRefusal_eq (s : State) : s.clrRefusal =
    if s.sct.station = .offline ∨ s.sct.station = .conflict then some .offline else none := by
  unfold clrRefusal
  simp only [offLane_iff]

/-- The checks of the order kinds give the first line of R139's table that applies. -/
theorem refusal_eq (s : State) (o : OrderRec) : s.refusal o = s.reasonToRefuse o := by
  unfold refusal reasonToRefuse
  cases hk : o.kindOf with
  | none => exact (if_pos ((OrderKind.ofCode_eq_none_iff o.kind).mp hk)).symm
  | some k =>
    have hkind : o.kind = k.code := (OrderKind.ofCode_eq_some_iff o.kind k).mp hk
    rw [hkind]
    cases k with
    | send => simp [OrderKind.code, moveRefusal_eq]
    | fetch => simp [OrderKind.code, moveRefusal_eq]
    | offer => simp [OrderKind.code, offerRefusal_eq]
    | clr => simp [OrderKind.code, clrRefusal_eq]
    | _ => simp [OrderKind.code]

end State

end Sys2Proof.Machine
end

section
/-!
SUPPORT. The orders at the ring head (R138 to R143): the refusal of R139, SEND and FETCH, OFFER and WITHDRAW.
-/

namespace Sys2Proof.Machine

/-- The first element of a finite range with a property is the lowest one. -/
theorem find_finRange_of_lowest {n : Nat} {p : Fin n → Bool} {i : Fin n} (h : p i = true)
    (hl : ∀ j, j < i → p j = false) : (List.finRange n).find? p = some i := by
  refine List.find?_eq_some_iff_getElem.mpr ⟨h, i.val, by simp, by simp, fun j hj => ?_⟩
  simp [hl ⟨j, by omega⟩ (by simpa [Fin.lt_def] using hj)]

namespace State

/-! ### The head examined -/

theorem kindOf_of_kind {o : OrderRec} {k : OrderKind} (h : o.kind = k.code) : o.kindOf = some k :=
  (OrderKind.ofCode_eq_some_iff o.kind k).mpr h

/-- The command of an order kind that R139 may refuse. -/
def Refusable (c : Instr) (k : OrderKind) : Prop :=
  c = .sendOrder ∧ k = .send ∨ c = .fetchOrder ∧ k = .fetch ∨ c = .offerOrder ∧ k = .offer ∨ c = .clrOrder ∧ k = .clr

theorem exec_refusable {c : Instr} {k : OrderKind} {s : State} {o : OrderRec} (hc : Refusable c k)
    (h : s.headToRefuse k = some o) : exec c s = .next (s.examine o) := by
  obtain ⟨rfl, rfl⟩ | ⟨rfl, rfl⟩ | ⟨rfl, rfl⟩ | ⟨rfl, rfl⟩ := hc
  · simp only [exec, execSendOrder, h]
  · simp only [exec, execFetchOrder, h]
  · simp only [exec, execOfferOrder, h]
  · simp only [exec, execClrOrder, h]

theorem exec_refusable_of_none {c : Instr} {k : OrderKind} {s : State} (hc : Refusable c k) (h : s.headOrder = none) :
    exec c s = .next s := by
  have hr : s.headToRefuse k = none := by rw [headToRefuse, h]; rfl
  obtain ⟨rfl, rfl⟩ | ⟨rfl, rfl⟩ | ⟨rfl, rfl⟩ | ⟨rfl, rfl⟩ := hc
  · simp only [exec, execSendOrder, hr]
  · simp only [exec, execFetchOrder, hr]
  · simp only [exec, execOfferOrder, hr]
  · simp only [exec, execClrOrder, hr]

/-- An order that its checks refuse is refused, whatever its kind (R139). -/
theorem examine_of_refusal {s : State} {o : OrderRec} {why : Reason} (h : s.refusal o = some why) :
    s.examine o = s.refuse o why := by
  unfold refusal at h
  unfold examine
  cases hk : o.kindOf with
  | none =>
    rw [hk] at h
    obtain rfl := Option.some.inj h
    rfl
  | some k =>
    rw [hk] at h
    cases k with
    | send => simp only [takeMove, show (Direction.push == .pull) = false from rfl, h]
    | fetch => simp only [takeMove, show (Direction.pull == .pull) = true from rfl, h]
    | offer => simp only [takeOffer, h]
    | clr => simp only [takeClr, h]
    | _ => cases h

/-- An order taken with one report in its turn (R138, R152). -/
theorem takeWith_of_turn {s : State} {o : OrderRec} {r : Report} (h : s.reportTurn .head 1 = true)
    (hq : s.rpt.queue.length < 8) : s.takeWith o r = (s.reported r).orderTaken := by
  have hpush : s.pushReport r = s.reported r := if_pos hq
  unfold takeWith
  rw [if_pos h, hpush, taken_eq]

theorem takeWith_of_full {s : State} {o : OrderRec} {r : Report} (h : 8 ≤ s.rpt.queue.length) (hl : s.rpt.line = []) :
    s.takeWith o r = { s with
      ord := { s.ord with head := .record o .report }, rpt := { s.rpt with line := [.head] } } := by
  have hturn : s.reportTurn .head 1 = false := reportTurn_eq_false (.inr (Nat.lt_succ_of_le h))
  unfold takeWith
  rw [if_neg (by simp [hturn])]
  simp [waitReport, setHead, claimReport, hl]

/-- The head has its turn at the front of the line, or where nobody waits (R152). -/
theorem reportTurn_head {s : State} (hq : s.rpt.queue.length < 8) (hw : s.rpt.stationWaiting = [])
    (hl : s.rpt.line = [] ∨ ∃ others, s.rpt.line = .head :: others) : s.reportTurn .head 1 = true := by
  have hahead : s.reportAhead .head = [] := by
    unfold reportAhead
    obtain hl | ⟨others, hl⟩ := hl <;> simp [hl]
  have hroom : s.reportRoom 1 = true := decide_eq_true hq
  unfold reportTurn
  rw [hahead, hw, hroom]
  rfl

/-! ### SEND and FETCH -/

theorem originRoom_iff {s : State} {i : SlotId} (h : s.freeSlot = some i) :
    s.originRoom = true ↔ s.originators < s.par.originLimit := by
  simp [originRoom, h]

/-- A SEND or FETCH that passes its checks is held while no slot is free for it (R140). -/
theorem takeMove_of_held {s : State} {o : OrderRec} {dir : Direction} (hr : s.moveRefusal o (dir == .pull) = none)
    (h : s.freeSlot = none ∨ s.par.originLimit ≤ s.originators) : s.takeMove o dir = s.hold o := by
  unfold takeMove
  rw [hr]
  dsimp only
  split
  · rfl
  next i hi =>
    have hroom : ¬s.originRoom = true := by
      rw [originRoom_iff hi]
      obtain h | h := h
      · simp [hi] at h
      · exact Nat.not_lt.mpr h
    rw [if_neg hroom]

/-- Otherwise the lowest FREE slot becomes the ORIGINATOR's, with its OPEN placed (R25, R26, R141). -/
theorem takeMove_of_room {s : State} {o : OrderRec} {dir : Direction} {i : SlotId}
    (hr : s.moveRefusal o (dir == .pull) = none) (hi : s.freeSlot = some i) (hl : s.originators < s.par.originLimit) :
    s.takeMove o dir = (s.allocate i o dir).taken := by
  simp only [takeMove, hr, hi, (originRoom_iff hi).mpr hl, if_true]

/-- The ORIGINATOR's slot allocated, before its OPEN (R25, R26). -/
def allocated (s : State) (i : SlotId) (o : OrderRec) (dir : Direction) : State := { s with
  xen := { (s.setEx i (some (Exchange.ofOrder o dir (originTag i (s.gen i))))).xen with
    originOrder := s.xen.originOrder ++ [i] } }

theorem allocated_ex (s : State) (i : SlotId) (o : OrderRec) (dir : Direction) :
    (s.allocated i o dir).ex i = some (Exchange.ofOrder o dir (originTag i (s.gen i))) := ex_setEx_self ..

theorem allocated_gen (s : State) (i : SlotId) (o : OrderRec) (dir : Direction) :
    (s.allocated i o dir).gen i = s.gen i := gen_setEx ..

theorem allocate_of_open {s : State} {i : SlotId} {o : OrderRec} {dir : Direction} (hc : s.ctrlOpen)
    (hown : ∀ x ∈ s.txq.ctrl, x.owner ≠ .slot i (s.gen i)) :
    s.allocate i o dir = (s.allocated i o dir).enqueued
      ⟨o.peerNo, s.sn, true, ⟨s.gen i, BitVec.ofNat 4 i.val⟩, .openReq o.key dir (BitVec.ofNat 24 o.size.toNat)⟩
      (.slot i (s.gen i)) := by
  have hdue : s.allocate i o dir = (s.allocated i o dir).dueOpen i := rfl
  have hno : ∀ x ∈ (s.allocated i o dir).txq.ctrl, (s.allocated i o dir).isOpenOf i x.frame x.owner = false := by
    intro x hx
    unfold isOpenOf
    rw [allocated_gen]
    simp [hown x hx]
  rw [hdue, dueOpen_of_none (allocated_ex ..) hc.2.2 hno, dueFrame_of_open (by exact hc), allocated_gen]
  rfl

/-! ### OFFER -/

theorem freeOffer_of_lowest {s : State} {e : OfferId} (h : s.offer e = none) (hl : ∀ e', e' < e → s.offer e' ≠ none) :
    s.freeOffer = some e := by
  refine find_finRange_of_lowest (by simp [h]) fun j hj => ?_
  simpa [Option.isSome_iff_ne_none] using hl j hj

/-- A rescan becomes due in ONLINE, and takes its place in the line (R61, R106; log 12, log 14). -/
theorem makeRescanDue_eq (s : State) : s.makeRescanDue = { s with
    xen := { s.xen with
      rescanDue := s.xen.rescanDue || s.sct.station == .online,
      rescanWaits := s.xen.rescanWaits || (s.sct.station == .online && decide (16 ≤ s.txq.ctrl.length)) },
    txq := { s.txq with
      line := if s.sct.station = .online ∧ CtrlClaim.rescan ∉ s.txq.line then s.txq.line ++ [.rescan]
        else s.txq.line } } := by
  unfold makeRescanDue
  by_cases hs : s.sct.station = .online
  · by_cases hl : CtrlClaim.rescan ∈ s.txq.line <;> simp [hs, claimCtrl, hl, Config.ctrlCap]
  · have hno : (s.sct.station == .online) = false := by simpa using hs
    simp [hs, hno]

/-! ### WITHDRAW -/

/-- A target of WITHDRAW: an offer with the tag that is OPEN or BOUND (R66). -/
theorem withdrawable_iff (s : State) (tag : BitVec 16) (e : OfferId) : s.withdrawable tag e = true ↔
    ∃ v, s.offer e = some v ∧ v.orderTag = tag ∧ (v.state = .openState ∨ ∃ i, v.state = .bound i) := by
  cases hv : s.offer e with
  | none => simp [withdrawable, hv]
  | some v => cases hst : v.state <;> simp [withdrawable, hv, hst, Offer.hasTag]

theorem withdrawable_eq_false {s : State} {tag : BitVec 16} {e : OfferId}
    (h : ∀ w, s.offer e = some w → w.orderTag = tag → ∃ i, w.state = .withdrawing i) : s.withdrawable tag e = false := by
  rw [← Bool.not_eq_true, withdrawable_iff]
  rintro ⟨v, hv, ht, hs⟩
  obtain ⟨i, hi⟩ := h v hv ht
  obtain hs | ⟨j, hs⟩ := hs <;> simp [hs] at hi

/-- An acknowledgement list entry that awaits a release is made (R147). -/
theorem awaitRelease_of_room {s : State} {i : SlotId} {g : Gen} (h : s.ord.acks.length < 16) (hg : s.gen i = g)
    (o : OrderRec) (k : OrderKind) : s.awaitRelease i o k = { s with
      ord := { s.ord with acks := s.ord.acks ++ [⟨o.tag, k, .release i g, false⟩] } } := by
  unfold awaitRelease
  rw [addAck_of_room h, hg]

end State

/-! ### The statements -/

/-- Settles O41. -/
theorem orderRefused : Obligations.OrderRefused := by
  intro c s o w why ht hf hh hwhy hc
  have hrefuse : s.examine o = s.takeWith o (.failed o.tag why none 0) :=
    State.examine_of_refusal ((s.refusal_eq o).trans hwhy)
  obtain ⟨k, hck, hk⟩ : ∃ k, State.Refusable c k ∧ (o.kindOf = some k ∨ o.kindOf = none) := by
    obtain ⟨rfl, hk⟩ | ⟨rfl, hk⟩ | ⟨rfl, hk⟩ | ⟨rfl, hk⟩ | ⟨hc, hk⟩ := hc
    · exact ⟨.send, .inl ⟨rfl, rfl⟩, .inl (State.kindOf_of_kind hk)⟩
    · exact ⟨.fetch, .inr (.inl ⟨rfl, rfl⟩), .inl (State.kindOf_of_kind hk)⟩
    · exact ⟨.offer, .inr (.inr (.inl ⟨rfl, rfl⟩)), .inl (State.kindOf_of_kind hk)⟩
    · exact ⟨.clr, .inr (.inr (.inr ⟨rfl, rfl⟩)), .inl (State.kindOf_of_kind hk)⟩
    · have hnone : o.kindOf = none := (OrderKind.ofCode_eq_none_iff o.kind).mpr hk
      obtain rfl | rfl | rfl | rfl := hc
      · exact ⟨.send, .inl ⟨rfl, rfl⟩, .inr hnone⟩
      · exact ⟨.fetch, .inr (.inl ⟨rfl, rfl⟩), .inr hnone⟩
      · exact ⟨.offer, .inr (.inr (.inl ⟨rfl, rfl⟩)), .inr hnone⟩
      · exact ⟨.clr, .inr (.inr (.inr ⟨rfl, rfl⟩)), .inr hnone⟩
  have hexec : s.headOrder = some o → exec c s = .next (s.takeWith o (.failed o.tag why none 0)) := fun h => by
    rw [State.exec_refusable hck (State.headToRefuse_of_headOrder h hk), hrefuse]
  refine ⟨fun hw hq hsw hl => ?_, fun hw hq hl => ?_, fun hw hq => ?_⟩
  · have hturn := State.reportTurn_head hq hsw hl
    have hhead : s.headOrder = some o := by
      obtain rfl | rfl := hw
      · exact State.headOrder_of_atHead ⟨ht, hf, hh⟩
      · exact State.headOrder_of_turn ht hf hh hturn
    rw [hexec hhead, State.takeWith_of_turn hturn hq]
  · subst hw
    rw [hexec (State.headOrder_of_atHead ⟨ht, hf, hh⟩), State.takeWith_of_full hq hl]
  · subst hw
    have hturn : s.reportTurn .head 1 = false := State.reportTurn_eq_false (.inr (Nat.lt_succ_of_le hq))
    refine State.exec_refusable_of_none hck ?_
    unfold State.headOrder
    rw [if_pos ⟨ht, hf⟩, hh]
    exact if_neg (by simp [hturn])

/-- Settles O40. -/
theorem sendFetchTakenOrHeld : Obligations.SendFetchTakenOrHeld := by
  intro c dir s o hc hh hpeer hsize hbase hzero hself hst hsilent
  have hpeer' : ¬o.peer = s.sn.setWidth 8 := mt (State.peerNo_eq_iff hpeer).mpr hself
  have hrefusal : s.moveRefusal o (dir == .pull) = none := by
    rw [State.moveRefusal_eq, if_neg (by omega), if_neg (by tauto), if_neg, if_neg hpeer', if_neg (by simp [hst])]
    · exact if_neg hsilent
    · rintro ⟨hd, h0, hb⟩
      exact hb (hzero (by simpa using hd) h0)
  have hexec : exec c s = .next (s.takeMove o dir) := by
    obtain ⟨rfl, rfl, hk⟩ | ⟨rfl, rfl, hk⟩ := hc
    · have hkind : o.kindOf = some .send := State.kindOf_of_kind hk
      rw [State.exec_refusable (.inl ⟨rfl, rfl⟩)
        (State.headToRefuse_of_headOrder (State.headOrder_of_atHead hh) (.inl hkind))]
      simp only [State.examine, hkind]
    · have hkind : o.kindOf = some .fetch := State.kindOf_of_kind hk
      rw [State.exec_refusable (.inr (.inl ⟨rfl, rfl⟩))
        (State.headToRefuse_of_headOrder (State.headOrder_of_atHead hh) (.inl hkind))]
      simp only [State.examine, hkind]
  rw [hexec]
  refine ⟨fun i hi hlt hc hown => ?_, fun h => ?_⟩
  · rw [State.takeMove_of_room hrefusal hi hlt, State.allocate_of_open hc hown, State.taken_eq]
    rfl
  · rw [State.takeMove_of_held hrefusal h]
    rfl

/-- Settles O42. -/
theorem offerPosted : Obligations.OfferPosted := by
  intro s o e hh hk htype hstand hpeer hsize hbase he hlow
  have hrefusal : s.offerRefusal o = none := by
    rw [State.offerRefusal_eq, if_neg, if_neg (by tauto), if_neg fun h => h e he]
    rintro (h | h | h | h)
    · tauto
    · tauto
    · exact hpeer.elim (fun hp => Nat.not_lt.mpr h.1 hp) h.2
    · omega
  have hkind : o.kindOf = some .offer := State.kindOf_of_kind hk
  have hexec : exec .offerOrder s = .next (s.takeOffer o) := by
    rw [State.exec_refusable (.inr (.inr (.inl ⟨rfl, rfl⟩)))
      (State.headToRefuse_of_headOrder (State.headOrder_of_atHead hh) (.inl hkind))]
    simp only [State.examine, hkind]
  rw [hexec]
  simp only [State.takeOffer, hrefusal, State.freeOffer_of_lowest he hlow, State.taken_eq, State.postOffer,
    State.makeRescanDue_eq]
  rfl

/-- Settles O43: the search for the target, then the step of its state. -/
theorem withdrawActs : Obligations.WithdrawActs := by
  refine ⟨fun s tag => ⟨fun before e after v hsplit hv htag hs hbefore => ?_, fun hnone => ?_⟩, fun s o hh hk => ?_⟩
  · refine List.find?_eq_some_iff_append.mpr
      ⟨(State.withdrawable_iff ..).mpr ⟨v, hv, htag, hs⟩, before, after, hsplit, fun q hq => ?_⟩
    simp [State.withdrawable_eq_false (hbefore q hq)]
  · refine List.find?_eq_none.mpr fun q hq => ?_
    simp [State.withdrawable_eq_false (hnone q hq)]
  · have hexec : exec .withdrawOrder s = .next (s.takeWithdraw o) := by
      simp only [exec, execWithdrawOrder, State.headOfKind_of_atHead hh (State.kindOf_of_kind (k := .withdraw) hk)]
    rw [hexec]
    refine ⟨fun e v ht hv hs hr => ?_, fun e v i x ht hv hs hx hroom t htdef => ?_, fun ht hr => ?_⟩
    · simp only [State.takeWithdraw, ht, hv, hs, State.reportTurn_of_open hr, if_true, State.taken_eq]
      rw [State.pushReport_of_open (k := 0) (by exact hr)]
      rfl
    · have hack : s.ackRoom = true := decide_eq_true hroom
      have hset : s.setOffer e (some { v with state := .withdrawing i }) = t := htdef.symm
      have hbound : s.takeWithdraw o = ((t.cancel i).awaitRelease i o .withdraw).orderTaken := by
        simp only [State.takeWithdraw, ht, hv, hs, hack, if_true, State.taken_eq, hset]
      have hxt : t.ex i = some x := by rw [htdef]; exact hx
      have hroomt : t.ord.acks.length < 16 := by rw [htdef]; exact hroom
      have hgent : t.gen i = s.gen i := by rw [htdef]; rfl
      rw [hbound]
      refine ⟨fun h1 h2 h3 => ?_, fun h1 => ?_⟩
      · have hends := State.cancel_ends hxt h1
        rw [if_neg (by tauto)] at hends
        obtain ⟨-, hord, -⟩ := hends.rest
        exact ⟨t.cancel i, hends, congrArg (fun u : State => Host.Outcome.next u.orderTaken)
          (State.awaitRelease_of_room (by rw [hord]; exact hroomt) ((hends.gens i).trans hgent) o .withdraw)⟩
      · rw [State.cancel_of_retiring hxt h1, State.awaitRelease_of_room hroomt hgent]
    · simp only [State.takeWithdraw, ht]
      rw [State.takeWith_of_open hr]

end Sys2Proof.Machine
end

section
/-!
SUPPORT. CANCEL and CONTINUE, DETACH, ATTACH and CLR (R60, R100, R131, R144 to R149, R171, R172), and the path of an order
from the ring to the head (R138, R160; log 31).
-/

namespace Sys2Proof.Machine

namespace State

/-! ### CANCEL and CONTINUE -/

theorem exec_cancelOrder {s : State} {o : OrderRec} (hh : s.atHead o) (hk : o.kind = 0x05) :
    exec .cancelOrder s = .next (s.takeCancel o) := by
  simp only [exec, execCancelOrder, headOfKind_of_atHead hh (kindOf_of_kind (k := .cancel) hk)]

theorem exec_continueOrder {s : State} {o : OrderRec} (hh : s.atHead o) (hk : o.kind = 0x06) :
    exec .continueOrder s = .next (s.takeContinue o) := by
  simp only [exec, execContinueOrder, headOfKind_of_atHead hh (kindOf_of_kind (k := .continue) hk)]

theorem takeCancel_of_room {s : State} {o : OrderRec} {i : SlotId} (ht : s.exchangeTarget o.target = some i)
    (hroom : s.ord.acks.length < 16) : s.takeCancel o = ((s.cancel i).awaitRelease i o .cancel).orderTaken := by
  have hack : s.ackRoom = true := decide_eq_true hroom
  simp only [takeCancel, ht, hack, if_true, taken_eq]

theorem ackRoom_eq_false {s : State} (h : 16 ≤ s.ord.acks.length) : s.ackRoom = false :=
  decide_eq_false (Nat.not_lt.mpr h)

/-- A CONTINUE with a target queues ACK(DONE), and the slot goes on (R146). -/
theorem takeContinue_of_target {s : State} {o : OrderRec} {i : SlotId} (ht : s.exchangeTarget o.target = some i)
    (hr : s.reportOpen 1) :
    s.takeContinue o = ((s.reported (.ack o.tag .continue true)).continueSlot i).orderTaken := by
  simp only [takeContinue, ht, reportTurn_of_open hr, if_true, taken_eq, pushReport_of_open hr]

theorem continueSlot_of_running {s : State} {i : SlotId} {x : Exchange} (hx : s.ex i = some x)
    (hp : x.localPause = false) : s.continueSlot i = s := by
  simp only [continueSlot, hx, hp, Bool.false_eq_true, if_false]

/-- The record after CONTINUE: the pause ends, the gate opens, and the timer runs again where it does (R13, R100). -/
theorem resume_eq (s : State) (x : Exchange) (hs : x.state = .sending ∨ x.state = .receiving ∨ x.state = .finishing) :
    x.resume s.par = s.quietAgain { x with localPause := false, walk := { x.walk with gate := none } } := by
  obtain hs | hs | hs := hs <;>
    simp [Exchange.resume, Exchange.resumeTimer, quietAgain, Exchange.quietRuns, hs, Exchange.startQuiet,
      Exchange.startTimer, quietStarted, Exchange.quietMs, StartParams.parkMs, Exchange.creditOwed]

/-- A slot's waiting HOLD is withdrawn (R100, R107). -/
def holdDropped (i : SlotId) (s : State) : State := { s with
  txq := { s.txq with
    ctrl := s.txq.ctrl.filter fun y => y.inSlot || !(y.owner == .slot i (s.gen i) && y.frame.body == .hold) } }

theorem withdraw_isHold {s : State} {i : SlotId} (hl : s.txq.line = []) :
    s.withdraw i FrameBody.isHold = s.holdDropped i := by
  have hbody : ∀ b : FrameBody, b.isHold = (b == .hold) := by
    intro b
    rw [Bool.eq_iff_iff, beq_iff_eq]
    cases b <;> simp [FrameBody.isHold]
  simp only [withdraw, holdDropped, CtrlEntry.isOf, hbody, hl, List.filter_nil]

/-- The state of a station whose paused slot goes on (R13, R100). -/
def resumed (s : State) (i : SlotId) (x : Exchange) : State :=
  (s.setEx i (some (s.quietAgain { x with localPause := false, walk := { x.walk with gate := none } }))).holdDropped i

theorem withdraw_resume {s : State} {i : SlotId} {x : Exchange} (hx : s.ex i = some x)
    (hs : x.state = .sending ∨ x.state = .receiving ∨ x.state = .finishing) (hl : s.txq.line = []) :
    (s.updEx i (Exchange.resume s.par)).withdraw i FrameBody.isHold = s.resumed i x := by
  rw [updEx_of_some hx, resume_eq s x hs]
  exact withdraw_isHold hl

/-- A paused sender goes on (R100). -/
theorem continueSlot_of_sender {s : State} {i : SlotId} {x : Exchange} (hx : s.ex i = some x)
    (hp : x.localPause = true) (hs : x.state = .sending) (hl : s.txq.line = []) (hside : x.side = .sender) :
    s.continueSlot i = s.resumed i x := by
  simp only [continueSlot, hx, hp, if_true, hside]
  exact withdraw_resume hx (.inl hs) hl

/-- A paused receiver goes on, and its CREDIT is due (R100). -/
theorem continueSlot_of_receiver {s : State} {i : SlotId} {x : Exchange} (hx : s.ex i = some x)
    (hp : x.localPause = true) (hs : x.state = .receiving ∨ x.state = .finishing) (hl : s.txq.line = [])
    (hside : x.side = .receiver) : s.continueSlot i = (s.resumed i x).dueCredit i := by
  simp only [continueSlot, hx, hp, if_true, hside]
  rw [withdraw_resume hx (.inr hs) hl]

theorem resumed_ex (s : State) (i : SlotId) (x : Exchange) : (s.resumed i x).ex i =
    some (s.quietAgain { x with localPause := false, walk := { x.walk with gate := none } }) := ex_setEx_self ..

theorem resumed_gen (s : State) (i : SlotId) (x : Exchange) : (s.resumed i x).gen i = s.gen i := gen_setEx ..

theorem resumed_ctrl (s : State) (i : SlotId) (x : Exchange) : (s.resumed i x).txq.ctrl =
    s.txq.ctrl.filter fun y => y.inSlot || !(y.owner == .slot i (s.gen i) && y.frame.body == .hold) := by
  unfold resumed holdDropped
  rw [gen_setEx]
  rfl

theorem resumed_eq (s : State) (i : SlotId) (x : Exchange) : s.resumed i x = { s with
    xen := (s.setEx i (some (s.quietAgain { x with localPause := false, walk := { x.walk with gate := none } }))).xen,
    txq := { s.txq with
      ctrl := s.txq.ctrl.filter fun y => y.inSlot || !(y.owner == .slot i (s.gen i) && y.frame.body == .hold) } } := by
  unfold resumed holdDropped
  rw [gen_setEx]
  rfl

theorem side_eq_receiver_iff (e : Exchange) : e.side = .receiver ↔
    e.role = .originator ∧ e.dir = .pull ∨ e.role = .responder ∧ e.dir = .push := by
  unfold Exchange.side
  cases e.role <;> cases e.dir <;> simp

/-- The CREDIT of a receiver that goes on is placed with the limit granted (R100). -/
theorem resumed_dueCredit {s : State} {i : SlotId} (x : Exchange) (hc : s.ctrlOpen)
    (hno : ∀ y ∈ s.txq.ctrl, y.inSlot = false → y.owner = .slot i (s.gen i) → ∀ l, y.frame.body ≠ .credit l) :
    (s.resumed i x).dueCredit i = (s.resumed i x).enqueued
      ⟨x.peer, s.sn, x.role == Role.originator, x.tag, .credit (BitVec.ofNat 24 x.granted)⟩ (.slot i (s.gen i)) := by
  obtain ⟨tm, htm⟩ := s.quietAgain_timer { x with localPause := false, walk := { x.walk with gate := none } }
  have hopen : (s.resumed i x).ctrlOpen := by
    refine ⟨?_, hc.2.1, hc.2.2⟩
    rw [resumed_ctrl]
    exact Nat.lt_of_le_of_lt (List.length_filter_le ..) hc.1
  rw [dueCredit_of_open (s.resumed_ex i x) hopen, resumed_gen, htm]
  · rfl
  · intro y hy hin ho
    rw [resumed_ctrl] at hy
    rw [resumed_gen] at ho
    exact hno y (List.mem_filter.mp hy).1 hin ho

/-! ### DETACH -/

/-- The ABORT with which a detach ends a pending entry (R60). -/
def detachAbort (s : State) (d : Deferred) : CtrlEntry :=
  ⟨⟨d.peer, s.sn, false, d.tag, .abort .detaching⟩, .nobody, 0, false⟩

/-- The pending entries ended one after another, with entries free for all their ABORTs (R60). -/
theorem foldl_endPending : ∀ (l : List Deferred) (s : State), s.txq.ctrl.length + l.length ≤ 16 → s.txq.owed = [] →
    s.txq.line = [] → s.xen.rescanAt = none → s.xen.rescanWaits = false → s.sct.station ≠ .online →
    l.foldl endPending s = { s with
      txq := { s.txq with ctrl := s.txq.ctrl ++ l.map s.detachAbort },
      xen := { s.xen with deferred := s.xen.deferred.filter fun x => !l.any fun d => Deferred.isOf d.peer d.tag x } }
  | [], s, _, _, _, _, _, _ => by simp
  | d :: l, s, hlen, ho, hl, hat, hw, hs => by
    rw [List.length_cons] at hlen
    have hwaits : s.rescanWaitsAt (s.txq.ctrl.length + 1) = false := by simp [rescanWaitsAt, hw, hs]
    rw [List.foldl_cons, endPending_of_open (by omega) ho hl hat, hwaits]
    refine (foldl_endPending l _ ?_ (by exact ho) (by exact hl) (by exact hat) rfl (by exact hs)).trans ?_
    · simp only [List.length_append, List.length_singleton]
      omega
    · simp [detachAbort, sn, hw, List.filter_filter, Bool.and_comm]

/-- A detach ends every pending entry (R60, R148, R171). -/
theorem beginDetach_of_open {s : State} (hc : s.ctrlOpen) (hlen : s.txq.ctrl.length + s.xen.deferred.length ≤ 16) :
    s.beginDetach = { s with
      sct := { s.sct with station := .detaching, faultPin := false },
      xen := { s.xen with deferred := [], rescanWaits := false, rescanAt := none },
      txq := { s.txq with ctrl := s.txq.ctrl ++ s.xen.deferred.map s.detachAbort },
      rpt := { s.rpt with status := s.statusAfter, line := s.rpt.line.filter (· != ReportClaim.rescan) },
      lmp := { s.lmp with waiting := s.lmp.waiting ++ s.statusPlaced .detaching } } := by
  have hall : s.xen.deferred.filter (fun x => !s.xen.deferred.any fun d => Deferred.isOf d.peer d.tag x) = [] := by
    refine List.filter_eq_nil_iff.mpr fun x hx => ?_
    have hany : (s.xen.deferred.any fun d => Deferred.isOf d.peer d.tag x) = true :=
      List.any_eq_true.mpr ⟨x, hx, by simp [Deferred.isOf]⟩
    simp [hany]
  unfold beginDetach
  rw [enter_eq]
  refine (foldl_endPending s.xen.deferred _ (by exact hlen) (by exact hc.2.1) (by exact hc.2.2) (by exact rfl) (by exact rfl)
    (by simp)).trans ?_
  simp only [unclaimReport, hall]
  rfl

/-- Entry to PROBING with a free entry places the PROBE (R168). -/
theorem startProbe_of_room {s : State} (h : s.txq.ctrl.length < 16) : s.startProbe = State.enqueued
    ⟨s.sn, s.sn, true, ⟨0, 0⟩, .probe s.sct.tickCount⟩ .stationControl { s with
      sct := { s.sct with station := .probing, faultPin := false, probe := true },
      rpt := { s.rpt with status := s.statusAfter },
      lmp := { s.lmp with waiting := s.lmp.waiting ++ s.statusPlaced .probing } } := by
  unfold startProbe placeProbe
  rw [enter_eq, pushCtrl_of_room (by exact h)]
  rfl

theorem exec_detachOrder {s : State} {o : OrderRec} (hh : s.atHead o) (hk : o.kind = 0x07) :
    exec .detachOrder s = .next (s.takeDetach o) := by
  simp only [exec, execDetachOrder, headOfKind_of_atHead hh (kindOf_of_kind (k := .detach) hk)]

theorem exec_attachOrder {s : State} {o : OrderRec} (hh : s.atHead o) (hk : o.kind = 0x08) :
    exec .attachOrder s = .next (s.takeAttach o) := by
  simp only [exec, execAttachOrder, headOfKind_of_atHead hh (kindOf_of_kind (k := .attach) hk)]

theorem exec_clrOrder {s : State} {o : OrderRec} (hh : s.atHead o) (hk : o.kind = 0x09) :
    exec .clrOrder s = .next (s.takeClr o) := by
  have hkind : o.kindOf = some .clr := kindOf_of_kind (k := .clr) hk
  rw [exec_refusable (.inr (.inr (.inr ⟨rfl, rfl⟩))) (headToRefuse_of_headOrder (headOrder_of_atHead hh) (.inl hkind))]
  simp only [examine, hkind]

end State

/-! ### The statements -/

/-- Settles O45. -/
theorem cancelActs : Obligations.CancelActs := by
  intro s o hh hk
  rw [State.exec_cancelOrder hh hk]
  refine ⟨fun i x ht hx hroom => ?_, fun i ht hfull => ?_, fun ht hr => ?_⟩
  · rw [State.takeCancel_of_room ht hroom]
    refine ⟨fun hs => ?_, fun hs => ?_⟩
    · have hends := State.cancel_ends hx hs
      obtain ⟨-, hord, -⟩ := hends.rest
      exact ⟨s.cancel i, hends, congrArg (fun u : State => Host.Outcome.next u.orderTaken)
        (State.awaitRelease_of_room (by rw [hord]; exact hroom) (hends.gens i) o .cancel)⟩
    · rw [State.cancel_of_retiring hx hs, State.awaitRelease_of_room hroom rfl]
  · simp only [State.takeCancel, ht, State.ackRoom_eq_false hfull, Bool.false_eq_true, if_false]
    rfl
  · simp only [State.takeCancel, ht]
    rw [State.takeWith_of_open hr]

/-- Settles O46: a paused sender, a paused receiver, a slot that is not paused, and no target. -/
theorem continueResumes : Obligations.ContinueResumes := by
  intro s o hh hk hr
  rw [State.exec_continueOrder hh hk]
  refine ⟨fun i x ht hx hp hside hs hl => ?_, fun i x ht hx hp hside hs hc hno => ?_, fun i x ht hx hp => ?_,
    fun ht => ?_⟩
  · have hruns : s.quietAgain { x with localPause := false, walk := { x.walk with gate := none } } =
        s.quietStarted { x with localPause := false, walk := { x.walk with gate := none } } :=
      if_pos (by simp [Exchange.quietRuns, hs])
    rw [State.takeContinue_of_target ht hr, State.continueSlot_of_sender (by exact hx) hp hs (by exact hl)
      ((State.side_eq_sender_iff x).mpr hside), State.resumed_eq, ← hruns]
    rfl
  · rw [State.takeContinue_of_target ht hr, State.continueSlot_of_receiver (by exact hx) hp hs (by exact hc.2.2)
      ((State.side_eq_receiver_iff x).mpr hside), State.resumed_dueCredit x (by exact hc) (by exact hno),
      State.resumed_eq]
    rfl
  · rw [State.takeContinue_of_target ht hr, State.continueSlot_of_running (by exact hx) hp]
  · simp only [State.takeContinue, ht]
    rw [State.takeWith_of_open hr]

/-- Settles O47. -/
theorem detachAttachClrTaken : Obligations.DetachAttachClrTaken := by
  intro s o hh
  refine ⟨fun hk hst hroom hc hlen => ?_, fun hk hst hr => ?_, fun hk hst hr hlen => ?_, fun hk hst hr => ?_,
    fun hk hst => ⟨fun hroom => ?_, fun hfull => ?_⟩⟩
  · have hack : s.ackRoom = true := decide_eq_true hroom
    rw [State.exec_detachOrder hh hk]
    simp only [State.takeDetach, hst, hack, if_true, State.taken_eq]
    rw [State.beginDetach_of_open hc hlen, State.addAck_of_room (by exact hroom)]
    rfl
  · rw [State.exec_detachOrder hh hk]
    simp only [State.takeDetach, hst, if_false]
    rw [State.takeWith_of_open hr]
  · rw [State.exec_attachOrder hh hk]
    simp only [State.takeAttach, (s.offLane_iff).mpr hst, State.reportTurn_of_open hr, if_true, State.taken_eq]
    rw [State.pushReport_of_open (k := 0) hr, State.startProbe_of_room (by exact hlen)]
    rfl
  · have hoff : s.offLane = false := by simp [State.offLane, hst]
    rw [State.exec_attachOrder hh hk]
    simp only [State.takeAttach, hoff, Bool.false_eq_true, if_false]
    rw [State.takeWith_of_open hr]
  · have hack : s.ackRoom = true := decide_eq_true hroom
    have hclr : s.clrRefusal = none := by rw [State.clrRefusal_eq, hst]; rfl
    rw [State.exec_clrOrder hh hk]
    simp only [State.takeClr, hclr, hack, if_true, State.taken_eq]
    rw [State.addAck_of_room (by exact hroom)]
    rfl
  · have hclr : s.clrRefusal = none := by rw [State.clrRefusal_eq, hst]; rfl
    rw [State.exec_clrOrder hh hk]
    simp only [State.takeClr, hclr, State.ackRoom_eq_false hfull, Bool.false_eq_true, if_false]
    rfl

namespace State

/-- When the head may be fetched (R138, R160, R164; log 31). -/
theorem mayFetch_iff (s : State) : s.mayFetch = true ↔ s.takesOrders = true ∧ s.ord.orderFault = false ∧
    s.ord.head = .absent ∧ s.ord.producer ≠ s.ord.taken ∧ s.ord.indexWrite = false ∧ s.ord.ringRead = .idle := by
  have hpresent : 0 < s.ordersPresent ↔ s.ord.producer ≠ s.ord.taken := by
    unfold ordersPresent
    rw [Nat.pos_iff_ne_zero, ne_eq, ne_eq, ← BitVec.toNat_inj (x := s.ord.producer)]
    have h1 := s.ord.producer.isLt
    have h2 := s.ord.taken.isLt
    rw [BitVec.toNat_sub]
    omega
  simp [mayFetch, hpresent, and_assoc]

theorem exec_orderFetch (s : State) :
    exec .orderFetch s = .next (if s.mayFetch then (s.setHead .fetching).place s.fetchRequest else s) := rfl

/-- A head just fetched, before its checks (R138, R160). -/
def fetched (s : State) (o : OrderRec) : State := { s.portFree with
  ord := { s.ord with head := .record o .examine },
  lmp := { s.portFree.lmp with waiting := s.lmp.waiting ++ s.orderDue } }

theorem exec_orderFetchDone {s : State} {q : Request} {bytes : List Byte} (hq : s.ending q)
    (hp : q.purpose = .orderFetch) (hlen : bytes.length = 32) :
    exec (.orderFetchDone bytes) s = .next (s.fetched (OrderRec.parse bytes)).refuseHead := by
  have hpurpose : (q.purpose == .orderFetch && decide (bytes.length = 32)) = true := by simp [hp, hlen]
  have hends : s.transferOf (fun p => p == .orderFetch && decide (bytes.length = 32)) = some q :=
    transferOf_of_ending hq hpurpose
  have hst : s.sct.station ≠ .fault := (runs_up hq.1).2
  have hnext : (s.endRequest.setHead (.record (OrderRec.parse bytes) .examine)).nextOrderTransfer =
      s.fetched (OrderRec.parse bytes) := nextOrderTransfer_eq _
  simp only [exec, execOrderFetchDone, hends, hst, if_false, hnext]

theorem exec_indexWriteDone {s : State} {q : Request} (hq : s.ending q) (hp : q.purpose = .indexWrite) :
    exec .indexWriteDone s = .next { s.endRequest with ord := { s.ord with indexWrite := false } }.nextOrderTransfer := by
  have hends : s.transferOf (fun p => p == .indexWrite) = some q := transferOf_of_ending hq (by simp [hp])
  have hst : s.sct.station ≠ .fault := (runs_up hq.1).2
  simp only [exec, execIndexWriteDone, hends, hst, if_false]

theorem refuseHead_of_passes {s : State} {o : OrderRec} (h : s.headOrder = some o) (hr : s.refusal o = none) :
    s.refuseHead = s := by
  simp only [refuseHead, h, hr]

theorem refuseHead_of_refused {s : State} {o : OrderRec} {why : Reason} (h : s.headOrder = some o)
    (hr : s.refusal o = some why) : s.refuseHead = s.takeWith o (.failed o.tag why none 0) := by
  simp only [refuseHead, h, hr]
  rfl

end State

/-- Settles O48: the fetch, its end, and the end of the index write. -/
theorem orderReadPath : Obligations.OrderReadPath := by
  refine ⟨fun s ht hf hh hp hw hr => ?_, fun s h => ?_, fun s q bytes o hq hpurpose hlen ho ht hf t htdef => ?_,
    fun s q hq hpurpose t htdef => ?_⟩
  · rw [State.exec_orderFetch, if_pos (s.mayFetch_iff.mpr ⟨ht, hf, hh, hp, hw, hr⟩)]
    rfl
  · rw [State.exec_orderFetch, if_neg]
    rw [State.mayFetch_iff]
    rintro ⟨ht, hf, hh, hp, hw, hr⟩
    simp [ht, hf, hh, hp, hw, hr] at h
  · subst ho
    have hhead : (s.fetched (OrderRec.parse bytes)).headOrder = some (OrderRec.parse bytes) :=
      State.headOrder_of_atHead ⟨ht, hf, rfl⟩
    have hreason : (s.fetched (OrderRec.parse bytes)).refusal (OrderRec.parse bytes) =
        s.reasonToRefuse (OrderRec.parse bytes) := State.refusal_eq ..
    rw [State.exec_orderFetchDone hq hpurpose hlen, htdef]
    refine ⟨fun hpass => ?_, fun why hwhy => ⟨fun hopen => ?_, fun hfull hl => ?_⟩⟩
    · rw [State.refuseHead_of_passes hhead (hreason.trans hpass)]
      rfl
    · rw [State.refuseHead_of_refused hhead (hreason.trans hwhy), State.takeWith_of_open (by exact hopen)]
      rfl
    · rw [State.refuseHead_of_refused hhead (hreason.trans hwhy), State.takeWith_of_full (by exact hfull) (by exact hl)]
      rfl
  · rw [State.exec_indexWriteDone hq hpurpose, State.nextOrderTransfer_eq, htdef]
    rfl

end Sys2Proof.Machine
end

section
/-!
SUPPORT. The credit allocator's choice: who is eligible, and what one service leaves behind (R88, R90).
-/

namespace Sys2Proof.Machine

namespace State

/-! ### Who is eligible for a grant (R88) -/

theorem grantEligible_iff (s : State) (i : SlotId) : s.grantEligible i = true ↔
    ∃ e, s.ex i = some e ∧ e.state = .receiving ∧ e.localPause = false ∧ s.outstanding i < s.par.window ∧
      (e.granted + 255) / 256 < (e.length + 255) / 256 := by
  have hcells (e : Exchange) : 0 < e.cellsToGrant ↔ (e.granted + 255) / 256 < (e.length + 255) / 256 := by
    unfold Exchange.cellsToGrant cellsOf
    omega
  cases he : s.ex i with
  | none => simp [grantEligible, he]
  | some e => simp [grantEligible, he, hcells, and_assoc]

/-! ### The limit of a waiting CREDIT raised (R90, R108) -/

/-- The one WAITING CREDIT of a slot carries the raised limit, and every other entry of the queue stays as it is. -/
theorem raiseCredit_of_one {s : State} {i : SlotId} {pre post : List CtrlEntry} {y : CtrlEntry} {l : BitVec 24}
    (hctrl : s.txq.ctrl = pre ++ y :: post) (hin : y.inSlot = false) (ho : y.owner = .slot i (s.gen i))
    (hb : y.frame.body = .credit l)
    (hrest : ∀ z ∈ pre ++ post, z.inSlot = false → z.owner = .slot i (s.gen i) → ∀ m, z.frame.body ≠ .credit m)
    (limit : Nat) : s.raiseCredit i limit = { s with txq := { s.txq with
      ctrl := pre ++ { y with frame := { y.frame with body := .credit (BitVec.ofNat 24 limit) } } :: post } } := by
  have hy : s.isWaitingCredit i y = true :=
    (isWaitingCredit_iff s i y).mpr ⟨hin, ho, y.frame.body.isCredit_iff.mpr ⟨l, hb⟩⟩
  have hkeep (q : List CtrlEntry) (hq : ∀ z ∈ q, z ∈ pre ++ post) : q.map (fun c =>
      if s.isWaitingCredit i c then { c with frame := { c.frame with body := .credit (to24 limit) } } else c) = q := by
    refine (List.map_congr_left fun z hz => ?_).trans q.map_id
    rw [isWaitingCredit_eq_false (hrest z (hq z hz))]
    rfl
  unfold raiseCredit
  rw [hctrl, List.map_append, List.map_cons, hkeep pre fun z hz => List.mem_append_left _ hz,
    hkeep post fun z hz => List.mem_append_right _ hz, if_pos hy]
  rfl

theorem dueCredit_of_waiting {s : State} {i : SlotId} {e : Exchange} {pre post : List CtrlEntry} {y : CtrlEntry}
    {l : BitVec 24} (he : s.ex i = some e) (hctrl : s.txq.ctrl = pre ++ y :: post) (hin : y.inSlot = false)
    (ho : y.owner = .slot i (s.gen i)) (hb : y.frame.body = .credit l)
    (hrest : ∀ z ∈ pre ++ post, z.inSlot = false → z.owner = .slot i (s.gen i) → ∀ m, z.frame.body ≠ .credit m) :
    s.dueCredit i = { s with txq := { s.txq with ctrl := pre ++ { y with frame :=
      { y.frame with body := .credit (BitVec.ofNat 24 e.granted) } } :: post } } := by
  have hany : s.txq.ctrl.any (s.isWaitingCredit i) = true :=
    List.any_eq_true.mpr ⟨y, by simp [hctrl],
      (isWaitingCredit_iff s i y).mpr ⟨hin, ho, y.frame.body.isCredit_iff.mpr ⟨l, hb⟩⟩⟩
  simp only [dueCredit, he, hany, if_true]
  exact raiseCredit_of_one hctrl hin ho hb hrest e.granted

/-! ### The choice (R88) -/

theorem exec_creditGrant_of_runs {s : State} (h : s.runs = true) : exec .creditGrant s = .next s.chooseGrant := by
  simp only [exec, execCreditGrant, h, if_true]

theorem chooseGrant_of_turn {s : State} {i : SlotId} (hc : s.emptyCells ≠ [])
    (hi : inTurn s.grantEligible s.stg.lastGrant i) : s.chooseGrant =
      ({ s.grant i with stg := { (s.grant i).stg with lastGrant := i } } : State).dueCredit i := by
  have hfree : s.freeCells.isEmpty = false := by
    simpa [freeCells_eq] using hc
  simp only [chooseGrant, hfree, find_inTurn hi.1 hi.2]
  rfl

theorem chooseGrant_of_none {s : State} (h : s.emptyCells = [] ∨ ∀ i, s.grantEligible i = false) :
    s.chooseGrant = s := by
  rcases h with hc | hno
  · simp [chooseGrant, freeCells_eq, hc]
  · have hfind : (afterSlot s.stg.lastGrant).find? s.grantEligible = none :=
      List.find?_eq_none.mpr fun j _ => by simp [hno j]
    simp [chooseGrant, hfind]

end State

/-- Settles O52: who is eligible, what one service of the allocator leaves, and when it leaves everything as it is. -/
theorem creditGranted : Obligations.CreditGranted := by
  refine ⟨State.grantEligible_iff, fun s i e k limit hrun hcells hturn he hopen hk hlimit => ?_, fun s hrun hno => ?_⟩
  · obtain ⟨cells, hres, hgrant⟩ := State.grant_of_some he hk hlimit
    refine ⟨cells, hres, fun t ht => ?_⟩
    have hchoice : exec .creditGrant s = .next (t.dueCredit i) := by
      rw [State.exec_creditGrant_of_runs hrun, State.chooseGrant_of_turn hcells hturn, hgrant, ht]
    have hgen : t.gen i = s.gen i := by
      rw [ht]
      exact State.gen_setEx ..
    obtain ⟨x, hx, hxg, hxp, hxr, hxt⟩ : ∃ x, t.ex i = some x ∧ x.granted = limit ∧ x.peer = e.peer ∧
        x.role = e.role ∧ x.tag = e.tag := by
      refine ⟨_, by rw [ht]; exact State.ex_setEx_self .., ?_⟩
      split <;> exact ⟨rfl, rfl, rfl, rfl⟩
    have hctrl : t.txq = s.txq := by rw [ht]; rfl
    have hsn : t.sn = s.sn := by rw [ht]; rfl
    refine ⟨fun hnone => ?_, fun pre y post l hsplit hin ho hb hrest => ?_⟩
    · rw [hchoice, State.dueCredit_of_open hx (by rw [State.ctrlOpen, hctrl]; exact hopen)
        (by rw [hctrl, hgen]; exact hnone), hxg, hxp, hxr, hxt, hgen, hsn]
    · rw [hchoice, State.dueCredit_of_waiting hx (by rw [hctrl]; exact hsplit) hin (by rw [hgen]; exact ho) hb
        (by rw [hgen]; exact hrest), hxg]
  · rw [State.exec_creditGrant_of_runs hrun, State.chooseGrant_of_none hno]

end Sys2Proof.Machine
end

section
/-!
SUPPORT. FILL_START and the end of a data read: who is eligible for a fill, and how the fill goes on (R80 to R84).
-/

namespace Sys2Proof.Machine

namespace State

/-! ### The examination of an empty mark queue -/

/-- With no mark queued the examination leaves the state as it is, so the outcome is that state (R76). -/
theorem MarksSettled.next_of_nil {s : State} {i : SlotId} {e : Exchange} {done : Nat}
    {o : Host.Outcome State Fault Refusal} (h : s.MarksSettled i e done o) (he : s.ex i = some e)
    (hm : e.walk.marks = []) : o = .next s :=
  (h 0 s (.rests he fun m rest hmarks => by simp [hm] at hmarks)).1 (.inl rfl)

/-! ### Who is eligible for a fill (R80) -/

theorem fillEligible_iff (s : State) (i : SlotId) : s.fillEligible i = true ↔
    ∃ e, s.ex i = some e ∧ e.state = .sending ∧ e.localPause = false ∧
      ((List.finRange 4).filter fun b => (s.buffer b).any fun v => v.slot == i && v.gen == s.gen i).length < 2 ∧
      (∀ b v, s.buffer b = some v → v.slot = i → v.gen = s.gen i → v.state ≠ .filling) ∧
      e.prepared < e.creditReceived ∧ e.prepared < e.length ∧ ∀ g, e.walk.gate = some g → e.prepared < g := by
  have hheld : (bufIds.filter (s.bufferIsOf i)).length =
      ((List.finRange 4).filter fun b => (s.buffer b).any fun v => v.slot == i && v.gen == s.gen i).length := by
    have hids : bufIds = List.finRange 4 := by decide
    rw [hids]
    congr 2
    funext b
    unfold bufferIsOf
    cases s.buffer b <;> rfl
  have hfilling : bufIds.any (s.bufferIn i .filling) = false ↔
      ∀ b v, s.buffer b = some v → v.slot = i → v.gen = s.gen i → v.state ≠ .filling := by
    have hmem (b : BufId) : b ∈ bufIds := by revert b; decide
    rw [List.any_eq_false]
    refine forall_congr' fun b => ?_
    cases hb : s.buffer b with
    | none => simp [bufferIn, hb]
    | some v => simp [bufferIn, hb, hmem b]
  cases he : s.ex i with
  | none => simp [fillEligible, he]
  | some e =>
    cases hg : e.walk.gate <;> simp [fillEligible, he, hg, hheld, hfilling, and_assoc]

/-! ### FILL_START (R80, R81) -/

/-- The state in which the fill of slot i into buffer b has begun, before its walk is asked. -/
def fillBegun (s : State) (i : SlotId) (b : BufId) (e : Exchange) : State :=
  let t := s.setBuffer b (some ⟨.filling, i, s.gen i, e.prepared, e.fillCeiling, []⟩)
  { t with fbd := { t.fbd with lastFill := i } }

theorem fillBegun_ex (s : State) (i j : SlotId) (b : BufId) (e : Exchange) : (s.fillBegun i b e).ex j = s.ex j := rfl

theorem fillBegun_buffer (s : State) (i : SlotId) (b : BufId) (e : Exchange) : (s.fillBegun i b e).buffer b =
    some ⟨.filling, i, s.gen i, e.prepared, e.fillCeiling, []⟩ :=
  buffer_setBuffer_self ..

theorem exec_fillStart_of_turn {s : State} {i : SlotId} {e : Exchange} {b : BufId} (hrun : s.runs = true)
    (hi : inTurn s.fillEligible s.fbd.lastFill i) (he : s.ex i = some e) (hb : s.buffer b = none)
    (hlow : ∀ b', b' < b → s.buffer b' ≠ none) : exec .fillStart s = .next ((s.fillBegun i b e).fillOn b) := by
  have hfree : (bufIds.find? fun b => (s.buffer b).isNone) = some b :=
    find_lowest_buffer (by simp [hb]) fun b' hb' => by simpa [Option.isSome_iff_ne_none] using hlow b' hb'
  simp only [exec, execFillStart, hrun, if_true, chooseFill, hfree, find_inTurn hi.1 hi.2, startFill, he]
  rfl

/-- An eligible exchange has bytes below the ceiling of its fill. -/
theorem prepared_lt_fillCeiling {e : Exchange} (hc : e.prepared < e.creditReceived) (hl : e.prepared < e.length) :
    e.prepared < e.fillCeiling := by
  unfold Exchange.fillCeiling
  omega

/-! ### The end of a data read (R81, R82, R84) -/

theorem exec_dataRead {s : State} {i : SlotId} {b : BufId} {addr : Nat} {bytes old : List Byte}
    (h : s.ending ⟨.dataRead i (s.gen i) b, addr, bytes.length, old⟩) :
    exec (.dataReadDone bytes) s = .next (s.dataDone i (s.gen i) b bytes) := by
  obtain ⟨hup, hst⟩ := runs_up h.1
  simp only [exec, execDataReadDone, hup, if_true, h.2, ne_eq, not_true_eq_false, if_false, hst]

variable {s : State} {i : SlotId} {e : Exchange} {b : BufId} {v : OutBuffer} (bytes : List Byte)

theorem dataDone_of_discarding (he : s.ex i = some e) (hb : s.buffer b = some v) (hv : v.state = .discarding) :
    s.dataDone i (s.gen i) b bytes =
      (s.portFree.setEx i (some { e with transfers := e.transfers - 1 })).setBuffer b none := by
  have hb' : (s.portFree.setEx i (some { e with transfers := e.transfers - 1 })).buffer b = some v := hb
  unfold dataDone
  rw [endTransfer_of_some he]
  simp only [hb', hv]

theorem dataDone_of_filling (he : s.ex i = some e) (hb : s.buffer b = some v) (hv : v.state = .filling) :
    s.dataDone i (s.gen i) b bytes =
      ((s.portFree.setEx i (some { e with transfers := e.transfers - 1 })).setBuffer b
        (some { v with payload := v.payload ++ bytes })).fillOn b := by
  have hb' : (s.portFree.setEx i (some { e with transfers := e.transfers - 1 })).buffer b = some v := hb
  unfold dataDone
  rw [endTransfer_of_some he]
  simp only [hb', hv]

/-- A fill at its ceiling is READY, and the mark queue is examined (R81, R76). -/
theorem fillOn_of_full {t : State} (hb : t.buffer b = some v) (hi : v.slot = i) (he : t.ex i = some e)
    (hc : v.ceiling ≤ e.prepared) : t.fillOn b = (t.setBuffer b (some { v with state := .ready })).settleMarks i := by
  subst hi
  simp only [fillOn, fillGo, hb, he, hc, if_true]

theorem setBuffer_setBuffer (t : State) (b : BufId) (v w : Option OutBuffer) :
    (t.setBuffer b v).setBuffer b w = t.setBuffer b w := by
  simp [setBuffer]

end State

/-- Settles O50: eligibility is the definition read out, FILL_START and the end of a data read are fills that go on. -/
theorem fillMakesBufferReady : Obligations.FillMakesBufferReady := by
  refine ⟨State.fillEligible_iff, fun s i e b top hrun hi he hb hlow htop t ht => ?_,
    fun s i e b v addr bytes old h he hb => ⟨fun hv => ?_, fun hv hslot hgen hc hm => ?_,
      fun hv hslot hgen e' v' done he' hv' hdone => ⟨fun hc => ?_, fun w a hc hs ha => ?_⟩⟩⟩
  · obtain ⟨e0, he0, hs, -, -, -, hcr, hlen, -⟩ := (s.fillEligible_iff i).mp hi.1
    obtain rfl : e = e0 := Option.some.inj (he.symm.trans he0)
    obtain rfl : top = e.fillCeiling := htop
    obtain rfl : t = s.fillBegun i b e := ht
    have hstep {w : Walk} {a : WalkAnswer} (ha : e.walk.Answers e.length e.fillCeiling w a) :=
      State.fillOn_step (s.fillBegun_buffer i b e) rfl ((s.fillBegun_ex i i b e).trans he) (by simp [hs])
        (State.prepared_lt_fillCeiling hcr hlen) ha
    rw [State.exec_fillStart_of_turn hrun hi he hb hlow]
    refine ⟨fun hg hm hcache hv => ?_, fun d c hg hm hcache hn hin hc => ?_, fun w a done ha hdone => ?_⟩
    · exact (hstep (.entry (by simp [hg]) hcache hv) _ rfl).next_of_nil (State.ex_setEx_self ..) hm
    · have ha := Walk.Answers.piece (w := e.walk) (length := e.length) (upto := e.fillCeiling) d c [] (by simp [hg])
        hcache hin (by rw [hg]; exact hc) (by simp [hn]) (.inl rfl)
      rw [List.append_nil] at ha
      exact (hstep ha _ rfl).next_of_nil (State.ex_setEx_self ..) hm
    · rw [hdone, ← State.doneBytes_eq]
      exact hstep ha
  · rw [State.exec_dataRead h, State.dataDone_of_discarding bytes he hb hv]
  · rw [State.exec_dataRead h, State.dataDone_of_filling bytes he hb hv]
    rw [State.fillOn_of_full (State.buffer_setBuffer_self ..) (by exact hslot) (by exact State.ex_setEx_self ..)
      (by exact hc), State.setBuffer_setBuffer, State.settleMarks_of_nil (by exact State.ex_setEx_self ..) (by exact hm)]
  · rw [State.exec_dataRead h, State.dataDone_of_filling bytes he hb hv]
    subst he' hv'
    rw [State.fillOn_of_full (State.buffer_setBuffer_self ..) (by exact hslot) (by exact State.ex_setEx_self ..)
      (by exact hc), State.setBuffer_setBuffer, hdone, ← State.doneBytes_eq]
    exact State.settleMarks_settled (State.ex_setEx_self ..)
  · rw [State.exec_dataRead h, State.dataDone_of_filling bytes he hb hv]
    subst he' hv'
    rw [hdone, ← State.doneBytes_eq]
    exact State.fillOn_step (State.buffer_setBuffer_self ..) hslot (State.ex_setEx_self ..) hs hc ha

end Sys2Proof.Machine
end

section
/-!
SUPPORT. The drain: who is drainable, how the chosen exchange goes on, and the end of a drain write (R95, R96).
-/

namespace Sys2Proof.Machine

/-! ### Who is drainable (R95) -/

theorem Walk.canGoOn_iff (w : Walk) (l u : Nat) : w.canGoOn l u = true ↔
    ∀ x a, w.Answers l u x a → a ≠ .wait ∧ (a = .gate → w.gate ≠ some w.offset) := by
  have hask : w.canGoOn l u = true ↔ (w.ask l u).2 ≠ .wait ∧ ((w.ask l u).2 = .gate → w.gate ≠ some w.offset) := by
    unfold Walk.canGoOn
    cases (w.ask l u).2 <;> simp
  rw [hask]
  refine ⟨fun h x a ha => ?_, fun h => h _ _ (Walk.answers_ask w l u)⟩
  rw [Walk.ask_of_answers ha] at h
  exact h

/-- Neither the gate nor a full mark queue stops a walk whose gate is open and whose mark queue has room. -/
theorem Walk.canGoOn_of_room {w : Walk} (hg : w.gate = none) (hm : w.marks.length < 8) (l u : Nat) :
    w.canGoOn l u = true := by
  refine (w.canGoOn_iff l u).mpr fun x a ha => ⟨?_, fun _ => by simp [hg]⟩
  rintro rfl
  cases ha with
  | pieceWaits d c _ _ _ _ _ _ hfull => omega
  | flagWaits d _ _ _ _ hfull => omega

namespace State

theorem drainable_of_ex {s : State} {i : SlotId} {e : Exchange} (he : s.ex i = some e) : s.drainable i = true ↔
    (e.state = .receiving ∨ e.state = .finishing) ∧ e.localPause = false ∧ e.drained < e.received ∧
      e.walk.canGoOn e.length e.drainEnd = true := by
  simp [drainable, he, and_assoc]

/-! ### The drain's choice (R95) -/

theorem exec_drainChoose_of_turn {s : State} {i : SlotId} (hrun : s.runs = true) (hidle : s.stg.drain = .idle)
    (hi : inTurn s.drainable s.stg.lastDrain i) : exec .drainChoose s = .next
      (({ s with stg := { s.stg with lastDrain := i } } : State).drainOn i) := by
  simp only [exec, execDrainChoose, hrun, if_true, chooseDrain, hidle, find_inTurn hi.1 hi.2]

/-! ### The end of a drain write (R96, R104) -/

/-- Slot i's record after the bytes of a drain write have reached local memory. -/
def writtenRecord (e : Exchange) (n : Nat) : Exchange :=
  { e with transfers := e.transfers - 1, drained := e.drained + n }

/-- The state in which the write of n bytes has ended, before the mark queue is examined. -/
def written (s : State) (i : SlotId) (e : Exchange) (n : Nat) : State :=
  { s.portFree.setEx i (some (writtenRecord e n)) with stg := { s.stg with drain := .idle } }

/-- The cell whose range the drain has passed is FREE (R96). -/
def cellPassed (u : State) (e : Exchange) (k : CellId) (x : Cell) (n : Nat) : State :=
  if min ((x.index + 1) * 256) e.length ≤ e.drained + n then u.setCell k none else u

section
variable {s : State} {i : SlotId} {e : Exchange} {k : CellId} {x : Cell} {addr n : Nat} {data : List Byte}

theorem written_ex : (s.written i e n).ex i = some (writtenRecord e n) := ex_setEx_self ..

theorem written_gen (j : SlotId) : (s.written i e n).gen j = s.gen j := gen_setEx ..

theorem exec_drainWrite (h : s.ending ⟨.drainWrite i (s.gen i) k, addr, n, data⟩) :
    exec .drainWriteDone s = .next (s.drainDone i (s.gen i) k n) := by
  obtain ⟨hup, hst⟩ := runs_up h.1
  simp only [exec, execDrainWriteDone, hup, if_true, h.2, hst, if_false]

/-- The transfer that has ended leaves the record, the drain is idle, and the record decides what is done. -/
theorem drainDone_of_live (he : s.ex i = some e) (hs : e.state = .receiving ∨ e.state = .finishing) :
    s.drainDone i (s.gen i) k n = (((s.written i e n).settleMarks i).freeDrained i k).dueDrained i := by
  obtain ⟨t, ht⟩ : ∃ t, t = (s.portFree.setEx i (some { e with transfers := e.transfers - 1 })).setDrain .idle :=
    ⟨_, rfl⟩
  have hex : t.ex i = some { e with transfers := e.transfers - 1 } := by
    rw [ht]
    exact ex_setEx_self ..
  have hlive : t.live i (s.gen i) = true := live_of_some hex (by rw [ht]; exact gen_setEx ..)
  have hdrained : t.drained i k n = (((s.written i e n).settleMarks i).freeDrained i k).dueDrained i := by
    have hrecord : (t.updEx i fun e => { e with drained := e.drained + n }) = s.written i e n := by
      rw [updEx_of_some hex, ht]
      exact congrArg (setDrain .idle) (setEx_setEx s.portFree i _ (some (writtenRecord e n)))
    unfold drained
    rw [hrecord]
  unfold drainDone
  rw [endTransfer_of_some he, ← ht]
  rcases hs with h | h <;> simp only [hlive, hex, h, hdrained, Bool.true_eq_false, if_false]

theorem drainDone_of_retiring (he : s.ex i = some e) (hs : e.state = .retiring) (hx : s.cell k = some x)
    (hxs : x.state = .reclaiming) : s.drainDone i (s.gen i) k n =
      { s.portFree.setEx i (some { e with transfers := e.transfers - 1 }) with
        stg := { s.stg with drain := .idle, cells := s.stg.cells.set k none } } := by
  obtain ⟨t, ht⟩ : ∃ t, t = (s.portFree.setEx i (some { e with transfers := e.transfers - 1 })).setDrain .idle :=
    ⟨_, rfl⟩
  have hex : t.ex i = some { e with transfers := e.transfers - 1 } := by
    rw [ht]
    exact ex_setEx_self ..
  have hlive : t.live i (s.gen i) = true := live_of_some hex (by rw [ht]; exact gen_setEx ..)
  have hcell : t.cell k = some x := by
    rw [ht]
    exact hx
  have hreclaimed : s.drainDone i (s.gen i) k n = t.freeReclaimed k := by
    unfold drainDone
    rw [endTransfer_of_some he, ← ht]
    simp only [hlive, hex, hs, Bool.true_eq_false, if_false]
  rw [hreclaimed]
  simp only [freeReclaimed, hcell, hxs, if_true]
  rw [ht]
  rfl

/-- Behind the examination of the mark queue the cell is passed, and DONE becomes due at the end in FINISHING. -/
theorem drainDone_eq {u : State} {e' : Exchange} (he : s.ex i = some e)
    (hs : e.state = .receiving ∨ e.state = .finishing) (hx : s.cell k = some x)
    (hu : (s.written i e n).settleMarks i = u) (hk : MarksKeep (s.written i e n) u i (writtenRecord e n) e') :
    s.drainDone i (s.gen i) k n =
      if e.state = .finishing ∧ e.drained + n = e.length then (u.cellPassed e k x n).dueDone i
      else u.cellPassed e k x n := by
  have hcell : u.cell k = some x := by
    rw [← hx]
    simp only [cell, hk.stg]
    rfl
  have hend : e'.cellEnd x.index ≤ e'.drained ↔ min ((x.index + 1) * 256) e.length ≤ e.drained + n := by
    rw [Exchange.cellEnd, hk.length, hk.drained]
    rfl
  have hfree : u.freeDrained i k = u.cellPassed e k x n := by
    simp only [freeDrained, hk.record, hcell, hend, cellPassed]
  have hex : (u.cellPassed e k x n).ex i = some e' := by
    unfold cellPassed
    split
    · exact hk.record
    · exact hk.record
  rw [drainDone_of_live he hs, hu, hfree]
  simp only [dueDrained, hex, hk.state, hk.drained, hk.length, writtenRecord]

/-- The DONE of a receiver at the end, placed where the control queue is open (R96, R102, R106). -/
theorem cellPassed_dueDone {u : State} {e' : Exchange} (hk : MarksKeep (s.written i e n) u i (writtenRecord e n) e')
    (hc : u.ctrlOpen) (hno : ∀ y ∈ u.txq.ctrl, y.owner = .slot i (s.gen i) → ∀ m, y.frame.body ≠ .done m) :
    (u.cellPassed e k x n).dueDone i = (u.cellPassed e k x n).enqueued
      ⟨e.peer, s.sn, e.role == Role.originator, e.tag, .done (BitVec.ofNat 24 e.length)⟩ (.slot i (s.gen i)) := by
  obtain ⟨t, ht⟩ : ∃ t, t = u.cellPassed e k x n := ⟨_, rfl⟩
  have hsame : t.txq = u.txq ∧ t.ex i = u.ex i ∧ t.gen i = u.gen i ∧ t.sct = u.sct := by
    rw [ht]
    unfold cellPassed
    split <;> exact ⟨rfl, rfl, rfl, rfl⟩
  obtain ⟨htxq, hex, hgen, hsct⟩ := hsame
  have hg : t.gen i = s.gen i := hgen.trans ((hk.gens i).trans (written_gen i))
  have hsn : t.sn = s.sn := by
    simp only [sn, hsct, hk.sct]
    rfl
  rw [← ht, dueDone_of_open (hex.trans hk.record) (by rw [ctrlOpen, htxq]; exact hc)
    (by rw [htxq, hg]; exact hno), hg, hsn, hk.peer, hk.role, hk.tag, hk.length]
  rfl

end

end State

/-- Settles O51: the drain's choice is a step of the drain, and the end of a write is its record's. -/
theorem drainMovesBytes : Obligations.DrainMovesBytes := by
  refine ⟨fun s i e he hg hm => ?_, fun s i e he => ?_, fun s i e hrun hidle hi he => ?_,
    fun s i e k x addr n data h he hx => ⟨fun hs hm hopen hno t ht => ?_, fun hs e1 t1 done he1 ht1 hdone => ?_,
      fun hs hxs => ?_⟩⟩
  · rw [State.drainable_of_ex he]
    simp only [Walk.canGoOn_of_room hg hm, and_true]
  · rw [State.drainable_of_ex he, Walk.canGoOn_iff]
    rfl
  · have hs : e.state ≠ .retiring := by
      obtain ⟨hs | hs, -⟩ := (State.drainable_of_ex he).mp hi.1 <;> simp [hs]
    have hstep {w : Walk} {a : WalkAnswer}
        (ha : e.walk.Answers e.length (min e.received ((e.drained / 256 + 1) * 256)) w a) :=
      State.drainOn_step (t := { s with stg := { s.stg with lastDrain := i } }) he hs ha
    rw [State.exec_drainChoose_of_turn hrun hidle hi]
    refine ⟨fun hg hm hcache hv => ?_, fun d c k x hg hm hcache hn hin hc hk hx => ?_, fun w a done ha hdone => ?_⟩
    · exact (hstep (.entry (by simp [hg]) hcache hv) _ rfl).next_of_nil (by exact State.ex_setEx_self ..) hm
    · have ha := Walk.Answers.piece (w := e.walk) (length := e.length)
        (upto := min e.received ((e.drained / 256 + 1) * 256)) d c [] (by simp [hg])
        hcache hin (by rw [hg]; exact hc) (by simp [hn]) (.inl rfl)
      rw [List.append_nil] at ha
      exact (hstep ha k x _ hk hx rfl).next_of_nil (by exact State.ex_setEx_self ..) hm
    · rw [hdone, ← State.doneBytes_eq]
      exact hstep ha
  · have hsettled : (s.written i e n).settleMarks i = s.written i e n :=
      State.settleMarks_of_nil State.written_ex hm
    have hkeep := State.MarksKeep.refl (State.written_ex (s := s) (i := i) (e := e) (n := n))
    have hpassed : (s.written i e n).cellPassed e k x n = t := by
      rw [ht]
      unfold State.cellPassed
      split <;> rfl
    rw [State.exec_drainWrite h, State.drainDone_eq he hs hx hsettled hkeep,
      State.cellPassed_dueDone hkeep (by exact hopen) (by exact hno), hpassed]
  · obtain rfl : e1 = State.writtenRecord e n := he1
    obtain rfl : t1 = s.written i e n := ht1
    have hlive : (State.writtenRecord e n).state ≠ .sending := by
      rcases hs with h | h <;> simp [State.writtenRecord, h]
    obtain ⟨e', hkeep⟩ := State.settleMarks_marksKeep State.written_ex hlive
    refine ⟨(s.written i e n).settleMarks i, ?_, fun v hv => ?_⟩
    · rw [show done = (State.writtenRecord e n).doneBytes from
        hdone.trans (State.doneBytes_eq (State.writtenRecord e n)).symm]
      exact State.settleMarks_settled State.written_ex
    · obtain rfl : v = ((s.written i e n).settleMarks i).cellPassed e k x n := hv
      rw [State.exec_drainWrite h, State.drainDone_eq he hs hx rfl hkeep]
      refine ⟨fun hnot => by rw [if_neg hnot], fun hfin hlen hopen hno => ?_⟩
      rw [if_pos ⟨hfin, hlen⟩, State.cellPassed_dueDone hkeep hopen hno]
  · rw [State.exec_drainWrite h, State.drainDone_of_retiring he hs hx hxs]

end Sys2Proof.Machine
end

section
/-!
SUPPORT. The end of an entry read: how the 16 bytes are read, and how the walk that asked for them goes on for the drain
or for the fill (R69, R72 to R77).
-/

namespace Sys2Proof.Machine

/-! ### The entry's bytes (R69) -/

theorem low_flags_clear_iff (f : Byte) :
    f &&& 0x07 = 0 ↔ f.getLsbD 0 = false ∧ f.getLsbD 1 = false ∧ f.getLsbD 2 = false := by
  revert f
  decide

theorem parse_link {bytes : List Byte} (hk : byteAt bytes 8 = 0x02) (hf : byteAt bytes 9 &&& 0x07 = 0)
    (ha : (le32 bytes 0).toNat % 16 = 0) : EntryRead.parse bytes = .link (le32 bytes 0) := by
  obtain ⟨h0, h1, h2⟩ := (low_flags_clear_iff _).mp hf
  unfold EntryRead.parse
  rw [if_neg (by simp [hk]), if_pos hk, if_neg (by rw [h0, h1, h2, ha]; decide)]

theorem parse_bad {bytes : List Byte} (h : byteAt bytes 8 ≠ 0x01 ∧ byteAt bytes 8 ≠ 0x02 ∨
    byteAt bytes 8 = 0x02 ∧ (byteAt bytes 9 &&& 0x07 ≠ 0 ∨ (le32 bytes 0).toNat % 16 ≠ 0)) :
    EntryRead.parse bytes = .bad := by
  rcases h with ⟨hdata, hlink⟩ | ⟨hlink, hbad⟩
  · unfold EntryRead.parse
    rw [if_neg hdata, if_neg hlink]
  · have hguard : ((byteAt bytes 9).getLsbD 0 || (byteAt bytes 9).getLsbD 1 || (byteAt bytes 9).getLsbD 2 ||
        (le32 bytes 0).toNat % 16 != 0) = true := by
      rw [ne_eq, low_flags_clear_iff] at hbad
      simp only [Bool.or_eq_true, bne_iff_ne]
      grind
    unfold EntryRead.parse
    rw [if_neg (by simp [hlink]), if_pos hlink, if_pos hguard]

/-! ### The walk that goes on (R71 to R75, R77) -/

/-- The walk when its entry read has brought a LINK or a DATA entry. -/
def EntryRead.onto (w : Walk) : EntryRead → Walk
  | .bad => w
  | .link base => w.follow base
  | .data d => w.cache d

/-- The walk whose read has brought an entry without bytes, END and PAUSE, or a LINK: at the next entry, or the first of
the new list, with the NOTE mark of the entry that is passed (R72, R75). -/
def Walk.movedTo (w : Walk) (base : Word) (index : Nat) (ms : List Mark) : Walk :=
  { w with base := base, index := index, inEntry := 0, cached := none, marks := w.marks ++ ms }

theorem Walk.follow_eq (w : Walk) (base : Word) : w.follow base = w.movedTo base 0 [] := by
  simp [Walk.follow, Walk.movedTo]

theorem Walk.passed_cache_of_plain {w : Walk} {d : Entry} (hp : d.pause = false) : (w.cache d).passed d =
    w.movedTo w.base (w.index + 1) (if d.note then [⟨w.base, w.index, w.offset, true, false⟩] else []) := by
  cases hn : d.note <;> simp [Walk.passed, Walk.cache, Walk.movedTo, hp, hn]

/-- The entry, whatever has led to it, is read while fewer than 4096 have been visited, and is a loop otherwise. -/
def Walk.Moves (w after : Walk) : Prop :=
  ∀ l u, (w.visited < 4096 → w.Answers l u { after with visited := w.visited + 1 }
      (.read (after.base.toNat + 16 * after.index))) ∧
    (4096 ≤ w.visited → w.Answers l u after (.error .listLoop))

theorem Walk.moves_of_link {w : Walk} (hg : w.gate = none) (base : Word) :
    (w.follow base).Moves (w.movedTo base 0 []) := by
  rw [← w.follow_eq]
  have hgate : (w.follow base).gate ≠ some (w.follow base).offset := by simp [Walk.follow, hg]
  exact fun l u => ⟨.entry hgate rfl, .loop hgate rfl⟩

theorem Walk.moves_of_empty {w : Walk} {d : Entry} (hg : w.gate = none) (hl : d.len = 0) (hf : d.fin = false)
    (hp : d.pause = false) (hroom : d.note = true → w.marks.length < 8) : (w.cache d).Moves
      (w.movedTo w.base (w.index + 1) (if d.note then [⟨w.base, w.index, w.offset, true, false⟩] else [])) := by
  rw [← Walk.passed_cache_of_plain hp]
  have hgate : (w.cache d).gate ≠ some (w.cache d).offset := by simp [Walk.cache, hg]
  have hlen : d.len ≤ (w.cache d).inEntry := by rw [hl]; exact Nat.zero_le _
  have hnote : d.note = false ∨ (w.cache d).marks.length < 8 := by
    cases hn : d.note
    · exact .inl rfl
    · exact .inr (hroom hn)
  exact fun l u => ⟨.next d hgate rfl hlen hnote hf hp, .nextLoop d hgate rfl hlen hnote hf hp⟩

/-! ### What the steps of the drain and of a fill say of the state before the walk's record -/

namespace State

variable {s : State} {i : SlotId} {e : Exchange} {w : Walk} {done : Nat} {o : Host.Outcome State Fault Refusal}

/-- A step of the drain speaks of slot i's record only through the record it leaves. -/
theorem DrainStep.of_setEx {x : Option Exchange} {a : WalkAnswer} (h : (s.setEx i x).DrainStep i e w done o a) :
    s.DrainStep i e w done o a := by
  cases a with
  | piece addr c =>
    intro k y e' hk hy he'
    have hset := h k y e' ((findCell_setEx ..).trans hk) hy he'
    rw [setEx_setEx, gen_setEx] at hset
    exact hset
  | read addr =>
    intro e' he'
    have hset := h e' he'
    rw [setEx_setEx, gen_setEx] at hset
    exact hset
  | gate =>
    rw [DrainStep, setEx_setEx] at h
    exact h
  | wait =>
    rw [DrainStep, setEx_setEx] at h
    exact h
  | error r =>
    rw [DrainStep, setEx_setEx] at h
    exact h

/-- A step of a fill speaks of slot i's record only through the record it leaves, unless it waits. -/
theorem FillStep.of_setEx {b : BufId} {v : OutBuffer} {settled : State → Exchange → Prop} {x : Option Exchange}
    {a : WalkAnswer} (ha : a ≠ .wait) (h : (s.setEx i x).FillStep i b v e w settled o a) :
    s.FillStep i b v e w settled o a := by
  cases a with
  | piece addr c =>
    intro e' he'
    have hset := h e' he'
    rw [setEx_setEx] at hset
    exact hset
  | read addr =>
    intro e' he'
    have hset := h e' he'
    rw [setEx_setEx] at hset
    exact hset
  | gate =>
    rw [FillStep, setEx_setEx] at h
    exact h
  | wait => exact absurd rfl ha
  | error r =>
    rw [FillStep, setEx_setEx] at h
    exact h

theorem useEntry_of_good {r : EntryRead} (hr : r ≠ .bad) :
    (s.setEx i (some e)).useEntry i r = (s.setEx i (some { e with walk := r.onto e.walk })).walkOn i := by
  cases r with
  | bad => exact absurd rfl hr
  | link base =>
    rw [useEntry, updEx_of_some (ex_setEx_self ..), setEx_setEx]
    rfl
  | data d =>
    rw [useEntry, updEx_of_some (ex_setEx_self ..), setEx_setEx]
    rfl

theorem walkOn_of_fills {b : BufId} {v : OutBuffer} (hdrain : ∀ g, s.stg.drain ≠ .choosing i g)
    (hf : s.fills i e b v) : s.walkOn i = s.fillOn b := by
  obtain ⟨hb, hi, hg, hv, -, hlow⟩ := hf
  rw [walkOn_of_filling hdrain hb hi hg hv hlow]
  subst hi
  simp only [fillOn, hb]

/-! ### The end of an entry read (R69, R72 to R74) -/

section
variable {addr n : Nat} {old bytes : List Byte} (h : s.ending ⟨.entryRead i (s.gen i), addr, n, old⟩)
  (he : s.ex i = some e) (hs : e.state ≠ .retiring) (hlen : bytes.length = 16)
include h he hs hlen

theorem exec_entryRead_good (hr : EntryRead.parse bytes ≠ .bad) : exec (.entryReadDone bytes) s = .next
    ((s.portFree.setEx i (some { e with
      transfers := e.transfers - 1, walk := (EntryRead.parse bytes).onto e.walk })).walkOn i) := by
  rw [exec_entryRead h he hs hlen, useEntry_of_good hr]

/-- An entry the drain has asked for feeds the drain. -/
theorem exec_entryRead_drain (hdrain : ∃ g, s.stg.drain = .choosing i g) (hr : EntryRead.parse bytes ≠ .bad)
    {a : WalkAnswer} (ha : ((EntryRead.parse bytes).onto e.walk).Answers e.length
      (min e.received ((e.drained / 256 + 1) * 256)) w a) :
    s.portFree.DrainStep i { e with transfers := e.transfers - 1, walk := (EntryRead.parse bytes).onto e.walk } w
      e.doneBytes (exec (.entryReadDone bytes) s) a := by
  obtain ⟨g, hdrain⟩ := hdrain
  rw [exec_entryRead_good h he hs hlen hr, walkOn_of_choosing (by exact hdrain)]
  exact (drainOn_step (ex_setEx_self ..) (by exact hs) (by exact ha)).of_setEx

/-- An entry the fill has asked for feeds the fill. -/
theorem exec_entryRead_fill (hdrain : ∀ g, s.stg.drain ≠ .choosing i g) {b : BufId} {v : OutBuffer}
    (hf : s.fills i e b v) (hr : EntryRead.parse bytes ≠ .bad) {a : WalkAnswer}
    (ha : ((EntryRead.parse bytes).onto e.walk).Answers e.length v.ceiling w a) :
    (s.portFree.setEx i (some { e with
        transfers := e.transfers - 1, walk := (EntryRead.parse bytes).onto e.walk })).FillStep i b v
      { e with transfers := e.transfers - 1, walk := (EntryRead.parse bytes).onto e.walk } w
      (fun x e' => x.MarksSettled i e' e.doneBytes (exec (.entryReadDone bytes) s)) (exec (.entryReadDone bytes) s) a := by
  have hfills : (s.portFree.setEx i (some { e with
      transfers := e.transfers - 1, walk := (EntryRead.parse bytes).onto e.walk })).fills i { e with
        transfers := e.transfers - 1, walk := (EntryRead.parse bytes).onto e.walk } b v := by
    unfold fills at hf ⊢
    rw [gen_setEx]
    exact hf
  rw [exec_entryRead_good h he hs hlen hr, walkOn_of_fills (by exact hdrain) hfills]
  exact fillOn_step hfills.1 hfills.2.1 (ex_setEx_self ..) (by exact hs) hfills.2.2.2.2.1 (by exact ha)

end

end State

end Sys2Proof.Machine
end

section
/-!
SUPPORT. The answers of a walk to whose cache a DATA entry has just come (R71 to R73, R75, R77; logs 18 and 19).
-/

namespace Sys2Proof.Machine

section
variable {w : Walk} {d : Entry} {l u c : Nat} {ms : List Mark}

/-- The mark of a flagged entry without bytes. -/
def Walk.emptyMarks (w : Walk) (d : Entry) : List Mark :=
  if d.note = true ∨ d.pause = true then [⟨w.base, w.index, w.offset, d.note, d.pause⟩] else []

theorem Walk.emptyMarks_ne_nil_iff : w.emptyMarks d ≠ [] ↔ d.note = true ∨ d.pause = true := by
  unfold Walk.emptyMarks
  by_cases hflag : d.note = true ∨ d.pause = true
  · rw [if_pos hflag]
    exact iff_of_true (List.cons_ne_nil _ _) hflag
  · rw [if_neg hflag]
    exact iff_of_false (fun hne => hne rfl) hflag

/-- The walk when an entry without bytes has been passed as it was read. -/
def Walk.pastEmpty (w : Walk) (d : Entry) : Walk :=
  { w with
    index := w.index + 1, inEntry := 0, cached := none, marks := w.marks ++ w.emptyMarks d,
    gate := if d.pause then some w.offset else none }

theorem Walk.passed_cache (hg : w.gate = none) : (w.cache d).passed d = w.pastEmpty d := by
  simp [Walk.passed, Walk.cache, Walk.pastEmpty, Walk.emptyMarks, hg]

theorem Walk.cache_gate_ne (hg : w.gate = none) : (w.cache d).gate ≠ some (w.cache d).offset := by
  simp [Walk.cache, hg]

theorem Walk.answers_empty_waits (hg : w.gate = none) (hl : d.len = 0) (hne : w.emptyMarks d ≠ [])
    (hfull : 8 ≤ w.marks.length) : (w.cache d).Answers l u (w.cache d) .wait :=
  .flagWaits d (Walk.cache_gate_ne hg) rfl hl.le (Walk.emptyMarks_ne_nil_iff.mp hne) hfull

theorem Walk.answers_empty_short (hg : w.gate = none) (hl : d.len = 0)
    (hroom : w.emptyMarks d = [] ∨ w.marks.length < 8) (hf : d.fin = true) :
    (w.cache d).Answers l u (w.pastEmpty d) (.error .listShort) := by
  rw [← Walk.passed_cache hg]
  refine .short d (Walk.cache_gate_ne hg) rfl hl.le (hroom.imp_left fun hnil => ?_) hf
  simpa [hnil] using Walk.emptyMarks_ne_nil_iff (w := w) (d := d)

theorem Walk.answers_empty_closes (hg : w.gate = none) (hl : d.len = 0)
    (hroom : w.emptyMarks d = [] ∨ w.marks.length < 8) (hf : d.fin = false) (hp : d.pause = true) :
    (w.cache d).Answers l u (w.pastEmpty d) .gate := by
  rw [← Walk.passed_cache hg]
  have hne : w.emptyMarks d ≠ [] := Walk.emptyMarks_ne_nil_iff.mpr (.inr hp)
  exact .closes d (Walk.cache_gate_ne hg) rfl hl.le (hroom.resolve_left hne) hf hp

/-- The walk when the first c bytes of the entry that was read have been handed out. -/
def Walk.intoEntry (w : Walk) (d : Entry) (c : Nat) (ms : List Mark) : Walk :=
  { w.cache d with inEntry := c, offset := w.offset + c, marks := w.marks ++ ms }

theorem Walk.answers_piece (hg : w.gate = none) (hl : 0 < d.len) (hc : c = min (u - w.offset) d.len)
    (hm : ms = if w.offset + c = l ∧ d.note = true then [⟨w.base, w.index, w.offset + c, true, false⟩] else [])
    (hroom : ms = [] ∨ w.marks.length < 8) :
    (w.cache d).Answers l u (w.intoEntry d c ms) (.piece d.addr.toNat c) := by
  have h := Walk.Answers.piece (w := w.cache d) (length := l) (upto := u) d c ms (Walk.cache_gate_ne hg) rfl hl
    (by simp [Walk.cache, hg, hc]) hm hroom
  rwa [show (w.cache d).inEntry = 0 from rfl, Nat.zero_add, Nat.add_zero] at h

theorem Walk.answers_piece_waits (hg : w.gate = none) (hl : 0 < d.len) (hc : c = min (u - w.offset) d.len)
    (hm : ms = if w.offset + c = l ∧ d.note = true then [⟨w.base, w.index, w.offset + c, true, false⟩] else [])
    (hne : ms ≠ []) (hfull : 8 ≤ w.marks.length) : (w.cache d).Answers l u (w.cache d) .wait := by
  obtain ⟨hend, hnote⟩ : w.offset + c = l ∧ d.note = true := by
    by_contra hno
    exact hne (hm.trans (if_neg hno))
  exact .pieceWaits d c (Walk.cache_gate_ne hg) rfl hl (by simp [Walk.cache, hg, hc]) hend hnote hfull

end

namespace State

section
variable {s : State} {i : SlotId} {e : Exchange} {w : Walk} {d : Entry} {a : WalkAnswer} {addr n : Nat}
  {old bytes : List Byte} (h : s.ending ⟨.entryRead i (s.gen i), addr, n, old⟩)
  (he : s.ex i = some e) (hs : e.state ≠ .retiring) (hlen : bytes.length = 16)
  (hparse : EntryRead.parse bytes = .data d)
include h he hs hlen hparse

/-- A DATA entry feeds the drain. -/
theorem exec_dataEntry_drain (hdrain : ∃ g, s.stg.drain = .choosing i g)
    (ha : (e.walk.cache d).Answers e.length (min e.received ((e.drained / 256 + 1) * 256)) w a) :
    s.portFree.DrainStep i { e with transfers := e.transfers - 1, walk := e.walk.cache d } w
      e.doneBytes (exec (.entryReadDone bytes) s) a := by
  have honto : (EntryRead.parse bytes).onto e.walk = e.walk.cache d := by
    rw [hparse]
    rfl
  rw [← honto] at ha ⊢
  exact exec_entryRead_drain h he hs hlen hdrain (by simp [hparse]) ha

/-- A DATA entry feeds the fill. -/
theorem exec_dataEntry_fill (hdrain : ∀ g, s.stg.drain ≠ .choosing i g) {b : BufId} {v : OutBuffer}
    (hf : s.fills i e b v) (ha : (e.walk.cache d).Answers e.length v.ceiling w a) :
    (s.portFree.setEx i (some { e with transfers := e.transfers - 1, walk := e.walk.cache d })).FillStep i b v
      { e with transfers := e.transfers - 1, walk := e.walk.cache d } w
      (fun x e' => x.MarksSettled i e' e.doneBytes (exec (.entryReadDone bytes) s)) (exec (.entryReadDone bytes) s) a := by
  have honto : (EntryRead.parse bytes).onto e.walk = e.walk.cache d := by
    rw [hparse]
    rfl
  rw [← honto] at ha ⊢
  exact exec_entryRead_fill h he hs hlen hdrain hf (by simp [hparse]) ha

end

end State

/-- Settles O49: what the entry is gives the walk's answer, and the answer the step of the drain or of the fill. -/
theorem entryReadFeedsDrain : Obligations.EntryReadFeedsDrain := by
  intro s i e e' addr n done old bytes o h he hs hlen he' ho hdone
  subst he' ho
  rw [← State.doneBytes_eq] at hdone
  subst hdone
  refine ⟨fun hbad => ?_, fun hg d ec hd hec => ?_⟩
  · rw [State.exec_entryRead h he hs hlen, parse_bad hbad]
    exact ⟨_, State.abortWith_ends (State.ex_setEx_self ..) (by exact hs) _, rfl⟩
  have hdata (hkind : byteAt bytes 8 = 0x01) : EntryRead.parse bytes = .data d := by rw [State.parse_data hkind, hd]
  refine ⟨fun r t e2 e3 m base index hwho hwhat he2 he3 => ?_,
    fun e2 m hkind hl hm he2 t ht => ⟨fun _ hdrain => ?_, fun b v hdrain hfill => ?_⟩,
    fun c upto m hkind hl hc hm => ⟨fun _ hdrain hupto => ?_, fun b v hdrain hfill hupto => ?_⟩⟩
  · obtain ⟨hgood, hmoves, hvisited⟩ : EntryRead.parse bytes ≠ .bad ∧
        ((EntryRead.parse bytes).onto e.walk).Moves (e.walk.movedTo base index m) ∧
        ((EntryRead.parse bytes).onto e.walk).visited = e.walk.visited := by
      rcases hwhat with ⟨hkind, hflags, halign, rfl, rfl, rfl⟩ | ⟨hkind, hl, hf, hp, rfl, hroom, rfl, rfl⟩
      · rw [parse_link hkind hflags halign]
        exact ⟨by simp, Walk.moves_of_link hg _, rfl⟩
      · rw [hdata hkind]
        exact ⟨by simp, Walk.moves_of_empty hg hl hf hp hroom, rfl⟩
    subst he3 he2
    rw [← hvisited]
    rcases hwho with ⟨-, hdrain, rfl, rfl⟩ | ⟨hdrain, ⟨b, v, hfill⟩, rfl, rfl⟩
    · exact ⟨fun hv => State.exec_entryRead_drain h he hs hlen hdrain hgood ((hmoves _ _).1 hv) _ rfl,
        fun hv => State.exec_entryRead_drain h he hs hlen hdrain hgood ((hmoves _ _).2 hv)⟩
    · have hgen : v.gen = s.gen i := hfill.2.2.1
      refine ⟨fun hv => ?_, fun hv =>
        (State.exec_entryRead_fill h he hs hlen hdrain hfill hgood ((hmoves _ _).2 hv)).of_setEx (by simp)⟩
      rw [← hgen]
      exact (State.exec_entryRead_fill h he hs hlen hdrain hfill hgood ((hmoves _ _).1 hv)).of_setEx (by simp) _ rfl
  · obtain rfl : m = e.walk.emptyMarks d := hm
    have hstep {w : Walk} {a : WalkAnswer} := State.exec_dataEntry_drain (w := w) (a := a) h he hs hlen (hdata hkind) hdrain
    subst ht he2 hec
    exact ⟨fun hne hfull => hstep (Walk.answers_empty_waits hg hl hne hfull), fun hroom =>
      ⟨fun hf => hstep (Walk.answers_empty_short hg hl hroom hf),
        fun hf hp => hstep (Walk.answers_empty_closes hg hl hroom hf hp)⟩⟩
  · obtain rfl : m = e.walk.emptyMarks d := hm
    have hstep {w : Walk} {a : WalkAnswer} :=
      State.exec_dataEntry_fill (w := w) (a := a) h he hs hlen (hdata hkind) hdrain hfill
    subst ht he2 hec
    exact ⟨fun m0 rest hne hfull hmarks => hstep (Walk.answers_empty_waits hg hl hne hfull) m0 rest hmarks, fun hroom =>
      ⟨fun hf => (hstep (Walk.answers_empty_short hg hl hroom hf)).of_setEx (by simp),
        fun hf hp => (hstep (Walk.answers_empty_closes hg hl hroom hf hp)).of_setEx (by simp)⟩⟩
  · have hstep {w : Walk} {a : WalkAnswer} := State.exec_dataEntry_drain (w := w) (a := a) h he hs hlen (hdata hkind) hdrain
    subst hec hupto
    refine ⟨fun hne hfull t ht => ?_, fun k x e2 hroom hk hx he2 => ?_⟩
    · subst ht
      exact hstep (Walk.answers_piece_waits hg hl hc hm hne hfull)
    · subst he2
      exact hstep (Walk.answers_piece hg hl hc hm hroom) k x _ hk hx rfl
  · have hstep {w : Walk} {a : WalkAnswer} :=
      State.exec_dataEntry_fill (w := w) (a := a) h he hs hlen (hdata hkind) hdrain hfill
    have hgen : v.gen = s.gen i := hfill.2.2.1
    subst hec hupto
    refine ⟨fun m0 rest hne hfull hmarks =>
      hstep (Walk.answers_piece_waits hg hl hc hm hne hfull) m0 rest hmarks, fun e2 hroom he2 => ?_⟩
    subst he2
    rw [← hgen]
    exact (hstep (Walk.answers_piece hg hl hc hm hroom)).of_setEx (by simp) _ rfl

end Sys2Proof.Machine
end

section
/-!
SUPPORT. A rescan of the Pending List: the entries before the first that an offer fits, that entry, and those behind it
(R61 to R64).
-/

namespace Sys2Proof.Machine

namespace State

/-! ### What Binds determines -/

theorem Reserves.unique {s : State} {a b : Vector (Option Cell) 64} {i : SlotId} {next k : Nat}
    (ha : s.Reserves a i next k) (hb : s.Reserves b i next k) : a = b :=
  Vector.ext fun n hn => (ha ⟨n, hn⟩).trans (hb ⟨n, hn⟩).symm

theorem Binds.unique {s t u : State} {i : SlotId} {o : OfferId} {v : Offer} {d : Deferred}
    {answer : BitVec 24 → FrameBody} (ht : s.Binds t i o v d answer) (hu : s.Binds u i o v d answer) : t = u := by
  obtain ⟨cells, hcells, ht⟩ := ht
  obtain ⟨cells', hcells', hu⟩ := hu
  obtain rfl := hcells.unique hcells'
  exact (ht _ rfl).trans (hu _ rfl).symm

/-- The line of R106 replaced. -/
def withCtrlLine (l : List CtrlClaim) (s : State) : State := { s with txq := { s.txq with line := l } }

/-- Binding speaks of the line of R106 nowhere. -/
theorem Binds.withCtrlLine {s t : State} {i : SlotId} {o : OfferId} {v : Offer} {d : Deferred}
    {answer : BitVec 24 → FrameBody} (h : s.Binds t i o v d answer) (l : List CtrlClaim) :
    (s.withCtrlLine l).Binds (t.withCtrlLine l) i o v d answer := by
  obtain ⟨cells, hcells, ht⟩ := h
  refine ⟨cells, hcells, fun u hu => ?_⟩
  rw [hu, ht _ rfl]
  split <;> rfl

/-! ### A rescan that is under way -/

/-- A rescan is under way at an ONLINE station: none is due, only its own claim stands in the line of R106, and nobody
waits for a report. -/
structure Rescanning (s : State) : Prop where
  online : s.sct.station = .online
  due : s.xen.rescanDue = false
  waits : s.xen.rescanWaits = false
  stands : s.xen.rescanAt = none
  line : s.txq.line = [.rescan]
  reports : s.rpt.line = []

theorem Rescanning.enqueued {s : State} (h : s.Rescanning) (f : Frame) (o : Owner) : (s.enqueued f o).Rescanning where
  online := h.online
  due := h.due
  waits := by simp [State.enqueued, rescanWaitsAt, h.due, h.waits]
  stands := h.stands
  line := h.line
  reports := h.reports

theorem Rescanning.reported {s : State} (h : s.Rescanning) (r : Report) : (s.reported r).Rescanning :=
  ⟨h.online, h.due, h.waits, h.stands, h.line, h.reports⟩

theorem Rescanning.binds {s t : State} {i : SlotId} {o : OfferId} {v : Offer} {d : Deferred}
    {answer : BitVec 24 → FrameBody} (h : s.Rescanning) (hb : s.Binds t i o v d answer) : t.Rescanning := by
  obtain ⟨cells, -, ht⟩ := hb
  have hbound : Rescanning { (s.setOffer o (some { v with state := .bound i })).setEx i (some (s.boundRecord i o v d)) with
      stg := { s.stg with cells := cells } } := ⟨h.online, h.due, h.waits, h.stands, h.line, h.reports⟩
  rw [ht _ rfl]
  split
  · exact (hbound.enqueued _ _).enqueued _ _
  · exact hbound.enqueued _ _

theorem Binds.deferred {s t : State} {i : SlotId} {o : OfferId} {v : Offer} {d : Deferred}
    {answer : BitVec 24 → FrameBody} (h : s.Binds t i o v d answer) : t.xen.deferred = s.xen.deferred := by
  obtain ⟨cells, -, ht⟩ := h
  rw [ht _ rfl]
  split <;> rfl

/-- With nothing left that an offer fits the rescan gives up its place in the line (R62). -/
theorem Rescanning.end_of_none {s : State} (h : s.Rescanning) {pre post : List Deferred}
    (hd : s.xen.deferred = pre ++ post) (hno : ∀ x ∈ post, s.matchOffer x.peer x.dir x.key = none) {n : Nat}
    (hn : post.length < n) : rescanFrom n pre.length s = s.withCtrlLine [] := by
  rw [rescanFrom_none hd hno hn, endRescan_false h.due h.waits h.stands h.line, h.reports]
  exact congrArg (fun l => ({ s with txq := { s.txq with line := [] }, rpt := { s.rpt with line := l } } : State))
    h.reports.symm

/-- At an entry that finds no slot FREE, or no control queue entry, the rescan stops, and is due again (R62). -/
theorem Rescanning.end_of_stop {s : State} (h : s.Rescanning) {pre mid post : List Deferred} {d : Deferred}
    {o : OfferId} {v : Offer} (hd : s.xen.deferred = pre ++ (mid ++ d :: post))
    (hno : ∀ x ∈ mid, s.matchOffer x.peer x.dir x.key = none) (hm : s.matchOffer d.peer d.dir d.key = some o)
    (hv : s.offer o = some v) (hfit : d.dir = .push ∧ d.size ≤ v.size ∨ d.dir = .pull ∧ v.size ≤ d.size)
    (hfull : s.freeSlot = none ∨ 16 ≤ s.txq.ctrl.length) {n : Nat} (hn : mid.length < n) :
    rescanFrom n pre.length s =
      { s with xen := { s.xen with rescanDue := true, rescanWaits := decide (16 ≤ s.txq.ctrl.length) } } := by
  rw [rescanFrom_stop hd hno hm hv hfit hfull hn, endRescan_true h.due h.stands h.line h.reports h.online]

/-! ### The entry a chosen offer fits (R63, R64) -/

section
variable {s : State} {pre post : List Deferred} {d : Deferred} {i : SlotId} {o : OfferId} {v : Offer} {n : Nat}
  (hd : s.xen.deferred = pre ++ d :: post) (hm : s.matchOffer d.peer d.dir d.key = some o) (hv : s.offer o = some v)
  (hturn : s.ctrlTurn .rescan = true)
include hd hm hv hturn

theorem rescanFrom_of_bind (hfit : d.dir = .push ∧ d.size ≤ v.size ∨ d.dir = .pull ∧ v.size ≤ d.size)
    (hfree : s.freeSlot = some i) : rescanFrom (n + 1) pre.length s =
      rescanFrom n pre.length ((s.eraseDeferred pre.length).bind i o .recall d.peer d.tag d.dir d.key d.size) := by
  have hget : s.xen.deferred[pre.length]? = some d := by rw [hd]; simp
  have hholds : s.offerHolds o d.dir d.size = true := by
    simp only [offerHolds, hv]
    refine (v.holds_iff d.dir d.size).mpr ?_
    rcases hfit with ⟨hdir, hle⟩ | ⟨hdir, hle⟩ <;> simp [hdir, hle]
  simp only [rescanFrom_succ, hget, hm, hholds, hfree, hturn, if_true]

theorem rescanFrom_of_tooLong (hlong : d.dir = .push ∧ v.size < d.size ∨ d.dir = .pull ∧ d.size < v.size)
    (hreport : s.reportTurn .rescan 1 = true) : rescanFrom (n + 1) pre.length s =
      rescanFrom n pre.length
        (((s.eraseDeferred pre.length).tooLong o d.peer d.tag d.key).unclaimReport .rescan) := by
  have hget : s.xen.deferred[pre.length]? = some d := by rw [hd]; simp
  have hholds : s.offerHolds o d.dir d.size = false := by
    simp only [offerHolds, hv]
    rw [← Bool.not_eq_true, v.holds_iff]
    rcases hlong with ⟨hdir, hlt⟩ | ⟨hdir, hlt⟩ <;> simp [hdir, Nat.not_le.mpr hlt]
  simp only [rescanFrom_succ, hget, hm, hholds, hturn, hreport, Bool.false_eq_true, if_true, if_false]

end

theorem eraseDeferred_of_split {s : State} {pre post : List Deferred} {d : Deferred}
    (hd : s.xen.deferred = pre ++ d :: post) :
    s.eraseDeferred pre.length = { s with xen := { s.xen with deferred := pre ++ post } } := by
  have herase : s.xen.deferred.eraseIdx pre.length = pre ++ post := by
    rw [hd, List.eraseIdx_append_of_length_le le_rfl]
    simp
  rw [eraseDeferred, herase]

theorem tooLong_of_room {s : State} {o : OfferId} {v : Offer} (hv : s.offer o = some v) (hc : s.txq.ctrl.length < 16)
    (hr : s.reportOpen 1) (p : Station) (t : Tag) (key : Word) :
    s.tooLong o p t key = (s.enqueued ⟨p, s.sn, false, t, .abort .tooLong⟩ .nobody).reported
      (.served v.orderTag p key 0 (.failed .tooLong none)) := by
  unfold tooLong
  rw [hv]
  dsimp only
  rw [pushCtrl_of_room hc, pushReport_of_open (k := 0) (by exact hr)]
  rfl

theorem exec_rescan_of_runs {s : State} (h : s.runs = true) : exec .rescan s = .next s.runRescan := by
  simp only [exec, execRescan, h, if_true]

/-! ### A due rescan up to its first entry that an offer fits -/

/-- The state in which a due rescan has begun, with the entries of a list left on the Pending List. -/
def rescanBegun (s : State) (l : List Deferred) : State :=
  { s with xen := { s.xen with deferred := l, rescanDue := false, rescanWaits := false } }

theorem rescanBegun_rescanning {s : State} (hst : s.sct.station = .online) (hat : s.xen.rescanAt = none)
    (hline : s.txq.line = [.rescan]) (hr : s.rpt.line = []) (l : List Deferred) : (s.rescanBegun l).Rescanning :=
  ⟨hst, rfl, rfl, hat, hline, hr⟩

/-- A due rescan walks to the first entry that an offer fits (R61, R62). -/
theorem exec_rescan_of_due {s : State} {pre post : List Deferred} {d : Deferred} (hrun : s.runs = true)
    (hst : s.sct.station = .online) (hdue : s.xen.rescanDue = true) (hat : s.xen.rescanAt = none)
    (hd : s.xen.deferred = pre ++ d :: post) (hpre : ∀ x ∈ pre, s.matchOffer x.peer x.dir x.key = none)
    (hfree : s.freeSlot ≠ none) (hc : s.txq.ctrl.length < 16) (ho : s.txq.owed = []) (hline : s.txq.line = [.rescan]) :
    exec .rescan s = .next (rescanFrom ((post.length + 1) + 1) pre.length (s.rescanBegun s.xen.deferred)) := by
  have hfuel : s.xen.deferred.length + 1 = ((post.length + 1) + 1) + pre.length := by
    rw [hd, List.length_append, List.length_cons]
    omega
  have hskip := rescanFrom_skip (s := s.rescanBegun s.xen.deferred) (front := []) (rest := d :: post) (k0 := 0)
    (by exact hd) rfl hpre ((post.length + 1) + 1)
  rw [Nat.zero_add, ← hfuel] at hskip
  rw [exec_rescan_of_runs hrun, runRescan_of_due hdue hat hst hfree hc ho hline, ← hskip]
  rfl

end State

/-- Settles O53: the entry that an offer fits is bound or answered with TOO_LONG, and the walk goes on behind it. -/
theorem rescanBinds : Obligations.RescanBinds := by
  refine ⟨fun s r u pre post d i o v hrun hst hdue hat hd hpre hfree hc ho hline hq hw hrl hm hv hr hu => ?_,
    fun s hrun hst hdue hat hfree hc ho hline hno => ?_, fun s hrun hdue hat => ?_⟩
  · have hbegun := State.exec_rescan_of_due hrun hst hdue hat hd hpre (by simp [hfree]) (by omega) ho hline
    have hscan := State.rescanBegun_rescanning hst hat hline hrl (pre ++ post)
    have hr' : r = (s.rescanBegun (pre ++ post)).withCtrlLine [] := hr
    have herase : (s.rescanBegun s.xen.deferred).eraseDeferred pre.length = s.rescanBegun (pre ++ post) :=
      State.eraseDeferred_of_split (s := s.rescanBegun s.xen.deferred) hd
    have hturn : (s.rescanBegun s.xen.deferred).ctrlTurn .rescan = true :=
      State.ctrlTurn_of_front (s := s.rescanBegun s.xen.deferred) (rest := []) (by exact Nat.lt_succ_of_lt hc) ho hline
    obtain ⟨b, hb, hbd, hbu, hexec⟩ : ∃ b : State, b.Rescanning ∧ b.xen.deferred = pre ++ post ∧
        u = b.withCtrlLine [] ∧ exec .rescan s = .next (State.rescanFrom (post.length + 1) pre.length b) := by
      rcases hu with ⟨hfit, hown, hbinds⟩ | ⟨hlong, hu⟩
      · have hbinds' : (s.rescanBegun (pre ++ post)).Binds
            ((s.rescanBegun (pre ++ post)).bind i o .recall d.peer d.tag d.dir d.key d.size) i o v d .recall :=
          State.bind_binds hv (by exact Nat.lt_succ_of_lt hc) ho (by
            intro c hmem
            exact ⟨by simpa using (hline ▸ hmem : c ∈ [CtrlClaim.rescan]), rfl⟩) (fun _ _ => hc) hown fun _ => rfl
        refine ⟨_, hscan.binds hbinds', hbinds'.deferred, ?_, ?_⟩
        · rw [hr'] at hbinds
          exact hbinds.unique (hbinds'.withCtrlLine [])
        · rw [hbegun, State.rescanFrom_of_bind (s := s.rescanBegun s.xen.deferred) hd hm hv hturn hfit hfree, herase]
      · have hopen : (s.rescanBegun s.xen.deferred).reportOpen 1 := ⟨hq, hw, hrl⟩
        refine ⟨_, (hscan.enqueued ⟨d.peer, s.sn, false, d.tag, .abort .tooLong⟩ .nobody).reported
          (.served v.orderTag d.peer d.key 0 (.failed .tooLong none)), rfl, ?_, ?_⟩
        · rw [hu, hr']
          rfl
        · rw [hbegun, State.rescanFrom_of_tooLong (s := s.rescanBegun s.xen.deferred) hd hm hv hturn hlong
            (State.reportTurn_of_open hopen _), herase,
            State.tooLong_of_room (by exact hv) (by exact Nat.lt_succ_of_lt hc) (by exact hopen),
            State.unclaimReport_of_nil (by exact hrl)]
          rfl
    subst hbu
    rw [hexec]
    refine ⟨fun hno => by rw [hb.end_of_none hbd hno (Nat.lt_succ_self _)],
      fun mid d' post' o' v' hsplit hmid hm' hv' hfit' hfull => ?_⟩
    rw [hb.end_of_stop (by rw [hbd, hsplit]) hmid hm' hv' hfit' hfull (by rw [hsplit]; simp), ← hb.line]
    rfl
  · have hskip := State.rescanFrom_none (s := s.rescanBegun s.xen.deferred) (front := []) rfl hno (Nat.lt_succ_self _)
    rw [State.exec_rescan_of_runs hrun, State.runRescan_of_due hdue hat hst hfree hc ho hline]
    exact congrArg _ (hskip.trans (State.endRescan_false rfl rfl hat hline))
  · simp [State.exec_rescan_of_runs hrun, State.runRescan, hat, hdue]

end Sys2Proof.Machine
end

section
/-!
SUPPORT. The release of a RETIRING slot: when it may happen, and the reports, offers, ACKs and rescan it leaves (R22, R65).
-/

namespace Sys2Proof.Machine

theorem Exchange.settled_of_outcome {e : Exchange} {r : Result} {a : AbortState} {why : Reason} (hs : e.state = .retiring)
    (ho : e.outcome = some ⟨r, a, why⟩) (ha : a = .settled ∨ a = .notNeeded) (ht : e.transfers = 0) :
    e.settled = some r := by
  simp only [Exchange.settled, hs, ho, ha, ht, and_self, if_true]

/-- A slot that may be released is RETIRING, its ABORT is settled or not needed, and no transfer is left (R22). -/
theorem Exchange.outcome_of_settled {e : Exchange} {r : Result} (h : e.settled = some r) :
    e.state = .retiring ∧ ∃ a why, e.outcome = some ⟨r, a, why⟩ ∧ (a = .settled ∨ a = .notNeeded) ∧ e.transfers = 0 := by
  unfold Exchange.settled at h
  split at h
  next o hs ho =>
    split at h
    next hfree =>
      obtain rfl := Option.some.inj h
      exact ⟨hs, o.abort, _, ho, hfree⟩
    next => cases h
  next => cases h

/-- Where the offer of a released slot leaves the Offer List, and with what cause (R65). -/
theorem Offer.closes_eq {v : Offer} {i : SlotId} (hv : v.state = .bound i ∨ v.state = .withdrawing i) (r : Result) :
    v.closes r = if r = .completed ∧ v.standing = false then some .used
      else if v.state = .withdrawing i then some .withdrawn else none := by
  cases r with
  | completed => cases hst : v.standing <;> rcases hv with h | h <;> simp [Offer.closes, hst, h]
  | failed c p => rcases hv with h | h <;> simp [Offer.closes, h]

theorem Head.afterRelease_eq (h : Head) : h.afterRelease = match h with
    | .record o .held => .record o .examine
    | h => h := by
  cases h with
  | absent => rfl
  | fetching => rfl
  | record o w => cases w <;> rfl

namespace State

/-! ### The reports (R22, R152) -/

theorem pushReports_of_room : ∀ (l : List Report) {s : State}, s.rpt.queue.length + l.length ≤ 8 →
    s.pushReports l = { s with rpt := { s.rpt with queue := s.rpt.queue ++ l } }
  | [], s, _ => by simp [pushReports]
  | r :: l, s, h => by
    have hlt : s.rpt.queue.length < Config.reportCap := by
      rw [List.length_cons] at h
      exact Nat.lt_of_lt_of_le (by omega : s.rpt.queue.length < 8) le_rfl
    have hpush : s.pushReport r = { s with rpt := { s.rpt with queue := s.rpt.queue ++ [r] } } := if_pos hlt
    have hrest := pushReports_of_room l (s := s.pushReport r) (by
      rw [hpush, List.length_append, List.length_singleton]
      rw [List.length_cons] at h
      omega)
    rw [show s.pushReports (r :: l) = (s.pushReport r).pushReports l from rfl, hrest, hpush]
    simp

/-! ### What a release leaves (R22, R65) -/

/-- The reports a release makes, and the Offer List and the posting order it leaves (R22, R65). -/
structure Releases (s : State) (e : Exchange) (r : Result) (reports : List Report) (offers : Vector (Option Offer) 32)
    (order : List OfferId) : Prop where
  reports : s.releaseReports e r = reports
  offers : ∀ t : State, t.xen = s.xen →
    t.freeOfferOf e r = { t with xen := { t.xen with offers := offers, postOrder := order } }

theorem releases_of_originator {s : State} {e : Exchange} (hr : e.role = .originator) (ho : e.offer = none) (r : Result) :
    s.Releases e r (match r with
      | .completed => [.finished e.orderTag e.length]
      | .failed c p => [.failed e.orderTag c p (e.bytesReported r)]) s.xen.offers s.xen.postOrder where
  reports := by
    cases r <;> simp only [releaseReports, hr]
  offers := fun t ht => by simp only [freeOfferOf, ho, ← ht]

theorem releases_of_responder {s : State} {e : Exchange} {o : OfferId} {v : Offer} (hr : e.role = .responder)
    (ho : e.offer = some o) (hv : s.offer o = some v) (r : Result) : s.Releases e r
      (Report.served e.orderTag e.peer e.key (e.bytesReported r) r ::
        ((v.closes r).toList.map fun c => .closed v.orderTag c))
      (s.xen.offers.set o (if v.closes r = none then some { v with state := .openState } else none))
      (if v.closes r = none then s.xen.postOrder else s.xen.postOrder.filter (· ≠ o)) where
  reports := by
    cases hc : v.closes r <;> simp [releaseReports, hr, boundOffer, ho, hv, hc]
  offers := fun t ht => by
    have hvt : t.offer o = some v := by rw [← hv, offer, ht, offer]
    cases hc : v.closes r <;> simp [freeOfferOf, ho, hvt, hc, setOffer, removeOffer, ht]

/-- The state a release leaves: the slot FREE at its next generation, the reports queued, the ACKs that await it due, a
held head due for examination and, in ONLINE, a rescan due (R22, R61, R147). -/
def released (s : State) (i : SlotId) (reports : List Report) (offers : Vector (Option Offer) 32)
    (order : List OfferId) : State :=
  { s with
    xen := { s.xen with
      slots := s.xen.slots.set i ⟨s.gen i + 1, none⟩, originOrder := s.xen.originOrder.filter (· != i),
      offers := offers, postOrder := order, rescanDue := s.xen.rescanDue || s.sct.station == .online,
      rescanWaits := s.xen.rescanWaits && s.freeSlot.isSome ||
        s.sct.station == .online && decide (16 ≤ s.txq.ctrl.length) },
    rpt := { s.rpt with queue := s.rpt.queue ++ reports },
    ord := { s.ord with
      acks := s.ord.acks.map fun x => if x.await = .release i (s.gen i) then { x with due := true } else x,
      head := s.ord.head.afterRelease },
    txq := { s.txq with
      line := if s.sct.station = .online ∧ CtrlClaim.rescan ∉ s.txq.line then s.txq.line ++ [.rescan]
        else s.txq.line } }

theorem releaseSlot_of_open {s : State} {e : Exchange} {r : Result} {reports : List Report}
    {offers : Vector (Option Offer) 32} {order : List OfferId} (h : s.Releases e r reports offers order)
    (hr : s.reportOpen reports.length) (i : SlotId) : s.releaseSlot i e r = s.released i reports offers order := by
  obtain ⟨hreports, hoffers⟩ := h
  unfold releaseSlot
  rw [hreports, pushReports_of_room reports hr.1,
    hoffers { s with rpt := { s.rpt with queue := s.rpt.queue ++ reports } } rfl,
    unclaimReport_of_nil (by exact hr.2.2), makeRescanDue_eq]
  simp only [ackEvent, freeSlotOf, released, beq_iff_eq]
  rfl

theorem exec_slotRelease_of_runs {s : State} (h : s.runs = true) (i : SlotId) :
    exec (.slotRelease i) s = .next (s.tryRelease i) := by
  simp only [exec, execSlotRelease, h, if_true]

theorem tryRelease_of_open {s : State} {i : SlotId} {e : Exchange} {r : Result} {reports : List Report}
    {offers : Vector (Option Offer) 32} {order : List OfferId} (he : s.ex i = some e) (hs : e.settled = some r)
    (h : s.Releases e r reports offers order) (hr : s.reportOpen reports.length) :
    s.tryRelease i = s.released i reports offers order := by
  have hturn : s.reportTurn (.release i) (s.releaseReports e r).length = true := by
    rw [h.reports]
    exact reportTurn_of_open hr _
  simp only [tryRelease, he, hs, hturn, if_true, releaseSlot_of_open h hr]

end State

/-- Settles O54: no other slot is released, and a release leaves what its role and its offer say. -/
theorem slotReleased : Obligations.SlotReleased := by
  refine ⟨fun s i hrun hno => ?_, fun s i e r a why n hrun he ho hn hs ha ht reports offers order hwhat hopen => ?_⟩
  · rw [State.exec_slotRelease_of_runs hrun]
    cases he : s.ex i with
    | none => simp only [State.tryRelease, he]
    | some e =>
      have hsettled : e.settled = none := by
        refine Option.eq_none_iff_forall_ne_some.mpr fun r hr => ?_
        obtain ⟨hs, a, why, ho, ha, ht⟩ := Exchange.outcome_of_settled hr
        obtain howed | hqueued | hlt := hno e r a why he hs ho
        · simp [howed] at ha
        · simp [hqueued] at ha
        · omega
      simp only [State.tryRelease, he, hsettled]
  · have hbytes : e.bytesReported r = n := by
      rw [hn]
      cases r with
      | completed => rfl
      | failed c p => simpa [Exchange.bytesReported] using State.doneBytes_eq e
    have hreleases : s.Releases e r reports offers order := by
      rcases hwhat with ⟨hrole, hoff, rfl, rfl, rfl⟩ | ⟨hrole, o, v, hoff, hv, hclosed⟩
      · have h := State.releases_of_originator (s := s) hrole hoff r
        rw [hbytes] at h
        cases r with
        | completed => exact (hn.trans (if_pos rfl)) ▸ h
        | failed c p => exact h
      · obtain ⟨hstate, rfl, rfl, rfl⟩ := hclosed _ rfl
        have h := State.releases_of_responder hrole hoff hv r
        rw [hbytes, Offer.closes_eq hstate] at h
        exact h
    rw [State.exec_slotRelease_of_runs hrun,
      State.tryRelease_of_open he (Exchange.settled_of_outcome hs ho ha ht) hreleases hopen]
    simp only [State.released, Head.afterRelease_eq] <;> rfl

end Sys2Proof.Machine
end

section
/-!
SUPPORT. NOTE_MARK and PAUSE_MARK: the head mark examined, one mark that acts, and NOTE marks that act ahead of a fill that
ends at an exhausted END entry (R75 to R77, R73).
-/

namespace Sys2Proof.Machine

namespace State

variable {s : State} {i : SlotId} {e : Exchange} {m : Mark} {c : Instr}

/-! ### The head mark examined -/

theorem headMarkIs_of_reached {l : List Mark} (he : s.ex i = some e) (hm : e.walk.marks = m :: l)
    (hpt : m.point ≤ e.doneBytes) (p : Mark → Bool) : s.headMarkIs i p = p m := by
  simp only [headMarkIs, headMark, he, hm, hpt, if_true]

/-- NOTE_MARK and PAUSE_MARK examine the mark queue where the head mark carries their flag; where its point is not
reached, the examination changes nothing (R76, R77). -/
theorem exec_mark {l : List Mark} (hrun : s.runs = true) (he : s.ex i = some e) (hm : e.walk.marks = m :: l)
    (hc : c = .noteMark i ∧ m.note = true ∨ c = .pauseMark i ∧ m.pause = true) :
    exec c s = .next (s.settleMarks i) := by
  by_cases hpt : m.point ≤ e.doneBytes
  · rcases hc with ⟨rfl, hflag⟩ | ⟨rfl, hflag⟩
    · simp only [exec, execNoteMark, hrun, headMarkIs_of_reached he hm hpt, hflag, and_self, if_true]
    · simp only [exec, execPauseMark, hrun, headMarkIs_of_reached he hm hpt, hflag, and_self, if_true]
  · have hsame : s.settleMarks i = s := settleMarks_of_unreached he fun x rest hx => by
      obtain ⟨rfl, -⟩ := List.cons.inj (hm.symm.trans hx)
      exact Nat.lt_of_not_le hpt
    rcases hc with ⟨rfl, -⟩ | ⟨rfl, -⟩
    · simp only [exec, execNoteMark, hsame, ite_self]
    · simp only [exec, execPauseMark, hsame, ite_self]

theorem exec_noteMark_of_notes {ms rest : List Mark} {done : Nat} (hrun : s.runs = true) (he : s.ex i = some e)
    (hm : e.walk.marks = ms ++ rest) (hne : ms ≠ []) (hr : s.notesReached ms rest done) :
    exec (.noteMark i) s = .next (s.settleMarks i) := by
  obtain ⟨m, l, rfl⟩ := List.exists_cons_of_ne_nil hne
  exact exec_mark hrun he hm (.inl ⟨rfl, (hr.1 m List.mem_cons_self).1⟩)

/-! ### One mark that acts (R76, R77) -/

/-- The only mark of the queue, its point reached and the queues free, acts, and nothing else happens. -/
theorem settleMarks_of_marked (he : s.ex i = some e) (hm : e.walk.marks = [m]) (hpt : m.point ≤ e.doneBytes)
    (hflag : m.note = true ∨ m.pause = true) (hb : ∀ b v, s.buffer b = some v → v.slot = i → v.state ≠ .filling)
    (ho : s.reportOpen (if m.note = true ∧ m.pause = true then 2 else 1))
    (hp : m.pause = true → s.ctrlOpen ∧ ∀ y ∈ s.txq.ctrl, y.owner = .slot i (s.gen i) → y.frame.body ≠ .hold) :
    s.settleMarks i = s.marked i e m := by
  obtain ⟨⟨e', he', hwalk, -⟩, -⟩ := marked_keeps s i e m
  have hmarks : e'.walk.marks = [] := by simp [hwalk, hm]
  have hrests : MarksAct i e.doneBytes 0 (s.marked i e m) (s.marked i e m) :=
    .rests he' fun x rest hx => by simp [hmarks] at hx
  have hacts : MarksAct i e.doneBytes 1 s (s.marked i e m) := .acts he hm hpt hflag ho hp hrests
  have hfill : s.fillRests i e := .inr (.inr fun b v hbuf hi _ => hb b v hbuf hi)
  exact Host.Outcome.next.inj (((settleMarks_settled he) 1 _ hacts).1 (.inr hfill))

theorem marked_of_note (hm : e.walk.marks = [m]) (hn : m.note = true) (hp : m.pause = false) : s.marked i e m =
    State.reported (.note e.orderTag m.base m.index)
      (s.setEx i (some { e with walk := { e.walk with marks := [] } })) := by
  simp [marked, hm, hn, hp, reported]

theorem marked_of_pause (hm : e.walk.marks = [m]) (hp : m.pause = true) : s.marked i e m =
    State.enqueued ⟨e.peer, s.sn, e.role == Role.originator, e.tag, .hold⟩ (.slot i (s.gen i))
      { s.setEx i (some { e with
          walk := { e.walk with marks := [] }, localPause := true, timer := { e.timer with run := .stopped } }) with
        rpt := { s.rpt with queue := s.rpt.queue ++
          (if m.note then [.note e.orderTag m.base m.index] else []) ++ [.paused e.orderTag m.point] } } := by
  simp [marked, hm, hp, List.append_assoc]

/-! ### NOTE marks ahead of a fill that ends (R75, R76, R73; log 18) -/

/-- The reached NOTE marks act, and the fill they made wait then ends the exchange at the exhausted END entry. -/
theorem settleMarks_of_short {ms rest : List Mark} {b : BufId} {v : OutBuffer} {d : Entry} (he : s.ex i = some e)
    (hm : e.walk.marks = ms ++ rest) (hne : ms ≠ []) (hr : s.notesReached ms rest e.doneBytes) (hf : s.fills i e b v)
    (hs : e.state = .sending) (ht : e.transfers = 0) (hg : e.walk.gate = none) (hc : e.walk.cached = some d)
    (hl : d.len ≤ e.walk.inEntry) (hfin : d.fin = true) (hroom : rest.length < 8) :
    ∃ w u, s.settleMarks i = u ∧
      State.Ends ((s.noted i e ms rest).setEx i (some { e with walk := w })) u i { e with walk := w }
        (.failed .listShort none) (some .listShort) := by
  obtain ⟨x, hx⟩ : ∃ x : Exchange, x = { e with walk := { e.walk with marks := rest } } := ⟨_, rfl⟩
  have hex : (s.noted i e ms rest).ex i = some x := by
    rw [hx]
    exact ex_setEx_self ..
  have hfills : (s.noted i e ms rest).fills i x b v := by
    have hgen : ∀ j, (s.noted i e ms rest).gen j = s.gen j := fun j => gen_setEx i j _ s
    unfold fills at hf ⊢
    rw [hgen, hx]
    exact hf
  have hask : x.walk.ask x.length v.ceiling = (x.walk.passed d, .error .listShort) := by
    rw [hx]
    exact Walk.ask_of_answers (.short d (by simp [hg]) hc hl (.inr hroom) hfin)
  have hresume : (s.noted i e ms rest).resumeFill i =
      ((s.noted i e ms rest).setEx i (some { x with walk := x.walk.passed d })).abortWith i .listShort := by
    rw [resumeFill_of_fills hex hfills (by rw [hx]; exact hs) (by rw [hx]; exact ht)]
    exact fillGo_error hfills.1 hfills.2.1 hex hfills.2.2.2.2.1 hask
  have hends := abortWith_ends (s := (s.noted i e ms rest).setEx i (some { x with walk := x.walk.passed d })) (i := i)
    (ex_setEx_self ..) (by simp [hx, hs]) .listShort
  refine ⟨x.walk.passed d, _, settleMarks_of_notes he hm hne hr hresume (headMark_of_nil hends.record rfl), ?_⟩
  rw [hx] at hends ⊢
  exact hends

end State

/-- Settles O55: both commands examine the mark queue, and the examination does what its marks say. -/
theorem marksAct : Obligations.MarksAct := by
  intro c s i e done hrun he hdone
  rw [← State.doneBytes_eq] at hdone
  subst hdone
  refine ⟨fun m hm hc => ⟨fun hpt hb ho => ⟨fun hp => ?_, fun hp hopen hno => ?_⟩, fun hlt => ?_⟩,
    fun ms rest hc hm hne hr => ⟨fun hb => ?_, fun b v d hf hs ht hg hcache hl hfin hroom => ?_⟩, fun m l hm hc => ?_⟩
  · have hn : m.note = true := by
      rcases hc with ⟨-, hn⟩ | ⟨-, hpause⟩
      · exact hn
      · rw [hp] at hpause
        cases hpause
    rw [State.exec_mark hrun he hm hc, State.settleMarks_of_marked he hm hpt (.inl hn) hb ho (by simp [hp]),
      State.marked_of_note hm hn hp]
  · rw [State.exec_mark hrun he hm hc, State.settleMarks_of_marked he hm hpt (.inr hp) hb ho fun _ => ⟨hopen, hno⟩,
      State.marked_of_pause hm hp]
  · rw [State.exec_mark hrun he hm hc, State.settleMarks_of_unreached he fun x rest hx => ?_]
    obtain ⟨rfl, -⟩ := List.cons.inj (hm.symm.trans hx)
    exact hlt
  · rw [hc, State.exec_noteMark_of_notes hrun he hm hne hr,
      State.settleMarks_noted he hm (fun _ => hr) hr.2.2 fun _ => hb]
  · obtain ⟨w, u, hu, hends⟩ := State.settleMarks_of_short he hm hne hr hf hs ht hg hcache hl hfin hroom
    rw [hc, State.exec_noteMark_of_notes hrun he hm hne hr]
    exact ⟨w, u, congrArg _ hu, hends⟩
  · rw [State.exec_mark hrun he hm hc]
    exact State.settleMarks_settled he

end Sys2Proof.Machine
end

section
/-!
SUPPORT. The choice of the next frame: a WAITING control entry handed over, a DATA frame taken back for it, and a buffer
handed over or given up (R82, R84, R109, R110).
-/

namespace Sys2Proof.Machine

namespace State

/-! ### The control entry handed over (R109) -/

/-- The state in which the first WAITING entry has been handed to the transmit slot. -/
def handed (s : State) (pre : List CtrlEntry) (c : CtrlEntry) (post : List CtrlEntry) : State :=
  { s with
    txq := { s.txq with ctrl := pre ++ { c with inSlot := true } :: post },
    lpt := { s.lpt with tx := some ⟨.ctrl, c.frame, 0, false⟩ } }

theorem markOpenHanded_of_not_open {c : CtrlEntry} (h : ∀ k d n, c.frame.body ≠ .openReq k d n) (s : State) :
    s.markOpenHanded c = s := by
  have hopen : c.frame.body.isOpen = false := by
    rw [← Bool.not_eq_true, FrameBody.isOpen_iff]
    rintro ⟨k, d, n, hb⟩
    exact h k d n hb
  unfold markOpenHanded
  cases c.owner <;> simp [hopen]

theorem handOver_of_not_open {s : State} {pre post : List CtrlEntry} {c : CtrlEntry} (h : s.txq.ctrl = pre ++ c :: post)
    (hc : c.inSlot = false) (hp : ∀ x ∈ pre, x.inSlot = true) (hb : ∀ k d n, c.frame.body ≠ .openReq k d n) :
    s.handOver = s.handed pre c post :=
  (handOver_eq h hc hp).trans (markOpenHanded_of_not_open hb _)

/-- A slot's OPEN that is handed over is marked in the slot's record (R42). -/
theorem handOver_of_open {s : State} {pre post : List CtrlEntry} {c : CtrlEntry} {i : SlotId} {e : Exchange} {k : Word}
    {d : Direction} {n : BitVec 24} (h : s.txq.ctrl = pre ++ c :: post) (hc : c.inSlot = false)
    (hp : ∀ x ∈ pre, x.inSlot = true) (hb : c.frame.body = .openReq k d n) (ho : c.owner = .slot i (s.gen i))
    (he : s.ex i = some e) : s.handOver = (s.handed pre c post).setEx i (some { e with openHanded := true }) := by
  have hex : (s.handed pre c post).ex i = some e := he
  have hlive : (s.handed pre c post).live i (s.gen i) = true := live_of_some hex rfl
  have hopen : c.frame.body.isOpen = true := c.frame.body.isOpen_iff.mpr ⟨k, d, n, hb⟩
  have hmark : (s.handed pre c post).markOpenHanded c =
      (s.handed pre c post).setEx i (some { e with openHanded := true }) := by
    simp only [markOpenHanded, ho, hopen, hlive, Bool.and_self, if_true]
    exact updEx_of_some hex _
  exact (handOver_eq h hc hp).trans hmark

theorem anyWaiting_of_none {s : State} (h : ∀ c ∈ s.txq.ctrl, c.inSlot = true) : s.anyWaiting = false := by
  rw [anyWaiting, List.any_eq_false]
  intro c hc
  simp [h c hc]

/-! ### The DATA frame taken back (R110) -/

section
variable {s : State} {pre post : List CtrlEntry} {c : CtrlEntry} {b : BufId} {v : OutBuffer} {f : Frame} {n : Nat}
  (h : s.txq.ctrl = pre ++ c :: post) (hc : c.inSlot = false) (hp : ∀ x ∈ pre, x.inSlot = true)
  (hb : ∀ k d n, c.frame.body ≠ .openReq k d n) (htx : s.lpt.tx = some ⟨.data b, f, n, false⟩)
  (hphase : s.lpt.phase ≠ .won) (hv : s.buffer b = some v)
include h hc htx hphase hv

theorem takeBack_eq : s.takeBack = (s.returnBuffer b v).handOver := by
  have hbegun : ((⟨.data b, f, n, false⟩ : TxFrame).begun = false ∧ s.lpt.phase ≠ .won ∧ s.anyWaiting = true) :=
    ⟨rfl, hphase, anyWaiting_of_mem h hc⟩
  simp only [takeBack, htx, hbegun, hv, ne_eq, not_false_eq_true, and_self, if_true]

include hp hb

/-- The buffer of a live exchange is READY again, and is chosen first (R110). -/
theorem takeBack_of_live {e : Exchange} (he : s.ex v.slot = some e) (hs : e.state ≠ .retiring)
    (hg : v.gen = s.gen v.slot) : s.takeBack = { s.setBuffer b (some { v with state := .ready }) with
      txq := { s.txq with ctrl := pre ++ { c with inSlot := true } :: post, takenBack := some b },
      lpt := { s.lpt with tx := some ⟨.ctrl, c.frame, 0, false⟩ } } := by
  have howner : s.bufferOwner v = some e := by simp [bufferOwner, he, hg, hs, Option.filter]
  have hreturn : s.returnBuffer b v = { s.setBuffer b (some { v with state := .ready }) with
      txq := { s.txq with takenBack := some b }, lpt := { s.lpt with tx := none } } := by
    simp only [returnBuffer, howner]
    rfl
  rw [takeBack_eq h hc htx hphase hv, hreturn]
  exact handOver_of_not_open h hc hp hb

/-- The buffer of an exchange that has ended is given up (R84; log 35). -/
theorem takeBack_of_ended (hend : ∀ e, s.ex v.slot = some e → v.gen = s.gen v.slot → e.state = .retiring) :
    s.takeBack = { s.setBuffer b none with
      txq := { s.txq with ctrl := pre ++ { c with inSlot := true } :: post },
      lpt := { s.lpt with tx := some ⟨.ctrl, c.frame, 0, false⟩ } } := by
  have hreturn : s.returnBuffer b v = { s.setBuffer b none with lpt := { s.lpt with tx := none } } := by
    simp only [returnBuffer, bufferOwner_of_ended hend]
    rfl
  rw [takeBack_eq h hc htx hphase hv, hreturn]
  exact handOver_of_not_open h hc hp hb

end

/-! ### The DATA frame handed over (R82, R109) -/

theorem handBuffer_of_ended {s : State} {b : BufId} {v : OutBuffer} (hv : s.buffer b = some v)
    (hend : ∀ e, s.ex v.slot = some e → v.gen = s.gen v.slot → e.state = .retiring) :
    s.handBuffer b = s.setBuffer b none := by
  simp only [handBuffer, hv, bufferOwner_of_ended hend]

theorem offeredBuffer_of_none {s : State} {i : SlotId}
    (h : ∀ b v, s.buffer b = some v → v.state = .ready → v.slot = i → v.gen ≠ s.gen v.slot) :
    s.offeredBuffer i = none := by
  have hno : ∀ b, s.readyOffset i b = none := by
    intro b
    unfold readyOffset
    cases hb : s.buffer b with
    | none => rfl
    | some v =>
      refine if_neg ?_
      rintro ⟨hi, hg, hs⟩
      exact h b v hb hs hi (hi ▸ hg)
  simp [offeredBuffer, bufIds, lowerReady, hno]

theorem chooseData_of_turn {s : State} {b : BufId} {v : OutBuffer} (hoff : s.offeredBuffer v.slot = some b)
    (hturn : ∀ k : SlotId, k < v.slot - s.txq.lastTx - 1 → s.offeredBuffer (s.txq.lastTx + 1 + k) = none) :
    s.chooseData = ({ s with txq := { s.txq with lastTx := v.slot } } : State).handBuffer b := by
  have hfind : (afterSlot s.txq.lastTx).find? (fun i => (s.offeredBuffer i).isSome) = some v.slot :=
    find_inTurn (by simp [hoff]) fun k hk => by simp [hturn k hk]
  simp only [chooseData, hfind, hoff]

/-! ### The choice (R109, R110) -/

theorem exec_transmitChoice_of_empty {s : State} (h : s.onLane = true) (htx : s.lpt.tx = none) :
    exec .transmitChoice s = .next s.chooseFrame := by
  simp [exec, execTransmitChoice, h, htx]

theorem exec_transmitChoice_of_held {s : State} {t : TxFrame} (h : s.onLane = true) (htx : s.lpt.tx = some t) :
    exec .transmitChoice s = .next s.takeBack := by
  simp [exec, execTransmitChoice, h, htx]

theorem chooseFrame_of_waiting {s : State} (h : s.anyWaiting = true) : s.chooseFrame = s.handOver := if_pos h

theorem chooseFrame_of_takenBack {s : State} {b : BufId} (h : ∀ c ∈ s.txq.ctrl, c.inSlot = true)
    (hst : s.sct.station ≠ .fault) (hb : s.txq.takenBack = some b) :
    s.chooseFrame = ({ s with txq := { s.txq with takenBack := none } } : State).handBuffer b := by
  simp [chooseFrame, anyWaiting_of_none h, hst, hb]

theorem chooseFrame_of_data {s : State} (h : ∀ c ∈ s.txq.ctrl, c.inSlot = true)
    (hst : s.sct.station ≠ .fault) (hb : s.txq.takenBack = none) : s.chooseFrame = s.chooseData := by
  simp [chooseFrame, anyWaiting_of_none h, hst, hb]

end State

/-- Settles O56: the cases of the choice, one after another. -/
theorem transmitChoiceHandsOver : Obligations.TransmitChoiceHandsOver := by
  refine fun s hlane => ⟨fun pre c post h hc hp hb => ⟨fun htx => ?_, fun b v f n htx hphase hv =>
      ⟨fun e he hs hg => ?_, fun hend => ?_⟩⟩,
    fun b v htx hno hst hv hback hend => ?_, fun pre c post i e k d n h hc hp hb ho he htx => ?_,
    fun b v e htx hno hst hv he hs hg t ht => ⟨fun hback => ?_, fun hback hready hlow hturn => ?_⟩⟩
  · rw [State.exec_transmitChoice_of_empty hlane htx, State.chooseFrame_of_waiting (State.anyWaiting_of_mem h hc),
      State.handOver_of_not_open h hc hp hb]
    rfl
  · rw [State.exec_transmitChoice_of_held hlane htx, State.takeBack_of_live h hc hp hb htx hphase hv he hs hg]
  · rw [State.exec_transmitChoice_of_held hlane htx, State.takeBack_of_ended h hc hp hb htx hphase hv hend]
  · rw [State.exec_transmitChoice_of_empty hlane htx, State.chooseFrame_of_takenBack hno hst hback,
      State.handBuffer_of_ended (by exact hv) (by exact hend)]
    rfl
  · rw [State.exec_transmitChoice_of_empty hlane htx, State.chooseFrame_of_waiting (State.anyWaiting_of_mem h hc),
      State.handOver_of_open h hc hp hb ho he]
    rfl
  · rw [State.exec_transmitChoice_of_empty hlane htx, State.chooseFrame_of_takenBack hno hst hback,
      State.handBuffer_eq (by exact hv) (by exact he) hs (by exact hg), ht]
    rfl
  · have hoff : s.offeredBuffer v.slot = some b := State.offeredBuffer_of_lowest hv hready hg hlow
    rw [State.exec_transmitChoice_of_empty hlane htx, State.chooseFrame_of_data hno hst hback,
      State.chooseData_of_turn hoff fun k hk => State.offeredBuffer_of_none (hturn k hk),
      State.handBuffer_eq (by exact hv) (by exact he) hs (by exact hg), ht]
    rfl

end Sys2Proof.Machine
end

section
/-!
SUPPORT. A freed control queue entry: to whom it is given, what its service leaves, and the fault aborts (R20, R106, R107,
R174).
-/

namespace Sys2Proof.Machine

namespace State

/-! ### The command (R106, R174) -/

theorem exec_controlFramePlaced_of_runs {s t : State} (h : s.runs = true) (hg : s.giveCtrl = t) :
    exec .controlFramePlaced s = .next t.takeBack := by
  simp only [exec, execControlFramePlaced, h, if_true, hg]

/-- Where no DATA frame is in the transmit slot, none is taken back for the frame placed (R110). -/
theorem exec_controlFramePlaced_of_ctrl {s t : State} (h : s.runs = true)
    (htx : ∀ f, s.lpt.tx = some f → f.src = .ctrl) (hg : s.giveCtrl = t) (hlpt : t.lpt = s.lpt) :
    exec .controlFramePlaced s = .next t := by
  rw [exec_controlFramePlaced_of_runs h hg, takeBack_of_ctrl (by rw [hlpt]; exact htx)]

theorem exec_controlFramePlaced_in_fault {s : State} (h : s.sct.station = .fault) :
    exec .controlFramePlaced s = .next (if s.up = true ∧ s.sct.present = true then s.placeFaultAbort else s) := by
  have hruns : s.runs = false := by simp [runs, h]
  simp only [exec, execControlFramePlaced, hruns, Bool.false_eq_true, if_false]

theorem runs_of_up {s : State} (hup : s.up = true) (hst : s.sct.station ≠ .fault) : s.runs = true := by
  simp [runs, hup, hst]

/-! ### Who is given the entry (R20, R106) -/

section
variable {s : State} (hc : s.txq.ctrl.length < 16)
include hc

theorem ctrlFull_of_room : s.ctrlFull = false := by
  simp [ctrlFull, Config.ctrlCap, hc]

theorem giveCtrl_of_owed {i : SlotId} {rest : List SlotId} (ho : s.txq.owed = i :: rest) :
    s.giveCtrl = ({ s with txq := { s.txq with owed := rest } } : State).placeAbort i := by
  simp only [giveCtrl, ctrlFull_of_room hc, Bool.false_eq_true, if_false, ho]

theorem giveCtrl_of_first {c : CtrlClaim} {rest : List CtrlClaim} (ho : s.txq.owed = []) (hl : s.txq.line = c :: rest)
    (hable : s.claimAble c = true) : s.giveCtrl = s.serveCtrl c := by
  simp only [giveCtrl, ctrlFull_of_room hc, Bool.false_eq_true, if_false, ho, hl, List.find?_cons_of_pos hable]

theorem giveCtrl_of_nobody (ho : s.txq.owed = []) (hl : s.txq.line = []) : s.giveCtrl = s := by
  simp only [giveCtrl, ctrlFull_of_room hc, Bool.false_eq_true, if_false, ho, hl, List.find?_nil]

end

theorem giveCtrl_of_full {s : State} (h : 16 ≤ s.txq.ctrl.length) : s.giveCtrl = s := by
  simp [giveCtrl, ctrlFull, Config.ctrlCap, h]

/-! ### What the service of a claimant leaves -/

/-- The line of R106 behind its first claimant. -/
def served (s : State) (rest : List CtrlClaim) : State := { s with txq := { s.txq with line := rest } }

theorem unclaimCtrl_of_first {s : State} {c : CtrlClaim} {rest : List CtrlClaim} (hl : s.txq.line = c :: rest)
    (hno : c ∉ rest) : s.unclaimCtrl c = s.served rest := by
  have hkeep : rest.filter (· != c) = rest := List.filter_eq_self.mpr fun x hx => by
    rw [bne_iff_ne]
    rintro rfl
    exact hno hx
  simp [unclaimCtrl, served, hl, hkeep]

theorem placeAbort_of_owed {s : State} {i : SlotId} {e : Exchange} {r : Result} {a : Reason}
    (hc : s.txq.ctrl.length < 16) (he : s.ex i = some e) (ho : e.outcome = some ⟨r, .owed, a⟩) :
    s.placeAbort i = State.enqueued ⟨e.peer, s.sn, e.role == Role.originator, e.tag, .abort a⟩ (.slot i (s.gen i))
      (s.setEx i (some { e with outcome := some ⟨r, .queued, a⟩ })) := by
  have hex : ∀ f o, (s.enqueued f o).ex i = some e := fun _ _ => he
  have hset : e.setAbort .queued = { e with outcome := some ⟨r, .queued, a⟩ } := by
    simp [Exchange.setAbort, ho]
  simp only [placeAbort, he, ho]
  rw [pushCtrl_of_room hc, updEx_of_some (hex _ _), hset]
  rfl

section
variable {s : State} (hc : s.txq.ctrl.length < 16)
include hc

theorem serveCtrl_frame {f : Frame} {o : Owner} {rest : List CtrlClaim} (hl : s.txq.line = .frame f o :: rest) :
    s.serveCtrl (.frame f o) = (s.served rest).enqueued f o := by
  simp only [serveCtrl, hl, List.erase_cons_head]
  exact pushCtrl_of_room (by exact hc) f o

theorem serveCtrl_credit_placed {i : SlotId} {e : Exchange} {rest : List CtrlClaim} (hl : s.txq.line = .credit i :: rest)
    (hno : CtrlClaim.credit i ∉ rest) (he : s.ex i = some e)
    (hw : ∀ y ∈ s.txq.ctrl, y.inSlot = false → y.owner = .slot i (s.gen i) → ∀ l, y.frame.body ≠ .credit l) :
    s.serveCtrl (.credit i) = (s.served rest).enqueued
      ⟨e.peer, s.sn, e.role == Role.originator, e.tag, .credit (BitVec.ofNat 24 e.granted)⟩ (.slot i (s.gen i)) := by
  have hnone : s.txq.ctrl.any (s.isWaitingCredit i) = false := List.any_eq_false.mpr fun y hy => by
    rw [isWaitingCredit_eq_false (hw y hy)]
    exact Bool.false_ne_true
  simp only [serveCtrl, he, hnone, Bool.false_eq_true, if_false, unclaimCtrl_of_first hl hno]
  exact pushCtrl_of_room (by exact hc) _ _

omit hc in
theorem serveCtrl_credit_raised {i : SlotId} {e : Exchange} {rest : List CtrlClaim} {pre post : List CtrlEntry}
    {y : CtrlEntry} {l : BitVec 24} (hl : s.txq.line = .credit i :: rest) (hno : CtrlClaim.credit i ∉ rest)
    (he : s.ex i = some e) (hctrl : s.txq.ctrl = pre ++ y :: post) (hin : y.inSlot = false)
    (ho : y.owner = .slot i (s.gen i)) (hb : y.frame.body = .credit l)
    (hrest : ∀ z ∈ pre ++ post, z.inSlot = false → z.owner = .slot i (s.gen i) → ∀ m, z.frame.body ≠ .credit m) :
    s.serveCtrl (.credit i) = { s with txq := { s.txq with
      ctrl := pre ++ { y with frame := { y.frame with body := .credit (BitVec.ofNat 24 e.granted) } } :: post,
      line := rest } } := by
  have hany : s.txq.ctrl.any (s.isWaitingCredit i) = true :=
    List.any_eq_true.mpr ⟨y, by simp [hctrl],
      (isWaitingCredit_iff s i y).mpr ⟨hin, ho, y.frame.body.isCredit_iff.mpr ⟨l, hb⟩⟩⟩
  simp only [serveCtrl, he, hany, if_true, unclaimCtrl_of_first hl hno]
  exact raiseCredit_of_one (s := s.served rest) hctrl hin ho hb hrest e.granted

theorem serveCtrl_pendingAbort {p : Station} {tag : Tag} {rest : List CtrlClaim}
    (hl : s.txq.line = .pendingAbort p tag :: rest) (hno : CtrlClaim.pendingAbort p tag ∉ rest)
    (hr : s.xen.rescanAt = none) : s.serveCtrl (.pendingAbort p tag) =
      State.enqueued ⟨p, s.sn, false, tag, .abort .detaching⟩ .nobody { s with
        txq := { s.txq with line := rest },
        xen := { s.xen with deferred := s.xen.deferred.filter fun d => !(d.peer == p && d.tag == tag) } } := by
  simp only [serveCtrl, unclaimCtrl_of_first hl hno]
  rw [pushCtrl_of_room (by exact hc), dropDeferred_of_noRescan (by exact hr)]
  rfl

end

/-! ### Fault aborts (R174) -/

theorem placeFaultAbort_of_cons {s : State} {x : FaultAbort} {rest : List FaultAbort} (hc : s.txq.ctrl.length < 16)
    (hx : s.sct.faultAborts = x :: rest) : s.placeFaultAbort = State.enqueued
      ⟨x.dst, s.sn, x.fromOrig, x.tag, .abort .stationFault⟩ .stationControl
      { s with sct := { s.sct with faultAborts := rest } } := by
  simp only [placeFaultAbort, hx, ctrlFull_of_room hc, Bool.false_eq_true, if_false]
  exact pushCtrl_of_room (by exact hc) _ _

theorem placeFaultAbort_of_nil {s : State} (h : s.sct.faultAborts = []) : s.placeFaultAbort = s := by
  simp only [placeFaultAbort, h]

theorem placeFaultAbort_of_full {s : State} (h : 16 ≤ s.txq.ctrl.length) : s.placeFaultAbort = s := by
  have hfull : s.ctrlFull = true := by simp [ctrlFull, Config.ctrlCap, h]
  unfold placeFaultAbort
  split
  · rfl
  · rw [if_pos hfull]

/-- The first entry of an empty control queue leaves no rescan without one (R61). -/
theorem enqueued_of_empty {s : State} (h : s.txq.ctrl = []) (f : Frame) (o : Owner) :
    s.enqueued f o = { s with txq := { s.txq with ctrl := [⟨f, o, 0, false⟩] } } := by
  have hwaits : s.rescanWaitsAt (s.txq.ctrl.length + 1) = s.xen.rescanWaits := by
    simp [rescanWaitsAt, h, Config.ctrlCap]
  rw [State.enqueued, hwaits, h]
  rfl

end State

/-- Settles O57: who is given the entry decides the case, and the service of each is its own lemma. -/
theorem freedEntryGiven : Obligations.FreedEntryGiven := by
  refine ⟨fun s hup hc htx => ⟨fun hst => ?_, fun hst => ⟨fun x rest hp hx => ?_, fun hno => ?_⟩⟩,
    fun s hup hfull htx => ?_, fun s f o rest b g n v e hrun hctrl ho hl hb htx hphase hv he hs hg => ?_⟩
  · have hrun := State.runs_of_up hup hst
    have hgive {t : State} := State.exec_controlFramePlaced_of_ctrl (t := t) hrun htx
    refine ⟨fun i rest e r a ho he hout => hgive ?_ rfl, fun f o rest ho hl => hgive ?_ rfl,
      fun i e rest ho hl hno he hw => hgive ?_ rfl,
      fun i e rest pre y post l ho hl hno he hctrl hin hown hbody hrest => hgive ?_ rfl,
      fun p tag rest ho hl hno hr => hgive ?_ rfl, fun rest ho hl hneed hrep => ?_,
      fun rest ho hl hdue hwait hat hon hfree => ?_, fun ho hl => hgive (State.giveCtrl_of_nobody hc ho hl) rfl⟩
    · rw [State.giveCtrl_of_owed hc ho]
      exact State.placeAbort_of_owed (by exact hc) (by exact he) hout
    · rw [State.giveCtrl_of_first hc ho hl rfl, State.serveCtrl_frame hc hl]
      rfl
    · rw [State.giveCtrl_of_first hc ho hl rfl, State.serveCtrl_credit_placed hc hl hno he hw]
      rfl
    · rw [State.giveCtrl_of_first hc ho hl rfl, State.serveCtrl_credit_raised hl hno he hctrl hin hown hbody hrest]
    · rw [State.giveCtrl_of_first hc ho hl rfl, State.serveCtrl_pendingAbort hc hl hno hr]
    · have hable : s.claimAble .inboxHead = true := by simp [State.claimAble, hneed, hrep]
      have hopen : exec .openFrame s = .next s.takeOpen := by simp only [exec, execOpenFrame, hrun, if_true]
      rw [hopen, State.exec_controlFramePlaced_of_runs hrun (State.giveCtrl_of_first hc ho hl hable)]
      exact congrArg _ (State.takeBack_of_ctrl (by rw [State.serveCtrl, State.takeOpen_tx]; exact htx))
    · have hable : s.claimAble .rescan = true := by
        simp [State.claimAble, hdue, hwait, hat, hon, Option.isSome_iff_ne_none, hfree]
      rw [State.exec_rescan_of_runs hrun]
      exact hgive (State.giveCtrl_of_first hc ho hl hable) (State.runRescan_lpt s)
  · rw [State.exec_controlFramePlaced_in_fault hst, if_pos ⟨hup, hp⟩, State.placeFaultAbort_of_cons hc hx]
  · rw [State.exec_controlFramePlaced_in_fault hst]
    rcases hno with hp | hnil
    · simp [hp]
    · rw [State.placeFaultAbort_of_nil hnil, ite_self]
  · by_cases hst : s.sct.station = .fault
    · rw [State.exec_controlFramePlaced_in_fault hst, State.placeFaultAbort_of_full hfull, ite_self]
    · exact State.exec_controlFramePlaced_of_ctrl (State.runs_of_up hup hst) htx (State.giveCtrl_of_full hfull) rfl
  · have hroom : s.txq.ctrl.length < 16 := by simp [hctrl]
    have hgive : s.giveCtrl = { s with txq := { s.txq with ctrl := [⟨f, o, 0, false⟩], line := rest } } := by
      rw [State.giveCtrl_of_first hroom ho hl rfl, State.serveCtrl_frame hroom hl, State.enqueued_of_empty (by exact hctrl)]
      rfl
    rw [State.exec_controlFramePlaced_of_runs hrun hgive,
      State.takeBack_of_live (pre := []) (post := []) (c := ⟨f, o, 0, false⟩) rfl rfl (by simp) hb (by exact htx)
        (by exact hphase) (by exact hv) (by exact he) hs (by exact hg)]
    rfl

end Sys2Proof.Machine
end

section
/-!
SUPPORT. The end of a detach and of a presence: their conditions, and what the station leaves behind (R134, R149, R171,
R174).
-/

namespace Sys2Proof.Machine

namespace State

/-! ### The conditions (R171, R174) -/

theorem detachDone_iff (s : State) : s.detachDone = true ↔ s.sct.station = .detaching ∧ (∀ i, s.ex i = none) ∧
    s.xen.deferred = [] ∧ s.txq.ctrl = [] ∧ s.txq.owed = [] ∧ (∀ c ∈ s.txq.line, c = .rescan ∨ c = .inboxHead) ∧
    s.lpt.tx = none ∧ s.lpt.inbox = [] := by
  have hslots : slotIds.all (fun i => (s.ex i).isNone) = true ↔ ∀ i, s.ex i = none := by
    simp [List.all_eq_true, mem_slotIds]
  have hline : s.txq.line.any CtrlClaim.isFrame = false ↔ ∀ c ∈ s.txq.line, c = .rescan ∨ c = .inboxHead := by
    rw [List.any_eq_false]
    refine forall₂_congr fun c _ => ?_
    cases c <;> simp [CtrlClaim.isFrame]
  simp only [detachDone, Bool.and_eq_true, beq_iff_eq, hslots, List.isEmpty_iff, Bool.not_eq_true', hline,
    Option.isNone_iff_eq_none, and_assoc]

theorem presenceOver_iff (s : State) : s.presenceOver = true ↔ s.sct.station = .fault ∧ s.sct.present = true ∧
    s.sct.faultAborts = [] ∧ (∀ c ∈ s.txq.ctrl, c.owner ≠ .stationControl) ∧ s.lpt.tx = none := by
  have hown : s.hasFaultAbort = false ↔ ∀ c ∈ s.txq.ctrl, c.owner ≠ .stationControl := by
    rw [hasFaultAbort, List.any_eq_false]
    simp
  simp only [presenceOver, Bool.and_eq_true, beq_iff_eq, List.isEmpty_iff, Bool.not_eq_true', hown,
    Option.isNone_iff_eq_none, and_assoc]

theorem exec_detachComplete_of_done {s : State} (hup : s.up = true) (h : s.detachDone = true) :
    exec .detachComplete s = .next s.completeDetach := by
  simp only [exec, execDetachComplete, hup, h, and_self, if_true]

theorem exec_detachComplete_of_not {s : State} (h : s.detachDone ≠ true) : exec .detachComplete s = .next s :=
  congrArg Host.Outcome.next (if_neg fun hdone => h hdone.2)

/-! ### The station leaves the lane (R134, R171) -/

/-- The state of a station that has left the lane and is OFFLINE, before its report. -/
def detached (s : State) : State := s.leaveLane.emptyInbox.enter .offline

theorem completeDetach_eq (s : State) : s.completeDetach = s.ownClear.detached.stationReport ⟨.offline, .detached, 0⟩ :=
  rfl

theorem detached_eq {s : State} (hline : ∀ c ∈ s.txq.line, c = .rescan) (hr : s.rpt.line = []) (htx : s.lpt.tx = none)
    (hin : s.lpt.inbox = []) : s.detached = { s with
      sct := { s.sct with station := .offline, faultPin := false },
      lpt := { s.lpt with phase := .idle, pins := ⟨none, false, [], none, s.lpt.pins.lcl⟩ },
      rpt := { s.rpt with status := s.statusAfter },
      lmp := { s.lmp with waiting := s.lmp.waiting ++ s.statusPlaced .offline } } := by
  have hkeep : s.txq.line.filter (· != .inboxHead) = s.txq.line := List.filter_eq_self.mpr fun c hc => by
    rw [hline c hc]
    rfl
  have hempty : s.leaveLane.emptyInbox = { s with
      lpt := { s.lpt with phase := .idle, pins := ⟨none, false, [], none, s.lpt.pins.lcl⟩ } } := by
    simp only [emptyInbox, leaveLane, unclaimCtrl, unclaimReport, hkeep, hr, List.filter_nil]
    rw [← hr, ← htx, ← hin]
    rfl
  rw [detached, hempty, enter_eq]
  rfl

theorem detached_keeps (s : State) : s.detached.rpt.queue = s.rpt.queue ∧
    s.detached.rpt.stationWaiting = s.rpt.stationWaiting ∧ s.detached.ord = s.ord := by
  rw [detached, enter_eq]
  exact ⟨rfl, rfl, rfl⟩

theorem ownClear_of_pulse {s : State} (hl : s.lpt.pins.lcl = true) (ht : s.takesClear = true) :
    s.ownClear = s.takeClear := if_pos ⟨hl, ht⟩

theorem ownClear_of_quiet {s : State} (hl : s.lpt.pins.lcl = false) : s.ownClear = s := if_neg (by simp [hl])

theorem takesClear_of_detaching {s : State} (hup : s.up = true) (hs : s.sct.station = .detaching) :
    s.takesClear = true := by
  simp [takesClear, hup, hs]

/-- After its own lane clear event a station in DETACHING is still ready to complete the detach. -/
theorem Cleared.detachDone {s t : State} (h : s.Cleared t) (hs : s.sct.station = .detaching)
    (hfree : ∀ i, s.ex i = none) : t.detachDone = true := by
  have hsct : t.sct = s.sct := h.sct (by simp [hs])
  refine t.detachDone_iff.mpr ⟨by rw [hsct, hs], fun i => h.freeSlots i (hfree i), h.deferred, h.ctrl (by simp [hs]),
    h.owed, fun c hc => ?_, by rw [h.lpt]; rfl, by rw [h.lpt]; rfl⟩
  rw [h.line, List.mem_filter] at hc
  exact .inl (by simpa using (Bool.and_eq_true_iff.mp hc.2).1)

/-- The completion behind the station's own lane clear event: both reports are queued, and the CLR's ACK stays due. -/
theorem Cleared.completeDetach {s u : State} (h : s.Cleared u) (hs : s.sct.station = .detaching)
    (hl : s.lpt.pins.lcl = true) (hq : s.rpt.queue.length < 7) (hw : s.rpt.stationWaiting = []) :
    u.completeDetach = u.detached.stationReport ⟨.offline, .detached, 0⟩ ∧
    (u.completeDetach).rpt.queue =
      s.rpt.queue ++ [.station .detaching .laneCleared, .station .offline .detached] ∧
    ∀ a ∈ s.ord.acks, a.await = .clearPulse →
      ∃ x ∈ (u.completeDetach).ord.acks, x.tag = a.tag ∧ x.kind = a.kind ∧ x.due = true := by
  have hquiet : u.ownClear = u := ownClear_of_quiet (by rw [h.lpt]; rfl)
  obtain ⟨hqueue, hwait, hord⟩ := u.detached_keeps
  have hq' : u.rpt.queue = s.rpt.queue ++ [.station .detaching .laneCleared] := by
    rw [← hs]
    exact congrArg ReportUnit.queue h.rpt
  have hw' : u.rpt.stationWaiting = [] := (congrArg ReportUnit.stationWaiting h.rpt).trans hw
  have hreport := stationReport_of_room (s := u.detached) (by rw [hqueue, hq']; simp; omega) (hwait.trans hw')
    ⟨.offline, .detached, 0⟩
  have hcomplete : u.completeDetach = u.detached.stationReport ⟨.offline, .detached, 0⟩ := by
    rw [completeDetach_eq, hquiet]
  refine ⟨hcomplete, ?_, fun a hmem hawait => ?_⟩
  · rw [hcomplete, hreport]
    simp [hqueue, hq']
  · obtain ⟨x, hx, htag, hkind, hdue⟩ := h.ack_due hl hmem hawait
    rw [hcomplete, hreport]
    refine ⟨_, List.mem_map_of_mem (by rw [hord]; exact hx), ?_⟩
    split
    · exact ⟨htag, hkind, rfl⟩
    · exact ⟨htag, hkind, hdue⟩

end State

/-- Settles O60: both conditions read out, and what each end leaves. -/
theorem detachAndPresenceEnd : Obligations.DetachAndPresenceEnd := by
  refine ⟨fun s hup hs => ⟨fun hr hfree hd hctrl ho hline htx hin => ⟨fun hl hq => ?_, fun hl => ?_⟩, fun hno => ?_⟩,
    fun s hup hs => ⟨fun hp ha hctrl htx => ?_, fun hno => ?_⟩⟩
  · obtain ⟨u, hu⟩ : ∃ u, u = s.takeClear := ⟨_, rfl⟩
    have hclear : s.Cleared u := hu ▸ State.takeClear_cleared s (by omega) hr.2.1
    have hdone : s.detachDone = true :=
      s.detachDone_iff.mpr ⟨hs, hfree, hd, hctrl, ho, fun c hc => .inl (hline c hc), htx, hin⟩
    have htakes := State.takesClear_of_detaching hup hs
    have hup' : u.up = true := by
      rw [State.up, hclear.sct (by simp [hs])]
      exact hup
    obtain ⟨hcomplete, hreports, hacks⟩ := hclear.completeDetach hs hl hq hr.2.1
    refine ⟨u, u.completeDetach, ?_, ?_, ?_, hreports, hacks⟩
    · rw [exec_laneClear_of_taken htakes, hu]
    · exact State.exec_detachComplete_of_done hup' (hclear.detachDone hs hfree)
    · rw [State.exec_detachComplete_of_done hup hdone, State.completeDetach_eq, State.ownClear_of_pulse hl htakes, ← hu,
        hcomplete]
  · have hdone : s.detachDone = true :=
      s.detachDone_iff.mpr ⟨hs, hfree, hd, hctrl, ho, fun c hc => .inl (hline c hc), htx, hin⟩
    rw [State.exec_detachComplete_of_done hup hdone, State.completeDetach_eq, State.ownClear_of_quiet hl,
      State.detached_eq hline hr.2.2 htx hin, State.stationReport_of_room (by exact hr.1) (by exact hr.2.1), hl]
    have hserves : ∀ a : AckEntry, StationWait.serves ⟨.offline, .detached, 0⟩ a.await = true ↔ a.await = .offlineReport := by
      intro a
      cases a.await <;> simp [StationWait.serves]
    simp only [hserves]
  · refine State.exec_detachComplete_of_not fun hdone => ?_
    obtain ⟨-, hfree, hd, hctrl, ho, hline, htx, hin⟩ := s.detachDone_iff.mp hdone
    obtain ⟨i, hi⟩ | h | h | h | ⟨c, hc, hnr, hni⟩ | h | h := hno
    · exact hi (hfree i)
    · exact h hd
    · exact h hctrl
    · exact h ho
    · exact (hline c hc).elim hnr hni
    · exact h htx
    · exact h hin
  · have hover : s.presenceOver = true := s.presenceOver_iff.mpr ⟨hs, hp, ha, hctrl, htx⟩
    simp only [exec, execPresenceEnd, hup, hover, and_self, if_true, State.endPresence, State.leaveLane]
    rw [← htx]
    rfl
  · have hover : s.presenceOver ≠ true := fun hover => by
      obtain ⟨-, hp, ha, hctrl, htx⟩ := s.presenceOver_iff.mp hover
      obtain h | h | ⟨c, hc, hown⟩ | h := hno
      · simp [hp] at h
      · exact h ha
      · exact hctrl c hc hown
      · exact h htx
    exact congrArg Host.Outcome.next (if_neg fun hend => hover hend.2)

end Sys2Proof.Machine
end

section
/-!
SUPPORT. The entry to FAULT: what the station's own lane clear event leaves alone, and the state in which the blocks have
stopped (R24, R115, R149, R156, R158, R165, R173, R174).
-/

namespace Sys2Proof.Machine

namespace State

/-! ### What the lane clear event of the station's own pulse leaves alone (R132, R149) -/

/-- From s to t the station state, what the status word carries, the producer count, the offers and the transfer in
progress have stayed. -/
structure StopKept (s t : State) : Prop where
  station : t.sct.station = s.sct.station
  inReset : t.sct.inReset = s.sct.inReset
  startBlock : t.sct.startBlock = s.sct.startBlock
  number : t.sct.stationNumber = s.sct.stationNumber
  producer : t.rpt.producer = s.rpt.producer
  offers : t.xen.offers = s.xen.offers
  transfer : t.lmp.transfer = s.lmp.transfer
  progress : t.lmp.progress = s.lmp.progress

namespace StopKept

theorem refl (s : State) : StopKept s s := ⟨rfl, rfl, rfl, rfl, rfl, rfl, rfl, rfl⟩

theorem trans {s t u : State} (h : StopKept s t) (k : StopKept t u) : StopKept s u :=
  ⟨k.station.trans h.station, k.inReset.trans h.inReset, k.startBlock.trans h.startBlock, k.number.trans h.number,
    k.producer.trans h.producer, k.offers.trans h.offers, k.transfer.trans h.transfer, k.progress.trans h.progress⟩

theorem settle (s : State) (i : SlotId) : StopKept s (s.settle i) := by
  unfold State.settle State.updEx
  dsimp only
  split <;> exact ⟨rfl, rfl, rfl, rfl, rfl, rfl, rfl, rfl⟩

theorem clearSlot (s : State) (i : SlotId) : StopKept s (s.clearSlot i) := by
  unfold State.clearSlot
  cases he : s.ex i with
  | none => exact refl s
  | some e =>
    dsimp only
    by_cases hr : e.state = .retiring
    · rw [if_pos hr]
      exact settle s i
    · rw [if_neg hr]
      unfold endWith
      rw [retire_eq he hr]
      simp only [Option.isSome_none, Bool.false_eq_true, if_false]
      rw [stripped_eq he]
      exact ⟨rfl, rfl, rfl, rfl, rfl, rfl, rfl, rfl⟩

theorem foldl_clearSlot : ∀ (l : List SlotId) (s : State), StopKept s (l.foldl State.clearSlot s)
  | [], s => refl s
  | i :: l, s => (clearSlot s i).trans (foldl_clearSlot l (s.clearSlot i))

theorem stationReport (w : StationWait) (s : State) : StopKept s (s.stationReport w) := by
  unfold State.stationReport queueStation pushReport ackEvent
  (repeat' split) <;> exact ⟨rfl, rfl, rfl, rfl, rfl, rfl, rfl, rfl⟩

theorem placeProbe (s : State) : StopKept s s.placeProbe := by
  unfold State.placeProbe pushCtrl pushEntry
  split <;> exact ⟨rfl, rfl, rfl, rfl, rfl, rfl, rfl, rfl⟩

theorem reportClear (a : State) : StopKept a a.reportClear := by
  have hreport := (stationReport ⟨a.sct.station, .laneCleared, a.ord.clears⟩
    ((a.unclaimReport .inboxHead).unclaimReport .rescan))
  have hunclaim : StopKept a ((a.unclaimReport .inboxHead).unclaimReport .rescan) :=
    ⟨rfl, rfl, rfl, rfl, rfl, rfl, rfl, rfl⟩
  unfold State.reportClear
  dsimp only
  split
  · exact (hunclaim.trans hreport).trans (placeProbe _)
  · exact hunclaim.trans hreport

theorem takeClear (s : State) : StopKept s s.takeClear := by
  have hclearing : StopKept s s.clearing := ⟨rfl, rfl, rfl, rfl, rfl, rfl, rfl, rfl⟩
  rw [takeClear_eq_reportClear]
  exact (hclearing.trans (foldl_clearSlot slotIds s.clearing)).trans (reportClear _)

theorem ownClear (s : State) : StopKept s s.ownClear := by
  unfold State.ownClear
  split
  · exact takeClear s
  · exact refl s

theorem attached {s t : State} (h : StopKept s t) : t.attached = s.attached := by
  rw [State.attached, h.station, State.attached]

end StopKept

/-! ### The stopped station (R173) -/

/-- The Lane Port of a station that stops (R173). -/
def laneStopped (a : State) : LanePort := if a.attached then a.lpt.atFault else a.leaveLane.lpt

/-- The state of a station that has stopped: each block has, and the one status word write of FAULT is placed. -/
def atStop (a : State) (c : FaultCause) : State :=
  { a.stopBlocks c with
    lpt := a.laneStopped,
    rpt := { (a.stopBlocks c).rpt with status := .inProgress false },
    lmp := ⟨[⟨.statusWord, a.sct.startBlock.toNat + 0x30, 4, [0x02, c.code, a.sn.setWidth 8, 0x00]⟩], none,
      ⟨false, 0⟩⟩ }

theorem stopStation_eq {a : State} (ht : a.lmp.transfer = none) (hp : a.lmp.progress = ⟨false, 0⟩) (c : FaultCause) :
    a.stopStation c = a.atStop c := by
  have hlmp : (⟨[], a.lmp.transfer, a.lmp.progress⟩ : MemoryPort) = ⟨[], none, ⟨false, 0⟩⟩ := by rw [ht, hp]
  have hchoice : (if a.attached then (a.stopBlocks c).laneAtFault else (a.stopBlocks c).leaveLane) =
      { a.stopBlocks c with lpt := a.laneStopped } := by
    unfold laneStopped
    split <;> rfl
  unfold stopStation
  dsimp only
  rw [hchoice]
  exact placeFaultStatus_of_due (s := a) (U := { a.stopBlocks c with lpt := a.laneStopped }) (c := c) rfl hlmp rfl rfl
    rfl rfl

theorem enterFault_eq {s : State} (hst : s.sct.station ≠ .fault) (ht : s.lmp.transfer = none)
    (hp : s.lmp.progress = ⟨false, 0⟩) (c : FaultCause) : s.enterFault c = s.ownClear.atStop c := by
  have hkept := StopKept.ownClear s
  rw [enterFault, if_neg hst, stopStation_eq (hkept.transfer.trans ht) (hkept.progress.trans hp)]

/-- A Lane Port that stops keeps a DATA frame only where its tenure has begun (R173). -/
theorem laneStopped_data {a : State} {t : TxFrame} (h : a.laneStopped.tx = some t) (hd : t.isData = true) :
    t.begun = true := by
  unfold laneStopped at h
  split at h
  · unfold LanePort.atFault at h
    split at h
    next hkeep =>
      simp only [LanePort.keepsTx, h] at hkeep
      split at hkeep
      next _ _ hsrc => simp [TxFrame.isData, hsrc] at hd
      · exact hkeep
      all_goals cases hkeep
    next => cases h
  · cases h

theorem atStop_stopped {a : State} (hup : a.sct.inReset = false) (c : FaultCause) : (a.atStop c).stopped := by
  refine ⟨hup, rfl, fun x hx hin => ?_, fun f hf hd => laneStopped_data hf hd⟩
  have hctrl : x ∈ a.ctrlAtFault := hx
  unfold ctrlAtFault at hctrl
  split at hctrl
  · rw [(List.mem_filter.mp hctrl).2] at hin
    cases hin
  · cases hctrl

/-- The fault aborts of an attached station: its live slots in slot order, then its pending entries (R174). -/
theorem faultAbortsNow_eq (s : State) : s.faultAbortsNow =
    (List.finRange 16).filterMap (fun i => match s.ex i with
      | none => none
      | some e => if e.state = .retiring then none else some ⟨e.peer, e.tag, e.role == Role.originator⟩) ++
    s.xen.deferred.map fun d => ⟨d.peer, d.tag, false⟩ := by
  have hslot : s.slotFaultAbort = fun i => match s.ex i with
      | none => none
      | some e => if e.state = .retiring then none else some ⟨e.peer, e.tag, e.role == Role.originator⟩ := by
    funext i
    unfold slotFaultAbort
    cases s.ex i <;> rfl
  have hids : slotIds = List.finRange 16 := by decide
  unfold faultAbortsNow
  rw [hids, hslot]

/-- Behind its own lane clear event a station has nothing left to abort (R23, R60, R174). -/
theorem Cleared.faultAbortsNow {s t : State} (h : s.Cleared t) : t.faultAbortsNow = [] := by
  have hslots : slotIds.filterMap t.slotFaultAbort = [] := List.filterMap_eq_nil_iff.mpr fun i _ => by
    unfold slotFaultAbort
    cases he : t.ex i with
    | none => rfl
    | some e => exact if_pos (h.slots i e he)
  simp [State.faultAbortsNow, hslots, h.deferred]

end State

end Sys2Proof.Machine
end

section
/-!
SUPPORT. The Local Memory Port's choice, its beats, and the outcome of a bus error by the client that placed the request
(R161, R162, R164).
-/

namespace Sys2Proof.Machine

/-! ### Beats (R162) -/

theorem getElem_beats (a n k : Nat) : (beats a n)[k]? =
    if k < (a + n - 1) / 4 + 1 - a / 4 then some (4 * (a / 4 + k)) else none := by
  unfold beats
  rw [List.getElem?_map]
  split
  next h => rw [List.getElem?_range h, Option.map_some]
  next h => rw [List.getElem?_eq_none (by simpa using Nat.not_lt.mp h), Option.map_none]

/-- The beat at a word of the transfer. -/
def Request.beatAt (r : Request) (w : Nat) : BusBeat :=
  ⟨w, BitVec.ofBool (r.covers (w + 3)) ++ BitVec.ofBool (r.covers (w + 2)) ++ BitVec.ofBool (r.covers (w + 1)) ++
    BitVec.ofBool (r.covers w), [0, 1, 2, 3].map fun j => r.byteFor (w + j)⟩

theorem Request.beat_eq {r : Request} (hn : 0 < r.count) (k : Nat) : r.beat k =
    if r.addr + r.count ≤ 4 * (r.addr / 4 + k) then none else some (r.beatAt (4 * (r.addr / 4 + k))) := by
  have hlast : k < (r.addr + r.count - 1) / 4 + 1 - r.addr / 4 ↔ ¬ r.addr + r.count ≤ 4 * (r.addr / 4 + k) := by omega
  unfold Request.beat
  rw [getElem_beats]
  by_cases h : r.addr + r.count ≤ 4 * (r.addr / 4 + k)
  · rw [if_neg (fun hk => hlast.mp hk h), if_pos h, Option.map_none]
  · rw [if_pos (hlast.mpr h), if_neg h, Option.map_some]
    rfl

/-- The four byte enables, lane 0 at bit 0. -/
theorem getLsbD_enables (b0 b1 b2 b3 : Bool) :
    (BitVec.ofBool b3 ++ BitVec.ofBool b2 ++ BitVec.ofBool b1 ++ BitVec.ofBool b0).getLsbD 0 = b0 ∧
    (BitVec.ofBool b3 ++ BitVec.ofBool b2 ++ BitVec.ofBool b1 ++ BitVec.ofBool b0).getLsbD 1 = b1 ∧
    (BitVec.ofBool b3 ++ BitVec.ofBool b2 ++ BitVec.ofBool b1 ++ BitVec.ofBool b0).getLsbD 2 = b2 ∧
    (BitVec.ofBool b3 ++ BitVec.ofBool b2 ++ BitVec.ofBool b1 ++ BitVec.ofBool b0).getLsbD 3 = b3 := by
  revert b0 b1 b2 b3
  decide

theorem Request.enables_beatAt (r : Request) (w : Nat) {j : Nat} (hj : j < 4) :
    (r.beatAt w).enables.getLsbD j = r.covers (w + j) := by
  obtain ⟨h0, h1, h2, h3⟩ := getLsbD_enables (r.covers w) (r.covers (w + 1)) (r.covers (w + 2)) (r.covers (w + 3))
  match j, hj with
  | 0, _ => exact h0
  | 1, _ => exact h1
  | 2, _ => exact h2
  | 3, _ => exact h3

theorem Request.data_beatAt (r : Request) (w : Nat) {j : Nat} (hj : j < 4) :
    (r.beatAt w).data[j]? = some (r.byteFor (w + j)) := by
  match j, hj with
  | 0, _ => rfl
  | 1, _ => rfl
  | 2, _ => rfl
  | 3, _ => rfl

namespace State

/-! ### The choice (R161, R162) -/

theorem exec_lmpChooseTransfer_of_free {s : State} (hup : s.up = true) (ht : s.lmp.transfer = none) :
    exec .lmpChooseTransfer s = .next (chooseTransfer 64 s) := by
  simp [exec, execLmpChooseTransfer, hup, ht]

theorem chooseTransfer_of_chosen {s : State} {r : Request} (h : s.nextRequest = some r) (hw : r.addr + r.count ≤ 2 ^ 32)
    (n : Nat) : chooseTransfer (n + 1) s =
      { s with lmp := ⟨s.lmp.waiting.erase r, some r, ⟨false, 0⟩⟩ } := by
  have hfits : wraps r = false := by
    rw [wraps_eq, decide_eq_false_iff_not]
    omega
  simp only [chooseTransfer_succ, h, hfits, Bool.false_eq_true, if_false]
  rfl

theorem chooseTransfer_of_wrapping {s : State} {r : Request} (h : s.nextRequest = some r)
    (hw : 2 ^ 32 < r.addr + r.count) (n : Nat) : chooseTransfer (n + 1) s =
      chooseTransfer n (({ s with lmp := { s.lmp with waiting := s.lmp.waiting.erase r } } : State).failed r) := by
  have hwraps : wraps r = true := by
    rw [wraps_eq, decide_eq_true_eq]
    omega
  simp only [chooseTransfer_succ, h, hwraps, if_true]

theorem chooseTransfer_of_nothing {s : State} (h : s.lmp.waiting = []) (n : Nat) : chooseTransfer n s = s := by
  have hnone : s.nextRequest = none := by simp [nextRequest, h]
  cases n with
  | zero => rfl
  | succ n => simp only [chooseTransfer_succ, hnone]

theorem erase_of_first {l1 l2 : List Request} {r : Request} (h : ∀ x ∈ l1, r.purpose.client < x.purpose.client) :
    (l1 ++ r :: l2).erase r = l1 ++ l2 := by
  have hnot : r ∉ l1 := fun hmem => Nat.lt_irrefl _ (h r hmem)
  rw [List.erase_append_right _ hnot, List.erase_cons_head]

/-! ### Bus errors (R164) -/

theorem exec_busError_of_ending {s : State} {r : Request} (h : s.ending r) :
    exec .busError s = .next (s.portFree.failed r) := by
  have ht : s.transferOf (fun _ => true) = some r := transferOf_of_ending h rfl
  simp only [exec, execBusError, ht]
  rfl

/-- STATION(FAULT, ORDER_READ) is queued, and orders are taken no more (R164; log 26). -/
theorem failOrders_of_open {s : State} (hf : s.ord.orderFault = false) (hr : s.reportOpen 1) : s.failOrders =
    State.reported (.station .fault .orderRead) { s with ord := { s.ord with orderFault := true } } := by
  have hacks : (s.ord.acks.map fun a =>
      if StationWait.serves ⟨.fault, .orderRead, 0⟩ a.await then { a with due := true } else a) = s.ord.acks := by
    simp [StationWait.serves]
  unfold failOrders
  rw [if_neg (by simp [hf]), unclaimReport_of_nil (by exact hr.2.2), stationReport_of_room (by exact hr.1)
    (by exact hr.2.1)]
  exact congrArg (fun l => State.reported (.station .fault .orderRead)
    { s with ord := { s.ord with orderFault := true, acks := l } }) hacks

/-- The Order Unit's fields after a failed transfer of its own, before its next transfer is placed (R164; logs 26, 31). -/
def orderFailed (s : State) (r : Request) : State :=
  { s with ord := { s.ord with
    head := if r.purpose = .orderFetch then .absent else s.ord.head,
    indexWrite := if r.purpose = .orderFetch then s.ord.indexWrite else false,
    ringRead := if r.purpose ≠ .ringWords then s.ord.ringRead
      else if s.ord.ringRead = .furtherDue then .inProgress
      else .idle } }

theorem failed_of_order {s : State} {r : Request} (hst : s.sct.station ≠ .fault)
    (hp : r.purpose = .orderFetch ∨ r.purpose = .indexWrite ∨ r.purpose = .ringWords) :
    s.failed r = (s.orderFailed r).nextOrderTransfer.failOrders := by
  unfold failed
  rw [if_neg hst]
  rcases hp with hp | hp | hp
  · simp [hp, orderFailed, setHead]
  · simp [hp, orderFailed]
  · have hring : s.ord.ringRead.next = if s.ord.ringRead = .furtherDue then .inProgress else .idle := by
      cases s.ord.ringRead <;> rfl
    simp [hp, orderFailed, nextRingRead, hring]

theorem failed_of_station {s : State} {r : Request} {cause : FaultCause} (hst : s.sct.station ≠ .fault)
    (hp : r.purpose = .startRecord ∧ cause = .startRead ∨
      (r.purpose = .reportEntry ∨ r.purpose = .producerWord) ∧ cause = .reportWrite ∨
      r.purpose = .statusWord ∧ cause = .statusWrite) : s.failed r = s.enterFault cause := by
  unfold failed
  rw [if_neg hst]
  obtain ⟨hp, rfl⟩ | ⟨hp | hp, rfl⟩ | ⟨hp, rfl⟩ := hp <;> simp only [hp]

end State

/-- Settles O59: the choice, the beats, and the outcome of a bus error by the purpose of the transfer. -/
theorem portChoosesAndBusErrors : Obligations.PortChoosesAndBusErrors := by
  refine ⟨fun s l1 l2 r hup ht hw h1 h2 hfits => ?_, fun s r rest i e e' hrun ht hw hrest hwraps he hs he' hp => ?_,
    fun r k hn => ⟨?_, fun b hb => ?_⟩, fun s r i e e' h he hs he' hp => ?_, fun s t r h hf hr hp ht => ?_,
    fun s r cause h hp => ?_⟩
  · rw [State.exec_lmpChooseTransfer_of_free hup ht, State.chooseTransfer_of_chosen
      (State.nextRequest_of_first hw h1 h2) hfits, hw, State.erase_of_first h1]
  · obtain ⟨u, hu⟩ : ∃ u, u = ({ s with lmp := { s.lmp with waiting := rest } } : State).failed r := ⟨_, rfl⟩
    have hnext : s.nextRequest = some r := State.nextRequest_of_first (l1 := []) hw (by simp) hrest
    have hchoose : exec .lmpChooseTransfer s = .next (State.chooseTransfer 63 u) := by
      rw [State.exec_lmpChooseTransfer_of_free (State.runs_up hrun).1 ht, State.chooseTransfer_of_wrapping hnext hwraps,
        hw, List.erase_cons_head, hu]
    refine ⟨u, ?_, fun hnil => ?_, fun q hq hfits => ?_⟩
    · rw [hu]
      exact State.failed_ends (S := { s with lmp := { s.lmp with waiting := rest } }) (by exact (State.runs_up hrun).2)
        he hs he' hp
    · rw [hchoose, State.chooseTransfer_of_nothing hnil]
    · rw [hchoose, State.chooseTransfer_of_chosen (State.nextRequest_of_first (l1 := []) (l2 := []) hq (by simp)
        (by simp)) hfits, hq, List.erase_cons_head]
  · rw [Request.beat_eq hn]
    split
    next h => exact iff_of_true rfl h
    next h => exact iff_of_false (by simp) h
  · rw [Request.beat_eq hn] at hb
    split at hb
    · cases hb
    · obtain rfl := Option.some.inj hb
      refine ⟨rfl, fun j hj => ⟨?_, Request.data_beatAt r _ hj⟩⟩
      rw [Request.enables_beatAt r _ hj, Request.covers, decide_eq_true_eq]
      rfl
  · exact ⟨_, State.failed_ends (S := s.portFree) (by exact (State.runs_up h.1).2) he hs he' hp,
      State.exec_busError_of_ending h⟩
  · have hord : s.portFree.orderFailed r = t := ht.symm
    have hopen : t.reportOpen 1 := by
      rw [ht]
      exact hr
    have hfault : t.ord.orderFault = false := by
      rw [ht]
      exact hf
    have hwaiting : t.lmp.waiting = s.lmp.waiting := by
      rw [ht]
      rfl
    rw [State.exec_busError_of_ending h, State.failed_of_order (by exact (State.runs_up h.1).2) hp, hord,
      State.nextOrderTransfer_eq, State.failOrders_of_open (by exact hfault) (by exact hopen), hwaiting]
  · have hkept := State.StopKept.ownClear s.portFree
    have hst : s.sct.station ≠ .fault := (State.runs_up h.1).2
    have hup : s.sct.inReset = false := by simpa [State.up] using (State.runs_up h.1).1
    have hexec : exec .busError s = .next (s.portFree.ownClear.atStop cause) := by
      rw [State.exec_busError_of_ending h, State.failed_of_station (by exact hst) hp,
        State.enterFault_eq (by exact hst) rfl rfl]
    have hatt : s.portFree.ownClear.attached = s.attached := hkept.attached
    refine ⟨_, hexec, State.atStop_stopped (hkept.inReset.trans hup) cause, rfl, rfl, hkept.producer, hkept.offers, rfl,
      ?_, fun hl hon hr => ?_, fun hl hon => ?_, fun hl hnon hndet => ?_⟩
    · simp only [State.atStop, State.sn, hkept.startBlock, hkept.number]
      rfl
    · have hon' : s.attached = true := by simpa [State.attached] using hon
      have htakes : s.portFree.takesClear = true := by
        have hup' : s.portFree.up = true := (State.runs_up h.1).1
        rcases hon with h | h <;> simp [State.takesClear, hup', show s.portFree.sct.station = _ from h]
      have hnp : s.portFree.sct.station ≠ .probing := by
        rcases hon with h | h <;> simp [show s.portFree.sct.station = _ from h]
      obtain ⟨a, ha⟩ : ∃ a, a = s.portFree.ownClear := ⟨_, rfl⟩
      have hclear : s.portFree.Cleared a := by
        rw [ha, State.ownClear_of_pulse (by exact hl) htakes]
        exact State.takeClear_cleared _ (by exact hr.1) hr.2.1
      rw [← ha] at hatt ⊢
      rw [hon'] at hatt
      refine ⟨hatt, ?_, ?_, ?_, congrArg ReportUnit.queue hclear.rpt, fun x hx hawait => hclear.ack_due hl hx hawait⟩
      · simp only [State.atStop, State.stopBlocks, State.ctrlAtFault, hatt, if_true, hclear.ctrl hnp, List.filter_nil]
      · simp only [State.atStop, State.laneStopped, hatt, if_true, hclear.lpt]
        rfl
      · simp only [State.atStop, State.stopBlocks, State.faultAbortsAtEntry, hatt, if_true, hclear.faultAbortsNow]
    · have hon' : s.attached = true := by simpa [State.attached] using hon
      rw [State.ownClear_of_quiet (s := s.portFree) hl]
      refine ⟨rfl, hon', if_pos hon', (if_pos hon').trans ?_⟩
      exact State.faultAbortsNow_eq s
    · have hoff : s.attached = false := by simp [State.attached, hnon, hndet]
      rw [State.ownClear_of_quiet (s := s.portFree) hl]
      have hne : ¬ s.attached = true := by simp [hoff]
      refine ⟨rfl, hoff, if_neg hne, ?_, if_neg hne⟩
      exact congrArg LanePort.tx (if_neg hne)

end Sys2Proof.Machine
end

section
/-!
SUPPORT. A freed report queue entry handed out: to nobody, to a STATION report, to one claimant with the queue full behind
it, and to the only claimant (R152; log 13).
-/

namespace Sys2Proof.Machine

namespace State

/-! ### Who is served (R152) -/

section
variable {v u : State}

theorem giveEntries_of_nobody (hw : v.rpt.stationWaiting = []) (hl : v.rpt.line = []) : v.giveEntries = v :=
  handOut_of_nil hw hl 64

/-- The STATION report that waits first takes the entry, and the claimants keep their places. -/
theorem giveEntries_of_station {w : StationWait} {more : List StationWait} (hw : v.rpt.stationWaiting = w :: more)
    (hq : v.rpt.queue.length = 7)
    (hl : v.rpt.line = [] ∨ ∃ c others, v.rpt.line = c :: others ∧ v.keepsPlace c) :
    v.giveEntries = ({ v with rpt := { v.rpt with stationWaiting := more } } : State).queueStation w := by
  obtain ⟨u, hu⟩ : ∃ u, u = ({ v with rpt := { v.rpt with stationWaiting := more } } : State).queueStation w := ⟨_, rfl⟩
  have hflush : flushStation 8 v = u := by
    rw [hu]
    exact flushStation_of_one hw hq 6
  have hpush : ({ v with rpt := { v.rpt with stationWaiting := more } } : State).pushReport (.station w.state w.cause) =
      { v with rpt := { v.rpt with stationWaiting := more, queue := v.rpt.queue ++ [.station w.state w.cause] } } :=
    if_pos (by show v.rpt.queue.length < 8; omega)
  have hline : u.rpt.line = v.rpt.line := by
    rw [hu, queueStation, hpush]
    rfl
  have hfull : 8 ≤ u.rpt.queue.length := by
    rw [hu, queueStation, hpush]
    show 8 ≤ (v.rpt.queue ++ [_]).length
    rw [List.length_append, hq]
    exact le_rfl
  have hhead : (∃ o, u.ord.head = .record o .report) ↔ ∃ o, v.ord.head = .record o .report := by
    rw [hu, queueStation, hpush]
    rfl
  rw [← hu]
  rcases hl with hl | ⟨c, others, hl, hkeep⟩
  · exact handOut_of_flushed hflush (hline.trans hl) 63
  · have hkeep' : u.keepsPlace c := by
      cases c with
      | head => exact hhead.mpr hkeep
      | _ => exact hkeep
    obtain ⟨hpass, hserve⟩ := serveClaim_of_kept (by rw [hline, hl]; exact List.mem_cons_self) hkeep' (.inr hfull)
    exact handOut_of_kept hflush (hline.trans hl) hpass hserve 63

/-- A claimant is served, no entry is left, and the next one keeps its place. -/
theorem giveEntries_of_served {c : ReportClaim} {others : List ReportClaim} (hw : v.rpt.stationWaiting = [])
    (hl : v.rpt.line = c :: others) (hp : v.passedOver c = false) (hu : v.serveClaim c = u) (hl' : u.rpt.line = others)
    (hw' : u.rpt.stationWaiting = [])
    (hrest : others = [] ∨ 8 ≤ u.rpt.queue.length ∧ ∃ d more, others = d :: more ∧ u.keepsPlace d) :
    v.giveEntries = u := by
  have hne : u.rpt.line ≠ v.rpt.line := by
    rw [hl', hl]
    exact (List.cons_ne_self c others).symm
  rw [giveEntries, handOut_of_served hw hl hp hu hne 63]
  rcases hrest with hnil | ⟨hfull, d, more, hcons, hkeep⟩
  · exact handOut_of_nil hw' (hl'.trans hnil) 63
  · obtain ⟨hpass, hserve⟩ := serveClaim_of_kept (by rw [hl', hcons]; exact List.mem_cons_self) hkeep (.inr hfull)
    exact handOut_of_kept (flushStation_of_nil hw' 8) (hl'.trans hcons) hpass hserve 62

/-- A claimant that is not passed over and whose step changes nothing keeps everybody behind it waiting. -/
theorem giveEntries_of_kept {c : ReportClaim} {others : List ReportClaim} (hw : v.rpt.stationWaiting = [])
    (hl : v.rpt.line = c :: others) (hp : v.passedOver c = false) (hs : v.serveClaim c = v) : v.giveEntries = v :=
  handOut_of_kept (flushStation_of_nil hw 8) hl hp hs 63

/-- The claimant at the front of the line has its turn where its entries are free (R152). -/
theorem reportTurn_of_front {c : ReportClaim} {k : Nat} (hw : v.rpt.stationWaiting = []) (hq : v.rpt.queue.length + k ≤ 8)
    (hl : v.rpt.line = [] ∨ ∃ others, v.rpt.line = c :: others) : v.reportTurn c k = true := by
  have hahead : v.reportAhead c = [] := by
    unfold reportAhead
    obtain hl | ⟨others, hl⟩ := hl <;> simp [hl]
  have hroom : v.reportRoom k = true := decide_eq_true hq
  unfold reportTurn
  rw [hahead, hw, hroom]
  rfl

/-- The line of R152 replaced. -/
def withReportLine (l : List ReportClaim) (v : State) : State := { v with rpt := { v.rpt with line := l } }

/-! ### Due ACKs (R147) -/

/-- The only due ACK is queued, and its entry leaves the list (R147). -/
theorem settleAcks_of_one {pre post : List AckEntry} {a : AckEntry} (hs : v.ord.acks = pre ++ a :: post)
    (hd : a.due = true) (hno : ∀ x ∈ pre ++ post, x.due = false) (ht : v.reportTurn .acks 1 = true)
    (hq : v.rpt.queue.length < 8) : v.settleAcks = State.reported (.ack a.tag a.kind true)
      { (v.withReportLine ((v.rpt.line.erase .acks).filter (· != .acks))) with
        ord := { v.ord with acks := pre ++ post } } := by
  have hfind : v.ord.acks.find? (·.due) = some a := by
    rw [hs]
    refine List.find?_eq_some_iff_append.mpr ⟨hd, pre, post, rfl, fun x hx => ?_⟩
    simp [hno x (List.mem_append_left _ hx)]
  have herase : v.ord.acks.eraseP (·.due) = pre ++ post := by
    rw [hs, List.eraseP_append_right _ fun x hx => by simp [hno x (List.mem_append_left _ hx)],
      List.eraseP_cons_of_pos (p := fun x : AckEntry => x.due) hd]
  have hpush : v.pushReport (.ack a.tag a.kind true) = v.reported (.ack a.tag a.kind true) := if_pos hq
  have hqueued : v.queueAck a = { (v.reported (.ack a.tag a.kind true)) with
      ord := { v.ord with acks := pre ++ post },
      rpt := { (v.reported (.ack a.tag a.kind true)).rpt with line := v.rpt.line.erase .acks } } := by
    rw [queueAck, hpush, ← herase]
    rfl
  have hrest : (v.queueAck a).ord.acks.find? (·.due) = none := by
    rw [hqueued]
    exact List.find?_eq_none.mpr fun x hx => by simp [hno x hx]
  have hround : v.settleAcks = queueAcks 16 (v.queueAck a) := by
    simp only [settleAcks, queueAcks, hfind, ht, if_true]
  have hlast : queueAcks 16 (v.queueAck a) = (v.queueAck a).unclaimReport .acks := by
    simp only [queueAcks, hrest]
  rw [hround, hlast, hqueued]
  rfl

/-! ### The head order (R138, R139, R145) -/

theorem headOrder_of_report {o : OrderRec} (hh : v.ord.head = .record o .report) (ht : v.takesOrders = true)
    (hf : v.ord.orderFault = false) (hturn : v.reportTurn .head 1 = true) : v.headOrder = some o := by
  simp only [headOrder, ht, hf, and_self, if_true, hh, hturn]

/-- A head order taken gives the same state wherever it stands in the line of R152. -/
theorem orderTaken_of_first {others : List ReportClaim} (hl : v.rpt.line = .head :: others) (hno : .head ∉ others)
    (r : Report) : (v.reported r).orderTaken = ((v.withReportLine others).reported r).orderTaken ∧
      (v.reported r).orderTaken.rpt.line = others := by
  have hkeep : others.filter (· != .head) = others := List.filter_eq_self.mpr fun c hc => by
    rw [bne_iff_ne]
    rintro rfl
    exact hno hc
  have hfilter : v.rpt.line.filter (· != .head) = others := by
    rw [hl, List.filter_cons_of_neg (by simp), hkeep]
  have hline : (v.reported r).orderTaken.rpt.line = others := hfilter
  have hline' : ((v.withReportLine others).reported r).orderTaken.rpt.line = others := hkeep
  refine ⟨?_, hline⟩
  have hsame : (v.reported r).orderTaken.withReportLine others =
      ((v.withReportLine others).reported r).orderTaken.withReportLine others := rfl
  have hself : ∀ x : State, x.rpt.line = others → x.withReportLine others = x := by
    rintro x rfl
    rfl
  rwa [hself _ hline, hself _ hline'] at hsame

end

end State

end Sys2Proof.Machine
end

section
/-!
SUPPORT. The only claimant of a freed report queue entry: a release, a mark, the inbox head's OPEN, a rescan at an offer too
small, each of which acts as its own command does with nobody waiting (R152).
-/

namespace Sys2Proof.Machine

namespace State

variable {v : State}

theorem withReportLine_of_line {l : List ReportClaim} (h : v.rpt.line = l) : v.withReportLine l = v := by
  subst h
  rfl

/-! ### A release (R22) -/

theorem releaseReports_length_le (s : State) (e : Exchange) (r : Result) :
    (s.releaseReports e r).length ≤ if e.role = .originator then 1 else 2 := by
  unfold releaseReports
  cases e.role with
  | originator => cases r <;> exact le_rfl
  | responder =>
    simp only [reduceCtorEq, if_false, List.length_cons]
    cases s.boundOffer e with
    | none => exact Nat.le_succ 1
    | some x => cases hc : x.closes r <;> simp [hc]

theorem tryRelease_of_turn {i : SlotId} {e : Exchange} {r : Result} (he : v.ex i = some e) (hs : e.settled = some r)
    (ht : v.reportTurn (.release i) (v.releaseReports e r).length = true) : v.tryRelease i = v.releaseSlot i e r := by
  simp only [tryRelease, he, hs, ht, if_true]

theorem giveEntries_of_release {i : SlotId} {e : Exchange} {r : Result} (hrun : v.runs = true)
    (hw : v.rpt.stationWaiting = []) (hl : v.rpt.line = [.release i]) (he : v.ex i = some e) (hs : e.settled = some r)
    (hq : v.rpt.queue.length + (if e.role = .originator then 1 else 2) ≤ 8) :
    exec (.slotRelease i) (v.withReportLine []) = .next v.giveEntries := by
  have hroom : v.rpt.queue.length + (v.releaseReports e r).length ≤ 8 :=
    Nat.le_trans (Nat.add_le_add_left (releaseReports_length_le v e r) _) hq
  have hserve : v.serveClaim (.release i) = v.releaseSlot i e r :=
    tryRelease_of_turn he hs (reportTurn_of_front hw hroom (.inr ⟨[], hl⟩))
  have hfront : v.releaseSlot i e r = (v.withReportLine []).releaseSlot i e r := releaseSlot_of_line e r (by simp [hl])
  obtain ⟨hline, hwait⟩ := releaseSlot_line v i e r
  have hgive : v.giveEntries = v.releaseSlot i e r :=
    giveEntries_of_served hw hl rfl hserve (hline.trans (by simp [hl])) (hwait.trans hw) (.inl rfl)
  have hown : (v.withReportLine []).tryRelease i = (v.withReportLine []).releaseSlot i e r :=
    tryRelease_of_turn (by exact he) hs (reportTurn_of_front (by exact hw) (by exact hroom) (.inl rfl))
  rw [exec_slotRelease_of_runs (by exact hrun), hown, hgive, hfront]

/-! ### A mark (R76, R77) -/

theorem giveEntries_of_mark {i : SlotId} {e : Exchange} {m : Mark} (hrun : v.runs = true)
    (hw : v.rpt.stationWaiting = []) (hl : v.rpt.line = [.mark i]) (he : v.ex i = some e) (hm : e.walk.marks = [m])
    (hpt : m.point ≤ e.doneBytes) (hflag : m.note = true ∨ m.pause = true)
    (hb : ∀ b x, v.buffer b = some x → x.slot = i → x.state ≠ .filling)
    (hq : v.rpt.queue.length + (if m.note = true ∧ m.pause = true then 2 else 1) ≤ 8) :
    exec (if m.note then .noteMark i else .pauseMark i) (v.withReportLine []) = .next v.giveEntries := by
  rw [← Mark.need_eq] at hq
  have hhead : v.headMark i = some m := by simp [headMark, he, hm, hpt]
  have hopen : (v.withReportLine []).reportOpen m.need := ⟨hq, hw, rfl⟩
  have hserve : v.serveClaim (.mark i) = (v.withReportLine []).settleMarks i :=
    settleMarks_of_line (by simp [hl]) hhead (reportTurn_of_front hw hq (.inr ⟨[], hl⟩)) (reportTurn_of_open hopen _)
  obtain ⟨e', he', hm', hfbd⟩ := actMark_ex (t := v.withReportLine []) (by exact he) hm
  obtain ⟨hline, hwait⟩ := actMark_line (v.withReportLine []) i m (by exact he)
  have hacts : (v.withReportLine []).settleMarks i = (v.withReportLine []).actMark i m := by
    refine settleMarks_of_last (by exact he) hm hpt hopen rfl (resumeFill_of_no_filling fun b x hx => ?_) he' hm'
    rw [buffer, hfbd] at hx
    exact hb b x hx
  have hgive : v.giveEntries = (v.withReportLine []).actMark i m :=
    giveEntries_of_served hw hl rfl (hserve.trans hacts) hline (hwait.trans hw) (.inl rfl)
  rw [exec_mark (by exact hrun) (by exact he) hm ?_, hacts, hgive]
  cases hn : m.note
  · exact .inr ⟨rfl, by simpa [hn] using hflag⟩
  · exact .inl ⟨rfl, rfl⟩

/-- A mark that needs two entries where one is free keeps its place, and nobody is served ahead of it. -/
theorem giveEntries_of_double_mark {i : SlotId} {others : List ReportClaim} {m : Mark} {e : Exchange}
    (hw : v.rpt.stationWaiting = []) (hl : v.rpt.line = .mark i :: others) (hq : v.rpt.queue.length = 7)
    (he : v.ex i = some e) (hm : e.walk.marks.head? = some m) (hn : m.note = true) (hp : m.pause = true) :
    v.giveEntries = v := by
  refine giveEntries_of_kept hw hl rfl (settleMarks_of_kept (by rw [hl]; exact List.mem_cons_self) fun x hx => ?_)
  have hxm : x = m := by
    unfold headMark at hx
    rw [he] at hx
    cases hl : e.walk.marks with
    | nil => simp [hl] at hm
    | cons y l =>
      simp only [hl, List.head?_cons, Option.some.injEq] at hm
      simp only [hl, Option.ite_none_right_eq_some, Option.some.injEq] at hx
      rw [← hx.2, hm]
  rw [hxm]
  exact reportTurn_eq_false (.inr (by simp [Mark.need, hn, hp, hq]))

/-! ### The inbox head's OPEN (R52) -/

theorem tooLong_of_needsReport {p : OpenPlan} (h : p.needsReport = true) : ∃ o, p = .tooLong o := by
  cases p with
  | tooLong o => exact ⟨o, rfl⟩
  | _ => cases h

theorem inbox_of_headNeedsReport (h : v.headNeedsReport = true) : ∃ f rest key dir size o,
    v.lpt.inbox = f :: rest ∧ f.body = .openReq key dir size ∧ v.openPlan f key dir size.toNat = .tooLong o := by
  unfold headNeedsReport headPlan at h
  cases hi : v.lpt.inbox with
  | nil => simp [hi] at h
  | cons f rest =>
    cases hb : f.body with
    | openReq key dir size =>
      simp only [hi, hb, Option.any_some] at h
      obtain ⟨o, ho⟩ := tooLong_of_needsReport h
      exact ⟨f, rest, key, dir, size, o, rfl, hb, ho⟩
    | _ => simp [hi, hb] at h

theorem openReady_of_free {o : OfferId} (hc : v.txq.ctrl.length < 16) (ho : v.txq.owed = [])
    (hk : v.txq.line = [] ∨ v.txq.line = [.inboxHead]) (ht : v.reportTurn .inboxHead 1 = true) :
    v.openReady (.tooLong o) = true := by
  have hturn : v.ctrlTurn .inboxHead = true := by
    rcases hk with hk | hk
    · exact ctrlTurn_of_open ⟨hc, ho, hk⟩ _
    · exact ctrlTurn_of_front hc ho hk
  simp [openReady, hturn, ht]

theorem giveEntries_of_inboxHead (hrun : v.runs = true) (hw : v.rpt.stationWaiting = [])
    (hl : v.rpt.line = [.inboxHead]) (hneed : v.headNeedsReport = true) (hc : v.txq.ctrl.length < 16)
    (ho : v.txq.owed = []) (hk : v.txq.line = [] ∨ v.txq.line = [.inboxHead]) (hq : v.rpt.queue.length < 8) :
    exec .openFrame ((v.withReportLine []).withCtrlLine []) = .next v.giveEntries := by
  obtain ⟨f, rest, key, dir, size, o, hi, hb, hp⟩ := inbox_of_headNeedsReport hneed
  have hserve := takeOpen_of_tooLong hi hb hp (openReady_of_free hc ho hk (reportTurn_of_front hw hq (.inr ⟨[], hl⟩)))
  have hown := takeOpen_of_tooLong (t := (v.withReportLine []).withCtrlLine []) (by exact hi) hb (by exact hp)
    (openReady_of_free (by exact hc) (by exact ho) (.inl rfl) (reportTurn_of_front (by exact hw) (by exact hq) (.inl rfl)))
  have hsame := tooLong_of_lines (t := v) o f.src f.tag key (l := []) (k := []) (by simp [hl])
    (by rcases hk with hk | hk <;> simp [hk])
  obtain ⟨hline, hwait⟩ := tooLong_line v o f.src f.tag key
  have hpass : v.passedOver .inboxHead = false := by
    simp [passedOver, hneed, ctrlFull_of_room hc]
  have hgive := giveEntries_of_served hw hl hpass hserve (hline.trans (by simp [hl])) (hwait.trans hw) (.inl rfl)
  have hopen : exec .openFrame ((v.withReportLine []).withCtrlLine []) =
      .next ((v.withReportLine []).withCtrlLine []).takeOpen := by
    have hrun' : ((v.withReportLine []).withCtrlLine []).runs = true := hrun
    simp only [exec, execOpenFrame, hrun', if_true]
  rw [hopen, hown, hgive, hsame]
  rfl

/-! ### A rescan that stands at an offer too small (R64) -/

/-- The rescan goes on where it stands, answers TOO_LONG, and finds nothing behind that an offer fits. -/
theorem giveEntries_of_rescan {pre post : List Deferred} {d : Deferred} {o : OfferId} {x : Offer} {y w : State}
    (hw : v.rpt.stationWaiting = []) (hl : v.rpt.line = [.rescan]) (hat : v.xen.rescanAt = some pre.length)
    (hst : v.sct.station = .online) (hd : v.xen.deferred = pre ++ d :: post) (hdue : v.xen.rescanDue = false)
    (hwaits : v.xen.rescanWaits = false) (hc : v.txq.ctrl.length < 16) (ho : v.txq.owed = [])
    (hk : v.txq.line = [.rescan]) (hq : v.rpt.queue.length < 8) (hm : v.matchOffer d.peer d.dir d.key = some o)
    (hv : v.offer o = some x) (hlong : d.dir = .push ∧ x.size < d.size ∨ d.dir = .pull ∧ d.size < x.size)
    (hy : y = { (v.withReportLine []).withCtrlLine [] with
      xen := { v.xen with deferred := pre ++ post, rescanAt := none } })
    (hwdef : w = (y.enqueued ⟨d.peer, v.sn, false, d.tag, .abort .tooLong⟩ .nobody).reported
      (.served x.orderTag d.peer d.key 0 (.failed .tooLong none)))
    (hno : ∀ z ∈ post, w.matchOffer z.peer z.dir z.key = none) : v.giveEntries = w := by
  obtain ⟨q, hqdef⟩ : ∃ q : State, q = { v with xen := { v.xen with rescanAt := none } } := ⟨_, rfl⟩
  obtain ⟨p, hpdef⟩ : ∃ p : State, p = (({ (v.withReportLine []) with
      xen := { v.xen with deferred := pre ++ post, rescanAt := none } } : State).enqueued
        ⟨d.peer, v.sn, false, d.tag, .abort .tooLong⟩ .nobody).reported
      (.served x.orderTag d.peer d.key 0 (.failed .tooLong none)) := ⟨_, rfl⟩
  have hpw : p.withCtrlLine [] = w := by
    rw [hwdef, hy, hpdef]
    rfl
  have hscan : p.Rescanning := by
    rw [hpdef]
    exact (Rescanning.enqueued (s := { (v.withReportLine []) with
      xen := { v.xen with deferred := pre ++ post, rescanAt := none } }) ⟨hst, hdue, hwaits, rfl, hk, rfl⟩ _ _).reported _
  have hturn : v.reportTurn .rescan 1 = true := reportTurn_of_front hw hq (.inr ⟨[], hl⟩)
  have hserve : v.serveClaim .rescan = rescanFrom (v.xen.deferred.length + 1) pre.length q := by
    have hfull := ctrlFull_of_room hc
    simp only [serveClaim, serveRescan, hat, hst, hfull, hturn, and_self, if_true, hqdef]
  have hctrl : (q.eraseDeferred pre.length).txq.ctrl.length < 16 := by
    rw [hqdef]
    exact hc
  have hanswer : ((q.eraseDeferred pre.length).tooLong o d.peer d.tag d.key).unclaimReport .rescan = p := by
    have hpush : ∀ (u : State) (r : Report), u.rpt.queue.length < 8 → u.pushReport r = u.reported r :=
      fun _ _ h => if_pos h
    have hoffer : (q.eraseDeferred pre.length).offer o = some x := by
      rw [hqdef]
      exact hv
    have hunfold : (q.eraseDeferred pre.length).tooLong o d.peer d.tag d.key =
        ((q.eraseDeferred pre.length).enqueued ⟨d.peer, v.sn, false, d.tag, .abort .tooLong⟩ .nobody).reported
          (.served x.orderTag d.peer d.key 0 (.failed .tooLong none)) := by
      simp only [tooLong, hoffer]
      rw [pushCtrl_of_room hctrl, hpush _ _ (by rw [hqdef]; exact hq), hqdef]
      rfl
    rw [hunfold, eraseDeferred_of_split (post := post) (d := d) (by rw [hqdef]; exact hd), hqdef, hpdef]
    unfold unclaimReport
    simp only [reported, State.enqueued, hl]
    rfl
  have hfuel : v.xen.deferred.length = (pre.length + post.length) + 1 := by
    rw [hd, List.length_append, List.length_cons]
    omega
  have hstep : rescanFrom (v.xen.deferred.length + 1) pre.length q = rescanFrom v.xen.deferred.length pre.length p := by
    rw [rescanFrom_of_tooLong (s := q) (by rw [hqdef]; exact hd) (by rw [hqdef]; exact hm) (by rw [hqdef]; exact hv)
      (by rw [hqdef]; exact ctrlTurn_of_front (by exact hc) (by exact ho) (by exact hk)) hlong
      (by rw [hqdef]; exact hturn), hanswer]
  have hend : rescanFrom v.xen.deferred.length pre.length p = w := by
    rw [hscan.end_of_none (pre := pre) (post := post) (by rw [hpdef]; rfl) (by rw [← hpw] at hno; exact hno)
      (by omega), hpw]
  have hpass : v.passedOver .rescan = false := ctrlFull_of_room hc
  have hwline : w.rpt.line = [] ∧ w.rpt.stationWaiting = [] := by
    rw [hwdef, hy]
    exact ⟨rfl, hw⟩
  exact giveEntries_of_served hw hl hpass ((hserve.trans hstep).trans hend) hwline.1 hwline.2 (.inl rfl)

end State

end Sys2Proof.Machine
end

section
/-!
SUPPORT. The Report Unit's writes, and the report queue entry that a producer word write frees (R152, R153, R155, R158,
R164; logs 9, 13, 40).
-/

namespace Sys2Proof.Machine

theorem StationWait.serves_iff (w : StationWait) (a : Await) : w.serves a = true ↔
    w.cause = .detached ∧ a = .offlineReport ∨ w.cause = .laneCleared ∧ a = .clearReport w.event := by
  obtain ⟨st, cause, event⟩ := w
  cases cause <;> cases a <;> simp [StationWait.serves]

namespace State

/-! ### The writes (R153, R158) -/

theorem exec_reportWriteStart_of_runs {s : State} (h : s.runs = true) :
    exec .reportWriteStart s = .next s.startWrite := by
  simp only [exec, execReportWriteStart, h, if_true]

theorem startWrite_of_idle {s : State} (h : s.rpt.writer = .idle) :
    (s.rpt.status = .due → s.startWrite = s.placeStatus) ∧ (s.rpt.status = .none → s.startWrite = s.startEntry) :=
  ⟨fun hst => by simp only [startWrite, h, hst], fun hst => by simp only [startWrite, h, hst]⟩

theorem startEntry_of_room {s : State} {r : Report} {rest : List Report} (hq : s.rpt.queue = r :: rest)
    (hr : (s.rpt.producer - s.rpt.release).toNat < s.par.reportSize.toNat) : s.startEntry = State.requested
      ⟨.reportEntry, s.par.reportBase.toNat + 16 * (s.rpt.producer.toNat % s.par.reportSize.toNat), 16, r.bytes s.sn⟩
      { s with rpt := { s.rpt with writer := .entry } } := by
  unfold startEntry
  rw [hq]
  exact if_pos hr

theorem startEntry_of_full {s : State} (hr : s.par.reportSize.toNat ≤ (s.rpt.producer - s.rpt.release).toNat) :
    s.startEntry = s := by
  unfold startEntry
  split
  · rfl
  · exact if_neg (Nat.not_lt.mpr hr)

theorem exec_reportEntryWriteDone_of_ending {s : State} {q : Request} (h : s.ending q) (hp : q.purpose = .reportEntry) :
    exec .reportEntryWriteDone s = .next s.entryWritten := by
  have ht : s.transferOf (fun p => p == .reportEntry) = some q := transferOf_of_ending h (by simp [hp])
  simp only [exec, execReportEntryWriteDone, ht, (runs_up h.1).2, if_false]

theorem exec_producerWordWriteDone_of_ending {s : State} {q : Request} (h : s.ending q)
    (hp : q.purpose = .producerWord) : exec .producerWordWriteDone s = .next s.indexWritten := by
  have ht : s.transferOf (fun p => p == .producerWord) = some q := transferOf_of_ending h (by simp [hp])
  simp only [exec, execProducerWordWriteDone, ht, (runs_up h.1).2, if_false]

theorem exec_statusWordWriteDone_of_ending {s : State} {q : Request} (h : s.ending q) (hp : q.purpose = .statusWord) :
    exec .statusWordWriteDone s = .next s.statusWritten := by
  have ht : s.transferOf (fun p => p == .statusWord) = some q := transferOf_of_ending h (by simp [hp])
  simp only [exec, execStatusWordWriteDone, ht, (runs_up h.1).2, if_false]

theorem statusWritten_of_progress {s : State} {further : Bool} (h : s.rpt.status = .inProgress further) :
    s.statusWritten = if further then State.requested
        ⟨.statusWord, s.sct.startBlock.toNat + 0x30, 4,
          [s.sct.station.code, s.sct.faultCause.code, s.sn.setWidth 8, 0]⟩
        { s.portFree with rpt := { s.rpt with status := .inProgress false } }
      else { s.portFree with rpt := { s.rpt with status := .none } } := by
  unfold statusWritten
  rw [h]
  cases further with
  | true => exact (if_pos rfl).symm
  | false => exact (if_neg Bool.false_ne_true).symm

/-! ### The producer word written (R153, R155, R164) -/

/-- The head report has reached the ring: its count, its place in the queue, the writer and REPORT (R153, R155). -/
def reportSent (rest : List Report) (s : State) : State :=
  { s.portFree with rpt := { s.rpt with
    producer := s.rpt.producer + 1, queue := rest, writer := .idle,
    reportPin := s.rpt.producer + 1 != s.rpt.release } }

section
variable {s : State} {r : Report} {rest : List Report} (hq : s.rpt.queue = r :: rest)
include hq

theorem reportSent_eq : s.endRequest.advanceProducer.setReportPin = s.reportSent rest := by
  have htail : s.rpt.queue.tail = rest := by rw [hq, List.tail_cons]
  rw [← htail]
  rfl

theorem faultReported_of_other (hr : r ≠ .station .fault .orderRead) : s.faultReported = false := by
  unfold faultReported
  rw [hq]
  split
  next heq => exact absurd (List.cons.inj heq).1 hr
  next => rfl

theorem indexWritten_of_other (hr : r ≠ .station .fault .orderRead) :
    s.indexWritten = (s.reportSent rest).giveEntries := by
  unfold indexWritten
  rw [faultReported_of_other hq hr, reportSent_eq hq]
  exact if_neg Bool.false_ne_true

theorem indexWritten_of_fault (hst : s.sct.station ≠ .fault) (hr : r = .station .fault .orderRead) :
    s.indexWritten = (s.reportSent rest).ownClear.atStop .orderRead := by
  have hf : s.faultReported = true := by
    unfold faultReported
    rw [hq, hr]
  unfold indexWritten
  rw [hf, reportSent_eq hq]
  exact (if_pos rfl).trans (enterFault_eq (s := s.reportSent rest) hst rfl rfl .orderRead)

/-- STATION(FAULT, ORDER_READ) has reached the ring: the station enters FAULT, behind the lane clear event of a pulse
that is still driven (R164; log 9). -/
theorem indexWritten_enters_fault (hst : s.sct.station ≠ .fault) (hr : r = .station .fault .orderRead) :
    ∃ t : State, s.indexWritten = t ∧ t.sct.station = .fault ∧ t.sct.faultCause = .orderRead ∧
      t.sct.faultPin = true ∧ t.rpt.producer = s.rpt.producer + 1 ∧
      (s.lpt.pins.lcl = false ∨ s.takesClear = false → t.rpt.queue = rest) ∧
      (s.lpt.pins.lcl = true → s.takesClear = true → rest.length < 8 → s.rpt.stationWaiting = [] →
        t.rpt.queue = rest ++ [.station s.sct.station .laneCleared] ∧ ∀ a ∈ s.ord.acks, a.await = .clearPulse →
          ∃ x ∈ t.ord.acks, x.tag = a.tag ∧ x.kind = a.kind ∧ x.due = true) := by
  obtain ⟨a, ha⟩ : ∃ a, a = (s.reportSent rest).ownClear := ⟨_, rfl⟩
  have hkept := StopKept.ownClear (s.reportSent rest)
  refine ⟨a.atStop .orderRead, by rw [indexWritten_of_fault hq hst hr, ha], rfl, rfl, rfl, ?_, fun hquiet => ?_,
    fun hl ht hroom hw => ?_⟩
  · rw [← ha] at hkept
    exact hkept.producer
  · have hsame : a = s.reportSent rest := by
      rw [ha]
      refine if_neg fun hpulse => ?_
      obtain ⟨hl, ht⟩ : s.lpt.pins.lcl = true ∧ s.takesClear = true := hpulse
      simp [hl, ht] at hquiet
    rw [hsame]
    rfl
  · have hclear : (s.reportSent rest).Cleared a := by
      rw [ha, ownClear_of_pulse (s := s.reportSent rest) hl ht]
      exact takeClear_cleared _ hroom hw
    exact ⟨congrArg ReportUnit.queue hclear.rpt, fun x hx hawait => hclear.ack_due hl hx hawait⟩

end

/-! ### The entry handed out (R152) -/

section
variable {v : State}

theorem queueStation_of_room (w : StationWait) (hq : v.rpt.queue.length < 8) :
    v.queueStation w = State.reported (.station w.state w.cause) { v with
      ord := { v.ord with acks := v.ord.acks.map fun a =>
        if w.cause = .detached ∧ a.await = .offlineReport ∨ w.cause = .laneCleared ∧ a.await = .clearReport w.event then
          { a with due := true } else a } } := by
  have hpush : v.pushReport (.station w.state w.cause) = v.reported (.station w.state w.cause) := if_pos hq
  simp only [queueStation, hpush, ackEvent, StationWait.serves_iff]
  rfl

theorem keepsPlace_of_same_head {u : State} {d : ReportClaim} (hu : u.ord.head = v.ord.head) (h : v.keepsPlace d) :
    u.keepsPlace d := by
  cases d with
  | head =>
    obtain ⟨o, ho⟩ := h
    exact ⟨o, hu.trans ho⟩
  | _ => exact h

/-- Whether a claimant other than the head keeps its place depends on no field of the state. -/
theorem keepsPlace_of_not_head {d : ReportClaim} (h : v.keepsPlace d) (hd : d ≠ .head) (u : State) : u.keepsPlace d := by
  cases d with
  | head => exact absurd rfl hd
  | mark _ | release _ => trivial
  | _ => exact h

/-- The oldest due ACK takes the entry. -/
theorem giveEntries_of_acks {others : List ReportClaim} {pre post : List AckEntry} {a : AckEntry}
    (hw : v.rpt.stationWaiting = []) (hl : v.rpt.line = .acks :: others) (hmem : .acks ∉ others)
    (hq : v.rpt.queue.length = 7) (hrest : others = [] ∨ ∃ d more, others = d :: more ∧ v.keepsPlace d)
    (hs : v.ord.acks = pre ++ a :: post) (hd : a.due = true) (hno : ∀ x ∈ pre ++ post, x.due = false) :
    v.giveEntries = State.reported (.ack a.tag a.kind true)
      { v.withReportLine others with ord := { v.ord with acks := pre ++ post } } := by
  have hline : (v.rpt.line.erase .acks).filter (· != .acks) = others := by
    rw [hl, List.erase_cons_head, List.filter_eq_self]
    intro c hc
    rw [bne_iff_ne]
    rintro rfl
    exact hmem hc
  have hserve := settleAcks_of_one hs hd hno (reportTurn_of_front hw (by omega) (.inr ⟨others, hl⟩)) (by omega)
  rw [hline] at hserve
  have hfull : 8 ≤ (v.rpt.queue ++ [Report.ack a.tag a.kind true]).length := by
    rw [List.length_append, hq]
    exact le_rfl
  exact giveEntries_of_served hw hl rfl hserve rfl hw (hrest.imp_right fun ⟨d, more, hcons, hkeep⟩ =>
    ⟨hfull, d, more, hcons, keepsPlace_of_same_head (by exact rfl) hkeep⟩)

/-- A head order that is taken with one report takes the entry (R138). -/
theorem giveEntries_of_head {others : List ReportClaim} {o : OrderRec} {r : Report} (hw : v.rpt.stationWaiting = [])
    (hl : v.rpt.line = .head :: others) (hmem : .head ∉ others) (hq : v.rpt.queue.length = 7)
    (hrest : others = [] ∨ ∃ d more, others = d :: more ∧ v.keepsPlace d) (hh : v.ord.head = .record o .report)
    (ht : v.takesOrders = true) (hf : v.ord.orderFault = false) (hex : v.examine o = v.takeWith o r) :
    v.giveEntries = ((v.withReportLine others).reported r).orderTaken := by
  have hturn : v.reportTurn .head 1 = true := reportTurn_of_front hw (by omega) (.inr ⟨others, hl⟩)
  obtain ⟨hsame, hline⟩ := orderTaken_of_first hl hmem r
  have hserve : v.serveClaim .head = (v.reported r).orderTaken := by
    show v.examineHead = _
    simp only [examineHead, headOrder_of_report hh ht hf hturn, hex]
    exact takeWith_of_turn hturn (by omega)
  have hfull : 8 ≤ (v.rpt.queue ++ [r]).length := by
    rw [List.length_append, hq]
    exact le_rfl
  rw [← hsame]
  refine giveEntries_of_served hw hl rfl hserve hline hw (hrest.imp_right fun ⟨d, more, hcons, hkeep⟩ => ?_)
  refine ⟨hfull, d, more, hcons, keepsPlace_of_not_head hkeep ?_ _⟩
  rintro rfl
  exact hmem (hcons ▸ List.mem_cons_self)

theorem examine_of_no_target {o : OrderRec} (hk : o.kind = 0x05) (ht : v.exchangeTarget o.target = none) :
    v.examine o = v.takeWith o (.ack o.tag .cancel false) := by
  have hkind : o.kindOf = some .cancel := kindOf_of_kind hk
  simp only [examine, hkind, takeCancel, ht]

end

end State

/-- Settles O58: the Report Unit's writes, and who takes the report queue entry that a written report frees. -/
theorem reportPath : Obligations.ReportPath := by
  refine ⟨fun s hrun hidle => ⟨fun hdue => ?_, fun r rest hnone hq => ⟨fun hroom => ?_, fun hfull => ?_⟩⟩,
    fun s q h => ⟨fun hp => ?_, fun r rest hp hq => ⟨fun hr v hv => ?_, fun hr => ?_⟩, fun further hp hst => ?_⟩,
    fun s pre post a hrun hs hd hno ho => ?_⟩
  · rw [State.exec_reportWriteStart_of_runs hrun, (State.startWrite_of_idle hidle).1 hdue]
    rfl
  · rw [State.exec_reportWriteStart_of_runs hrun, (State.startWrite_of_idle hidle).2 hnone,
      State.startEntry_of_room hq hroom]
  · rw [State.exec_reportWriteStart_of_runs hrun, (State.startWrite_of_idle hidle).2 hnone,
      State.startEntry_of_full hfull]
  · exact State.exec_reportEntryWriteDone_of_ending h hp
  · have hexec : exec .producerWordWriteDone s = .next v.giveEntries := by
      rw [State.exec_producerWordWriteDone_of_ending h hp, State.indexWritten_of_other hq hr, hv]
      rfl
    obtain rfl : v = s.reportSent rest := hv
    have hkeeps : ∀ c, s.keepsPlace c → (s.reportSent rest).keepsPlace c := fun _ =>
      State.keepsPlace_of_same_head (by exact rfl)
    have hothers : ∀ {others}, (others = [] ∨ ∃ d more, others = d :: more ∧ s.keepsPlace d) →
        others = [] ∨ ∃ d more, others = d :: more ∧ (s.reportSent rest).keepsPlace d := fun hrest =>
      hrest.imp_right fun ⟨d, more, hcons, hkeep⟩ => ⟨d, more, hcons, hkeeps d hkeep⟩
    rw [hexec]
    refine ⟨fun hw hl => ?_, fun w more hw hlen hl => ?_, fun i others m e hw hl hlen he hm hn hpause => ?_,
      fun c others hw hl hmem hlen hrest u hu => ⟨fun pre post a hc hs hd hno => ?_, fun o why hc hh ht hf =>
        ⟨fun hwhy => ?_, fun hk htarget => ?_⟩⟩,
      fun c u hw hl hu => ⟨fun i e r a why hc he hs ho ha ht hlen => ?_, fun i e m hc he hm hpt hflag hb hlen => ?_,
        fun hc hneed hctrl howed hk hlen => ?_,
        fun pre d post o x y w hc hat hst hdef hdue hwaits hctrl howed hk hlen hm hoff hlong hy hwdef hno => ?_⟩⟩
    · rw [State.giveEntries_of_nobody (by exact hw) (by exact hl)]
    · rw [State.giveEntries_of_station (v := s.reportSent rest) hw hlen
        (hl.imp_right fun ⟨c, others, hline, hkeep⟩ => ⟨c, others, hline, hkeeps c hkeep⟩), State.queueStation_of_room w (by show rest.length < 8; omega)]
      rfl
    · rw [State.giveEntries_of_double_mark (v := s.reportSent rest) hw hl hlen he hm hn hpause]
    · subst hc
      rw [State.giveEntries_of_acks (v := s.reportSent rest) hw hl hmem hlen (hothers hrest) hs hd hno, hu]
      rfl
    · subst hc
      rw [State.giveEntries_of_head (v := s.reportSent rest) hw hl hmem hlen (hothers hrest) hh ht hf
        (State.examine_of_refusal ((State.refusal_eq (s.reportSent rest) o).trans hwhy)), hu]
      rfl
    · subst hc
      rw [State.giveEntries_of_head (v := s.reportSent rest) hw hl hmem hlen (hothers hrest) hh ht hf
        (State.examine_of_no_target hk htarget), hu]
      rfl
    · subst hc
      rw [← State.giveEntries_of_release (v := s.reportSent rest) h.1 hw hl he
        (Exchange.settled_of_outcome hs ho ha ht) hlen, hu]
      rfl
    · subst hc
      rw [← State.giveEntries_of_mark (v := s.reportSent rest) h.1 hw hl he hm hpt hflag hb hlen, hu]
      rfl
    · subst hc
      rw [← State.giveEntries_of_inboxHead (v := s.reportSent rest) h.1 hw hl hneed hctrl howed hk hlen, hu]
      rfl
    · subst hc
      rw [State.giveEntries_of_rescan (v := s.reportSent rest) (y := y) (w := w) hw hl hat hst hdef hdue hwaits hctrl
        howed hk hlen hm hoff hlong (by rw [hy, hu]; rfl) hwdef hno]
  · obtain ⟨t, ht, hfacts⟩ := State.indexWritten_enters_fault hq (State.runs_up h.1).2 hr
    exact ⟨t, by rw [State.exec_producerWordWriteDone_of_ending h hp, ht], hfacts⟩
  · rw [State.exec_statusWordWriteDone_of_ending h hp, State.statusWritten_of_progress hst]
  · obtain ⟨hlen, hw, hl⟩ := ho
    have hexec : exec .dueAckQueued s = .next s.settleAcks := by
      simp only [exec, execDueAckQueued, hrun, if_true]
    have hline : s.withReportLine [] = s := State.withReportLine_of_line hl
    rw [hexec, State.settleAcks_of_one hs hd hno (State.reportTurn_of_open ⟨hlen, hw, hl⟩ _) hlen, hl]
    simp only [List.erase_nil, List.filter_nil, hline]

end Sys2Proof.Machine
end
